-- ==== Sys2Proof/Word.lean ====
section
/-! DEFINITION. The word types of the LH5 decoder core: 32-bit registers and command words, 8-bit
stream and output bytes (00_scope.md R12, 10_state.md R33). -/

namespace Sys2Proof

/-- A 32-bit register of the register window, or a command word (10_state.md R33, 30_encoding.md R150). -/
abbrev Word := BitVec 32

/-- A byte of IN, OUT, WINDOW or STAGE (20_memory.md R100). -/
abbrev Byte := BitVec 8

end Sys2Proof
end

