-- ==== Sys2Proof/Syntax.lean ====
section
/-! DEFINITION. The command set of 30_encoding.md R151: one constructor per row of the opcode table,
each with exactly the operand fields its row lists. -/

namespace Sys2Proof

/-- The T field of SET_LEN, GET_LEN, MAKE_TABLE and GET_TABLE (R150): 0 = C side, 1 = PT side. -/
inductive Side where
  | c
  | pt
  deriving DecidableEq, Repr

/-- The T field of GET_NODE (R155): 0 = LEFT, 1 = RIGHT. -/
inductive Child where
  | left
  | right
  deriving DecidableEq, Repr

/-- A command. `n` is CMD[12:8], `t` is CMD[13], `b` is CMD[31:16] (R150, R151). The fields hold any
value their bits can; which values are legal is `WellFormed.lean` and `Machine/Operands.lean`. -/
inductive Instr where
  | init
  | reset
  | decodeChunk (b : BitVec 16)
  | decodeAll
  | peek (n : BitVec 5)
  | consume (n : BitVec 5)
  | getBits (n : BitVec 5)
  | setLen (t : Side) (n : BitVec 5) (b : BitVec 16)
  | getLen (t : Side) (b : BitVec 16)
  | makeTable (t : Side) (b : BitVec 16)
  | getTable (t : Side) (b : BitVec 16)
  | getNode (t : Child) (b : BitVec 16)
  | readMetaLen
  | readCLen
  | readPLen
  | readBlockHeader
  | decodeC
  | decodeP
  | putLiteral (b : BitVec 16)
  | startMatch (b : BitVec 16)
  | copy (b : BitVec 16)
  deriving DecidableEq, Repr

end Sys2Proof
end

