-- ==== Sys2Proof/Decode.lean ====
section
/-! DEFINITION. The command word of 30_encoding.md R150 to R154: the decoder, total on every 32-bit word,
which rejects an unassigned opcode and a nonzero reserved or unused field by name, and the encoder. -/

namespace Sys2Proof

/-- Why a command word is no command (30_encoding.md R153). -/
inductive DecodeError where
  /-- OP is not in the opcode map of R151. -/
  | illegalOpcode
  /-- CMD[15:14] is nonzero, or a field the command does not use is nonzero. -/
  | reservedField
  deriving DecidableEq, Repr

/-- CMD[7:0]. -/
def opField (w : Word) : BitVec 8 := w.extractLsb' 0 8
/-- CMD[12:8]. -/
def nField (w : Word) : BitVec 5 := w.extractLsb' 8 5
/-- CMD[13]. -/
def tField (w : Word) : Bool := w.getLsbD 13
/-- CMD[15:14], reserved. -/
def zField (w : Word) : BitVec 2 := w.extractLsb' 14 2
/-- CMD[31:16]. -/
def bField (w : Word) : BitVec 16 := w.extractLsb' 16 16

/-- T of the table commands: 0 = C, 1 = PT (R150). -/
def sideOf (t : Bool) : Side := if t then .pt else .c
/-- T of GET_NODE: 0 = LEFT, 1 = RIGHT (R155). -/
def childOf (t : Bool) : Child := if t then .right else .left
/-- The bit T holds for a table side. -/
def sideBit : Side → Bool
  | .c => false
  | .pt => true
/-- The bit T holds for a child. -/
def childBit : Child → Bool
  | .left => false
  | .right => true

/-- Answers `i` if Z = 0 and every field the command does not use is 0 (R153); `useN`, `useT`, `useB` are the
"fields" column of R151. -/
def ifUnusedZero (w : Word) (useN useT useB : Bool) (i : Instr) : Except DecodeError Instr :=
  if zField w = 0#2 && (useN || nField w = 0#5) && (useT || !tField w) && (useB || bField w = 0#16) then .ok i
  else .error .reservedField

/-- The opcode map of R151. -/
def decode (w : Word) : Except DecodeError Instr :=
  match opField w with
  | 0x01#8 => ifUnusedZero w false false false .init
  | 0x02#8 => ifUnusedZero w false false false .reset
  | 0x03#8 => ifUnusedZero w false false true (.decodeChunk (bField w))
  | 0x04#8 => ifUnusedZero w false false false .decodeAll
  | 0x10#8 => ifUnusedZero w true false false (.peek (nField w))
  | 0x11#8 => ifUnusedZero w true false false (.consume (nField w))
  | 0x12#8 => ifUnusedZero w true false false (.getBits (nField w))
  | 0x20#8 => ifUnusedZero w true true true (.setLen (sideOf (tField w)) (nField w) (bField w))
  | 0x21#8 => ifUnusedZero w false true true (.getLen (sideOf (tField w)) (bField w))
  | 0x22#8 => ifUnusedZero w false true true (.makeTable (sideOf (tField w)) (bField w))
  | 0x23#8 => ifUnusedZero w false true true (.getTable (sideOf (tField w)) (bField w))
  | 0x24#8 => ifUnusedZero w false true true (.getNode (childOf (tField w)) (bField w))
  | 0x30#8 => ifUnusedZero w false false false .readMetaLen
  | 0x31#8 => ifUnusedZero w false false false .readCLen
  | 0x32#8 => ifUnusedZero w false false false .readPLen
  | 0x33#8 => ifUnusedZero w false false false .readBlockHeader
  | 0x34#8 => ifUnusedZero w false false false .decodeC
  | 0x35#8 => ifUnusedZero w false false false .decodeP
  | 0x40#8 => ifUnusedZero w false false true (.putLiteral (bField w))
  | 0x41#8 => ifUnusedZero w false false true (.startMatch (bField w))
  | 0x42#8 => ifUnusedZero w false false true (.copy (bField w))
  | _ => .error .illegalOpcode

/-- `CMD = (B << 16) | (T << 13) | (N << 8) | OP`, Z = 0 (R150, R154). -/
def packWord (op : BitVec 8) (n : BitVec 5) (t : Bool) (b : BitVec 16) : Word :=
  b ++ (0#2 ++ (BitVec.ofBool t ++ (n ++ op)))

/-- The command word of an instruction (R151, R154). -/
def encode : Instr → Word
  | .init => packWord 0x01#8 0#5 false 0#16
  | .reset => packWord 0x02#8 0#5 false 0#16
  | .decodeChunk b => packWord 0x03#8 0#5 false b
  | .decodeAll => packWord 0x04#8 0#5 false 0#16
  | .peek n => packWord 0x10#8 n false 0#16
  | .consume n => packWord 0x11#8 n false 0#16
  | .getBits n => packWord 0x12#8 n false 0#16
  | .setLen t n b => packWord 0x20#8 n (sideBit t) b
  | .getLen t b => packWord 0x21#8 0#5 (sideBit t) b
  | .makeTable t b => packWord 0x22#8 0#5 (sideBit t) b
  | .getTable t b => packWord 0x23#8 0#5 (sideBit t) b
  | .getNode t b => packWord 0x24#8 0#5 (childBit t) b
  | .readMetaLen => packWord 0x30#8 0#5 false 0#16
  | .readCLen => packWord 0x31#8 0#5 false 0#16
  | .readPLen => packWord 0x32#8 0#5 false 0#16
  | .readBlockHeader => packWord 0x33#8 0#5 false 0#16
  | .decodeC => packWord 0x34#8 0#5 false 0#16
  | .decodeP => packWord 0x35#8 0#5 false 0#16
  | .putLiteral b => packWord 0x40#8 0#5 false b
  | .startMatch b => packWord 0x41#8 0#5 false b
  | .copy b => packWord 0x42#8 0#5 false b

/-- The instruction the decoder reads from an opcode-table word of `nbits` bits whose value is `w`; every command
is one 32-bit word (R150), and bits above `nbits` are 0. -/
def decodeTableWord (nbits w : Nat) : Option Instr :=
  match decode ((BitVec.ofNat nbits w).setWidth 32) with
  | .ok i => some i
  | .error _ => none

end Sys2Proof
end

