-- ==== Sys2Proof/Config.lean ====
section
/-! DEFINITION. What an implementation of the core fixes (the four parameters of 00_scope.md R11, which a
model takes as arguments) and the free values: opaque constants, so that no claim can lean on them. -/

namespace Sys2Proof

/-- WINDOW_INIT (00_scope.md R11, 43_window_expander.md R350): what a read of a window entry that was not
written since INIT does. -/
inductive WindowInit where
  | fault
  | zero
  | any
  deriving DecidableEq, Repr

/-- BLOCKCNT_BITS (00_scope.md R11): the width of the block counter. -/
inductive CounterWidth where
  | bits16
  | bits32
  deriving DecidableEq, Repr

/-- The number of bits of the block counter. -/
def CounterWidth.bits : CounterWidth → Nat
  | .bits16 => 16
  | .bits32 => 32

/-- The parameters of 00_scope.md R11. -/
structure Params where
  stageCap : Nat
  blockCntBits : CounterWidth
  windowInit : WindowInit
  chunk : Nat
  deriving DecidableEq, Repr

/-- The ranges of 00_scope.md R11: STAGE_CAP 1..65535, CHUNK 1..8192. -/
def Params.wf (p : Params) : Bool :=
  decide (1 ≤ p.stageCap) && decide (p.stageCap ≤ 65535) && decide (1 ≤ p.chunk) && decide (p.chunk ≤ 8192)

/-- The spec's defaults (R11). STAGE_CAP has none; 4064 is the value 95_test_vectors.md uses
(DESIGN CHOICE, log entry 2). -/
def Params.default : Params :=
  { stageCap := 4064, blockCntBits := .bits16, windowInit := .fault, chunk := 8192 }

/-- Free value: the byte an IN offset holds that the host placed nothing at (log entry 4). -/
opaque Config.unplacedIn : Nat → BitVec 8

/-- Free value: draw number k of a 10-bit table or node entry that is unspecified when GET_TABLE or
GET_NODE reads it (93_implementation_defined.md M15, log entry 6). -/
opaque Config.drawEntry : Nat → BitVec 10

/-- Free value: a table or node entry, by its index, that a lookup or a build would find unspecified.
No reachable state reads one (70_reset_and_hazards.md R500, log entry 6). -/
opaque Config.unspecifiedEntry : Nat → BitVec 10

/-- Free value: draw number k of a byte: a window entry under WINDOW_INIT = ANY (43_window_expander.md R350,
log entry 7) and an OUT byte the host reads that holds no known value (20_memory.md R121, log entry 5). -/
opaque Config.drawByte : Nat → BitVec 8

/-- Free value: draw number k of a number that a register field may hold while BUSY = 1
(93_implementation_defined.md M20, log entry 9). -/
opaque Config.drawWord : Nat → BitVec 32

/-- Free value: draw number k of one bit: which of two values a register field holds while BUSY = 1, and whether
STATUS.OVR is left set by a write dropped during a command that clears OVR (log entry 9). -/
opaque Config.drawBit : Nat → Bool

end Sys2Proof
end

