-- ==== Sys2Proof/Machine/State.lean ====
section
/-! DEFINITION. The state of the core (10_state.md), as plain data grouped by component: the host-visible
registers, the latched configuration, the BitReader, the block and table state, the WindowExpander, the two
host buffers IN and OUT (20_memory.md R100), and the host's moves still to come. Memories and internal arrays are
lists of (index, entry) pairs with strictly rising indexes; an entry that is not listed holds no known value
("unspecified", 70_reset_and_hazards.md R500), except in the length arrays, where it is 0. -/

namespace Sys2Proof.Machine

/-- IN, OUT or WINDOW: (offset, byte) pairs, offsets strictly rising; an unlisted offset holds no known byte. -/
abbrev Memory := List Host.Cell

/-- An internal array of w-bit entries: (index, entry) pairs, indexes strictly rising. -/
abbrev Entries (w : Nat) := List (Nat × BitVec w)

/-- PT_KIND (10_state.md R51): what PT_TABLE and PT_LEN hold. Code 3 is never written. -/
inductive PtKind where
  | unbuilt
  | metaList
  | position
  deriving DecidableEq, Repr

/-- The failure causes of 60_exceptions.md R453. -/
inductive FailCause where
  | badTable
  | countOverflow
  | runOverflow
  | lengthOverflow
  | staleNode
  | unwrittenWindow
  deriving DecidableEq, Repr

/-- The rejection causes of 60_exceptions.md R454. -/
inductive ErrCause where
  | illegalOpcode
  | reservedField
  | illegalOperand
  | notReady
  | failed
  | outputFull
  | matchPending
  | tableMismatch
  deriving DecidableEq, Repr

/-- A command in flight: STATUS.BUSY = 1 from its acceptance to its completion (60_exceptions.md R450).
`dropped` records that a host write was dropped meanwhile (10_state.md R35; log entry 9). -/
structure Running where
  word : Word
  dropped : Bool
  deriving DecidableEq, Repr

/-- The host-written registers of the register window and RESULT (10_state.md R33, R36, R38). -/
structure HostRegs where
  inLen : Word
  outLen : Word
  outCap : Word
  arg : Word
  result : Word
  deriving DecidableEq, Repr

/-- The stored fields of STATUS and FAIL_INFO (10_state.md R37, R39). BUSY is `running.isSome`; DONE, MATCH_PENDING
and NEED_BLOCK hold no storage and are computed in Machine/Flags.lean. -/
structure StatusRegs where
  running : Option Running
  ready : Bool
  fail : Bool
  err : Bool
  ovr : Bool
  failCause : BitVec 8
  errCause : BitVec 8
  failTable : BitVec 4
  failDetail : BitVec 24
  deriving DecidableEq, Repr

/-- L_IN_LEN, L_OUT_LEN, L_OUT_CAP (10_state.md R40). -/
structure Latched where
  inLen : Word
  outLen : Word
  outCap : Word
  deriving DecidableEq, Repr

/-- The BitReader (10_state.md R42 to R46). STAGE_LEN is the length of `stage`, the last batch read; `bitpos` is the
model-only cursor BITPOS. -/
structure BitReader where
  bitbuf : BitVec 16
  subbitbuf : Byte
  bitcount : BitVec 4
  stage : List Byte
  stageIdx : BitVec 16
  inCursor : Word
  bitpos : Nat
  deriving DecidableEq, Repr

/-- Block and table state (10_state.md R47 to R51). BLOCKSIZE is kept zero-extended to 32 bits. `ptFirst` is the
model's own: nchar of the PT side's last build, kept when PT_NCHAR is cleared (log entry 6). -/
structure Tables where
  blockSize : Word
  cLen : Entries 5
  ptLen : Entries 5
  cTable : Entries 10
  ptTable : Entries 10
  left : Entries 10
  right : Entries 10
  cBuilt : Bool
  ptKind : PtKind
  ptNchar : BitVec 5
  cAvail : BitVec 11
  ptAvail : BitVec 11
  ptFirst : BitVec 5
  deriving DecidableEq, Repr

/-- The WindowExpander (10_state.md R52 to R55). -/
structure Expander where
  window : Memory
  pos : BitVec 13
  produced : Word
  matchSrc : BitVec 13
  matchRem : BitVec 9
  deriving DecidableEq, Repr

/-- A move of the host or of the platform (00_scope.md R19, 30_encoding.md R156, 70_reset_and_hazards.md R500 to R514). -/
inductive HostOp where
  /-- `WRITE`: an aligned 32-bit store to a register; a command written to CMD is followed by `POLL` (R156). -/
  | write (off : BitVec 8) (v : Word)
  /-- A command word stored to CMD without the `POLL`: an accepted command is left in flight. -/
  | start (w : Word)
  /-- `POLL`: the host waits until STATUS.BUSY = 0. -/
  | poll
  /-- `READ`: an aligned 32-bit load of a register. -/
  | read (off : BitVec 8)
  /-- The platform's reset input. -/
  | platformReset
  /-- The host places a byte of the payload in IN. -/
  | placeIn (off : Word) (b : Byte)
  /-- The host reads a byte of its IN buffer. -/
  | readIn (off : Word)
  /-- The host writes a byte of its OUT buffer. -/
  | writeOut (off : Word) (b : Byte)
  /-- The host reads a byte of its OUT buffer. -/
  | readOut (off : Word)
  deriving DecidableEq, Repr

/-- The core, its two buffers and the host's pending moves. `cfg` is constant over steps. `hostOps`, `hostData` and
`draws` are the model's own: the host's moves oldest first, the value the host's last read returned, and the number of
free values drawn so far (log entries 1, 8). -/
structure State where
  cfg : Params
  regs : HostRegs
  status : StatusRegs
  lat : Latched
  bits : BitReader
  tabs : Tables
  win : Expander
  inMem : Memory
  outMem : Memory
  hostOps : List HostOp
  hostData : Word
  draws : Nat
  deriving DecidableEq, Repr

/-- The core has no faults: no address faults (20_memory.md R113), no traps (60_exceptions.md R456). A rejected or failed
command is a next state (60_exceptions.md R467). No step raises one, so the type is empty. -/
inductive Fault where
  deriving DecidableEq, Repr

/-- What a step has no meaning for. Only host moves that break a host duty are refused (93_implementation_defined.md
M16); no command is. -/
inductive Refusal where
  /-- An instruction that has no meaning yet; raised by exec's arms only. Safe. -/
  | notModelled (mnemonic : String)
  /-- A register access at an offset that is no multiple of 4 (20_memory.md R106); raised by `hostMove`. Safe. -/
  | unalignedRegisterAccess
  /-- The host touches IN or OUT while BUSY (00_scope.md R20, 20_memory.md R115); raised by `hostMove`. Safe. -/
  | bufferAccessWhileBusy
  /-- The host changes IN between INIT and the end of the decode (70_reset_and_hazards.md R513); raised by `hostMove`. Safe. -/
  | inChangedDuringDecode
  /-- The host writes OUT below L_OUT_CAP during a decode (70_reset_and_hazards.md R514); raised by `hostMove`. Safe. -/
  | outWrittenDuringDecode
  deriving DecidableEq, Repr

/-- The outcome of a command or of a step. -/
abbrev Outcome := Host.Outcome State Fault Refusal

/-- The machine right after reset (70_reset_and_hazards.md R500): every stored register 0, the length arrays all 0,
every other array unspecified, the buffers unplaced, no host move pending. BITPOS, `ptFirst`, `hostData` and `draws` are
0 by log entry 3, the parameters those of R11 (log entry 2). -/
def State.reset : State where
  cfg := Params.default
  regs := { inLen := 0, outLen := 0, outCap := 0, arg := 0, result := 0 }
  status :=
    { running := none, ready := false, fail := false, err := false, ovr := false
      failCause := 0, errCause := 0, failTable := 0, failDetail := 0 }
  lat := { inLen := 0, outLen := 0, outCap := 0 }
  bits :=
    { bitbuf := 0, subbitbuf := 0, bitcount := 0, stage := [], stageIdx := 0, inCursor := 0, bitpos := 0 }
  tabs :=
    { blockSize := 0, cLen := [], ptLen := [], cTable := [], ptTable := [], left := [], right := []
      cBuilt := false, ptKind := .unbuilt, ptNchar := 0, cAvail := 0, ptAvail := 0, ptFirst := 0 }
  win := { window := [], pos := 0, produced := 0, matchSrc := 0, matchRem := 0 }
  inMem := []
  outMem := []
  hostOps := []
  hostData := 0
  draws := 0

end Sys2Proof.Machine
end

