-- ==== Sys2Proof/Machine/Cells.lean ====
section
/-! DEFINITION. Reading and writing (index, entry) lists: the one place where memories and internal arrays are read
and written (00_scope.md R15, R16). -/

namespace Sys2Proof.Machine

/-- The entry listed at index `i`, or none when it holds no known value. -/
def readCell {α : Type} : List (Nat × α) → Nat → Option α
  | [], _ => none
  | (k, x) :: rest, i => if k = i then some x else readCell rest i

/-- Writes one entry, keeping the indexes rising. -/
def writeCell {α : Type} : List (Nat × α) → Nat → α → List (Nat × α)
  | [], i, x => [(i, x)]
  | (k, y) :: rest, i, x =>
    if k < i then (k, y) :: writeCell rest i x
    else if k = i then (i, x) :: rest
    else (i, x) :: (k, y) :: rest

/-- Forgets the entries at indexes `lo ≤ i < hi`: they hold no known value any more. -/
def dropRange {α : Type} (l : List (Nat × α)) (lo hi : Nat) : List (Nat × α) :=
  l.filter fun c => decide (c.1 < lo) || decide (hi ≤ c.1)

/-- `n` entries of value `x` at indexes `lo, lo + 1, …`. -/
def constRun {α : Type} (x : α) : Nat → Nat → List (Nat × α)
  | _, 0 => []
  | lo, n + 1 => (lo, x) :: constRun x (lo + 1) n

/-- Writes `x` to every index `lo ≤ i < hi` ("for i in lo .. hi-1: A[i] <- x"). -/
def fillRange {α : Type} (l : List (Nat × α)) (lo hi : Nat) (x : α) : List (Nat × α) :=
  l.filter (fun c => decide (c.1 < lo)) ++ (constRun x lo (hi - lo) ++ l.filter fun c => decide (lo ≤ c.1) && decide (hi ≤ c.1))

/-- Indexes strictly rising: every index of the list is above the one before it. -/
def rising {α : Type} : List (Nat × α) → Bool
  | [] => true
  | [_] => true
  | (i, _) :: (j, y) :: rest => decide (i < j) && rising ((j, y) :: rest)

/-- The canonical form of a memory. An unlisted offset holds no known byte, so no listed entry repeats it. -/
def Memory.wf (m : Memory) : Bool := rising m

/-- Reading one byte of a memory; none where it holds no known byte. -/
def Memory.read (m : Memory) (off : Nat) : Option Byte := readCell m off

/-- Writing one byte of a memory. -/
def Memory.write (m : Memory) (off : Nat) (b : Byte) : Memory := writeCell m off b

/-- A length-array entry (10_state.md R48): an unlisted entry is 0. -/
def lenAt (l : Entries 5) (i : Nat) : BitVec 5 := (readCell l i).getD 0

/-- Writes a length-array entry; 0 is kept by not listing it. -/
def setLenAt (l : Entries 5) (i : Nat) (x : BitVec 5) : Entries 5 :=
  if x = 0 then dropRange l i (i + 1) else writeCell l i x

/-- "for i in lo .. hi-1: LEN[i] <- 0". -/
def zeroLens (l : Entries 5) (lo hi : Nat) : Entries 5 := dropRange l lo hi

/-- LEN[0 .. n-1] as numbers, symbol 0 first. -/
def lensUpTo (l : Entries 5) (n : Nat) : List Nat := (List.range n).map fun i => (lenAt l i).toNat

/-- A table or node entry as the core reads it; an entry that holds no known value reads as a free value. -/
def entryAt (l : Entries 10) (i : Nat) : BitVec 10 := (readCell l i).getD (Config.unspecifiedEntry i)

end Sys2Proof.Machine
end

