-- ==== Sys2Proof/Machine/Flags.lean ====
section
/-! DEFINITION. The status view of the core: the cause codes of 60_exceptions.md R453 and R454, the combinational
bits and the packed STATUS register of 10_state.md R37. -/

namespace Sys2Proof.Machine

/-- STATUS.FAIL_CAUSE codes (60_exceptions.md R453). -/
def FailCause.code : FailCause → BitVec 8
  | .badTable => 0x01#8
  | .countOverflow => 0x02#8
  | .runOverflow => 0x03#8
  | .lengthOverflow => 0x04#8
  | .staleNode => 0x05#8
  | .unwrittenWindow => 0x06#8

/-- STATUS.ERR_CAUSE codes (60_exceptions.md R454). -/
def ErrCause.code : ErrCause → BitVec 8
  | .illegalOpcode => 0x01#8
  | .reservedField => 0x02#8
  | .illegalOperand => 0x03#8
  | .notReady => 0x04#8
  | .failed => 0x05#8
  | .outputFull => 0x06#8
  | .matchPending => 0x07#8
  | .tableMismatch => 0x08#8

/-- PT_KIND codes (10_state.md R51). -/
def PtKind.code : PtKind → BitVec 2
  | .unbuilt => 0#2
  | .metaList => 1#2
  | .position => 2#2

/-- STATUS.BUSY: a command is executing. -/
def busyBit (s : State) : Bool := s.status.running.isSome

/-- STATUS.DONE: READY = 1 and FAIL = 0 and PRODUCED = L_OUT_LEN. -/
def doneBit (s : State) : Bool :=
  s.status.ready && !s.status.fail && decide (s.win.produced = s.lat.outLen)

/-- STATUS.MATCH_PENDING: MATCH_REM ≠ 0. -/
def matchPendingBit (s : State) : Bool := decide (s.win.matchRem ≠ 0#9)

/-- STATUS.NEED_BLOCK: BLOCKSIZE = 0. -/
def needBlockBit (s : State) : Bool := decide (s.tabs.blockSize = 0#32)

/-- STATUS as the host reads it (10_state.md R37): [31:24] 0, ERR_CAUSE, FAIL_CAUSE, then bits 7..0. -/
def statusWord (s : State) : Word :=
  0#8 ++ (s.status.errCause ++ (s.status.failCause ++
    (BitVec.ofBool (needBlockBit s) ++ (BitVec.ofBool (matchPendingBit s) ++
    (BitVec.ofBool s.status.ovr ++ (BitVec.ofBool s.status.err ++
    (BitVec.ofBool s.status.fail ++ (BitVec.ofBool (doneBit s) ++
    (BitVec.ofBool s.status.ready ++ BitVec.ofBool (busyBit s))))))))))

/-- A decode is in progress: from INIT until DONE or FAIL (70_reset_and_hazards.md R513). -/
def decodeActive (s : State) : Bool := s.status.ready && !s.status.fail && !doneBit s

end Sys2Proof.Machine
end

