-- ==== Sys2Proof/Machine/Operands.lean ====
section
/-! DEFINITION. Operand assembly and legality (30_encoding.md R151, R152), as every command's precheck 6 of
60_exceptions.md R455 uses them. -/

namespace Sys2Proof.Machine

/-- PEEK, CONSUME, GETBITS, SET_LEN: N ≤ 16. -/
def bitCountLegal (n : BitVec 5) : Bool := decide (n.toNat ≤ 16)

/-- SET_LEN, GET_LEN: B < 510 if T = 0, B < 19 if T = 1. -/
def lenIndexLegal (t : Side) (b : BitVec 16) : Bool :=
  match t with
  | .c => decide (b.toNat < 510)
  | .pt => decide (b.toNat < 19)

/-- MAKE_TABLE: B = 510 if T = 0; B = 19 or B = 14 if T = 1. -/
def symbolCountLegal (t : Side) (b : BitVec 16) : Bool :=
  match t with
  | .c => decide (b.toNat = 510)
  | .pt => decide (b.toNat = 19) || decide (b.toNat = 14)

/-- GET_TABLE: B < 4096 if T = 0, B < 256 if T = 1. -/
def tableIndexLegal (t : Side) (b : BitVec 16) : Bool :=
  match t with
  | .c => decide (b.toNat < 4096)
  | .pt => decide (b.toNat < 256)

/-- GET_NODE: B < 1019. -/
def nodeIdLegal (b : BitVec 16) : Bool := decide (b.toNat < 1019)

/-- DECODE_CHUNK: 1 ≤ B ≤ 8192. -/
def chunkCountLegal (b : BitVec 16) : Bool := decide (1 ≤ b.toNat) && decide (b.toNat ≤ 8192)

/-- PUT_LITERAL: B ≤ 255. -/
def literalLegal (b : BitVec 16) : Bool := decide (b.toNat ≤ 255)

/-- START_MATCH's length is ARG[15:0]; ARG[31:16] is ignored (R152). -/
def matchLength (s : State) : Nat := (s.regs.arg.extractLsb' 0 16).toNat

/-- START_MATCH: B ≤ 8191 and 3 ≤ ARG[15:0] ≤ 256. -/
def matchLegal (b : BitVec 16) (s : State) : Bool :=
  decide (b.toNat ≤ 8191) && decide (3 ≤ matchLength s) && decide (matchLength s ≤ 256)

/-- COPY: B ≥ 1. -/
def copyCountLegal (b : BitVec 16) : Bool := decide (1 ≤ b.toNat)

/-- Output bytes the decode still has to produce: L_OUT_LEN − PRODUCED. -/
def outRemaining (s : State) : Nat := s.lat.outLen.toNat - s.win.produced.toNat

end Sys2Proof.Machine
end

