-- ==== Sys2Proof/Machine/Ops.lean ====
section
/-! DEFINITION. How a command ends (60_exceptions.md): the outcome primitives reject, fail and result of
00_scope.md R18, the prechecks of R455 in their order, and the platform reset. The core has no traps and no return
from one (R456, R457): `failWith` is what stands in their place. -/

namespace Sys2Proof.Machine

/-- What fail(CAUSE, TABLE, DETAIL) records (60_exceptions.md R452). -/
structure Failure where
  cause : FailCause
  table : BitVec 4
  detail : BitVec 24
  deriving DecidableEq, Repr

/-- The course of a running command: it goes on with a value, or it stops at a failing step. Either way the state holds every
earlier step's effect (60_exceptions.md R452). -/
inductive Flow (α : Type) where
  | ok (a : α) (s : State)
  | failed (f : Failure) (s : State)
  deriving Repr

/-- The next step of a command runs only if the one before did not fail (00_scope.md R18). -/
def Flow.andThen {α β : Type} (x : Flow α) (k : α → State → Flow β) : Flow β :=
  match x with
  | .ok a s => k a s
  | .failed f s => .failed f s

/-- The state a flow ends in. -/
def Flow.state {α : Type} : Flow α → State
  | .ok _ s => s
  | .failed _ s => s

/-- A host write while BUSY: no register changes, STATUS.OVR is set (10_state.md R35). -/
def dropWrite (s : State) : State :=
  { s with status :=
    { s.status with ovr := true, running := s.status.running.map fun r => { r with dropped := true } } }

/-- reject(CAUSE): ERR and ERR_CAUSE are set and nothing else changes (60_exceptions.md R451). -/
def reject (c : ErrCause) (s : State) : State :=
  { s with status := { s.status with err := true, errCause := c.code } }

/-- Acceptance clears ERR and ERR_CAUSE before the command runs (60_exceptions.md R451). -/
def accept (s : State) : State :=
  { s with status := { s.status with err := false, errCause := 0 } }

/-- OUT bytes below `min(PRODUCED, L_OUT_CAP)` become any value: they are forgotten (20_memory.md R121). -/
def forgetOutput (s : State) : State :=
  { s with outMem := dropRange s.outMem 0 (min s.win.produced.toNat s.lat.outCap.toNat) }

/-- fail(CAUSE, TABLE, DETAIL): FAIL, FAIL_CAUSE and FAIL_INFO are set, RESULT keeps its value, and the OUT bytes
produced so far are any value (60_exceptions.md R452, 20_memory.md R121). -/
def failWith (f : Failure) (s : State) : State :=
  { forgetOutput s with status :=
    { s.status with fail := true, failCause := f.cause.code, failTable := f.table, failDetail := f.detail } }

/-- result(v) (00_scope.md R18). -/
def setResult (v : Word) (s : State) : State := { s with regs := { s.regs with result := v } }

/-- A command's end: it completes, with a RESULT if it returns one, or it fails (60_exceptions.md R450). -/
def finish : Flow (Option Word) → State
  | .ok (some v) s => setResult v s
  | .ok none s => s
  | .failed f s => failWith f s

/-- Which of READY and FAIL a command needs (60_exceptions.md R455 steps 4 and 5). -/
inductive Gate where
  /-- INIT, RESET: accepted in every state. -/
  | always
  /-- GET_LEN, GET_TABLE, GET_NODE: need READY = 1, accepted after a failure. -/
  | inspect
  /-- Every other command: needs READY = 1 and FAIL = 0. -/
  | working
  deriving DecidableEq, Repr

/-- Steps 4 to 7 of 60_exceptions.md R455, first that applies: NOT_READY, FAILED, ILLEGAL_OPERAND, then the command's
own state precondition. -/
def precheck (g : Gate) (legal : Bool) (pre : Option ErrCause) (s : State) : Option ErrCause :=
  if g ≠ .always && !s.status.ready then some .notReady
  else if g = .working && s.status.fail then some .failed
  else if !legal then some .illegalOperand
  else pre

/-- One command from its CMD write to its end (60_exceptions.md R450, R455): dropped while BUSY, rejected with nothing
changed but ERR and ERR_CAUSE, or accepted and run to its end in one step (00_scope.md R20). -/
def runCommand (g : Gate) (legal : Bool) (pre : Option ErrCause) (body : State → Flow (Option Word)) (s : State) :
    State :=
  if busyBit s then dropWrite s
  else
    match precheck g legal pre s with
    | some c => reject c s
    | none => finish (body (accept s))

/-- The platform reset (70_reset_and_hazards.md R500): every register and field takes its reset value and the arrays'
contents are unspecified. The host's own things stay: the parameters, the buffers, the host's moves, what the host last
read, and the count of free values drawn. -/
def coldReset (s : State) : State :=
  { State.reset with
    cfg := s.cfg, inMem := s.inMem, outMem := s.outMem
    hostOps := s.hostOps, hostData := s.hostData, draws := s.draws }

end Sys2Proof.Machine
end

