-- ==== Sys2Proof/Machine/BitReader.lean ====
section
/-! DEFINITION. The BitReader of 40_bitreader.md: byte fetch, shift-in, the primitives PEEK, CONSUME and GETBITS, and the
meanings of the three commands that expose them. -/

namespace Sys2Proof.Machine

/-- What the BitReader reads beside its own registers: IN, L_IN_LEN and STAGE_CAP. -/
structure Source where
  mem : Memory
  len : Nat
  cap : Nat

/-- The source of a state. -/
def sourceOf (s : State) : Source := { mem := s.inMem, len := s.lat.inLen.toNat, cap := s.cfg.stageCap }

/-- MemRead(IN, off, 1) (00_scope.md R16): the byte the host placed, or a free value where it placed none. -/
def Source.byte (src : Source) (off : Nat) : Byte := (src.mem.read off).getD (Config.unplacedIn off)

/-- The next batch: `k` consecutive IN bytes from offset `at_`. -/
def Source.batch (src : Source) (at_ k : Nat) : List Byte := (List.range k).map fun t => src.byte (at_ + t)

/-- The refill of FETCH_BYTE, done only when the staging queue is empty (R200): a batch of
min(STAGE_CAP, L_IN_LEN − IN_CURSOR) bytes. -/
def refill (src : Source) (b : BitReader) : BitReader :=
  if b.stageIdx.toNat = b.stage.length then
    let k := min src.cap (src.len - b.inCursor.toNat)
    { b with
      stage := src.batch b.inCursor.toNat k
      stageIdx := 0
      inCursor := b.inCursor + BitVec.ofNat 32 k }
  else b

/-- FETCH_BYTE (R200): the next input byte, or 0 once the input is exhausted. -/
def fetchByte (src : Source) (b : BitReader) : Byte × BitReader :=
  let b := refill src b
  match b.stage[b.stageIdx.toNat]? with
  | some x => (x, { b with stageIdx := b.stageIdx + 1 })
  | none => (0, b)

/-- The `while m > BITCOUNT` loop of SHIFT_IN (R202); answers the remaining m. `fuel` bounds the passes: every pass but
the first takes 8 off m. -/
def shiftLoop (src : Source) : Nat → Nat → BitReader → Nat × BitReader
  | 0, m, b => (m, b)
  | fuel + 1, m, b =>
    if b.bitcount.toNat < m then
      let m' := m - b.bitcount.toNat
      let buf := b.bitbuf ||| (b.subbitbuf.setWidth 16 <<< m')
      let r := fetchByte src b
      shiftLoop src fuel m' { r.2 with bitbuf := buf, subbitbuf := r.1, bitcount := 8 }
    else (m, b)

/-- SHIFT_IN(n) (R202). -/
def shiftIn (src : Source) (n : Nat) (b : BitReader) : BitReader :=
  let r := shiftLoop src (n + 1) n { b with bitbuf := b.bitbuf <<< n }
  let c := r.2.bitcount.toNat - r.1
  { r.2 with
    bitcount := BitVec.ofNat 4 c
    bitbuf := r.2.bitbuf ||| (r.2.subbitbuf >>> c).setWidth 16 }

/-- INIT_BITS (R203). -/
def initBits (src : Source) (b : BitReader) : BitReader :=
  { shiftIn src 16
      { b with bitbuf := 0, subbitbuf := 0, bitcount := 0, stage := [], stageIdx := 0, inCursor := 0 } with
    bitpos := 0 }

/-- PEEK(n) (R210): the top n bits of BITBUF; nothing changes. -/
def peekBits (n : Nat) (s : State) : BitVec 16 := s.bits.bitbuf >>> (16 - n)

/-- CONSUME(n) (R211); CONSUME(0) changes nothing and fetches nothing. -/
def consumeBits (n : Nat) (s : State) : State :=
  if n = 0 then s
  else { s with bits := { shiftIn (sourceOf s) n s.bits with bitpos := s.bits.bitpos + n } }

/-- GETBITS(n) (R212): PEEK(n), then CONSUME(n). -/
def getBits (n : Nat) (s : State) : BitVec 16 × State := (peekBits n s, consumeBits n s)

/-- PEEK N (R220). -/
def execPeek (n : BitVec 5) (s : State) : Outcome :=
  .next (runCommand .working (bitCountLegal n) none
    (fun s => .ok (some ((peekBits n.toNat s).setWidth 32)) s) s)

/-- CONSUME N (R221): RESULT is left as it is. -/
def execConsume (n : BitVec 5) (s : State) : Outcome :=
  .next (runCommand .working (bitCountLegal n) none
    (fun s => .ok none (consumeBits n.toNat s)) s)

/-- GETBITS N (R222). -/
def execGetBits (n : BitVec 5) (s : State) : Outcome :=
  .next (runCommand .working (bitCountLegal n) none
    (fun s => .ok (some ((getBits n.toNat s).1.setWidth 32)) (getBits n.toNat s).2) s)

end Sys2Proof.Machine
end

