-- ==== Sys2Proof/Machine/TableBuilder.lean ====
section
/-! DEFINITION. The HuffmanTableBuilder of 41_table_builder.md: the build, the decode-side lookup, and the meanings of
SET_LEN, GET_LEN, MAKE_TABLE, GET_TABLE and GET_NODE. -/

namespace Sys2Proof.Machine

/-- The three table instances (R250). -/
inductive TableId where
  | metaTable
  | cTable
  | posTable
  deriving DecidableEq, Repr

/-- nchar (R250). -/
def TableId.nchar : TableId → Nat
  | .metaTable => 19
  | .cTable => 510
  | .posTable => 14

/-- tb, the direct-table width (R250). -/
def TableId.tb : TableId → Nat
  | .metaTable => 8
  | .cTable => 12
  | .posTable => 8

/-- The FAIL_TABLE code (R250). -/
def TableId.code : TableId → BitVec 4
  | .metaTable => 1#4
  | .cTable => 2#4
  | .posTable => 3#4

/-- PT_KIND after a build of a PT-side table (R259). -/
def TableId.kind : TableId → PtKind
  | .metaTable => .metaList
  | .cTable => .unbuilt
  | .posTable => .position

/-- LEN of the instance. -/
def lensOf (id : TableId) (s : State) : Entries 5 :=
  match id with
  | .cTable => s.tabs.cLen
  | _ => s.tabs.ptLen

/-- TABLE of the instance. -/
def tableOf (id : TableId) (s : State) : Entries 10 :=
  match id with
  | .cTable => s.tabs.cTable
  | _ => s.tabs.ptTable

/-- The AVAIL register of the instance. -/
def availOf (id : TableId) (s : State) : BitVec 11 :=
  match id with
  | .cTable => s.tabs.cAvail
  | _ => s.tabs.ptAvail

/-! ## Build (R251 to R256) -/

/-- count[L] (R251). -/
def codeCount (lens : List Nat) (L : Nat) : Nat := lens.countP fun l => l == L

/-- start[i] of R252, untruncated: `startCode lens 17` is the sum that must be 65536. -/
def startCode (lens : List Nat) : Nat → Nat
  | 0 => 0
  | i + 1 => startCode lens i + (if i = 0 then 0 else codeCount lens i <<< (16 - i))

/-- start[i] after step 3 (R253): in table units for i ≤ tb, a left-justified 16-bit code above. -/
def unitStart (tb : Nat) (lens : List Nat) (i : Nat) : Nat :=
  if i ≤ tb then startCode lens i >>> (16 - tb) else startCode lens i

/-- weight[i] (R253). -/
def codeWeight (tb i : Nat) : Nat := if i ≤ tb then 1 <<< (tb - i) else 1 <<< (16 - i)

/-- A build in progress: the arrays written so far, the running start[0 .. 16], and the node counter. -/
structure Build where
  table : Entries 10
  left : Entries 10
  right : Entries 10
  start : List Nat
  avail : Nat
  deriving DecidableEq, Repr

/-- A slot: a reference to a TABLE, LEFT or RIGHT entry (R255). -/
inductive Slot where
  | table (i : Nat)
  | left (i : Nat)
  | right (i : Nat)
  deriving DecidableEq, Repr

/-- *slot. -/
def Build.get (b : Build) : Slot → BitVec 10
  | .table i => entryAt b.table i
  | .left i => entryAt b.left i
  | .right i => entryAt b.right i

/-- *slot <- x. -/
def Build.put (b : Build) (slot : Slot) (x : BitVec 10) : Build :=
  match slot with
  | .table i => { b with table := writeCell b.table i x }
  | .left i => { b with left := writeCell b.left i x }
  | .right i => { b with right := writeCell b.right i x }

/-- Allocates a node in an empty slot (R255). -/
def Build.alloc (b : Build) (slot : Slot) : Build :=
  let b := { b with left := writeCell b.left b.avail 0, right := writeCell b.right b.avail 0 }
  { b.put slot (BitVec.ofNat 10 b.avail) with avail := b.avail + 1 }

/-- The loop of TREE_INSERT (R255): `fuel` code bits of `k` still to follow, the next one bit `fuel + low - 1` of `k`;
`low` = 16 − L. Answers the slot reached. -/
def treePath (k low : Nat) : Nat → Slot → Build → Slot × Build
  | 0, slot, b => (slot, b)
  | fuel + 1, slot, b =>
    let b := if b.get slot = 0#10 then b.alloc slot else b
    let node := (b.get slot).toNat
    treePath k low fuel (if k.testBit (fuel + low) then .right node else .left node) b

/-- TREE_INSERT(ch, L) (R255) for the left-justified code `k`: bits 15 − tb down to 16 − L of `k` lead from the direct
entry to the leaf. -/
def treeInsert (tb ch L k : Nat) (b : Build) : Build :=
  let r := treePath k (16 - L) (L - tb) (.table (k >>> (16 - tb))) b
  r.2.put r.1 (BitVec.ofNat 10 ch)

/-- One symbol of step 4 (R254). -/
def placeSymbol (tb ch L : Nat) (b : Build) : Build :=
  if L = 0 then b
  else
    let k := b.start.getD L 0
    let next := k + codeWeight tb L
    let b :=
      if L ≤ tb then { b with table := fillRange b.table k next (BitVec.ofNat 10 ch) }
      else treeInsert tb ch L k b
    { b with start := b.start.set L next }

/-- The symbols of step 4 in increasing order, from symbol `ch` on (R254). -/
def placeSymbols (tb : Nat) : List Nat → Nat → Build → Build
  | [], _, b => b
  | L :: rest, ch, b => placeSymbols tb rest (ch + 1) (placeSymbol tb ch L b)

/-- MAKE_TABLE(nchar, LEN, tb, TABLE) (R251 to R255): the arrays and the node counter after the build, or the sum
start[17] if it is not 65536. The check precedes every write. -/
def makeTable (tb : Nat) (lens : List Nat) (table left right : Entries 10) : Except Nat Build :=
  if startCode lens 17 ≠ 65536 then .error (startCode lens 17)
  else
    let z := unitStart tb lens (tb + 1) >>> (16 - tb)
    .ok (placeSymbols tb lens 0
      { table := fillRange table z (2 ^ tb) 0
        left := left
        right := right
        start := (List.range 17).map (unitStart tb lens)
        avail := lens.length })

/-- The start of a build clears the instance's status (R259). -/
def clearStatus (id : TableId) (s : State) : State :=
  match id with
  | .cTable => { s with tabs := { s.tabs with cBuilt := false } }
  | _ => { s with tabs := { s.tabs with ptKind := .unbuilt, ptNchar := 0 } }

/-- End of build (R259): the arrays are stored and the instance's bookkeeping set. -/
def endBuild (id : TableId) (b : Build) (s : State) : State :=
  match id with
  | .cTable =>
    { s with tabs :=
      { s.tabs with
        cTable := b.table, left := b.left, right := b.right
        cAvail := BitVec.ofNat 11 b.avail, cBuilt := true } }
  | _ =>
    { s with tabs :=
      { s.tabs with
        ptTable := b.table, left := b.left, right := b.right
        ptAvail := BitVec.ofNat 11 b.avail, ptKind := id.kind
        ptNchar := BitVec.ofNat 5 id.nchar, ptFirst := BitVec.ofNat 5 id.nchar } }

/-- A whole build of an instance (R251 to R259), answering AVAIL; BAD_TABLE carries start[17] (R252). -/
def buildTable (id : TableId) (s : State) : Flow Word :=
  let s := clearStatus id s
  match makeTable id.tb (lensUpTo (lensOf id s) id.nchar) (tableOf id s) s.tabs.left s.tabs.right with
  | .error sum => .failed { cause := .badTable, table := id.code, detail := BitVec.ofNat 24 sum } s
  | .ok b => .ok (BitVec.ofNat 32 b.avail) (endBuild id b s)

/-! ## Lookup (R257, R258) -/

/-- The walk of LOOKUP: `fuel` is k + 1, so the next code bit is BITBUF[fuel − 1]; a value that is neither a symbol nor
a node of the last build, or a walk beyond 16 bits, answers the value as an error (R258). -/
def walk (nchar avail : Nat) (buf : BitVec 16) (left right : Entries 10) : Nat → BitVec 10 → Except (BitVec 10) (BitVec 10)
  | 0, c => if c.toNat < nchar then .ok c else .error c
  | fuel + 1, c =>
    if c.toNat < nchar then .ok c
    else if avail ≤ c.toNat then .error c
    else walk nchar avail buf left right fuel (entryAt (if buf.getLsbD fuel then right else left) c.toNat)

/-- LOOKUP(instance) (R257): reads BITBUF, consumes nothing; STALE_NODE carries the value (R258). -/
def lookup (id : TableId) (s : State) : Flow (BitVec 10) :=
  let first := entryAt (tableOf id s) (peekBits id.tb s).toNat
  match walk id.nchar (availOf id s).toNat s.bits.bitbuf s.tabs.left s.tabs.right (16 - id.tb) first with
  | .ok c => .ok c s
  | .error c => .failed { cause := .staleNode, table := id.code, detail := c.setWidth 24 } s

/-- LOOKUP, then CONSUME(LEN[c]) (R257): one symbol of a table. -/
def decodeSymbol (id : TableId) (s : State) : Flow (BitVec 10) :=
  (lookup id s).andThen fun c s => .ok c (consumeBits (lenAt (lensOf id s) c.toNat).toNat s)

/-! ## Commands (R270 to R274) -/

/-- SET_LEN's effect (R270): the entry is written and the table marked unbuilt. -/
def setLength (t : Side) (n : BitVec 5) (i : Nat) (s : State) : State :=
  match t with
  | .c => { s with tabs := { s.tabs with cLen := setLenAt s.tabs.cLen i n, cBuilt := false } }
  | .pt => { s with tabs := { s.tabs with ptLen := setLenAt s.tabs.ptLen i n, ptKind := .unbuilt, ptNchar := 0 } }

/-- A table or node entry as a debug read answers it: an entry with no known value is a fresh draw (70_reset_and_hazards.md
R500, 93_implementation_defined.md M15). -/
def readOrDraw (e : Option (BitVec 10)) (s : State) : Flow (Option Word) :=
  match e with
  | some x => .ok (some (x.setWidth 32)) s
  | none => .ok (some ((Config.drawEntry s.draws).setWidth 32)) { s with draws := s.draws + 1 }

/-- A node of the last build of its side: nchar ≤ id < AVAIL (10_state.md R51). C nodes lie at 510 and above, PT nodes below
(10_state.md R50). -/
def nodeLive (s : State) (i : Nat) : Bool :=
  if 510 ≤ i then decide (i < s.tabs.cAvail.toNat)
  else decide (s.tabs.ptFirst.toNat ≤ i) && decide (i < s.tabs.ptAvail.toNat)

/-- LEFT[i] or RIGHT[i]; outside the live nodes the entry holds no known value (93_implementation_defined.md M15). -/
def nodeEntry (t : Child) (i : Nat) (s : State) : Option (BitVec 10) :=
  if nodeLive s i then
    match t with
    | .left => readCell s.tabs.left i
    | .right => readCell s.tabs.right i
  else none

/-- The instance MAKE_TABLE builds (R272): T and nchar B. -/
def makeTableId (t : Side) (b : BitVec 16) : TableId :=
  match t with
  | .c => .cTable
  | .pt => if b = 19#16 then .metaTable else .posTable

/-- SET_LEN T, N, B (R270). -/
def execSetLen (t : Side) (n : BitVec 5) (b : BitVec 16) (s : State) : Outcome :=
  .next (runCommand .working (bitCountLegal n && lenIndexLegal t b) none
    (fun s => .ok none (setLength t n b.toNat s)) s)

/-- GET_LEN T, B (R271). -/
def execGetLen (t : Side) (b : BitVec 16) (s : State) : Outcome :=
  .next (runCommand .inspect (lenIndexLegal t b) none
    (fun s =>
      match t with
      | .c => .ok (some ((lenAt s.tabs.cLen b.toNat).setWidth 32)) s
      | .pt => .ok (some ((lenAt s.tabs.ptLen b.toNat).setWidth 32)) s) s)

/-- MAKE_TABLE T, B (R272). -/
def execMakeTable (t : Side) (b : BitVec 16) (s : State) : Outcome :=
  .next (runCommand .working (symbolCountLegal t b) none
    (fun s => (buildTable (makeTableId t b) s).andThen fun avail s => .ok (some avail) s) s)

/-- GET_TABLE T, B (R273). -/
def execGetTable (t : Side) (b : BitVec 16) (s : State) : Outcome :=
  .next (runCommand .inspect (tableIndexLegal t b) none
    (fun s =>
      match t with
      | .c => readOrDraw (readCell s.tabs.cTable b.toNat) s
      | .pt => readOrDraw (readCell s.tabs.ptTable b.toNat) s) s)

/-- GET_NODE T, B (R274). -/
def execGetNode (t : Child) (b : BitVec 16) (s : State) : Outcome :=
  .next (runCommand .inspect (nodeIdLegal b) none
    (fun s => readOrDraw (nodeEntry t b.toNat s) s) s)

end Sys2Proof.Machine
end

