-- ==== Sys2Proof/Machine/BlockDecoder.lean ====
section
/-! DEFINITION. The BlockDecoder of 42_block_decoder.md: the three length-list reads, the block header, the two symbol
decoders, the block counter, and the meanings of the six commands that expose them. -/

namespace Sys2Proof.Machine

/-- Stops with a failure whose detail is a number. -/
def failNat {α : Type} (c : FailCause) (table : BitVec 4) (detail : Nat) (s : State) : Flow α :=
  .failed { cause := c, table := table, detail := BitVec.ofNat 24 detail } s

/-! ## Meta and position lists (R300 to R304) -/

/-- The one bits of BITBUF from bit `fuel − 1` down to the first zero (R301). -/
def leadingOnes (buf : BitVec 16) : Nat → Nat
  | 0 => 0
  | fuel + 1 => if buf.getLsbD fuel then leadingOnes buf fuel + 1 else 0

/-- The length a length code stands for, from the bits of BITBUF alone: 0..6, or 7 and the ones after the escape (R301). -/
def lenCodeValue (buf : BitVec 16) : Nat :=
  let v := (buf >>> 13).toNat
  if v = 7 then 7 + leadingOnes buf 13 else v

/-- READ_LEN_CODE(code) (R301): LENGTH_OVERFLOW above 16, before anything is consumed. -/
def readLenCode (code : BitVec 4) (s : State) : Flow Nat :=
  let c := lenCodeValue s.bits.bitbuf
  if 16 < c then failNat .lengthOverflow code c s
  else .ok c (consumeBits (if c < 7 then 3 else c - 3) s)

/-- PT_LEN[i] <- c. -/
def setPtLen (i c : Nat) (s : State) : State :=
  { s with tabs := { s.tabs with ptLen := setLenAt s.tabs.ptLen i (BitVec.ofNat 5 c) } }

/-- PT_LEN[lo .. hi-1] <- 0. -/
def zeroPtLens (lo hi : Nat) (s : State) : State :=
  { s with tabs := { s.tabs with ptLen := zeroLens s.tabs.ptLen lo hi } }

/-- The five values READ_PT_LEN takes (R300): the instance gives nn = nchar, kind and code; `special` is ispecial. -/
structure PtList where
  id : TableId
  nbit : Nat
  special : Option Nat

/-- (19, 5, 3, META, 1). -/
def metaList : PtList := { id := .metaTable, nbit := 5, special := some 3 }

/-- (14, 4, none, POS, 3). -/
def positionList : PtList := { id := .posTable, nbit := 4, special := none }

/-- SPECIAL_RUN(nn, code) at index i (R302); answers the new i. -/
def specialRun (id : TableId) (i : Nat) (s : State) : Flow Nat :=
  let g := getBits 2 s
  let r := g.1.toNat
  if id.nchar < i + r then failNat .runOverflow id.code (i + r) g.2
  else .ok (i + r) (zeroPtLens i (i + r) g.2)

/-- The `while i < n` loop of READ_PT_LEN (R300); answers i after it. `fuel` ≥ n − i bounds the passes, each of which raises i. -/
def ptLenLoop (p : PtList) (n : Nat) : Nat → Nat → State → Flow Nat
  | 0, i, s => .ok i s
  | fuel + 1, i, s =>
    if n ≤ i then .ok i s
    else
      (readLenCode p.id.code s).andThen fun c s =>
        let s := setPtLen i c s
        if p.special = some (i + 1) then
          (specialRun p.id (i + 1) s).andThen fun i s => ptLenLoop p n fuel i s
        else ptLenLoop p n fuel (i + 1) s

/-- SINGLE_PT(nn, nbit) (R303). -/
def singlePt (p : PtList) (s : State) : State :=
  let g := getBits p.nbit s
  let s := zeroPtLens 0 p.id.nchar g.2
  { s with tabs :=
    { s.tabs with
      ptTable := fillRange s.tabs.ptTable 0 256 (g.1.setWidth 10)
      ptAvail := BitVec.ofNat 11 p.id.nchar
      ptNchar := BitVec.ofNat 5 p.id.nchar
      ptFirst := BitVec.ofNat 5 p.id.nchar
      ptKind := p.id.kind } }

/-- READ_PT_LEN (R300), answering the count n. -/
def readPtLen (p : PtList) (s : State) : Flow Word :=
  let g := getBits p.nbit (clearStatus p.id s)
  let n := g.1.toNat
  let s := g.2
  if n = 0 then .ok (g.1.setWidth 32) (singlePt p s)
  else if p.id.nchar < n then failNat .countOverflow p.id.code n s
  else
    (ptLenLoop p n n 0 s).andThen fun i s =>
      (buildTable p.id (zeroPtLens i p.id.nchar s)).andThen fun _ s => .ok (g.1.setWidth 32) s

/-! ## The C list (R305 to R307) -/

/-- C_LEN[i] <- c. -/
def setCLen (i c : Nat) (s : State) : State :=
  { s with tabs := { s.tabs with cLen := setLenAt s.tabs.cLen i (BitVec.ofNat 5 c) } }

/-- C_LEN[lo .. hi-1] <- 0. -/
def zeroCLens (lo hi : Nat) (s : State) : State :=
  { s with tabs := { s.tabs with cLen := zeroLens s.tabs.cLen lo hi } }

/-- ZERO_RUN(r) at index i (R307); answers the new i. -/
def zeroRun (i r : Nat) (s : State) : Flow Nat :=
  if 510 < i + r then failNat .runOverflow 2#4 (i + r) s
  else .ok (i + r) (zeroCLens i (i + r) s)

/-- C_ITEM() at index i (R306); answers the new i. -/
def cItem (i : Nat) (s : State) : Flow Nat :=
  (decodeSymbol .metaTable s).andThen fun c s =>
    let sym := c.toNat
    if sym = 0 then zeroRun i 1 s
    else if sym = 1 then
      let g := getBits 4 s
      zeroRun i (g.1.toNat + 3) g.2
    else if sym = 2 then
      let g := getBits 9 s
      zeroRun i (g.1.toNat + 20) g.2
    else .ok (i + 1) (setCLen i (sym - 2) s)

/-- The `while i < n` loop of READ_C_LEN (R305); answers i after it. -/
def cLenLoop (n : Nat) : Nat → Nat → State → Flow Nat
  | 0, i, s => .ok i s
  | fuel + 1, i, s =>
    if n ≤ i then .ok i s
    else (cItem i s).andThen fun i s => cLenLoop n fuel i s

/-- SINGLE_C() (R303). -/
def singleC (s : State) : State :=
  let g := getBits 9 s
  let s := zeroCLens 0 510 g.2
  { s with tabs :=
    { s.tabs with
      cTable := fillRange s.tabs.cTable 0 4096 (g.1.setWidth 10)
      cAvail := 510#11
      cBuilt := true } }

/-- READ_C_LEN() (R305), answering the count n. -/
def readCLen (s : State) : Flow Word :=
  let g := getBits 9 (clearStatus .cTable s)
  let n := g.1.toNat
  let s := g.2
  if n = 0 then .ok (g.1.setWidth 32) (singleC s)
  else if 510 < n then failNat .countOverflow 2#4 n s
  else
    (cLenLoop n n 0 s).andThen fun i s =>
      (buildTable .cTable (zeroCLens i 510 s)).andThen fun _ s => .ok (g.1.setWidth 32) s

/-! ## Block header and symbols (R310 to R313) -/

/-- BLOCKSIZE <- v. -/
def setBlockSize (v : Word) (s : State) : State := { s with tabs := { s.tabs with blockSize := v } }

/-- READ_BLOCK_HEADER() (R310), answering the block-size field. -/
def readBlockHeader (s : State) : Flow Word :=
  let g := getBits 16 s
  let f : Word := g.1.setWidth 32
  (readPtLen metaList (setBlockSize f g.2)).andThen fun _ s =>
    (readCLen s).andThen fun _ s =>
      (readPtLen positionList s).andThen fun _ s => .ok f s

/-- (BLOCKSIZE − 1) mod 2^BLOCKCNT_BITS (R313). -/
def decrementBlock (w : CounterWidth) (v : Word) : Word :=
  match w with
  | .bits16 => ((v - 1).extractLsb' 0 16).setWidth 32
  | .bits32 => v - 1

/-- DECODE_C() (R311): the header first if a block is needed, the decrement before the lookup. -/
def decodeLiteralLength (s : State) : Flow (BitVec 10) :=
  (if s.tabs.blockSize = 0#32 then (readBlockHeader s).andThen fun _ s => .ok () s else .ok () s).andThen fun _ s =>
    decodeSymbol .cTable (setBlockSize (decrementBlock s.cfg.blockCntBits s.tabs.blockSize) s)

/-- DECODE_P() (R312), answering the distance. -/
def decodeDistance (s : State) : Flow Nat :=
  (decodeSymbol .posTable s).andThen fun c s =>
    let j := c.toNat
    if j = 0 then .ok 0 s
    else
      let g := getBits (j - 1) s
      .ok (2 ^ (j - 1) + g.1.toNat) g.2

/-! ## Commands (R320 to R325) -/

/-- A body that returns a value. -/
def returning (x : Flow Word) : Flow (Option Word) := x.andThen fun v s => .ok (some v) s

/-- The precondition of READ_C_LEN: the PT table is a meta table (60_exceptions.md R455 step 7). -/
def needsMeta (s : State) : Option ErrCause :=
  if s.tabs.ptKind = .metaList then none else some .tableMismatch

/-- The precondition of DECODE_C: inside a block the C table is built (60_exceptions.md R455 step 7). -/
def needsCTable (s : State) : Option ErrCause :=
  if s.tabs.blockSize ≠ 0#32 && !s.tabs.cBuilt then some .tableMismatch else none

/-- The precondition of DECODE_P: the PT table is a position table (60_exceptions.md R455 step 7). -/
def needsPosition (s : State) : Option ErrCause :=
  if s.tabs.ptKind = .position then none else some .tableMismatch

/-- READ_META_LEN (R320). -/
def execReadMetaLen (s : State) : Outcome :=
  .next (runCommand .working true none (fun s => returning (readPtLen metaList s)) s)

/-- READ_C_LEN (R321). -/
def execReadCLen (s : State) : Outcome :=
  .next (runCommand .working true (needsMeta s) (fun s => returning (readCLen s)) s)

/-- READ_P_LEN (R322). -/
def execReadPLen (s : State) : Outcome :=
  .next (runCommand .working true none (fun s => returning (readPtLen positionList s)) s)

/-- READ_BLOCK_HEADER (R323). -/
def execReadBlockHeader (s : State) : Outcome :=
  .next (runCommand .working true none (fun s => returning (readBlockHeader s)) s)

/-- DECODE_C (R324). -/
def execDecodeC (s : State) : Outcome :=
  .next (runCommand .working true (needsCTable s)
    (fun s => (decodeLiteralLength s).andThen fun c s => .ok (some (c.setWidth 32)) s) s)

/-- DECODE_P (R325). -/
def execDecodeP (s : State) : Outcome :=
  .next (runCommand .working true (needsPosition s)
    (fun s => (decodeDistance s).andThen fun d s => .ok (some (BitVec.ofNat 32 d)) s) s)

end Sys2Proof.Machine
end

