-- ==== Sys2Proof/Machine/WindowExpander.lean ====
section
/-! DEFINITION. The WindowExpander of 43_window_expander.md: window read, EMIT, the byte-by-byte copy, and the meanings of
PUT_LITERAL, START_MATCH and COPY. -/

namespace Sys2Proof.Machine

/-- WINDOW[idx] was written since the last INIT (R350). -/
def writtenSinceInit (s : State) (idx : Nat) : Bool :=
  decide (8192 ≤ s.win.produced.toNat) || decide (idx < s.win.produced.toNat)

/-- WinRead(idx) (R350). Under ANY each read of an unwritten entry is a fresh draw. -/
def winRead (idx : BitVec 13) (s : State) : Flow Byte :=
  if writtenSinceInit s idx.toNat then
    .ok ((s.win.window.read idx.toNat).getD (Config.drawByte s.draws)) s
  else
    match s.cfg.windowInit with
    | .fault => .failed { cause := .unwrittenWindow, table := 0, detail := idx.setWidth 24 } s
    | .zero => .ok 0 s
    | .any => .ok (Config.drawByte s.draws) { s with draws := s.draws + 1 }

/-- EMIT(b) (R351): the window always, OUT only below L_OUT_CAP. -/
def emit (b : Byte) (s : State) : State :=
  { s with
    outMem := if s.win.produced < s.lat.outCap then s.outMem.write s.win.produced.toNat b else s.outMem
    win :=
      { s.win with
        window := s.win.window.write s.win.pos.toNat b
        pos := s.win.pos + 1
        produced := s.win.produced + 1 } }

/-- MATCH_SRC of a match at distance d (R352): (POS − d − 1) mod 8192. -/
def matchSource (pos : BitVec 13) (d : Nat) : BitVec 13 := pos - BitVec.ofNat 13 d - 1

/-- START(length, d) (R352). -/
def startCopy (length d : Nat) (s : State) : State :=
  { s with win :=
    { s.win with matchSrc := matchSource s.win.pos d, matchRem := BitVec.ofNat 9 length } }

/-- The end of COPY_ONE (R353): the source advances, one byte less remains. -/
def advanceMatch (s : State) : State :=
  { s with win := { s.win with matchSrc := s.win.matchSrc + 1, matchRem := s.win.matchRem - 1 } }

/-- COPY_ONE() (R353): the read comes before the write (R354). -/
def copyOne (s : State) : Flow Unit :=
  (winRead s.win.matchSrc s).andThen fun b s => .ok () (advanceMatch (emit b s))

/-- `repeat k times: COPY_ONE()` (R362). -/
def copyTimes : Nat → State → Flow Unit
  | 0, s => .ok () s
  | k + 1, s => (copyOne s).andThen fun _ s => copyTimes k s

/-- The preconditions of PUT_LITERAL, in order (60_exceptions.md R455 step 7, R360). -/
def literalPrecondition (s : State) : Option ErrCause :=
  if s.win.matchRem ≠ 0#9 then some .matchPending
  else if s.lat.outLen ≤ s.win.produced then some .outputFull
  else none

/-- The precondition of START_MATCH (60_exceptions.md R455 step 7). -/
def matchPrecondition (s : State) : Option ErrCause :=
  if s.win.matchRem ≠ 0#9 then some .matchPending else none

/-- k of COPY B (R362). -/
def copyCount (b : BitVec 16) (s : State) : Nat := min b.toNat (min s.win.matchRem.toNat (outRemaining s))

/-- PUT_LITERAL B (R360): RESULT is left as it is. -/
def execPutLiteral (b : BitVec 16) (s : State) : Outcome :=
  .next (runCommand .working (literalLegal b) (literalPrecondition s)
    (fun s => .ok none (emit (b.setWidth 8) s)) s)

/-- START_MATCH B (R361), the length in ARG[15:0]. -/
def execStartMatch (b : BitVec 16) (s : State) : Outcome :=
  .next (runCommand .working (matchLegal b s) (matchPrecondition s)
    (fun s =>
      let t := startCopy (matchLength s) b.toNat s
      .ok (some (t.win.matchSrc.setWidth 32)) t) s)

/-- COPY B (R362). -/
def execCopy (b : BitVec 16) (s : State) : Outcome :=
  .next (runCommand .working (copyCountLegal b) none
    (fun s =>
      let k := copyCount b s
      (copyTimes k s).andThen fun _ s => .ok (some (BitVec.ofNat 32 k)) s) s)

end Sys2Proof.Machine
end

