-- ==== Sys2Proof/Machine/Orchestrator.lean ====
section
/-! DEFINITION. The Orchestrator of 44_orchestrator.md: INIT, RESET, the chunk loop that joins the BlockDecoder to the
WindowExpander, and the whole decode. -/

namespace Sys2Proof.Machine

/-- INIT's effect (R400). The arrays keep their contents. -/
def initDecode (s : State) : State :=
  let lat : Latched := { inLen := s.regs.inLen, outLen := s.regs.outLen, outCap := s.regs.outCap }
  { s with
    lat := lat
    bits := initBits (sourceOf { s with lat := lat }) s.bits
    tabs :=
      { s.tabs with
        blockSize := 0, cBuilt := false, ptKind := .unbuilt, ptNchar := 0, cAvail := 0, ptAvail := 0 }
    win := { s.win with pos := 0, produced := 0, matchSrc := 0, matchRem := 0 }
    status :=
      { s.status with
        fail := false, failCause := 0, failTable := 0, failDetail := 0, ovr := false, ready := true } }

/-- One byte of CHUNK_BODY (R402): a pending match is continued; otherwise the next symbol is a literal, or a match whose
distance is read at once (R404) and whose first byte is copied. -/
def produceByte (s : State) : Flow Unit :=
  if s.win.matchRem ≠ 0#9 then copyOne s
  else
    (decodeLiteralLength s).andThen fun c s =>
      if c.toNat ≤ 255 then .ok () (emit (c.setWidth 8) s)
      else (decodeDistance s).andThen fun d s => copyOne (startCopy (c.toNat - 253) d s)

/-- CHUNK_BODY(count) (R402): exactly `count` bytes, one after another, unless a step fails. -/
def chunkBody : Nat → State → Flow Unit
  | 0, s => .ok () s
  | count + 1, s => (produceByte s).andThen fun _ s => chunkBody count s

/-- The `while PRODUCED < L_OUT_LEN` loop of DECODE_ALL (R405). `fuel` bounds the chunks: each produces at least one byte
(70_reset_and_hazards.md R521). -/
def decodeChunks : Nat → State → Flow Unit
  | 0, s => .ok () s
  | fuel + 1, s =>
    if outRemaining s = 0 then .ok () s
    else (chunkBody (min s.cfg.chunk (outRemaining s)) s).andThen fun _ s => decodeChunks fuel s

/-- Inside a block the C table and the position table are built, or TABLE_MISMATCH (60_exceptions.md R455 step 7). -/
def needsDecodeTables (s : State) : Option ErrCause :=
  if s.tabs.blockSize ≠ 0#32 && (!s.tabs.cBuilt || decide (s.tabs.ptKind ≠ .position)) then some .tableMismatch
  else none

/-- The preconditions of DECODE_CHUNK, in order (60_exceptions.md R455 step 7). -/
def chunkPrecondition (b : BitVec 16) (s : State) : Option ErrCause :=
  if outRemaining s < b.toNat then some .outputFull else needsDecodeTables s

/-- The precondition of DECODE_ALL: with nothing left to produce it completes as a no-op (60_exceptions.md R455 step 7). -/
def decodeAllPrecondition (s : State) : Option ErrCause :=
  if outRemaining s = 0 then none else needsDecodeTables s

/-- INIT (R400). -/
def execInit (s : State) : Outcome :=
  .next (runCommand .always true none (fun s => .ok (some 0) (initDecode s)) s)

/-- RESET (R401): the platform reset by command; RESULT = 0. -/
def execReset (s : State) : Outcome :=
  .next (runCommand .always true none (fun s => .ok (some 0) (coldReset s)) s)

/-- DECODE_CHUNK B (R402). -/
def execDecodeChunk (b : BitVec 16) (s : State) : Outcome :=
  .next (runCommand .working (chunkCountLegal b) (chunkPrecondition b s)
    (fun s => (chunkBody b.toNat s).andThen fun _ s => .ok (some (b.setWidth 32)) s) s)

/-- DECODE_ALL (R405). -/
def execDecodeAll (s : State) : Outcome :=
  .next (runCommand .working true (decodeAllPrecondition s)
    (fun s =>
      let p0 := s.win.produced
      (decodeChunks (outRemaining s) s).andThen fun _ s => .ok (some (s.win.produced - p0)) s) s)

end Sys2Proof.Machine
end

