-- ==== Sys2Proof/Machine/Dispatch.lean ====
section
/-! DEFINITION. The meaning of every command of 30_encoding.md R151: one arm per constructor. -/

namespace Sys2Proof.Machine

def exec (i : Instr) (s : State) : Host.Outcome State Fault Refusal :=
  match i with
  | .init => Sys2Proof.Machine.execInit s
  | .reset => Sys2Proof.Machine.execReset s
  | .decodeChunk b => Sys2Proof.Machine.execDecodeChunk b s
  | .decodeAll => Sys2Proof.Machine.execDecodeAll s
  | .peek n => Sys2Proof.Machine.execPeek n s
  | .consume n => Sys2Proof.Machine.execConsume n s
  | .getBits n => Sys2Proof.Machine.execGetBits n s
  | .setLen t n b => Sys2Proof.Machine.execSetLen t n b s
  | .getLen t b => Sys2Proof.Machine.execGetLen t b s
  | .makeTable t b => Sys2Proof.Machine.execMakeTable t b s
  | .getTable t b => Sys2Proof.Machine.execGetTable t b s
  | .getNode t b => Sys2Proof.Machine.execGetNode t b s
  | .readMetaLen => Sys2Proof.Machine.execReadMetaLen s
  | .readCLen => Sys2Proof.Machine.execReadCLen s
  | .readPLen => Sys2Proof.Machine.execReadPLen s
  | .readBlockHeader => Sys2Proof.Machine.execReadBlockHeader s
  | .decodeC => Sys2Proof.Machine.execDecodeC s
  | .decodeP => Sys2Proof.Machine.execDecodeP s
  | .putLiteral b => Sys2Proof.Machine.execPutLiteral b s
  | .startMatch b => Sys2Proof.Machine.execStartMatch b s
  | .copy b => Sys2Proof.Machine.execCopy b s

end Sys2Proof.Machine
end

