-- ==== Sys2Proof/Machine/HostPort.lean ====
section
/-! DEFINITION. The host's side of the core: the register map of 10_state.md R33, a write of CMD, and every move of the
host or the platform. Moves that break a host duty (93_implementation_defined.md M16) are refused by name. -/

namespace Sys2Proof.Machine

/-- ID (00_scope.md R3). -/
def idWord : Word := 0x2D6C6835#32

/-- BITSTATE: [27:24] BITCOUNT, [23:16] SUBBITBUF, [15:0] BITBUF. -/
def bitStateWord (s : State) : Word := 0#4 ++ (s.bits.bitcount ++ (s.bits.subbitbuf ++ s.bits.bitbuf))

/-- MATCH: [24:16] MATCH_REM, [12:0] MATCH_SRC. -/
def matchWord (s : State) : Word := 0#7 ++ (s.win.matchRem ++ (0#3 ++ s.win.matchSrc))

/-- STAGESTATE: [31:16] STAGE_LEN, [15:0] STAGE_IDX. -/
def stageStateWord (s : State) : Word := BitVec.ofNat 16 s.bits.stage.length ++ s.bits.stageIdx

/-- FAIL_INFO: [31:8] FAIL_DETAIL, [3:0] FAIL_TABLE. -/
def failInfoWord (s : State) : Word := s.status.failDetail ++ (0#4 ++ s.status.failTable)

/-- TABLESTATE: [12:8] PT_NCHAR, [2:1] PT_KIND, [0] C_BUILT. -/
def tableStateWord (s : State) : Word :=
  0#19 ++ (s.tabs.ptNchar ++ (0#5 ++ (s.tabs.ptKind.code ++ BitVec.ofBool s.tabs.cBuilt)))

/-- AVAIL: [26:16] PT_AVAIL, [10:0] C_AVAIL. -/
def availWord (s : State) : Word := 0#5 ++ (s.tabs.ptAvail ++ (0#5 ++ s.tabs.cAvail))

/-- What a read of the register window returns while BUSY = 0 (R33, R34): CMD and reserved offsets read 0. -/
def readReg (off : BitVec 8) (s : State) : Word :=
  match off with
  | 0x04#8 => statusWord s
  | 0x08#8 => s.regs.inLen
  | 0x0C#8 => s.regs.outLen
  | 0x10#8 => s.regs.outCap
  | 0x14#8 => s.regs.arg
  | 0x18#8 => s.regs.result
  | 0x1C#8 => s.win.produced
  | 0x20#8 => s.bits.inCursor
  | 0x24#8 => bitStateWord s
  | 0x28#8 => s.tabs.blockSize
  | 0x2C#8 => matchWord s
  | 0x30#8 => s.win.pos.setWidth 32
  | 0x34#8 => stageStateWord s
  | 0x38#8 => failInfoWord s
  | 0x3C#8 => idWord
  | 0x40#8 => tableStateWord s
  | 0x44#8 => availWord s
  | _ => 0

/-! ## A read while BUSY (10_state.md R35, 93_implementation_defined.md M20)

A command in flight takes the core from the state it was accepted in to the state it ends in. A register that the command does
not write reads as it is; one it writes once reads as before or after; one it writes again and again reads as a free value within
what the command can make of it (log entry 9). -/

/-- What a command may write more than once before it ends. -/
inductive Rewrites where
  /-- BITBUF, SUBBITBUF, BITCOUNT, the staging queue and IN_CURSOR. -/
  | bits
  /-- IN_CURSOR starts again from 0. -/
  | cursor
  /-- C_BUILT: cleared, then set by the build. -/
  | cStatus
  /-- PT_KIND and PT_NCHAR: cleared, then set by the build. -/
  | ptStatus
  /-- A whole block header: BLOCKSIZE and the bookkeeping of every table. -/
  | header
  /-- Symbols: BLOCKSIZE counts down and matches start. -/
  | symbols
  /-- A copy or a chunk: PRODUCED, POS, MATCH_SRC and MATCH_REM move byte by byte. -/
  | bytes
  deriving DecidableEq, Repr

/-- What producing `count` bytes rewrites: a pending match goes first (44_orchestrator.md R403), every later symbol gives at
least one byte, and a header is read only when BLOCKSIZE runs out (42_block_decoder.md R313). -/
def chunkRewrites (count : Nat) (s : State) : List Rewrites :=
  let fresh := count - s.win.matchRem.toNat
  if fresh = 0 then [.bytes]
  else if fresh ≤ s.tabs.blockSize.toNat then [.bytes, .symbols, .bits]
  else [.bytes, .symbols, .bits, .header]

/-- What each command may write more than once. -/
def rewrites (i : Instr) (s : State) : List Rewrites :=
  match i with
  | .init => [.bits, .cursor]
  | .reset => []
  | .decodeChunk b => chunkRewrites b.toNat s
  | .decodeAll => chunkRewrites (outRemaining s) s
  | .peek _ => []
  | .consume n => if n = 0#5 then [] else [.bits]
  | .getBits n => if n = 0#5 then [] else [.bits]
  | .setLen _ _ _ => []
  | .getLen _ _ => []
  | .makeTable .c _ => [.cStatus]
  | .makeTable .pt _ => [.ptStatus]
  | .getTable _ _ => []
  | .getNode _ _ => []
  | .readMetaLen => [.bits, .ptStatus]
  | .readCLen => [.bits, .cStatus]
  | .readPLen => [.bits, .ptStatus]
  | .readBlockHeader => [.bits, .header]
  | .decodeC => if s.tabs.blockSize = 0#32 then [.bits, .header] else [.bits]
  | .decodeP => [.bits]
  | .putLiteral _ => []
  | .startMatch _ => []
  | .copy _ => [.bytes]

/-- Free choice k of a read: `x` or `y`. -/
def fork {α : Type} (k : Nat) (s : State) (x y : α) : α := if Config.drawBit (s.draws + k) then x else y

/-- Free choice k of a read: a number from 0 to `top`. -/
def upTo (k : Nat) (s : State) (top : Nat) : Nat := (Config.drawWord (s.draws + k)).toNat % (top + 1)

/-- Free choice k of a read: a number on the way from `x` to `y`, both included. -/
def onTheWay (k : Nat) (s : State) (x y : Nat) : Nat := if x ≤ y then x + upTo k s (y - x) else x - upTo k s (x - y)

/-- The BitReader at some moment of a command. -/
def glimpseBits (r : List Rewrites) (s t : State) : BitReader :=
  if .bits ∈ r then
    { s.bits with
      bitbuf := BitVec.ofNat 16 (upTo 0 s 65535)
      subbitbuf := BitVec.ofNat 8 (upTo 1 s 255)
      bitcount := BitVec.ofNat 4 (upTo 2 s 8)
      stage := List.replicate (upTo 3 s s.cfg.stageCap) 0
      stageIdx := BitVec.ofNat 16 (upTo 4 s s.cfg.stageCap)
      inCursor :=
        let first := if .cursor ∈ r then 0 else s.bits.inCursor.toNat
        fork 5 s s.bits.inCursor (BitVec.ofNat 32 (onTheWay 6 s first t.bits.inCursor.toNat)) }
  else fork 5 s s.bits t.bits

/-- PT_KIND with its PT_NCHAR, of a kind (10_state.md R51). -/
def ptNcharOf : PtKind → BitVec 5
  | .unbuilt => 0#5
  | .metaList => 19#5
  | .position => 14#5

/-- The table bookkeeping at some moment of a command. One header writes BLOCKSIZE from the 16 bits of BITBUF
(42_block_decoder.md R310). The arrays have no register, so they stand as they were. -/
def glimpseTables (r : List Rewrites) (s t : State) : Tables :=
  let pt : PtKind × BitVec 5 := fork 7 s (s.tabs.ptKind, s.tabs.ptNchar) (t.tabs.ptKind, t.tabs.ptNchar)
  if .header ∈ r then
    let kind := fork 7 s .unbuilt (fork 8 s .metaList .position)
    { s.tabs with
      blockSize :=
        if .symbols ∈ r then BitVec.ofNat 32 (upTo 9 s (2 ^ s.cfg.blockCntBits.bits - 1))
        else fork 9 s s.tabs.blockSize (fork 10 s (s.bits.bitbuf.setWidth 32) t.tabs.blockSize)
      cBuilt := fork 10 s false true
      ptKind := kind
      ptNchar := ptNcharOf kind
      cAvail := if .symbols ∈ r then BitVec.ofNat 11 (upTo 11 s 1019) else fork 11 s s.tabs.cAvail t.tabs.cAvail
      ptAvail := BitVec.ofNat 11 (upTo 12 s 37) }
  else
    let shown := if .ptStatus ∈ r then fork 10 s (.unbuilt, 0#5) pt else pt
    { s.tabs with
      blockSize :=
        if .symbols ∈ r then BitVec.ofNat 32 (onTheWay 9 s s.tabs.blockSize.toNat t.tabs.blockSize.toNat)
        else fork 9 s s.tabs.blockSize t.tabs.blockSize
      cBuilt :=
        let built := fork 8 s s.tabs.cBuilt t.tabs.cBuilt
        if .cStatus ∈ r then fork 10 s false built else built
      ptKind := shown.1
      ptNchar := shown.2
      cAvail := fork 11 s s.tabs.cAvail t.tabs.cAvail
      ptAvail := fork 12 s s.tabs.ptAvail t.tabs.ptAvail }

/-- The window cursors at some moment of a command. -/
def glimpseWindow (r : List Rewrites) (s t : State) : Expander :=
  if .bytes ∈ r then
    let step (k : Nat) : Nat := upTo k s (t.win.produced.toNat - s.win.produced.toNat)
    { s.win with
      produced := s.win.produced + BitVec.ofNat 32 (step 13)
      pos := s.win.pos + BitVec.ofNat 13 (step 14)
      matchSrc :=
        if .symbols ∈ r then BitVec.ofNat 13 (upTo 15 s 8191) else s.win.matchSrc + BitVec.ofNat 13 (step 15)
      matchRem :=
        if .symbols ∈ r then BitVec.ofNat 9 (upTo 16 s 256) else s.win.matchRem - BitVec.ofNat 9 (step 16) }
  else
    { s.win with
      produced := fork 13 s s.win.produced t.win.produced
      pos := fork 14 s s.win.pos t.win.pos
      matchSrc := fork 15 s s.win.matchSrc t.win.matchSrc
      matchRem := fork 16 s s.win.matchRem t.win.matchRem }

/-- The core at some moment of a command `i` that takes it from `s` to `t`. ERR and ERR_CAUSE were cleared at acceptance; FAIL,
FAIL_CAUSE and FAIL_INFO are written together (10_state.md R39). -/
def glimpse (i : Instr) (s t : State) : State :=
  let r := rewrites i s
  let f := fork 17 s s.status t.status
  { s with
    regs := fork 18 s s.regs t.regs
    status :=
      { s.status with
        ready := fork 19 s s.status.ready t.status.ready
        ovr := fork 20 s s.status.ovr t.status.ovr
        fail := f.fail, failCause := f.failCause, failTable := f.failTable, failDetail := f.failDetail }
    lat := fork 21 s s.lat t.lat
    bits := glimpseBits r s t
    tabs := glimpseTables r s t
    win := glimpseWindow r s t }

/-- The number of free choices of one read while BUSY. -/
def choicesPerRead : Nat := 22

/-- What a read returns while the command of `w` is in flight: CMD, ID, the reserved offsets and every field marked 0 as ever,
STATUS.BUSY 1, and every other field a value it may hold during the command. -/
def readRegBusy (off : BitVec 8) (w : Word) (s : State) : Word :=
  match decode w with
  | .ok i =>
    match exec i { s with status := { s.status with running := none } } with
    | .next t => readReg off (glimpse i s t)
    | .fault _ => readReg off s
    | .refused _ => readReg off s
  | .error _ => readReg off s

/-- READ: the value goes to the host; no register changes (R34). -/
def hostRead (off : BitVec 8) (s : State) : State :=
  match s.status.running with
  | some r => { s with hostData := readRegBusy off r.word s, draws := s.draws + choicesPerRead }
  | none => { s with hostData := readReg off s }

/-! ## Host moves -/

/-- The rejection of a word that is no command (30_encoding.md R153). -/
def decodeCause : DecodeError → ErrCause
  | .illegalOpcode => .illegalOpcode
  | .reservedField => .reservedField

/-- A word written to CMD (60_exceptions.md R455): steps 1 to 3, then the command's own meaning. -/
def command (w : Word) (s : State) : Outcome :=
  match decode w with
  | .ok i => exec i s
  | .error e => .next (if busyBit s then dropWrite s else reject (decodeCause e) s)

/-- WRITE (R33 to R36): dropped while BUSY; otherwise CMD runs a command, a read-write register stores all 32 bits, and
every other offset ignores the write. -/
def hostWrite (off : BitVec 8) (v : Word) (s : State) : Outcome :=
  if busyBit s then .next (dropWrite s)
  else
    match off with
    | 0x00#8 => command v s
    | 0x08#8 => .next { s with regs := { s.regs with inLen := v } }
    | 0x0C#8 => .next { s with regs := { s.regs with outLen := v } }
    | 0x10#8 => .next { s with regs := { s.regs with outCap := v } }
    | 0x14#8 => .next { s with regs := { s.regs with arg := v } }
    | _ => .next s

/-- A command written to CMD and left in flight: rejected at once, or accepted with BUSY = 1 (60_exceptions.md R450). No
step of an accepted command is visible before it completes (00_scope.md R20). -/
def startCommand (w : Word) (s : State) : Outcome :=
  if busyBit s then .next (dropWrite s)
  else
    match command w s with
    | .next t =>
      if t.status.err then .next t
      else .next
        { accept s with status :=
          { (accept s).status with running := some { word := w, dropped := false } } }
    | .fault r => .fault r
    | .refused r => .refused r

/-- STATUS.OVR after a command during which a write was dropped: left set, unless the command itself clears OVR, and then
the order of the two is open (10_state.md R35, R37; log entry 9). -/
def settleOverrun (dropped : Bool) (s : State) : State :=
  if dropped && !s.status.ovr then
    { s with status := { s.status with ovr := Config.drawBit s.draws }, draws := s.draws + 1 }
  else s

/-- The command in flight completes and BUSY falls; with none in flight the core stays idle (60_exceptions.md R466,
70_reset_and_hazards.md R520). -/
def complete (s : State) : Outcome :=
  match s.status.running with
  | none => .next s
  | some r =>
    match command r.word { s with status := { s.status with running := none } } with
    | .next t => .next (settleOverrun r.dropped t)
    | .fault e => .fault e
    | .refused e => .refused e

/-- The platform's reset input (70_reset_and_hazards.md R500, R501). A command in flight is abandoned: the OUT bytes it may
have written hold any value (93_implementation_defined.md M29). -/
def platformReset (s : State) : State :=
  match s.status.running with
  | none => coldReset s
  | some r =>
    match command r.word { s with status := { s.status with running := none } } with
    | .next t =>
      coldReset { s with outMem := dropRange s.outMem 0 (min t.win.produced.toNat s.lat.outCap.toNat) }
    | .fault _ => coldReset s
    | .refused _ => coldReset s

/-- The host places a payload byte in IN (70_reset_and_hazards.md R502, R513). -/
def placeInput (off : Word) (b : Byte) (s : State) : Outcome :=
  if busyBit s then .refused .bufferAccessWhileBusy
  else if decodeActive s then .refused .inChangedDuringDecode
  else .next { s with inMem := s.inMem.write off.toNat b }

/-- The host reads its IN buffer (20_memory.md R100): the byte there, or a free value where it placed none. A read changes
nothing, so it may come during a decode, between commands. -/
def readInput (off : Word) (s : State) : Outcome :=
  if busyBit s then .refused .bufferAccessWhileBusy
  else .next { s with hostData := ((sourceOf s).byte off.toNat).setWidth 32 }

/-- The host writes its OUT buffer (70_reset_and_hazards.md R514). -/
def writeOutput (off : Word) (b : Byte) (s : State) : Outcome :=
  if busyBit s then .refused .bufferAccessWhileBusy
  else if decodeActive s && decide (off < s.lat.outCap) then .refused .outWrittenDuringDecode
  else .next { s with outMem := s.outMem.write off.toNat b }

/-- The host reads its OUT buffer (20_memory.md R121): a byte with no known value is a fresh draw. -/
def readOutput (off : Word) (s : State) : Outcome :=
  if busyBit s then .refused .bufferAccessWhileBusy
  else
    match s.outMem.read off.toNat with
    | some b => .next { s with hostData := b.setWidth 32 }
    | none => .next { s with hostData := (Config.drawByte s.draws).setWidth 32, draws := s.draws + 1 }

/-- A register offset is a multiple of 4 (20_memory.md R106). -/
def aligned (off : BitVec 8) : Bool := off.extractLsb' 0 2 = 0#2

/-- One move of the host or the platform. -/
def hostMove (op : HostOp) (s : State) : Outcome :=
  match op with
  | .write off v => if aligned off then hostWrite off v s else .refused .unalignedRegisterAccess
  | .start w => startCommand w s
  | .poll => complete s
  | .read off => if aligned off then .next (hostRead off s) else .refused .unalignedRegisterAccess
  | .platformReset => .next (platformReset s)
  | .placeIn off b => placeInput off b s
  | .readIn off => readInput off s
  | .writeOut off b => writeOutput off b s
  | .readOut off => readOutput off s

end Sys2Proof.Machine
end

