-- ==== Sys2Proof/Machine/Step.lean ====
section
/-! DEFINITION. The step. The core executes no stored program (10_state.md R31): it is driven by the host's moves, held
in `hostOps` oldest first. A step takes the next move; with none pending, a command in flight completes and an idle core
stays as it is (60_exceptions.md R466). -/

namespace Sys2Proof.Machine

def step (s : State) : Host.Outcome State Fault Refusal :=
  match s.hostOps with
  | [] => complete s
  | op :: rest => hostMove op { s with hostOps := rest }

/-- `s` with an opcode-table word as the host's next write to CMD, and no command in flight that would make the core
drop it. -/
def State.withFetchWord (s : State) (nbits w : Nat) : State :=
  { s with
    hostOps := .write 0x00#8 ((BitVec.ofNat nbits w).setWidth 32) :: s.hostOps
    status := { s.status with running := none } }

end Sys2Proof.Machine
end

