-- ==== Sys2Proof/WellFormed.lean ====
section
/-! DEFINITION. Operand legality of a command as syntax: the "operand legality" column of
30_encoding.md R151, without START_MATCH's length, which stands in ARG and so is part of the state. -/

namespace Sys2Proof

/-- The command's own operands lie in the ranges of R151. -/
def Instr.wellFormed : Instr → Bool
  | .init => true
  | .reset => true
  | .decodeChunk b => decide (1 ≤ b.toNat) && decide (b.toNat ≤ 8192)
  | .decodeAll => true
  | .peek n => decide (n.toNat ≤ 16)
  | .consume n => decide (n.toNat ≤ 16)
  | .getBits n => decide (n.toNat ≤ 16)
  | .setLen .c n b => decide (n.toNat ≤ 16) && decide (b.toNat < 510)
  | .setLen .pt n b => decide (n.toNat ≤ 16) && decide (b.toNat < 19)
  | .getLen .c b => decide (b.toNat < 510)
  | .getLen .pt b => decide (b.toNat < 19)
  | .makeTable .c b => decide (b.toNat = 510)
  | .makeTable .pt b => decide (b.toNat = 19) || decide (b.toNat = 14)
  | .getTable .c b => decide (b.toNat < 4096)
  | .getTable .pt b => decide (b.toNat < 256)
  | .getNode _ b => decide (b.toNat < 1019)
  | .readMetaLen => true
  | .readCLen => true
  | .readPLen => true
  | .readBlockHeader => true
  | .decodeC => true
  | .decodeP => true
  | .putLiteral b => decide (b.toNat ≤ 255)
  | .startMatch b => decide (b.toNat ≤ 8191)
  | .copy b => decide (1 ≤ b.toNat)

end Sys2Proof
end

