-- ==== Sys2Proof/Safety.lean ====
section
/-! DEFINITION. The terms in which claims about the core are made: when a command runs its own effect, the operand
legality of a whole command, the invariants, the compressed bit stream as 20_memory.md R101 defines it, and canonical
codes as 30_encoding.md R167 defines them. Nothing here is used by the step. -/

namespace Sys2Proof.Machine

/-- BUSY = 0, READY = 1, FAIL = 0: prechecks 1, 4 and 5 of 60_exceptions.md R455 let every command pass. -/
def State.Runs (s : State) : Prop :=
  s.status.running = none ∧ s.status.ready = true ∧ s.status.fail = false

/-- BUSY = 0 and READY = 1: what GET_LEN, GET_TABLE and GET_NODE need (R455). -/
def State.Inspectable (s : State) : Prop := s.status.running = none ∧ s.status.ready = true

/-- ERR and ERR_CAUSE cleared: what acceptance does (60_exceptions.md R451). -/
def State.cleared (s : State) : State :=
  { s with status := { s.status with err := false, errCause := 0#8 } }

/-- ERR set with a cause code: what a rejection does (60_exceptions.md R451). -/
def State.withError (code : BitVec 8) (s : State) : State :=
  { s with status := { s.status with err := true, errCause := code } }

/-- RESULT holds v. -/
def State.withResult (v : Word) (s : State) : State := { s with regs := { s.regs with result := v } }

/-- FAIL, FAIL_CAUSE and FAIL_INFO set, the OUT bytes produced so far forgotten: what a failure does (60_exceptions.md R452,
20_memory.md R121). -/
def State.withFailure (cause : BitVec 8) (table : BitVec 4) (detail : BitVec 24) (s : State) : State :=
  { s with
    status := { s.status with fail := true, failCause := cause, failTable := table, failDetail := detail }
    outMem := dropRange s.outMem 0 (min s.win.produced.toNat s.lat.outCap.toNat) }

/-- Precheck 6 of R455 for a whole command: its operands, and START_MATCH's length in ARG[15:0]. -/
def legalIn (i : Instr) (s : State) : Prop :=
  i.wellFormed = true ∧
    match i with
    | .startMatch _ => 3 ≤ s.regs.arg.toNat % 65536 ∧ s.regs.arg.toNat % 65536 ≤ 256
    | _ => True

/-- Commands accepted in every state (R455 steps 4 and 5). -/
def isControl : Instr → Bool
  | .init | .reset => true
  | _ => false

/-- Commands accepted after a failure (R455 step 5). -/
def isInspection : Instr → Bool
  | .getLen _ _ | .getTable _ _ | .getNode _ _ => true
  | _ => false

/-- The invariants 10_state.md, 40_bitreader.md and 43_window_expander.md state of the registers, and the form of the
model's lists. -/
structure State.Inv (s : State) : Prop where
  /-- The parameters lie in their ranges (00_scope.md R11). -/
  cfg_wf : s.cfg.wf = true
  in_wf : Memory.wf s.inMem = true
  out_wf : Memory.wf s.outMem = true
  window_wf : Memory.wf s.win.window = true
  cLen_rising : rising s.tabs.cLen = true
  ptLen_rising : rising s.tabs.ptLen = true
  cTable_rising : rising s.tabs.cTable = true
  ptTable_rising : rising s.tabs.ptTable = true
  left_rising : rising s.tabs.left = true
  right_rising : rising s.tabs.right = true
  /-- Code lengths are 0..16 (10_state.md R48). -/
  cLen_le : ∀ i, (lenAt s.tabs.cLen i).toNat ≤ 16
  ptLen_le : ∀ i, (lenAt s.tabs.ptLen i).toNat ≤ 16
  /-- POS = PRODUCED mod 8192 (10_state.md R53). -/
  pos_eq : s.win.pos.toNat = s.win.produced.toNat % 8192
  /-- PRODUCED ≤ L_OUT_LEN (10_state.md R54). -/
  produced_le : s.win.produced.toNat ≤ s.lat.outLen.toNat
  /-- MATCH_REM is 0..256 (10_state.md R55). -/
  matchRem_le : s.win.matchRem.toNat ≤ 256
  /-- STAGE_IDX ≤ STAGE_LEN ≤ STAGE_CAP (10_state.md R44). -/
  stageIdx_le : s.bits.stageIdx.toNat ≤ s.bits.stage.length
  stageLen_le : s.bits.stage.length ≤ s.cfg.stageCap
  /-- IN_CURSOR ≤ L_IN_LEN (10_state.md R45). -/
  inCursor_le : s.bits.inCursor.toNat ≤ s.lat.inLen.toNat
  /-- BITCOUNT ≤ 7 between steps (40_bitreader.md R204). -/
  bitcount_le : s.bits.bitcount.toNat ≤ 7
  /-- BLOCKSIZE has BLOCKCNT_BITS bits (10_state.md R47). -/
  blockSize_lt : s.tabs.blockSize.toNat < 2 ^ s.cfg.blockCntBits.bits
  /-- PT_NCHAR is 0, 19 or 14 as PT_KIND is NONE, META or POS (10_state.md R51). -/
  ptNchar_eq : s.tabs.ptNchar =
    match s.tabs.ptKind with
    | .unbuilt => 0#5
    | .metaList => 19#5
    | .position => 14#5
  /-- FAIL_CAUSE and FAIL_INFO are 0 when FAIL = 0 (10_state.md R37, 60_exceptions.md R453). -/
  fail_clear : s.status.fail = false →
    s.status.failCause = 0#8 ∧ s.status.failTable = 0#4 ∧ s.status.failDetail = 0#24
  /-- ERR_CAUSE is 0 when ERR = 0 (10_state.md R37). -/
  err_clear : s.status.err = false → s.status.errCause = 0#8

/-- Bit k of the compressed stream (20_memory.md R101): IN[k div 8][7 − (k mod 8)] below 8 · L_IN_LEN, 0 beyond. -/
def streamBit (s : State) (k : Nat) : Bool :=
  if k < 8 * s.lat.inLen.toNat then ((sourceOf s).byte (k / 8)).getLsbD (7 - k % 8) else false

/-- The BitReader stands in the stream at BITPOS (40_bitreader.md R204): BITBUF is the next 16 stream bits, SUBBITBUF the
stream byte fetched last, whose low BITCOUNT bits follow BITBUF, and the staged bytes not yet fetched are the IN bytes before
IN_CURSOR. -/
structure StreamInv (s : State) : Prop where
  bitbuf_eq : ∀ t, t < 16 → s.bits.bitbuf.getLsbD (15 - t) = streamBit s (s.bits.bitpos + t)
  sub_eq : ∀ j, j < 8 →
    s.bits.subbitbuf.getLsbD (7 - j) = streamBit s (s.bits.bitpos + 8 + s.bits.bitcount.toNat + j)
  bitcount_le : s.bits.bitcount.toNat ≤ 7
  /-- BITPOS + 16 + BITCOUNT = 8 · F, F the number of fetches since INIT; min(F, L_IN_LEN) of them took an IN byte. -/
  whole_bytes : (s.bits.bitpos + 16 + s.bits.bitcount.toNat) % 8 = 0
  fetched : s.bits.inCursor.toNat - s.bits.stage.length + s.bits.stageIdx.toNat =
    min ((s.bits.bitpos + 16 + s.bits.bitcount.toNat) / 8) s.lat.inLen.toNat
  staged : ∀ k, s.bits.stageIdx.toNat ≤ k → ∀ h : k < s.bits.stage.length,
    s.bits.stage[k] = (sourceOf s).byte (s.bits.inCursor.toNat - s.bits.stage.length + k)
  stage_le : s.bits.stage.length ≤ s.bits.inCursor.toNat
  stageIdx_le : s.bits.stageIdx.toNat ≤ s.bits.stage.length
  inCursor_le : s.bits.inCursor.toNat ≤ s.lat.inLen.toNat
  stageLen_le : s.bits.stage.length ≤ 65535
  stageCap_pos : 1 ≤ s.cfg.stageCap
  stageCap_le : s.cfg.stageCap ≤ 65535

/-- OUT and WINDOW hold the same recent output (43_window_expander.md R351): every produced byte below L_OUT_CAP among the last
8192 is known in OUT and stands in WINDOW at its index mod 8192. -/
def OutInv (s : State) : Prop :=
  s.win.pos.toNat = s.win.produced.toNat % 8192 ∧
  ∀ k, k < s.win.produced.toNat → s.win.produced.toNat ≤ k + 8192 → k < s.lat.outCap.toNat →
    ∃ b, s.outMem.read k = some b ∧ s.win.window.read (k % 8192) = some b

/-- The sum of count[len] · 2^(16−len) over the lengths 1..16 (41_table_builder.md R252). -/
def kraftSum (lens : List Nat) : Nat :=
  ((List.range 16).map fun i => lens.countP (fun l => l == i + 1) * 2 ^ (15 - i)).sum

/-- The code lengths an instance's build reads: symbol 0 first (41_table_builder.md R250, R251). -/
def buildLens (id : TableId) (s : State) : List Nat := lensUpTo (lensOf id s) id.nchar

/-- Every table a symbol decode inside a block looks up is built (60_exceptions.md R455 step 7). -/
def State.TablesReady (s : State) : Prop :=
  s.tabs.blockSize ≠ 0#32 → s.tabs.cBuilt = true ∧ s.tabs.ptKind = .position

/-- The next byte a copy reads is one the core may read: it was written since INIT, or WINDOW_INIT is not FAULT (43_window_expander.md R350). -/
def State.SourceReadable (s : State) : Prop :=
  s.cfg.windowInit ≠ .fault ∨ 8192 ≤ s.win.produced.toNat ∨ s.win.matchSrc.toNat < s.win.produced.toNat

/-- The input is exhausted and only zero bits remain: BITBUF and SUBBITBUF are 0 and no staged or IN byte is left. -/
def State.OnlyZeroBits (s : State) : Prop :=
  s.bits.bitbuf = 0#16 ∧ s.bits.subbitbuf = 0#8 ∧ s.bits.stage = [] ∧ s.bits.stageIdx = 0#16 ∧
    s.bits.inCursor = s.lat.inLen

/-- The 16-bit left-justified canonical code of symbol ch of length L (30_encoding.md R167): start[L] and one increment of
2^(16−L) for each smaller symbol of the same length. -/
def canonicalCode (lens : List Nat) (ch L : Nat) : Nat :=
  startCode lens L + codeCount (lens.take ch) L * 2 ^ (16 - L)

end Sys2Proof.Machine
end

