-- ==== Sys2Proof/Certificates/Slice0/Obligations.lean ====
section
/-! DEFINITION. The statements about the model, for the provers: each is a `def Obligations.<Name> : Prop`. -/

open Sys2Proof Sys2Proof.Machine

/-! ## Encoding -/

/-- The decoder and the encoder agree on every word: `w` decodes to `i` exactly when `w` is the word of `i`. So every command, with
every value its fields hold, decodes back from its word, and no word but its own decodes to it: no bit of a word is ignored. -/
def Obligations.DecodeAndEncodeAgree : Prop :=
  ∀ (w : Word) (i : Instr), decode w = .ok i ↔ encode i = w

/-- R153: an OP outside the opcode map is ILLEGAL_OPCODE; an OP of the map in a word that is no command's word (a nonzero
reserved or unused field) is RESERVED_FIELD. -/
def Obligations.DecodeErrorsByOpcodeAndFields : Prop :=
  ∀ w : Word,
    (decode w = .error .illegalOpcode ↔ ∀ i : Instr, (encode i).toNat % 256 ≠ w.toNat % 256) ∧
    (decode w = .error .reservedField ↔
      (∃ i : Instr, (encode i).toNat % 256 = w.toNat % 256) ∧ ∀ i : Instr, encode i ≠ w)

/-- R154: the example words. -/
def Obligations.ExampleWordsDecode : Prop :=
  decode 0x00000001#32 = .ok .init ∧ decode 0x20000003#32 = .ok (.decodeChunk 8192#16) ∧
  decode 0x00000C10#32 = .ok (.peek 12#5) ∧ decode 0x00410120#32 = .ok (.setLen .c 1#5 65#16) ∧
  decode 0x00032720#32 = .ok (.setLen .pt 7#5 3#16) ∧ decode 0x000E2022#32 = .ok (.makeTable .pt 14#16) ∧
  decode 0x00000041#32 = .ok (.startMatch 0#16)

/-! ## The step -/

/-- With the core idle and a command word the host's next write to CMD, a step is that command's meaning. -/
def Obligations.StepRunsTheDecodedCommand : Prop :=
  ∀ (s : State) (w : Word) (rest : List HostOp) (i : Instr),
    s.status.running = none → s.hostOps = .write 0x00#8 w :: rest → decode w = .ok i →
    step s = exec i { s with hostOps := rest }

/-- R153, R451: a word that is no command is rejected and changes nothing but ERR and ERR_CAUSE. -/
def Obligations.StepRejectsAWordThatIsNoCommand : Prop :=
  ∀ (s : State) (w : Word) (rest : List HostOp),
    s.status.running = none → s.hostOps = .write 0x00#8 w :: rest →
    (decode w = .error .illegalOpcode → step s = .next ({ s with hostOps := rest }.withError 0x01#8)) ∧
    (decode w = .error .reservedField → step s = .next ({ s with hostOps := rest }.withError 0x02#8))

/-- R35: a write while BUSY is dropped: it changes nothing but STATUS.OVR (and the model's own note that it was dropped, log
entry 9), and starts no command. -/
def Obligations.WritesWhileBusyAreDropped : Prop :=
  ∀ (s : State) (r : Running) (rest : List HostOp) (off : BitVec 8) (v : Word),
    s.status.running = some r → off.toNat % 4 = 0 →
    (s.hostOps = .write off v :: rest ∨ s.hostOps = .start v :: rest) →
    step s = .next { s with
      hostOps := rest
      status := { s.status with ovr := true, running := some { r with dropped := true } } }

/-- R20: a command left in flight and then waited for ends as the same command written at once. That it runs in the step in which it
completes is the model's choice (log entries 9, 11). -/
def Obligations.StartThenCompleteEqualsWrite : Prop :=
  ∀ (w : Word) (s : State), s.status.running = none →
    ∃ u, startCommand w s = .next u ∧ complete u = hostWrite 0x00#8 w s

/-- R511 to R514: the moves that break a host duty are refused, each under its own name (the model's names, log entry 13). -/
def Obligations.HostDutyBreachesAreRefused : Prop :=
  ∀ (s : State) (rest : List HostOp) (off : BitVec 8) (v : Word) (a : Word) (b : Byte),
    (off.toNat % 4 ≠ 0 → (s.hostOps = .write off v :: rest ∨ s.hostOps = .read off :: rest) →
      step s = .refused .unalignedRegisterAccess) ∧
    (s.status.running ≠ none →
      (s.hostOps = .placeIn a b :: rest ∨ s.hostOps = .readIn a :: rest ∨ s.hostOps = .writeOut a b :: rest ∨
        s.hostOps = .readOut a :: rest) →
      step s = .refused .bufferAccessWhileBusy) ∧
    (s.status.running = none → s.status.ready = true → s.status.fail = false →
      s.win.produced ≠ s.lat.outLen →
      (s.hostOps = .placeIn a b :: rest → step s = .refused .inChangedDuringDecode) ∧
      (s.hostOps = .writeOut a b :: rest → a.toNat < s.lat.outCap.toNat →
        step s = .refused .outWrittenDuringDecode))

/-- R100, R502, R513, R514: with the core idle the host reads and writes its two buffers, and nothing else changes. Placing a
byte in IN completes unless a decode is in progress, writing a byte of OUT unless a decode is in progress and the offset lies
below L_OUT_CAP, and both reads always complete. A byte of IN or OUT that nothing has placed reads as some byte (free values,
log entries 4, 5). -/
def Obligations.HostBufferMovesComplete : Prop :=
  ∀ (s : State) (rest : List HostOp) (a : Word) (b : Byte), s.status.running = none →
    let decoding := s.status.ready = true ∧ s.status.fail = false ∧ s.win.produced ≠ s.lat.outLen
    (¬ decoding → s.hostOps = .placeIn a b :: rest → ∃ m : Memory,
      step s = .next { s with hostOps := rest, inMem := m } ∧
      ∀ k, m.read k = if k = a.toNat then some b else s.inMem.read k) ∧
    (s.hostOps = .readIn a :: rest → ∃ x : Byte,
      step s = .next { s with hostOps := rest, hostData := x.setWidth 32 } ∧
      ∀ y, s.inMem.read a.toNat = some y → x = y) ∧
    (¬ decoding ∨ s.lat.outCap.toNat ≤ a.toNat → s.hostOps = .writeOut a b :: rest → ∃ m : Memory,
      step s = .next { s with hostOps := rest, outMem := m } ∧
      ∀ k, m.read k = if k = a.toNat then some b else s.outMem.read k) ∧
    (s.hostOps = .readOut a :: rest → ∃ (x : Byte) (d : Nat),
      step s = .next { s with hostOps := rest, hostData := x.setWidth 32, draws := d } ∧
      ∀ y, s.outMem.read a.toNat = some y → x = y ∧ d = s.draws)

/-- R35 and M20: what a read returns while a command is in flight; R501: what the platform's reset does then. A read changes no
register (the host's own record of what it read and the count of free values apart, log entries 1, 8). CMD, ID, the reserved
offsets and every field marked 0 read as ever, STATUS.BUSY is 1 and ERR is as it was at acceptance; IN_LEN, OUT_LEN, OUT_CAP and
ARG hold their current values unless the command is RESET, READY and OVR unless it is INIT or RESET; RESULT, FAIL and FAIL_INFO
hold the value before or after; PRODUCED lies on the way between the two; BLOCKSIZE stays below 2^BLOCKCNT_BITS. That these are
the values a register may hold is the model's choice (log entry 9). The reset gives every register its reset value and makes the
OUT bytes that the command may have written any value: those below L_OUT_CAP and below PRODUCED as the command would have left it
(the model's choice, log entry 16). -/
def Obligations.ReadsAndResetWhileACommandRuns : Prop :=
  ∀ (s : State) (r : Running) (rest : List HostOp), s.status.running = some r →
    (∀ off : BitVec 8, off.toNat % 4 = 0 → s.hostOps = .read off :: rest →
      ∃ (v : Word) (d : Nat), step s = .next { s with hostOps := rest, hostData := v, draws := d } ∧
        (off = 0x00#8 ∨ 0x48 ≤ off.toNat → v = 0#32) ∧ (off = 0x3C#8 → v = 0x2D6C6835#32) ∧
        (off = 0x04#8 → v.getLsbD 0 = true ∧ v.getLsbD 4 = s.status.err ∧ v.extractLsb' 16 8 = s.status.errCause ∧
          v.extractLsb' 24 8 = 0#8) ∧
        (off = 0x24#8 → v.toNat < 2 ^ 28) ∧ (off = 0x2C#8 → v.toNat < 2 ^ 25 ∧ v.toNat / 2 ^ 13 % 8 = 0) ∧
        (off = 0x30#8 → v.toNat < 2 ^ 13) ∧ (off = 0x38#8 → v.toNat / 2 ^ 4 % 16 = 0) ∧
        (off = 0x40#8 → v.toNat < 2 ^ 13 ∧ v.toNat / 2 ^ 3 % 32 = 0) ∧
        (off = 0x44#8 → v.toNat < 2 ^ 27 ∧ v.toNat / 2 ^ 11 % 32 = 0) ∧
        ∀ (i : Instr) (t : State), decode r.word = .ok i →
          exec i { s with hostOps := rest, status := { s.status with running := none } } = .next t →
          (i ≠ .reset →
            (off = 0x08#8 → v = s.regs.inLen) ∧ (off = 0x0C#8 → v = s.regs.outLen) ∧
            (off = 0x10#8 → v = s.regs.outCap) ∧ (off = 0x14#8 → v = s.regs.arg)) ∧
          (off = 0x04#8 → i ≠ .init → i ≠ .reset →
            v.getLsbD 1 = s.status.ready ∧ v.getLsbD 5 = s.status.ovr) ∧
          (off = 0x04#8 → v.getLsbD 3 = s.status.fail ∨ v.getLsbD 3 = t.status.fail) ∧
          (off = 0x38#8 → v = readReg 0x38#8 s ∨ v = readReg 0x38#8 t) ∧
          (off = 0x18#8 → v = s.regs.result ∨ v = t.regs.result) ∧
          (off = 0x1C#8 → s.win.produced.toNat ≤ t.win.produced.toNat →
            s.win.produced.toNat ≤ v.toNat ∧ v.toNat ≤ t.win.produced.toNat) ∧
          (off = 0x28#8 → s.tabs.blockSize.toNat < 2 ^ s.cfg.blockCntBits.bits →
            t.tabs.blockSize.toNat < 2 ^ s.cfg.blockCntBits.bits → v.toNat < 2 ^ s.cfg.blockCntBits.bits)) ∧
    (s.hostOps = .platformReset :: rest → ∃ m : Memory,
      step s = .next { State.reset with
        cfg := s.cfg, inMem := s.inMem, outMem := m, hostOps := rest, hostData := s.hostData, draws := s.draws } ∧
      ∀ (i : Instr) (t : State), decode r.word = .ok i →
        exec i { s with hostOps := rest, status := { s.status with running := none } } = .next t →
        ∀ a, m.read a =
          if a < t.win.produced.toNat ∧ a < s.lat.outCap.toNat then none else s.outMem.read a)

/-! ## Registers and reset -/

/-- R500: the state after reset, as the host and the commands see it. That no host move is pending is the model's (log entry 1). -/
def Obligations.ResetStateValues : Prop :=
  statusWord State.reset = 0x00000080#32 ∧
  (∀ off : BitVec 8, off ≠ 0x04#8 → off ≠ 0x3C#8 → readReg off State.reset = 0#32) ∧
  readReg 0x3C#8 State.reset = 0x2D6C6835#32 ∧
  (∀ i, lenAt State.reset.tabs.cLen i = 0#5 ∧ lenAt State.reset.tabs.ptLen i = 0#5) ∧
  State.reset.tabs.ptKind = .unbuilt ∧ State.reset.tabs.cBuilt = false ∧
  State.reset.lat = { inLen := 0, outLen := 0, outCap := 0 } ∧ State.reset.hostOps = []

/-- R33: what a read of each offset of the register window returns to the host while BUSY = 0; a read changes no register. -/
def Obligations.RegisterMapReads : Prop :=
  ∀ (s : State) (rest : List HostOp) (off : BitVec 8),
    s.status.running = none → off.toNat % 4 = 0 → s.hostOps = .read off :: rest →
    ∃ v : Word, step s = .next { s with hostOps := rest, hostData := v } ∧
      (off = 0x00#8 ∨ 0x48 ≤ off.toNat → v = 0#32) ∧
      (off = 0x04#8 → v = statusWord s) ∧
      (off = 0x08#8 → v = s.regs.inLen) ∧ (off = 0x0C#8 → v = s.regs.outLen) ∧
      (off = 0x10#8 → v = s.regs.outCap) ∧ (off = 0x14#8 → v = s.regs.arg) ∧
      (off = 0x18#8 → v = s.regs.result) ∧ (off = 0x1C#8 → v = s.win.produced) ∧
      (off = 0x20#8 → v = s.bits.inCursor) ∧
      (off = 0x24#8 → v.toNat =
        s.bits.bitbuf.toNat + 2 ^ 16 * s.bits.subbitbuf.toNat + 2 ^ 24 * s.bits.bitcount.toNat) ∧
      (off = 0x28#8 → v = s.tabs.blockSize) ∧
      (off = 0x2C#8 → v.toNat = s.win.matchSrc.toNat + 2 ^ 16 * s.win.matchRem.toNat) ∧
      (off = 0x30#8 → v.toNat = s.win.pos.toNat) ∧
      (off = 0x34#8 → v.toNat = s.bits.stageIdx.toNat + 2 ^ 16 * (s.bits.stage.length % 2 ^ 16)) ∧
      (off = 0x38#8 → v.toNat = s.status.failTable.toNat + 2 ^ 8 * s.status.failDetail.toNat) ∧
      (off = 0x3C#8 → v = 0x2D6C6835#32) ∧
      (off = 0x40#8 → v.toNat =
        s.tabs.cBuilt.toNat + 2 * s.tabs.ptKind.code.toNat + 2 ^ 8 * s.tabs.ptNchar.toNat) ∧
      (off = 0x44#8 → v.toNat = s.tabs.cAvail.toNat + 2 ^ 16 * s.tabs.ptAvail.toNat)

/-- R34, R36: a write to IN_LEN, OUT_LEN, OUT_CAP or ARG stores all 32 bits and nothing else; a write to any other offset but
CMD has no effect. -/
def Obligations.RegisterWrites : Prop :=
  ∀ (s : State) (rest : List HostOp) (off : BitVec 8) (v : Word),
    s.status.running = none → off.toNat % 4 = 0 → off ≠ 0x00#8 → s.hostOps = .write off v :: rest →
    (off = 0x08#8 → step s = .next { s with hostOps := rest, regs := { s.regs with inLen := v } }) ∧
    (off = 0x0C#8 → step s = .next { s with hostOps := rest, regs := { s.regs with outLen := v } }) ∧
    (off = 0x10#8 → step s = .next { s with hostOps := rest, regs := { s.regs with outCap := v } }) ∧
    (off = 0x14#8 → step s = .next { s with hostOps := rest, regs := { s.regs with arg := v } }) ∧
    (off ≠ 0x08#8 → off ≠ 0x0C#8 → off ≠ 0x10#8 → off ≠ 0x14#8 → step s = .next { s with hostOps := rest })

/-- R37: STATUS field by field, its combinational bits included. -/
def Obligations.StatusFieldByField : Prop :=
  ∀ s : State,
    (statusWord s).getLsbD 0 = s.status.running.isSome ∧
    (statusWord s).getLsbD 1 = s.status.ready ∧
    (statusWord s).getLsbD 2 =
      (s.status.ready && !s.status.fail && decide (s.win.produced = s.lat.outLen)) ∧
    (statusWord s).getLsbD 3 = s.status.fail ∧
    (statusWord s).getLsbD 4 = s.status.err ∧
    (statusWord s).getLsbD 5 = s.status.ovr ∧
    (statusWord s).getLsbD 6 = decide (s.win.matchRem ≠ 0#9) ∧
    (statusWord s).getLsbD 7 = decide (s.tabs.blockSize = 0#32) ∧
    (statusWord s).extractLsb' 8 8 = s.status.failCause ∧
    (statusWord s).extractLsb' 16 8 = s.status.errCause ∧
    (statusWord s).extractLsb' 24 8 = 0#8

/-- R400: INIT in every state that is not BUSY. The lengths are latched, the BitReader restarted, the block, table bookkeeping
and window cursors cleared, FAIL, OVR and ERR cleared, READY set, RESULT 0; the arrays, the buffers and the host's
configuration registers keep their contents. -/
def Obligations.InitStartsADecode : Prop :=
  ∀ s : State, s.status.running = none →
    ∃ t, exec .init s = .next t ∧
      t = { s with
        regs := { s.regs with result := 0#32 }
        status :=
          { running := none, ready := true, fail := false, err := false, ovr := false
            failCause := 0#8, errCause := 0#8, failTable := 0#4, failDetail := 0#24 }
        lat := { inLen := s.regs.inLen, outLen := s.regs.outLen, outCap := s.regs.outCap }
        bits := t.bits
        tabs :=
          { s.tabs with
            blockSize := 0#32, cBuilt := false, ptKind := .unbuilt, ptNchar := 0#5, cAvail := 0#11, ptAvail := 0#11 }
        win := { s.win with pos := 0#13, produced := 0#32, matchSrc := 0#13, matchRem := 0#9 } } ∧
      t.bits = initBits (sourceOf t) s.bits

/-- R203: what INIT leaves in the BitReader: BITBUF is the first two stream bytes (0 at or past L_IN_LEN), SUBBITBUF the second,
BITCOUNT and BITPOS 0, and IN_CURSOR, STAGE_LEN and STAGE_IDX as the fetch policy gives them. -/
def Obligations.InitFillsTheLookahead : Prop :=
  ∀ s t : State, s.status.running = none → 1 ≤ s.cfg.stageCap → s.cfg.stageCap ≤ 65535 → exec .init s = .next t →
    let n := s.regs.inLen.toNat
    let byte (k : Nat) : Nat := if k < n then ((sourceOf s).byte k).toNat else 0
    t.bits.bitbuf.toNat = 256 * byte 0 + byte 1 ∧ t.bits.subbitbuf.toNat = byte 1 ∧
    t.bits.bitcount = 0#4 ∧ t.bits.bitpos = 0 ∧
    t.bits.inCursor.toNat = min n (max s.cfg.stageCap 2) ∧
    (2 ≤ n → t.bits.stage.length = min s.cfg.stageCap n ∧ t.bits.stageIdx.toNat = min 2 t.bits.stage.length) ∧
    (n < 2 → t.bits.stage.length = 0 ∧ t.bits.stageIdx = 0#16)

/-- R401, R500: RESET in every state that is not BUSY: every register and field takes its reset value; the parameters, the
buffers and the model's own host moves and draw count stay (log entries 1, 8). The platform's reset input gives the same state.
Two parts of it are the model's choices: BITPOS is 0 (log entry 3, where R46 and R500 leave it undefined); C_LEN and PT_LEN are
0 and the other arrays hold no known value, which follows R500 against R401's words that the arrays are not cleared (log entry
10). -/
def Obligations.ResetTakesResetValues : Prop :=
  ∀ (s : State) (rest : List HostOp), s.status.running = none →
    exec .reset s = .next { State.reset with
      cfg := s.cfg, inMem := s.inMem, outMem := s.outMem
      hostOps := s.hostOps, hostData := s.hostData, draws := s.draws } ∧
    (s.hostOps = .platformReset :: rest → step s = exec .reset { s with hostOps := rest })

/-! ## Prechecks (R455) -/

/-- R455 steps 4 to 6: before INIT every command but INIT and RESET is rejected NOT_READY; after a failure every command but those
two and GET_LEN, GET_TABLE, GET_NODE is rejected FAILED, either way whatever its operands; a command that passes both is rejected
ILLEGAL_OPERAND when an operand lies outside its legality range. -/
def Obligations.NotReadyFailedAndIllegalOperandRejections : Prop :=
  ∀ (i : Instr) (s : State), s.status.running = none → isControl i = false →
    (s.status.ready = false → exec i s = .next (s.withError 0x04#8)) ∧
    (s.status.ready = true → s.status.fail = true → isInspection i = false →
      exec i s = .next (s.withError 0x05#8)) ∧
    (s.status.ready = true → (s.status.fail = false ∨ isInspection i = true) → ¬ legalIn i s →
      exec i s = .next (s.withError 0x03#8))

/-- R455 step 7: the state preconditions of each command, in their order within the command. -/
def Obligations.StatePreconditionsRejected : Prop :=
  ∀ (b : BitVec 16) (s : State), s.Runs →
    (legalIn (.decodeChunk b) s →
      (s.lat.outLen.toNat - s.win.produced.toNat < b.toNat →
        exec (.decodeChunk b) s = .next (s.withError 0x06#8)) ∧
      (b.toNat ≤ s.lat.outLen.toNat - s.win.produced.toNat → ¬ s.TablesReady →
        exec (.decodeChunk b) s = .next (s.withError 0x08#8))) ∧
    (s.win.produced.toNat < s.lat.outLen.toNat → ¬ s.TablesReady →
      exec .decodeAll s = .next (s.withError 0x08#8)) ∧
    (s.tabs.blockSize ≠ 0#32 → s.tabs.cBuilt = false → exec .decodeC s = .next (s.withError 0x08#8)) ∧
    (s.tabs.ptKind ≠ .position → exec .decodeP s = .next (s.withError 0x08#8)) ∧
    (s.tabs.ptKind ≠ .metaList → exec .readCLen s = .next (s.withError 0x08#8)) ∧
    (legalIn (.putLiteral b) s →
      (s.win.matchRem ≠ 0#9 → exec (.putLiteral b) s = .next (s.withError 0x07#8)) ∧
      (s.win.matchRem = 0#9 → s.win.produced = s.lat.outLen →
        exec (.putLiteral b) s = .next (s.withError 0x06#8))) ∧
    (legalIn (.startMatch b) s → s.win.matchRem ≠ 0#9 →
      exec (.startMatch b) s = .next (s.withError 0x07#8))

/-! ## BitReader -/

/-- R220: PEEK N gives the top N bits of BITBUF in RESULT (0 for N = 0, BITBUF for N = 16) and changes nothing else. -/
def Obligations.PeekReadsTheTopBits : Prop :=
  ∀ (n : BitVec 5) (s : State), s.Runs → n.toNat ≤ 16 →
    ∃ v : Word, v.toNat = s.bits.bitbuf.toNat / 2 ^ (16 - n.toNat) ∧ (n = 0#5 → v = 0#32) ∧
      (n = 16#5 → v.toNat = s.bits.bitbuf.toNat) ∧
      exec (.peek n) s = .next (s.cleared.withResult v)

/-- R221: CONSUME N removes N stream bits; RESULT and everything outside the BitReader stay; CONSUME 0 does nothing. -/
def Obligations.ConsumeMovesOnlyTheBitReader : Prop :=
  ∀ (n : BitVec 5) (s : State), s.Runs → n.toNat ≤ 16 →
    ∃ b : BitReader, b.bitpos = s.bits.bitpos + n.toNat ∧ b = (consumeBits n.toNat s).bits ∧
      (n = 0#5 → b = s.bits) ∧
      exec (.consume n) s = .next { s.cleared with bits := b }

/-- R102, R212, R222: GETBITS N returns what PEEK N returns and moves the BitReader as CONSUME N does. In the stream that is the
next N stream bits, the first one the most significant, consumed; GETBITS 0 returns 0 and consumes nothing. -/
def Obligations.GetBitsReturnsTheNextStreamBits : Prop :=
  ∀ (n : BitVec 5) (s : State), s.Runs → n.toNat ≤ 16 →
    ∃ v : Word, v.toNat = s.bits.bitbuf.toNat / 2 ^ (16 - n.toNat) ∧ v.toNat < 2 ^ n.toNat ∧
      exec (.getBits n) s = .next ({ s.cleared with bits := (consumeBits n.toNat s).bits }.withResult v) ∧
      (consumeBits n.toNat s).bits.bitpos = s.bits.bitpos + n.toNat ∧
      (n = 0#5 → v = 0#32 ∧ (consumeBits n.toNat s).bits = s.bits) ∧
      (StreamInv s → ∀ k, k < n.toNat → v.getLsbD (n.toNat - 1 - k) = streamBit s (s.bits.bitpos + k))

/-- R203, R204: after INIT the BitReader stands at bit 0 of the stream of R101. -/
def Obligations.InitEntersTheStream : Prop :=
  ∀ s t : State, s.status.running = none → s.cfg.wf = true → exec .init s = .next t →
    StreamInv t ∧ t.bits.bitpos = 0

/-- R204: the register-level BitReader is the bit cursor BITPOS over the stream of R101: every command but RESET keeps BITBUF the
next 16 stream bits, for every STAGE_CAP, across every byte boundary and past the end of the input. -/
def Obligations.EveryCommandStaysInTheStream : Prop :=
  ∀ (i : Instr) (s t : State), s.Inv → StreamInv s → i ≠ .reset → exec i s = .next t → StreamInv t

/-! ## HuffmanTableBuilder -/

/-- R270: SET_LEN writes one length and marks its table unbuilt; nothing else changes. -/
def Obligations.SetLenWritesOneLength : Prop :=
  ∀ (t : Side) (n : BitVec 5) (b : BitVec 16) (s : State), s.Runs → legalIn (.setLen t n b) s →
    ∃ u, exec (.setLen t n b) s = .next u ∧
      (t = .c →
        u = { s.cleared with tabs := { s.tabs with cLen := u.tabs.cLen, cBuilt := false } } ∧
        ∀ j, lenAt u.tabs.cLen j = if j = b.toNat then n else lenAt s.tabs.cLen j) ∧
      (t = .pt →
        u = { s.cleared with tabs :=
          { s.tabs with ptLen := u.tabs.ptLen, ptKind := .unbuilt, ptNchar := 0#5 } } ∧
        ∀ j, lenAt u.tabs.ptLen j = if j = b.toNat then n else lenAt s.tabs.ptLen j)

/-- R271, R273: GET_LEN returns the length and GET_TABLE the entry, also after a failure, and change nothing else; a table entry
that nothing has written since reset gives some 10-bit value (a free value, log entry 6). -/
def Obligations.GetLenAndGetTableReturnTheEntry : Prop :=
  ∀ (t : Side) (b : BitVec 16) (s : State), s.Inspectable →
    (legalIn (.getLen t b) s → exec (.getLen t b) s = .next (s.cleared.withResult
      ((lenAt (match t with | .c => s.tabs.cLen | .pt => s.tabs.ptLen) b.toNat).setWidth 32))) ∧
    (legalIn (.getTable t b) s →
      match readCell (match t with | .c => s.tabs.cTable | .pt => s.tabs.ptTable) b.toNat with
      | some x => exec (.getTable t b) s = .next (s.cleared.withResult (x.setWidth 32))
      | none => ∃ x : BitVec 10, exec (.getTable t b) s =
          .next ({ s.cleared with draws := s.draws + 1 }.withResult (x.setWidth 32)))

/-- R274: GET_NODE returns LEFT[B] (T = 0) or RIGHT[B] (T = 1) of a live node, also after a failure; any other entry gives some
10-bit value (a free value, log entry 6). Nothing else changes. -/
def Obligations.GetNodeReturnsTheChild : Prop :=
  ∀ (t : Child) (b : BitVec 16) (s : State), s.Inspectable → legalIn (.getNode t b) s →
    let live := if 510 ≤ b.toNat then b.toNat < s.tabs.cAvail.toNat
      else s.tabs.ptFirst.toNat ≤ b.toNat ∧ b.toNat < s.tabs.ptAvail.toNat
    let entry := readCell (match t with | .left => s.tabs.left | .right => s.tabs.right) b.toNat
    (∀ x, live → entry = some x → exec (.getNode t b) s = .next (s.cleared.withResult (x.setWidth 32))) ∧
    (¬ live ∨ entry = none → ∃ x : BitVec 10, exec (.getNode t b) s =
      .next ({ s.cleared with draws := s.draws + 1 }.withResult (x.setWidth 32)))

/-- R252: a build whose lengths' sum is not 2^16 fails BAD_TABLE with the instance and the sum, marks the table unbuilt, and leaves
TABLE, LEFT, RIGHT, LEN and everything else as they were; the sum is at most 16711680, so its 24-bit detail is exact. -/
def Obligations.IncompleteCodeFailsTheBuild : Prop :=
  ∀ (t : Side) (b : BitVec 16) (s : State), s.Runs → legalIn (.makeTable t b) s →
    let id := match t with
      | .c => TableId.cTable
      | .pt => if b = 19#16 then .metaTable else .posTable
    kraftSum (buildLens id s) ≤ 16711680 ∧
    (kraftSum (buildLens id s) ≠ 65536 →
      exec (.makeTable t b) s = .next ({ s.cleared with tabs :=
        match t with
        | .c => { s.tabs with cBuilt := false }
        | .pt => { s.tabs with ptKind := .unbuilt, ptNchar := 0#5 } }.withFailure
          0x01#8 id.code (BitVec.ofNat 24 (kraftSum (buildLens id s)))))

/-- R50, R252, R256, R259, R272: lengths whose sum is 2^16 build: RESULT is the node counter AVAIL, at least nchar and, for
lengths of at most 16, below 2 · nchar, the bookkeeping names the table, every TABLE entry is written, and nothing but TABLE,
LEFT, RIGHT and the bookkeeping changes. LEFT and RIGHT change only from nchar to AVAIL − 1, so that a build of one side keeps
the other side's nodes. -/
def Obligations.CompleteCodeBuilds : Prop :=
  ∀ (t : Side) (b : BitVec 16) (s : State), s.Runs → legalIn (.makeTable t b) s →
    let id := match t with
      | .c => TableId.cTable
      | .pt => if b = 19#16 then .metaTable else .posTable
    kraftSum (buildLens id s) = 65536 →
      ∃ (u : State) (avail : Nat), exec (.makeTable t b) s = .next u ∧ id.nchar ≤ avail ∧
        ((∀ L ∈ buildLens id s, L ≤ 16) → avail < 2 * id.nchar ∧
          ∀ k, k < id.nchar ∨ avail ≤ k →
            readCell u.tabs.left k = readCell s.tabs.left k ∧ readCell u.tabs.right k = readCell s.tabs.right k) ∧
        (t = .c →
          u = { s.cleared with
            tabs := { s.tabs with
              cTable := u.tabs.cTable, left := u.tabs.left, right := u.tabs.right
              cAvail := BitVec.ofNat 11 avail, cBuilt := true }
            regs := { s.regs with result := BitVec.ofNat 32 avail } } ∧
          ∀ i, i < 4096 → (readCell u.tabs.cTable i).isSome = true) ∧
        (t = .pt →
          u = { s.cleared with
            tabs := { s.tabs with
              ptTable := u.tabs.ptTable, left := u.tabs.left, right := u.tabs.right
              ptAvail := BitVec.ofNat 11 avail, ptFirst := BitVec.ofNat 5 id.nchar
              ptKind := if b = 19#16 then .metaList else .position
              ptNchar := if b = 19#16 then 19#5 else 14#5 }
            regs := { s.regs with result := BitVec.ofNat 32 avail } } ∧
          ∀ i, i < 256 → (readCell u.tabs.ptTable i).isSome = true)

/-- R167, R254 to R258: after a build, the canonical codes of the lengths are what the tables hold and the lookup decodes. A direct
entry that begins with a short symbol's code holds that symbol; whatever BITBUF holds, exactly one symbol's code begins it; and the
lookup answers that symbol, through the tree for a code longer than the direct width, so that it never fails STALE_NODE. -/
def Obligations.BuiltTableDecodesCanonicalCodes : Prop :=
  ∀ (id : TableId) (s u w : State) (v : Word), (∀ L ∈ buildLens id s, L ≤ 16) →
    buildTable id s = .ok v u → w.tabs = u.tabs →
    let lens := buildLens id s
    let begins (ch L : Nat) : Prop := lens[ch]? = some L ∧ 1 ≤ L ∧
      canonicalCode lens ch L ≤ w.bits.bitbuf.toNat ∧ w.bits.bitbuf.toNat < canonicalCode lens ch L + 2 ^ (16 - L)
    (∀ ch L, lens[ch]? = some L → 1 ≤ L → L ≤ id.tb →
      ∀ i, canonicalCode lens ch L / 2 ^ (16 - id.tb) ≤ i →
        i < canonicalCode lens ch L / 2 ^ (16 - id.tb) + 2 ^ (id.tb - L) →
        readCell (tableOf id u) i = some (BitVec.ofNat 10 ch)) ∧
    (∃ ch L, begins ch L) ∧
    (∀ ch L ch' L', begins ch L → begins ch' L' → ch = ch') ∧
    ∀ ch L, begins ch L → lookup id w = .ok (BitVec.ofNat 10 ch) w

/-- R257, R258: a lookup consumes nothing and changes nothing, whatever the table holds; it answers a symbol of its table or
fails STALE_NODE with the offending value and the table's code. A direct entry that is a symbol is the answer; one at or above
AVAIL that is no symbol fails with that entry. -/
def Obligations.LookupAnswersASymbolOrStaleNode : Prop :=
  ∀ (id : TableId) (s : State),
    ((∃ c : BitVec 10, c.toNat < id.nchar ∧ lookup id s = .ok c s) ∨
      (∃ c : BitVec 10, id.nchar ≤ c.toNat ∧
        lookup id s = .failed { cause := .staleNode, table := id.code, detail := c.setWidth 24 } s)) ∧
    ∀ c : BitVec 10, readCell (tableOf id s) (s.bits.bitbuf.toNat / 2 ^ (16 - id.tb)) = some c →
      (c.toNat < id.nchar → lookup id s = .ok c s) ∧
      (id.nchar ≤ c.toNat → (availOf id s).toNat ≤ c.toNat →
        lookup id s = .failed { cause := .staleNode, table := id.code, detail := c.setWidth 24 } s)

/-! ## BlockDecoder -/

/-- R301: a length code: 0..6 in 3 bits; 7 + k for the escape, k ones and a zero in 4 + k bits, k ≤ 9; more ones fail
LENGTH_OVERFLOW with the length, before anything is consumed. -/
def Obligations.LengthCodeValueAndCost : Prop :=
  ∀ (code : BitVec 4) (s : State),
    (∀ v, s.bits.bitbuf.toNat / 2 ^ 13 = v → v ≤ 6 → readLenCode code s = .ok v (consumeBits 3 s)) ∧
    (∀ k, s.bits.bitbuf.toNat / 2 ^ 13 = 7 → (∀ j, j < k → s.bits.bitbuf.getLsbD (12 - j) = true) →
      (k ≤ 9 → s.bits.bitbuf.getLsbD (12 - k) = false →
        readLenCode code s = .ok (7 + k) (consumeBits (4 + k) s)) ∧
      (10 ≤ k → k ≤ 12 → s.bits.bitbuf.getLsbD (12 - k) = false →
        readLenCode code s =
          .failed { cause := .lengthOverflow, table := code, detail := BitVec.ofNat 24 (7 + k) } s) ∧
      (k = 13 → readLenCode code s =
        .failed { cause := .lengthOverflow, table := code, detail := 20#24 } s))

/-- R300, R302: READ_META_LEN and READ_P_LEN with a count n of 1 to their symbol count nn. `c k` is the k-th length code and `B
k` the BitReader before it; in the meta list, right after the third code and only then, the special run takes 2 bits, clears
that many entries from 3 on and never overflows, so that the codes after it stand r entries further on. After m codes the list
has filled `next m` entries. Once that reaches n, the entries up to nn are cleared and the command ends as MAKE_TABLE does from
there, with RESULT n; a code that fails before that ends it with the entries so far. -/
def Obligations.PtListsFillThenBuild : Prop :=
  (∀ s : State, ∃ (r : Nat) (u : State), r = s.bits.bitbuf.toNat / 2 ^ 14 ∧ r ≤ 3 ∧
    specialRun .metaTable 3 s = .ok (3 + r) u ∧
    u = { consumeBits 2 s with tabs := { s.tabs with ptLen := u.tabs.ptLen } } ∧
    ∀ j, lenAt u.tabs.ptLen j = if 3 ≤ j ∧ j < 3 + r then 0#5 else lenAt s.tabs.ptLen j) ∧
  (∀ (isMeta : Bool) (s : State) (n m r : Nat) (c : Nat → Nat) (B : Nat → BitReader), s.Runs →
    let nn := if isMeta then 19 else 14
    let nbit := if isMeta then 5 else 4
    let code := if isMeta then 1#4 else 3#4
    let read : Instr := if isMeta then .readMetaLen else .readPLen
    let next (k : Nat) : Nat := if isMeta = true ∧ 3 ≤ k then k + r else k
    let filled (k i : Nat) : BitVec 5 :=
      if isMeta = false ∨ i < 3 then if i < k then BitVec.ofNat 5 (c i) else lenAt s.tabs.ptLen i
      else if i < 3 + r then if 3 ≤ k then 0#5 else lenAt s.tabs.ptLen i
      else if i < k + r then BitVec.ofNat 5 (c (i - r)) else lenAt s.tabs.ptLen i
    s.bits.bitbuf.toNat / 2 ^ (16 - nbit) = n → 1 ≤ n → n ≤ nn → B 0 = (consumeBits nbit s).bits → r ≤ 3 →
    (∀ k, k < m → next k < n ∧ ∃ x : State, readLenCode code { s with bits := B k } = .ok (c k) x ∧
      (¬ (isMeta = true ∧ k = 2) → B (k + 1) = x.bits) ∧
      (isMeta = true ∧ k = 2 → r = x.bits.bitbuf.toNat / 2 ^ 14 ∧ B 3 = (consumeBits 2 x).bits)) →
    ∃ w : State, w = { s.cleared with
        bits := B m, tabs := { s.tabs with ptLen := w.tabs.ptLen, ptKind := .unbuilt, ptNchar := 0#5 } } ∧
      (n ≤ next m →
        (∀ i, lenAt w.tabs.ptLen i = if next m ≤ i ∧ i < nn then 0#5 else filled m i) ∧
        ∃ x, exec (.makeTable .pt (BitVec.ofNat 16 nn)) w = .next x ∧
          (x.status.fail = false → exec read s = .next (x.withResult (BitVec.ofNat 32 n))) ∧
          (x.status.fail = true → exec read s = .next x)) ∧
      (next m < n → ∀ (f : Failure) (x : State), readLenCode code { s with bits := B m } = .failed f x →
        (∀ i, lenAt w.tabs.ptLen i = filled m i) ∧
        exec read s = .next (w.withFailure f.cause.code f.table f.detail)))

/-- R305 to R307: READ_C_LEN. A C item is one meta symbol: 0 is a run of one zero, 1 a run of 3 plus the next 4 bits, 2 a run of
20 plus the next 9 bits, c ≥ 3 the length c − 2. A run past symbol 510 fails RUN_OVERFLOW with i + r and writes nothing,
otherwise its entries become 0. With a count n of 1 to 510 the list is its items, `st k` and `at k` before the k-th one, until n
is reached; the entries up to 510 are then cleared and the command ends as MAKE_TABLE does from there, with RESULT n. An item
that fails ends it. -/
def Obligations.CListItemsFillThenBuild : Prop :=
  (∀ (i r : Nat) (s : State),
    (510 < i + r →
      zeroRun i r s = .failed { cause := .runOverflow, table := 2#4, detail := BitVec.ofNat 24 (i + r) } s) ∧
    (i + r ≤ 510 → ∃ u, zeroRun i r s = .ok (i + r) u ∧
      u = { s with tabs := { s.tabs with cLen := u.tabs.cLen } } ∧
      ∀ j, lenAt u.tabs.cLen j = if i ≤ j ∧ j < i + r then 0#5 else lenAt s.tabs.cLen j)) ∧
  (∀ (i : Nat) (s : State),
    (∀ c : BitVec 10, lookup .metaTable s = .ok c s →
      let a := consumeBits (lenAt s.tabs.ptLen c.toNat).toNat s
      (c = 0#10 → cItem i s = zeroRun i 1 a) ∧
      (c = 1#10 → cItem i s = zeroRun i (a.bits.bitbuf.toNat / 2 ^ 12 + 3) (consumeBits 4 a)) ∧
      (c = 2#10 → cItem i s = zeroRun i (a.bits.bitbuf.toNat / 2 ^ 7 + 20) (consumeBits 9 a)) ∧
      (3 ≤ c.toNat → ∃ u, cItem i s = .ok (i + 1) u ∧ u = { a with tabs := { a.tabs with cLen := u.tabs.cLen } } ∧
        ∀ j, lenAt u.tabs.cLen j = if j = i then BitVec.ofNat 5 (c.toNat - 2) else lenAt s.tabs.cLen j)) ∧
    (∀ f, lookup .metaTable s = .failed f s → cItem i s = .failed f s)) ∧
  (∀ (s : State) (n m : Nat) (at_ : Nat → Nat) (st : Nat → State), s.Runs → s.tabs.ptKind = .metaList →
    s.bits.bitbuf.toNat / 2 ^ 7 = n → 1 ≤ n → n ≤ 510 → at_ 0 = 0 →
    st 0 = { s.cleared with bits := (consumeBits 9 s).bits, tabs := { s.tabs with cBuilt := false } } →
    (∀ k, k < m → at_ k < n ∧ cItem (at_ k) (st k) = .ok (at_ (k + 1)) (st (k + 1))) →
    (n ≤ at_ m → ∃ w x : State, w = { st m with tabs := { (st m).tabs with cLen := w.tabs.cLen } } ∧
      (∀ i, lenAt w.tabs.cLen i = if at_ m ≤ i ∧ i < 510 then 0#5 else lenAt (st m).tabs.cLen i) ∧
      exec (.makeTable .c 510#16) w = .next x ∧
      (x.status.fail = false → exec .readCLen s = .next (x.withResult (BitVec.ofNat 32 n))) ∧
      (x.status.fail = true → exec .readCLen s = .next x)) ∧
    (at_ m < n → ∀ (f : Failure) (u : State), cItem (at_ m) (st m) = .failed f u →
      exec .readCLen s = .next (u.withFailure f.cause.code f.table f.detail)))

/-- R303: with a count of 0, READ_META_LEN, READ_P_LEN and READ_C_LEN complete with a single-code table: every LEN entry 0, every
TABLE entry the value read, AVAIL = nchar, RESULT 0. -/
def Obligations.SingleCodeListsComplete : Prop :=
  ∀ s : State, s.Runs →
    (s.bits.bitbuf.toNat / 2 ^ 11 = 0 → ∃ u, exec .readMetaLen s = .next u ∧ u.regs.result = 0#32 ∧
      u.bits = (consumeBits 5 (consumeBits 5 s)).bits ∧
      (∀ i, i < 256 → readCell u.tabs.ptTable i = some ((peekBits 5 (consumeBits 5 s)).setWidth 10)) ∧
      (∀ i, lenAt u.tabs.ptLen i = if i < 19 then 0#5 else lenAt s.tabs.ptLen i) ∧
      u.tabs.ptKind = .metaList ∧ u.tabs.ptNchar = 19#5 ∧ u.tabs.ptAvail = 19#11 ∧
      u.win = s.win ∧ u.outMem = s.outMem ∧ u.status = s.cleared.status) ∧
    (s.bits.bitbuf.toNat / 2 ^ 12 = 0 → ∃ u, exec .readPLen s = .next u ∧ u.regs.result = 0#32 ∧
      u.bits = (consumeBits 4 (consumeBits 4 s)).bits ∧
      (∀ i, i < 256 → readCell u.tabs.ptTable i = some ((peekBits 4 (consumeBits 4 s)).setWidth 10)) ∧
      (∀ i, lenAt u.tabs.ptLen i = if i < 14 then 0#5 else lenAt s.tabs.ptLen i) ∧
      u.tabs.ptKind = .position ∧ u.tabs.ptNchar = 14#5 ∧ u.tabs.ptAvail = 14#11 ∧
      u.win = s.win ∧ u.outMem = s.outMem ∧ u.status = s.cleared.status) ∧
    (s.tabs.ptKind = .metaList → s.bits.bitbuf.toNat / 2 ^ 7 = 0 →
      ∃ u, exec .readCLen s = .next u ∧ u.regs.result = 0#32 ∧
      u.bits = (consumeBits 9 (consumeBits 9 s)).bits ∧
      (∀ i, i < 4096 → readCell u.tabs.cTable i = some ((peekBits 9 (consumeBits 9 s)).setWidth 10)) ∧
      (∀ i, lenAt u.tabs.cLen i = if i < 510 then 0#5 else lenAt s.tabs.cLen i) ∧
      u.tabs.cBuilt = true ∧ u.tabs.cAvail = 510#11 ∧ u.tabs.ptKind = .metaList ∧
      u.win = s.win ∧ u.outMem = s.outMem ∧ u.status = s.cleared.status)

/-- R304: a count above the list's symbol count fails COUNT_OVERFLOW with the count, and no LEN entry is written. -/
def Obligations.CountOverflowFailsBeforeAnyLength : Prop :=
  ∀ s : State, s.Runs →
    (∀ n, s.bits.bitbuf.toNat / 2 ^ 11 = n → 19 < n → ∃ u, exec .readMetaLen s = .next u ∧
      u.status = (s.cleared.withFailure 0x02#8 1#4 (BitVec.ofNat 24 n)).status ∧
      u.bits = (consumeBits 5 s).bits ∧ u.regs = s.regs ∧
      u.tabs = { s.tabs with ptKind := .unbuilt, ptNchar := 0#5 }) ∧
    (s.bits.bitbuf.toNat / 2 ^ 12 = 15 → ∃ u, exec .readPLen s = .next u ∧
      u.status = (s.cleared.withFailure 0x02#8 3#4 15#24).status ∧
      u.bits = (consumeBits 4 s).bits ∧ u.regs = s.regs ∧
      u.tabs = { s.tabs with ptKind := .unbuilt, ptNchar := 0#5 }) ∧
    (s.tabs.ptKind = .metaList → s.bits.bitbuf.toNat / 2 ^ 7 = 511 → ∃ u, exec .readCLen s = .next u ∧
      u.status = (s.cleared.withFailure 0x02#8 2#4 511#24).status ∧
      u.bits = (consumeBits 9 s).bits ∧ u.regs = s.regs ∧
      u.tabs = { s.tabs with cBuilt := false })

/-- R320 to R323: a list or header read that runs to its end completes the command with its count or block size in RESULT; one that
fails records the failure and keeps every earlier step's effect and RESULT (R452). -/
def Obligations.TableReadCommandsEndAsTheirRead : Prop :=
  ∀ (s u : State) (v : Word) (f : Failure), s.Runs →
    (readPtLen metaList s.cleared = .ok v u → exec .readMetaLen s = .next (u.withResult v)) ∧
    (readPtLen metaList s.cleared = .failed f u →
      exec .readMetaLen s = .next (u.withFailure f.cause.code f.table f.detail)) ∧
    (readPtLen positionList s.cleared = .ok v u → exec .readPLen s = .next (u.withResult v)) ∧
    (readPtLen positionList s.cleared = .failed f u →
      exec .readPLen s = .next (u.withFailure f.cause.code f.table f.detail)) ∧
    (s.tabs.ptKind = .metaList → readCLen s.cleared = .ok v u → exec .readCLen s = .next (u.withResult v)) ∧
    (s.tabs.ptKind = .metaList → readCLen s.cleared = .failed f u →
      exec .readCLen s = .next (u.withFailure f.cause.code f.table f.detail)) ∧
    (readBlockHeader s.cleared = .ok v u → exec .readBlockHeader s = .next (u.withResult v)) ∧
    (readBlockHeader s.cleared = .failed f u →
      exec .readBlockHeader s = .next (u.withFailure f.cause.code f.table f.detail))

/-- R300, R303, R305, R310: a list read that succeeds leaves its table built, from lengths that are a complete code or as a
single-code table with every length 0; a header that succeeds leaves the C and the position table built; the header's BLOCKSIZE
is its first 16 bits, also when a later step of it fails. -/
def Obligations.SuccessfulReadsLeaveBuiltTables : Prop :=
  ∀ (s u : State) (v : Word) (f : Failure),
    (readPtLen metaList s = .ok v u → u.tabs.ptKind = .metaList ∧ u.tabs.ptNchar = 19#5 ∧
      (kraftSum (buildLens .metaTable u) = 65536 ∨ (v = 0#32 ∧ ∀ i, i < 19 → lenAt u.tabs.ptLen i = 0#5))) ∧
    (readPtLen positionList s = .ok v u → u.tabs.ptKind = .position ∧ u.tabs.ptNchar = 14#5 ∧
      (kraftSum (buildLens .posTable u) = 65536 ∨ (v = 0#32 ∧ ∀ i, i < 14 → lenAt u.tabs.ptLen i = 0#5))) ∧
    (readCLen s = .ok v u → u.tabs.cBuilt = true ∧
      (kraftSum (buildLens .cTable u) = 65536 ∨ (v = 0#32 ∧ ∀ i, i < 510 → lenAt u.tabs.cLen i = 0#5))) ∧
    (readBlockHeader s = .ok v u → v.toNat = s.bits.bitbuf.toNat ∧ u.tabs.blockSize = v ∧
      u.tabs.cBuilt = true ∧ u.tabs.ptKind = .position) ∧
    (readBlockHeader s = .failed f u → u.tabs.blockSize.toNat = s.bits.bitbuf.toNat)

/-- R464, R213: past the end of the input a block header of zero bits is valid and 52 bits long: READ_BLOCK_HEADER completes with
RESULT 0 and single-code tables, and DECODE_C then gives symbol 0 and the counter wraps. -/
def Obligations.ZeroBitsAreAValidBlock : Prop :=
  ∀ s : State, s.Runs → s.OnlyZeroBits →
    (∃ u, exec .readBlockHeader s = .next u ∧ u.regs.result = 0#32 ∧ u.tabs.blockSize = 0#32 ∧
      u.bits.bitpos = s.bits.bitpos + 52 ∧ u.tabs.cBuilt = true ∧ u.tabs.ptKind = .position ∧
      u.tabs.cAvail = 510#11 ∧ u.tabs.ptAvail = 14#11 ∧ u.status = s.cleared.status ∧ u.win = s.win) ∧
    (s.tabs.blockSize = 0#32 → ∃ u, exec .decodeC s = .next u ∧ u.regs.result = 0#32 ∧
      u.tabs.blockSize.toNat = 2 ^ s.cfg.blockCntBits.bits - 1 ∧ u.bits.bitpos = s.bits.bitpos + 52 ∧
      u.status = s.cleared.status ∧ u.win = s.win)

/-- R311, R313, R324: DECODE_C reads the next block header first when BLOCKSIZE = 0 (a header that fails ends it there),
decrements BLOCKSIZE modulo 2^BLOCKCNT_BITS, so that a size field of 0 stands for 2^BLOCKCNT_BITS symbols, then looks one symbol
up, consumes its code length and returns it. A lookup that fails leaves the counter decremented and RESULT unchanged. -/
def Obligations.DecodeCDecrementsThenDecodes : Prop :=
  ∀ s : State, s.Runs → s.tabs.blockSize.toNat < 2 ^ s.cfg.blockCntBits.bits →
    (∀ (u : State) (f : Failure), s.tabs.blockSize = 0#32 → readBlockHeader s.cleared = .failed f u →
      exec .decodeC s = .next (u.withFailure f.cause.code f.table f.detail)) ∧
    (∀ u : State,
      (s.tabs.blockSize = 0#32 ∧ (∃ v, readBlockHeader s.cleared = .ok v u)) ∨
        (s.tabs.blockSize ≠ 0#32 ∧ s.tabs.cBuilt = true ∧ u = s.cleared) →
      ∃ left : Word,
        left.toNat = (u.tabs.blockSize.toNat + (2 ^ s.cfg.blockCntBits.bits - 1)) % 2 ^ s.cfg.blockCntBits.bits ∧
        (∀ c, lookup .cTable u = .ok c u → exec .decodeC s = .next
          ({ u with
            tabs := { u.tabs with blockSize := left }
            bits := (consumeBits (lenAt u.tabs.cLen c.toNat).toNat u).bits }.withResult (c.setWidth 32))) ∧
        (∀ f, lookup .cTable u = .failed f u → exec .decodeC s = .next
          ({ u with tabs := { u.tabs with blockSize := left } }.withFailure f.cause.code f.table f.detail)))

/-- R312, R325: DECODE_P: position symbol 0 gives distance 0; symbol j ≥ 1 gives 2^(j−1) plus the next j − 1 bits, at most 8191;
only the BitReader and RESULT change, so BLOCKSIZE, the tables and the window stay. A direct-table entry that is a symbol is the
symbol; a lookup that fails is recorded. -/
def Obligations.DecodePGivesTheDistance : Prop :=
  ∀ s : State, s.Runs → s.tabs.ptKind = .position →
    (∀ c : BitVec 10, (lookup .posTable s = .ok c s ∨
        (c.toNat < 14 ∧ readCell s.tabs.ptTable (s.bits.bitbuf.toNat / 2 ^ 8) = some c)) →
      let a := consumeBits (lenAt s.tabs.ptLen c.toNat).toNat s
      (c = 0#10 → exec .decodeP s = .next ({ s.cleared with bits := a.bits }.withResult 0#32)) ∧
      (c ≠ 0#10 → ∃ v : Word,
        v.toNat = 2 ^ (c.toNat - 1) + a.bits.bitbuf.toNat / 2 ^ (16 - (c.toNat - 1)) ∧ v.toNat ≤ 8191 ∧
        exec .decodeP s = .next ({ s.cleared with bits := (consumeBits (c.toNat - 1) a).bits }.withResult v))) ∧
    (∀ f, lookup .posTable s = .failed f s →
      exec .decodeP s = .next (s.cleared.withFailure f.cause.code f.table f.detail))

/-- Frame of READ_META_LEN, READ_C_LEN, READ_P_LEN, READ_BLOCK_HEADER, DECODE_C, DECODE_P: they change only the BitReader, the
tables and BLOCKSIZE, RESULT and the STATUS outcome fields; window, cursors, pending match, latched lengths, IN and the host's
registers stay, and OUT stays unless the command fails. READ_META_LEN and READ_P_LEN keep the C side and BLOCKSIZE, READ_C_LEN
keeps the PT side and BLOCKSIZE, DECODE_P keeps every table. R50: from code lengths of at most 16, READ_META_LEN and READ_P_LEN
keep the C nodes (LEFT and RIGHT from 510 on) and READ_C_LEN keeps the PT nodes (below 510). -/
def Obligations.TableAndSymbolCommandsFrame : Prop :=
  ∀ (i : Instr) (s t : State),
    i = .readMetaLen ∨ i = .readCLen ∨ i = .readPLen ∨ i = .readBlockHeader ∨ i = .decodeC ∨ i = .decodeP →
    s.status.running = none → exec i s = .next t →
    t.win = s.win ∧ t.lat = s.lat ∧ t.inMem = s.inMem ∧ t.cfg = s.cfg ∧ t.draws = s.draws ∧
    t.hostOps = s.hostOps ∧ t.hostData = s.hostData ∧
    t.regs = { s.regs with result := t.regs.result } ∧
    t.status.ready = s.status.ready ∧ t.status.ovr = s.status.ovr ∧ t.status.running = none ∧
    (t.status.fail = s.status.fail → ∀ a, t.outMem.read a = s.outMem.read a) ∧
    (∀ a, s.lat.outCap.toNat ≤ a → t.outMem.read a = s.outMem.read a) ∧
    (i = .readMetaLen ∨ i = .readPLen →
      t.tabs.blockSize = s.tabs.blockSize ∧ t.tabs.cLen = s.tabs.cLen ∧ t.tabs.cTable = s.tabs.cTable ∧
      t.tabs.cBuilt = s.tabs.cBuilt ∧ t.tabs.cAvail = s.tabs.cAvail ∧
      ((∀ k, (lenAt s.tabs.ptLen k).toNat ≤ 16) → ∀ k, 510 ≤ k →
        readCell t.tabs.left k = readCell s.tabs.left k ∧ readCell t.tabs.right k = readCell s.tabs.right k)) ∧
    (i = .readCLen →
      t.tabs.blockSize = s.tabs.blockSize ∧ t.tabs.ptLen = s.tabs.ptLen ∧ t.tabs.ptTable = s.tabs.ptTable ∧
      t.tabs.ptKind = s.tabs.ptKind ∧ t.tabs.ptNchar = s.tabs.ptNchar ∧ t.tabs.ptAvail = s.tabs.ptAvail ∧
      ((∀ k, (lenAt s.tabs.cLen k).toNat ≤ 16) → ∀ k, k < 510 →
        readCell t.tabs.left k = readCell s.tabs.left k ∧ readCell t.tabs.right k = readCell s.tabs.right k)) ∧
    (i = .decodeP → t.tabs = s.tabs)

/-! ## WindowExpander -/

/-- R351, R360: PUT_LITERAL B writes the byte to WINDOW[POS], and to OUT[PRODUCED] if PRODUCED < L_OUT_CAP; POS and PRODUCED
advance; nothing else changes. -/
def Obligations.PutLiteralEmitsOneByte : Prop :=
  ∀ (b : BitVec 16) (s : State), s.Runs → b.toNat ≤ 255 → s.win.matchRem = 0#9 →
    s.win.produced.toNat < s.lat.outLen.toNat →
    ∃ u, exec (.putLiteral b) s = .next u ∧
      u = { s.cleared with
        outMem := u.outMem
        win := { s.win with
          window := u.win.window, pos := s.win.pos + 1#13, produced := s.win.produced + 1#32 } } ∧
      (∀ k, u.win.window.read k = if k = s.win.pos.toNat then some (b.setWidth 8) else s.win.window.read k) ∧
      (∀ a, u.outMem.read a =
        if a = s.win.produced.toNat ∧ s.win.produced.toNat < s.lat.outCap.toNat then some (b.setWidth 8)
        else s.outMem.read a)

/-- R352, R361: START_MATCH B sets MATCH_SRC = (POS − d − 1) mod 8192 and MATCH_REM = ARG[15:0], returns MATCH_SRC, reads no byte
and changes nothing else. -/
def Obligations.StartMatchSetsTheCopy : Prop :=
  ∀ (b : BitVec 16) (s : State), s.Runs → legalIn (.startMatch b) s → s.win.matchRem = 0#9 →
    ∃ (src : BitVec 13) (len : BitVec 9),
      src.toNat = (s.win.pos.toNat + 8192 - b.toNat - 1 + 8192) % 8192 ∧
      len.toNat = s.regs.arg.toNat % 65536 ∧
      exec (.startMatch b) s = .next
        ({ s.cleared with win := { s.win with matchSrc := src, matchRem := len } }.withResult (src.setWidth 32))

/-- R353, R362: COPY B copies k = min(B, MATCH_REM, L_OUT_LEN − PRODUCED) bytes and returns k: the cursors advance by k, MATCH_REM
falls by k, and OUT changes only at PRODUCED .. PRODUCED + k − 1 below L_OUT_CAP. With k = 0 it returns 0 whatever WINDOW_INIT is. A
first byte that may not be read fails UNWRITTEN_WINDOW with nothing copied (R350). -/
def Obligations.CopyMovesByTheClampedCount : Prop :=
  ∀ (b : BitVec 16) (s : State), s.Runs → 1 ≤ b.toNat →
    let k := min b.toNat (min s.win.matchRem.toNat (s.lat.outLen.toNat - s.win.produced.toNat))
    (k = 0 ∨ s.SourceReadable → ∃ u, exec (.copy b) s = .next u ∧
      u = { s.cleared with
        regs := { s.regs with result := BitVec.ofNat 32 k }
        outMem := u.outMem
        draws := u.draws
        win :=
          { window := u.win.window
            pos := s.win.pos + BitVec.ofNat 13 k
            produced := s.win.produced + BitVec.ofNat 32 k
            matchSrc := s.win.matchSrc + BitVec.ofNat 13 k
            matchRem := s.win.matchRem - BitVec.ofNat 9 k } } ∧
      (k = 0 → u.outMem = s.outMem ∧ u.win.window = s.win.window ∧ u.draws = s.draws) ∧
      ∀ a, ¬ (s.win.produced.toNat ≤ a ∧ a < s.win.produced.toNat + k ∧ a < s.lat.outCap.toNat) →
        u.outMem.read a = s.outMem.read a) ∧
    (k ≠ 0 → ¬ s.SourceReadable →
      exec (.copy b) s = .next (s.cleared.withFailure 0x06#8 0#4 (s.win.matchSrc.setWidth 24)))

/-- R354: a match repeats earlier output byte by byte, its own bytes included when it overlaps itself: with MATCH_SRC d + 1 bytes
back, every copied byte equals the byte d + 1 places before it in OUT. -/
def Obligations.CopyRepeatsEarlierOutput : Prop :=
  ∀ (b : BitVec 16) (s : State) (d : Nat), s.Runs → OutInv s → 1 ≤ b.toNat → d ≤ 8191 →
    d < s.win.produced.toNat → s.win.matchSrc = s.win.pos - BitVec.ofNat 13 d - 1#13 →
    let k := min b.toNat (min s.win.matchRem.toNat (s.lat.outLen.toNat - s.win.produced.toNat))
    s.win.produced.toNat + k ≤ s.lat.outCap.toNat →
    ∃ u, exec (.copy b) s = .next u ∧ ∀ i, i < k →
      ∃ x, u.outMem.read (s.win.produced.toNat + i) = some x ∧
        u.outMem.read (s.win.produced.toNat + i - (d + 1)) = some x

/-- R350: COPY reads WINDOW[MATCH_SRC] where it was written since INIT. Where it was not, FAULT fails UNWRITTEN_WINDOW with the
index and writes nothing; ZERO copies 0; ANY copies some byte and goes on. -/
def Obligations.UnwrittenWindowFollowsThePolicy : Prop :=
  ∀ s : State, s.Runs → s.win.matchRem ≠ 0#9 → s.win.produced.toNat < s.lat.outLen.toNat →
    (∀ x, 8192 ≤ s.win.produced.toNat ∨ s.win.matchSrc.toNat < s.win.produced.toNat →
      s.win.window.read s.win.matchSrc.toNat = some x → ∃ u, exec (.copy 1#16) s = .next u ∧
      u.status = s.cleared.status ∧ u.win.window.read s.win.pos.toNat = some x) ∧
    (s.win.produced.toNat < 8192 → s.win.produced.toNat ≤ s.win.matchSrc.toNat →
      (s.cfg.windowInit = .fault →
        exec (.copy 1#16) s = .next (s.cleared.withFailure 0x06#8 0#4 (s.win.matchSrc.setWidth 24))) ∧
      (s.cfg.windowInit = .zero → ∃ u, exec (.copy 1#16) s = .next u ∧ u.status = s.cleared.status ∧
        u.win.window.read s.win.pos.toNat = some 0#8) ∧
      (s.cfg.windowInit = .any → ∃ (u : State) (x : Byte), exec (.copy 1#16) s = .next u ∧
        u.status = s.cleared.status ∧ u.win.window.read s.win.pos.toNat = some x))

/-- R351: OUT and the window agree on the last 8192 produced bytes after every command that does not leave the decode failed. -/
def Obligations.WindowAndOutputStayTheSame : Prop :=
  ∀ (i : Instr) (s t : State), s.Inv → OutInv s → exec i s = .next t → t.status.fail = false → OutInv t

/-! ## Orchestrator -/

/-- R402: DECODE_CHUNK whose body runs to its end completes with RESULT = B after exactly B bytes; one whose body fails records the
failure and keeps RESULT. -/
def Obligations.DecodeChunkProducesExactlyItsCount : Prop :=
  ∀ (b : BitVec 16) (s u : State) (f : Failure), s.Runs → legalIn (.decodeChunk b) s →
    b.toNat ≤ s.lat.outLen.toNat - s.win.produced.toNat → s.TablesReady →
    (chunkBody b.toNat s.cleared = .ok () u → exec (.decodeChunk b) s = .next (u.withResult (b.setWidth 32)) ∧
      u.win.produced.toNat = s.win.produced.toNat + b.toNat) ∧
    (chunkBody b.toNat s.cleared = .failed f u →
      exec (.decodeChunk b) s = .next (u.withFailure f.cause.code f.table f.detail) ∧
      u.win.produced.toNat < s.win.produced.toNat + b.toNat)

/-- R402, R404: what one byte of a chunk is. With a match pending it is the byte COPY 1 copies. Otherwise a symbol c is read as
DECODE_C reads it: c ≤ 255 emits the literal c, as PUT_LITERAL c does; c of 256 to 509 reads the distance at once, as DECODE_P
does, starts a match of length c − 253, as START_MATCH does with that length in ARG, and copies its first byte, as COPY 1 does.
A step that fails ends the chunk with its failure and with RESULT kept. A chunk of n bytes is n of these
(ChunkSplitsDoNotMatter). -/
def Obligations.ChunkBytesAreLiteralsAndMatches : Prop :=
  ∀ s : State, s.Runs → s.TablesReady → s.win.produced.toNat < s.lat.outLen.toNat →
    (s.win.matchRem ≠ 0#9 → exec (.decodeChunk 1#16) s = exec (.copy 1#16) s) ∧
    (s.win.matchRem = 0#9 → ∃ u, exec .decodeC s = .next u ∧
      (u.status.fail = true → exec (.decodeChunk 1#16) s = .next u) ∧
      (u.status.fail = false →
        let c := u.regs.result.toNat
        c < 510 ∧
        (c ≤ 255 → ∃ v, exec (.putLiteral (BitVec.ofNat 16 c)) u = .next v ∧ v.status.fail = false ∧
          exec (.decodeChunk 1#16) s = .next (v.withResult 1#32)) ∧
        (256 ≤ c → ∃ v, exec .decodeP u = .next v ∧
          (v.status.fail = true → exec (.decodeChunk 1#16) s = .next { v with regs := s.regs }) ∧
          (v.status.fail = false → ∃ w x : State,
            exec (.startMatch (v.regs.result.setWidth 16)) { v with regs := { v.regs with arg := BitVec.ofNat 32 (c - 253) } } =
              .next w ∧ w.win.matchRem.toNat = c - 253 ∧
            exec (.copy 1#16) w = .next x ∧
            exec (.decodeChunk 1#16) s =
              .next { x with regs := { s.regs with result := if x.status.fail then s.regs.result else 1#32 } }))))

/-- R403: a chunk no longer than the pending match completes from the window alone: the bit stream, BLOCKSIZE and the tables are not
touched and MATCH_SRC and MATCH_REM are left where the next chunk resumes. -/
def Obligations.PendingCopyResumesWithoutReadingBits : Prop :=
  ∀ (b : BitVec 16) (s : State), s.Runs → 1 ≤ b.toNat → b.toNat ≤ s.win.matchRem.toNat →
    b.toNat ≤ s.lat.outLen.toNat - s.win.produced.toNat → s.TablesReady → s.SourceReadable →
    ∃ u, exec (.decodeChunk b) s = .next u ∧ u.bits = s.bits ∧ u.tabs = s.tabs ∧
      u.regs.result = b.setWidth 32 ∧ u.status = s.cleared.status ∧
      u.win.produced.toNat = s.win.produced.toNat + b.toNat ∧
      u.win.matchRem.toNat = s.win.matchRem.toNat - b.toNat ∧
      u.win.matchSrc = s.win.matchSrc + BitVec.ofNat 13 b.toNat

/-- R406: a decode does not depend on how it is split: two DECODE_CHUNK commands leave the state one of their sum leaves, RESULT
apart, a failure in the second included; and where the first fails, the one of the sum fails in the same way. -/
def Obligations.ChunkSplitsDoNotMatter : Prop :=
  ∀ (a b c : BitVec 16) (s u : State), s.Runs → 1 ≤ a.toNat → 1 ≤ b.toNat → c.toNat = a.toNat + b.toNat →
    c.toNat ≤ 8192 → c.toNat ≤ s.lat.outLen.toNat - s.win.produced.toNat → s.TablesReady →
    exec (.decodeChunk a) s = .next u →
    (u.status.fail = false → ∃ v w, exec (.decodeChunk b) u = .next v ∧ exec (.decodeChunk c) s = .next w ∧
      { v with regs := { v.regs with result := w.regs.result } } = w) ∧
    (u.status.fail = true → exec (.decodeChunk c) s = .next u)

/-- R405, R406, R408: DECODE_ALL with nothing left does nothing and returns 0; otherwise, unless a step fails, it ends with
PRODUCED = L_OUT_LEN exactly and returns the bytes it produced. It is one chunk of everything left, whatever CHUNK is. -/
def Obligations.DecodeAllReachesTheDeclaredLength : Prop :=
  ∀ s : State, s.Runs → 1 ≤ s.cfg.chunk →
    (s.win.produced = s.lat.outLen → exec .decodeAll s = .next (s.cleared.withResult 0#32)) ∧
    (s.win.produced.toNat < s.lat.outLen.toNat → s.TablesReady → ∃ u, exec .decodeAll s = .next u ∧
      (u.status.fail = false → u.win.produced = s.lat.outLen ∧ u.lat = s.lat ∧
        u.regs.result.toNat = s.lat.outLen.toNat - s.win.produced.toNat)) ∧
    (∀ b : BitVec 16, 1 ≤ b.toNat → b.toNat ≤ 8192 → b.toNat = s.lat.outLen.toNat - s.win.produced.toNat →
      exec .decodeAll s = exec (.decodeChunk b) s)

/-! ## Whole-machine rules -/

/-- The invariants hold at reset. -/
def Obligations.ResetMeetsTheInvariants : Prop := State.reset.Inv

/-- From every state that meets the invariants, reached or not, every step gives a state that meets them. -/
def Obligations.StepKeepsTheInvariants : Prop :=
  ∀ s t : State, s.Inv → step s = .next t → t.Inv

/-- R451: a command that is accepted, whatever else it does, leaves ERR and ERR_CAUSE 0; a rejected one changes nothing but the
two. -/
def Obligations.AcceptedClearsErrRejectedKeepsTheRest : Prop :=
  ∀ (i : Instr) (s t : State), s.status.running = none → exec i s = .next t →
    (t.status.err = false ∧ t.status.errCause = 0#8) ∨
    (t.status.err = true ∧ t = s.withError t.status.errCause)

/-- R452, R457: a failure is recorded once: no command but INIT and RESET changes FAIL, FAIL_CAUSE or FAIL_INFO of a failed
decode. -/
def Obligations.FailureStaysUntilInitOrReset : Prop :=
  ∀ (i : Instr) (s t : State), s.status.running = none → s.status.fail = true → s.status.ready = true →
    isControl i = false → exec i s = .next t →
    t.status.fail = true ∧ t.status.failCause = s.status.failCause ∧
    t.status.failTable = s.status.failTable ∧ t.status.failDetail = s.status.failDetail

/-- R38, R453: a command that fails leaves RESULT and the host's registers as they were, records one of the six causes and a table
code 0..3, and makes the OUT bytes produced so far any value: the model forgets them (log entry 5). -/
def Obligations.FailureKeepsResultAndNamesItsCause : Prop :=
  ∀ (i : Instr) (s t : State), s.status.fail = false → exec i s = .next t → t.status.fail = true →
    t.regs = s.regs ∧ 1 ≤ t.status.failCause.toNat ∧ t.status.failCause.toNat ≤ 6 ∧
    t.status.failTable.toNat ≤ 3 ∧
    ∀ a, a < t.win.produced.toNat → a < t.lat.outCap.toNat → t.outMem.read a = none

/-- R104, R109: what a command writes to OUT: nothing for INIT and RESET; never a byte at or above L_OUT_CAP; and, unless it
fails, no byte outside PRODUCED before it to PRODUCED after it. -/
def Obligations.OutputWritesStayInTheProducedRange : Prop :=
  ∀ (i : Instr) (s t : State), s.win.produced.toNat ≤ s.lat.outLen.toNat → exec i s = .next t →
    (i = .init ∨ i = .reset → t.outMem = s.outMem) ∧
    (∀ a, s.lat.outCap.toNat ≤ a → t.outMem.read a = s.outMem.read a) ∧
    (t.status.fail = s.status.fail →
      ∀ a, ¬ (s.win.produced.toNat ≤ a ∧ a < t.win.produced.toNat) → t.outMem.read a = s.outMem.read a)

/-- R36, R41, R117: no command writes IN, a parameter of the core, or the host's own moves; no command but RESET writes IN_LEN,
OUT_LEN, OUT_CAP or ARG; only INIT, which copies them, and RESET write the latched lengths. -/
def Obligations.HostOwnedStateAndLatchedLengths : Prop :=
  ∀ (i : Instr) (s t : State), exec i s = .next t →
    t.inMem = s.inMem ∧ t.cfg = s.cfg ∧ t.hostOps = s.hostOps ∧ t.hostData = s.hostData ∧
    (i ≠ .reset →
      t.regs = { s.regs with result := t.regs.result } ∧
      (i ≠ .init → t.lat = s.lat) ∧
      (i = .init → s.status.running = none →
        t.lat = { inLen := s.regs.inLen, outLen := s.regs.outLen, outCap := s.regs.outCap }))
end

