-- ==== Sys2Proof/Laws/Cells.lean ====
section
/-! SUPPORT. The laws of (index, entry) lists: what a read finds after each write, and that every operation keeps the
indexes rising. -/

namespace Sys2Proof.Machine

variable {α : Type}

@[simp] theorem readCell_nil (i : Nat) : readCell ([] : List (Nat × α)) i = none := rfl

theorem readCell_append (l m : List (Nat × α)) (i : Nat) :
    readCell (l ++ m) i = (readCell l i).or (readCell m i) := by
  induction l with
  | nil => simp
  | cons c l ih =>
    obtain ⟨k, x⟩ := c
    by_cases h : k = i <;> simp [readCell, h, ih]

theorem readCell_filter (p : Nat → Bool) (l : List (Nat × α)) (i : Nat) :
    readCell (l.filter fun c => p c.1) i = if p i then readCell l i else none := by
  induction l with
  | nil => simp
  | cons c l ih =>
    obtain ⟨k, x⟩ := c
    by_cases hp : p k <;> by_cases hk : k = i
    · subst hk; simp [readCell, hp]
    · simp [readCell, hp, hk, ih]
    · subst hk; simp [hp, ih]
    · simp [readCell, hp, hk, ih]

theorem readCell_constRun (x : α) (lo n i : Nat) :
    readCell (constRun x lo n) i = if lo ≤ i ∧ i < lo + n then some x else none := by
  induction n generalizing lo with
  | zero =>
    have : ¬ (lo ≤ i ∧ i < lo + 0) := by omega
    simp only [constRun, readCell_nil, if_neg this]
  | succ n ih =>
    simp only [constRun, readCell, ih]
    by_cases h : lo = i
    · simp [h]
    · have : (lo + 1 ≤ i ∧ i < lo + 1 + n) ↔ (lo ≤ i ∧ i < lo + (n + 1)) := by omega
      simp only [if_neg h, this]

/-- A read after a write: the written index holds the new entry, every other one is as before. -/
@[simp] theorem readCell_writeCell (l : List (Nat × α)) (i j : Nat) (x : α) :
    readCell (writeCell l i x) j = if i = j then some x else readCell l j := by
  induction l with
  | nil => simp [writeCell, readCell]
  | cons c l ih =>
    obtain ⟨k, y⟩ := c
    simp only [writeCell]
    split
    · by_cases hk : k = j
      · have : i ≠ j := by omega
        simp [readCell, hk, this]
      · simp [readCell, hk, ih]
    · split
      · next h => subst h; by_cases hk : k = j <;> simp [readCell, hk]
      · simp [readCell]

@[simp] theorem readCell_dropRange (l : List (Nat × α)) (lo hi i : Nat) :
    readCell (dropRange l lo hi) i = if lo ≤ i ∧ i < hi then none else readCell l i := by
  have h := readCell_filter (fun k => decide (k < lo) || decide (hi ≤ k)) l i
  rw [dropRange, h]
  by_cases h1 : lo ≤ i ∧ i < hi
  · have h2 : ¬ i < lo := by omega
    have h3 : ¬ hi ≤ i := by omega
    simp [h1, h2, h3]
  · have h2 : i < lo ∨ hi ≤ i := by omega
    simp [h1, h2]

@[simp] theorem readCell_fillRange (l : List (Nat × α)) (lo hi i : Nat) (x : α) :
    readCell (fillRange l lo hi x) i = if lo ≤ i ∧ i < hi then some x else readCell l i := by
  have h1 := readCell_filter (fun k => decide (k < lo)) l i
  have h2 := readCell_filter (fun k => decide (lo ≤ k) && decide (hi ≤ k)) l i
  rw [fillRange, readCell_append, readCell_append, h1, h2, readCell_constRun]
  by_cases ha : i < lo
  · have : ¬ lo ≤ i := by omega
    simp [ha, this]
  · by_cases hb : i < hi
    · have h3 : lo ≤ i ∧ i < lo + (hi - lo) := by omega
      have h4 : lo ≤ i ∧ i < hi := by omega
      simp [ha, h3, h4]
    · have h3 : ¬ i < lo + (hi - lo) := by omega
      have h4 : lo ≤ i ∧ hi ≤ i := by omega
      simp [ha, hb, h3, h4]

/-- `rising` says that the indexes are pairwise strictly rising. -/
theorem rising_iff_pairwise (l : List (Nat × α)) :
    rising l = true ↔ l.Pairwise fun c d => c.1 < d.1 := by
  induction l with
  | nil => simp [rising]
  | cons c l ih =>
    cases l with
    | nil => simp [rising]
    | cons d l =>
      simp only [rising, Bool.and_eq_true, decide_eq_true_eq, ih, List.pairwise_cons]
      constructor
      · rintro ⟨h, h1, h2⟩
        refine ⟨?_, h1, h2⟩
        intro e he
        rcases List.mem_cons.mp he with rfl | he
        · exact h
        · exact Nat.lt_trans h (h1 e he)
      · rintro ⟨h, h1, h2⟩
        exact ⟨h d (by simp), h1, h2⟩

theorem mem_writeCell {l : List (Nat × α)} {i : Nat} {x : α} {c : Nat × α} (h : c ∈ writeCell l i x) :
    c = (i, x) ∨ c ∈ l := by
  induction l with
  | nil => simpa [writeCell] using h
  | cons d l ih =>
    obtain ⟨k, y⟩ := d
    simp only [writeCell] at h
    split at h
    · rcases List.mem_cons.mp h with h | h
      · simp [h]
      · rcases ih h with h | h <;> simp [h]
    · split at h
      · rcases List.mem_cons.mp h with h | h <;> simp [h]
      · rcases List.mem_cons.mp h with h | h
        · simp [h]
        · exact Or.inr h

theorem rising_writeCell (l : List (Nat × α)) (i : Nat) (x : α) (h : rising l = true) :
    rising (writeCell l i x) = true := by
  rw [rising_iff_pairwise] at h ⊢
  induction l with
  | nil => simp [writeCell]
  | cons d l ih =>
    obtain ⟨k, y⟩ := d
    obtain ⟨h1, h2⟩ := List.pairwise_cons.mp h
    simp only [writeCell]
    split
    · next hk =>
      refine List.pairwise_cons.mpr ⟨?_, ih h2⟩
      intro c hc
      rcases mem_writeCell hc with rfl | hc
      · exact hk
      · exact h1 c hc
    · split
      · next hk => subst hk; exact List.pairwise_cons.mpr ⟨h1, h2⟩
      · next hk hk' =>
        refine List.pairwise_cons.mpr ⟨?_, h⟩
        intro c hc
        rcases List.mem_cons.mp hc with rfl | hc
        · show i < k; omega
        · have := h1 c hc
          show i < c.1
          simp only at this
          omega

theorem rising_filter (p : Nat × α → Bool) (l : List (Nat × α)) (h : rising l = true) :
    rising (l.filter p) = true := by
  rw [rising_iff_pairwise] at h ⊢
  exact h.filter p

theorem rising_dropRange (l : List (Nat × α)) (lo hi : Nat) (h : rising l = true) :
    rising (dropRange l lo hi) = true := rising_filter _ l h

theorem mem_constRun {x : α} {lo n : Nat} {c : Nat × α} (h : c ∈ constRun x lo n) : lo ≤ c.1 ∧ c.1 < lo + n := by
  induction n generalizing lo with
  | zero => simp [constRun] at h
  | succ n ih =>
    simp only [constRun, List.mem_cons] at h
    rcases h with rfl | h
    · show lo ≤ lo ∧ lo < lo + (n + 1); omega
    · have := ih h; omega

theorem pairwise_constRun (x : α) (lo n : Nat) : (constRun x lo n).Pairwise fun c d => c.1 < d.1 := by
  induction n generalizing lo with
  | zero => simp [constRun]
  | succ n ih =>
    simp only [constRun, List.pairwise_cons]
    exact ⟨fun c hc => by have := mem_constRun hc; show lo < c.1; omega, ih (lo + 1)⟩

theorem rising_fillRange (l : List (Nat × α)) (lo hi : Nat) (x : α) (h : rising l = true) :
    rising (fillRange l lo hi x) = true := by
  rw [rising_iff_pairwise] at h ⊢
  rw [fillRange]
  refine List.pairwise_append.mpr ⟨h.filter _, List.pairwise_append.mpr ⟨pairwise_constRun x lo _, h.filter _, ?_⟩, ?_⟩
  · intro c hc d hd
    have h1 := mem_constRun hc
    simp at hd
    omega
  · intro c hc d hd
    simp at hc
    rcases List.mem_append.mp hd with hd | hd
    · have h1 := mem_constRun hd; omega
    · simp at hd; omega

/-! ## Memories -/

@[simp] theorem Memory.read_write (m : Memory) (i j : Nat) (b : Byte) :
    (Memory.write m i b).read j = if i = j then some b else m.read j := readCell_writeCell m i j b

@[simp] theorem Memory.read_dropRange (m : Memory) (lo hi i : Nat) :
    Memory.read (dropRange m lo hi) i = if lo ≤ i ∧ i < hi then none else m.read i := readCell_dropRange m lo hi i

theorem Memory.wf_write (m : Memory) (i : Nat) (b : Byte) (h : Memory.wf m = true) :
    Memory.wf (Memory.write m i b) = true := rising_writeCell m i b h

theorem Memory.wf_dropRange (m : Memory) (lo hi : Nat) (h : Memory.wf m = true) :
    Memory.wf (dropRange m lo hi) = true := rising_dropRange m lo hi h

/-! ## Length arrays and table entries -/

@[simp] theorem lenAt_setLenAt (l : Entries 5) (i j : Nat) (x : BitVec 5) :
    lenAt (setLenAt l i x) j = if i = j then x else lenAt l j := by
  unfold lenAt setLenAt
  split
  · next hx =>
    rw [readCell_dropRange]
    by_cases h : i = j
    · subst h; simp [hx]
    · have : ¬ (i ≤ j ∧ j < i + 1) := by omega
      simp only [if_neg h, if_neg this]
  · rw [readCell_writeCell]
    by_cases h : i = j <;> simp [h]

@[simp] theorem lenAt_zeroLens (l : Entries 5) (lo hi i : Nat) :
    lenAt (zeroLens l lo hi) i = if lo ≤ i ∧ i < hi then 0 else lenAt l i := by
  unfold lenAt zeroLens
  by_cases h : lo ≤ i ∧ i < hi <;> simp [h]

theorem rising_setLenAt (l : Entries 5) (i : Nat) (x : BitVec 5) (h : rising l = true) :
    rising (setLenAt l i x) = true := by
  unfold setLenAt
  split
  · exact rising_dropRange l _ _ h
  · exact rising_writeCell l i x h

theorem rising_zeroLens (l : Entries 5) (lo hi : Nat) (h : rising l = true) :
    rising (zeroLens l lo hi) = true := rising_dropRange l lo hi h

@[simp] theorem entryAt_writeCell (l : Entries 10) (i j : Nat) (x : BitVec 10) :
    entryAt (writeCell l i x) j = if i = j then x else entryAt l j := by
  unfold entryAt
  by_cases h : i = j <;> simp [h]

@[simp] theorem entryAt_fillRange (l : Entries 10) (lo hi i : Nat) (x : BitVec 10) :
    entryAt (fillRange l lo hi x) i = if lo ≤ i ∧ i < hi then x else entryAt l i := by
  unfold entryAt
  by_cases h : lo ≤ i ∧ i < hi <;> simp [h]

@[simp] theorem lensUpTo_length (l : Entries 5) (n : Nat) : (lensUpTo l n).length = n := by simp [lensUpTo]

@[simp] theorem lensUpTo_getElem (l : Entries 5) (n i : Nat) (h : i < (lensUpTo l n).length) :
    (lensUpTo l n)[i] = (lenAt l i).toNat := by simp [lensUpTo]

end Sys2Proof.Machine
end

