-- ==== Sys2Proof/Laws/State.lean ====
section
/-! SUPPORT. Field by field, what the named updates of the machine leave as it was and what they set, so that no later proof
unfolds a record update. -/

namespace Sys2Proof.Machine

/-! ### reject -/

@[simp] theorem reject_cfg (c : ErrCause) (s : State) : (reject c s).cfg = s.cfg := rfl
@[simp] theorem reject_regs (c : ErrCause) (s : State) : (reject c s).regs = s.regs := rfl
@[simp] theorem reject_lat (c : ErrCause) (s : State) : (reject c s).lat = s.lat := rfl
@[simp] theorem reject_bits (c : ErrCause) (s : State) : (reject c s).bits = s.bits := rfl
@[simp] theorem reject_tabs (c : ErrCause) (s : State) : (reject c s).tabs = s.tabs := rfl
@[simp] theorem reject_win (c : ErrCause) (s : State) : (reject c s).win = s.win := rfl
@[simp] theorem reject_inMem (c : ErrCause) (s : State) : (reject c s).inMem = s.inMem := rfl
@[simp] theorem reject_outMem (c : ErrCause) (s : State) : (reject c s).outMem = s.outMem := rfl
@[simp] theorem reject_hostOps (c : ErrCause) (s : State) : (reject c s).hostOps = s.hostOps := rfl
@[simp] theorem reject_hostData (c : ErrCause) (s : State) : (reject c s).hostData = s.hostData := rfl
@[simp] theorem reject_draws (c : ErrCause) (s : State) : (reject c s).draws = s.draws := rfl

/-! ### accept -/

@[simp] theorem accept_cfg (s : State) : (accept s).cfg = s.cfg := rfl
@[simp] theorem accept_regs (s : State) : (accept s).regs = s.regs := rfl
@[simp] theorem accept_lat (s : State) : (accept s).lat = s.lat := rfl
@[simp] theorem accept_bits (s : State) : (accept s).bits = s.bits := rfl
@[simp] theorem accept_tabs (s : State) : (accept s).tabs = s.tabs := rfl
@[simp] theorem accept_win (s : State) : (accept s).win = s.win := rfl
@[simp] theorem accept_inMem (s : State) : (accept s).inMem = s.inMem := rfl
@[simp] theorem accept_outMem (s : State) : (accept s).outMem = s.outMem := rfl
@[simp] theorem accept_hostOps (s : State) : (accept s).hostOps = s.hostOps := rfl
@[simp] theorem accept_hostData (s : State) : (accept s).hostData = s.hostData := rfl
@[simp] theorem accept_draws (s : State) : (accept s).draws = s.draws := rfl

/-! ### dropWrite -/

@[simp] theorem dropWrite_cfg (s : State) : (dropWrite s).cfg = s.cfg := rfl
@[simp] theorem dropWrite_regs (s : State) : (dropWrite s).regs = s.regs := rfl
@[simp] theorem dropWrite_lat (s : State) : (dropWrite s).lat = s.lat := rfl
@[simp] theorem dropWrite_bits (s : State) : (dropWrite s).bits = s.bits := rfl
@[simp] theorem dropWrite_tabs (s : State) : (dropWrite s).tabs = s.tabs := rfl
@[simp] theorem dropWrite_win (s : State) : (dropWrite s).win = s.win := rfl
@[simp] theorem dropWrite_inMem (s : State) : (dropWrite s).inMem = s.inMem := rfl
@[simp] theorem dropWrite_outMem (s : State) : (dropWrite s).outMem = s.outMem := rfl
@[simp] theorem dropWrite_hostOps (s : State) : (dropWrite s).hostOps = s.hostOps := rfl
@[simp] theorem dropWrite_hostData (s : State) : (dropWrite s).hostData = s.hostData := rfl
@[simp] theorem dropWrite_draws (s : State) : (dropWrite s).draws = s.draws := rfl

/-! ### forgetOutput -/

@[simp] theorem forgetOutput_cfg (s : State) : (forgetOutput s).cfg = s.cfg := rfl
@[simp] theorem forgetOutput_regs (s : State) : (forgetOutput s).regs = s.regs := rfl
@[simp] theorem forgetOutput_status (s : State) : (forgetOutput s).status = s.status := rfl
@[simp] theorem forgetOutput_lat (s : State) : (forgetOutput s).lat = s.lat := rfl
@[simp] theorem forgetOutput_bits (s : State) : (forgetOutput s).bits = s.bits := rfl
@[simp] theorem forgetOutput_tabs (s : State) : (forgetOutput s).tabs = s.tabs := rfl
@[simp] theorem forgetOutput_win (s : State) : (forgetOutput s).win = s.win := rfl
@[simp] theorem forgetOutput_inMem (s : State) : (forgetOutput s).inMem = s.inMem := rfl
@[simp] theorem forgetOutput_hostOps (s : State) : (forgetOutput s).hostOps = s.hostOps := rfl
@[simp] theorem forgetOutput_hostData (s : State) : (forgetOutput s).hostData = s.hostData := rfl
@[simp] theorem forgetOutput_draws (s : State) : (forgetOutput s).draws = s.draws := rfl

/-! ### failWith -/

@[simp] theorem failWith_cfg (f : Failure) (s : State) : (failWith f s).cfg = s.cfg := rfl
@[simp] theorem failWith_regs (f : Failure) (s : State) : (failWith f s).regs = s.regs := rfl
@[simp] theorem failWith_lat (f : Failure) (s : State) : (failWith f s).lat = s.lat := rfl
@[simp] theorem failWith_bits (f : Failure) (s : State) : (failWith f s).bits = s.bits := rfl
@[simp] theorem failWith_tabs (f : Failure) (s : State) : (failWith f s).tabs = s.tabs := rfl
@[simp] theorem failWith_win (f : Failure) (s : State) : (failWith f s).win = s.win := rfl
@[simp] theorem failWith_inMem (f : Failure) (s : State) : (failWith f s).inMem = s.inMem := rfl
@[simp] theorem failWith_hostOps (f : Failure) (s : State) : (failWith f s).hostOps = s.hostOps := rfl
@[simp] theorem failWith_hostData (f : Failure) (s : State) : (failWith f s).hostData = s.hostData := rfl
@[simp] theorem failWith_draws (f : Failure) (s : State) : (failWith f s).draws = s.draws := rfl

/-! ### setResult -/

@[simp] theorem setResult_cfg (v : Word) (s : State) : (setResult v s).cfg = s.cfg := rfl
@[simp] theorem setResult_status (v : Word) (s : State) : (setResult v s).status = s.status := rfl
@[simp] theorem setResult_lat (v : Word) (s : State) : (setResult v s).lat = s.lat := rfl
@[simp] theorem setResult_bits (v : Word) (s : State) : (setResult v s).bits = s.bits := rfl
@[simp] theorem setResult_tabs (v : Word) (s : State) : (setResult v s).tabs = s.tabs := rfl
@[simp] theorem setResult_win (v : Word) (s : State) : (setResult v s).win = s.win := rfl
@[simp] theorem setResult_inMem (v : Word) (s : State) : (setResult v s).inMem = s.inMem := rfl
@[simp] theorem setResult_outMem (v : Word) (s : State) : (setResult v s).outMem = s.outMem := rfl
@[simp] theorem setResult_hostOps (v : Word) (s : State) : (setResult v s).hostOps = s.hostOps := rfl
@[simp] theorem setResult_hostData (v : Word) (s : State) : (setResult v s).hostData = s.hostData := rfl
@[simp] theorem setResult_draws (v : Word) (s : State) : (setResult v s).draws = s.draws := rfl

/-! ### consumeBits -/

@[simp] theorem consumeBits_cfg (n : Nat) (s : State) : (consumeBits n s).cfg = s.cfg := by unfold consumeBits; split <;> rfl
@[simp] theorem consumeBits_regs (n : Nat) (s : State) : (consumeBits n s).regs = s.regs := by unfold consumeBits; split <;> rfl
@[simp] theorem consumeBits_status (n : Nat) (s : State) : (consumeBits n s).status = s.status := by unfold consumeBits; split <;> rfl
@[simp] theorem consumeBits_lat (n : Nat) (s : State) : (consumeBits n s).lat = s.lat := by unfold consumeBits; split <;> rfl
@[simp] theorem consumeBits_tabs (n : Nat) (s : State) : (consumeBits n s).tabs = s.tabs := by unfold consumeBits; split <;> rfl
@[simp] theorem consumeBits_win (n : Nat) (s : State) : (consumeBits n s).win = s.win := by unfold consumeBits; split <;> rfl
@[simp] theorem consumeBits_inMem (n : Nat) (s : State) : (consumeBits n s).inMem = s.inMem := by unfold consumeBits; split <;> rfl
@[simp] theorem consumeBits_outMem (n : Nat) (s : State) : (consumeBits n s).outMem = s.outMem := by unfold consumeBits; split <;> rfl
@[simp] theorem consumeBits_hostOps (n : Nat) (s : State) : (consumeBits n s).hostOps = s.hostOps := by unfold consumeBits; split <;> rfl
@[simp] theorem consumeBits_hostData (n : Nat) (s : State) : (consumeBits n s).hostData = s.hostData := by unfold consumeBits; split <;> rfl
@[simp] theorem consumeBits_draws (n : Nat) (s : State) : (consumeBits n s).draws = s.draws := by unfold consumeBits; split <;> rfl

/-! ### clearStatus -/

@[simp] theorem clearStatus_cfg (id : TableId) (s : State) : (clearStatus id s).cfg = s.cfg := by cases id <;> rfl
@[simp] theorem clearStatus_regs (id : TableId) (s : State) : (clearStatus id s).regs = s.regs := by cases id <;> rfl
@[simp] theorem clearStatus_status (id : TableId) (s : State) : (clearStatus id s).status = s.status := by cases id <;> rfl
@[simp] theorem clearStatus_lat (id : TableId) (s : State) : (clearStatus id s).lat = s.lat := by cases id <;> rfl
@[simp] theorem clearStatus_bits (id : TableId) (s : State) : (clearStatus id s).bits = s.bits := by cases id <;> rfl
@[simp] theorem clearStatus_win (id : TableId) (s : State) : (clearStatus id s).win = s.win := by cases id <;> rfl
@[simp] theorem clearStatus_inMem (id : TableId) (s : State) : (clearStatus id s).inMem = s.inMem := by cases id <;> rfl
@[simp] theorem clearStatus_outMem (id : TableId) (s : State) : (clearStatus id s).outMem = s.outMem := by cases id <;> rfl
@[simp] theorem clearStatus_hostOps (id : TableId) (s : State) : (clearStatus id s).hostOps = s.hostOps := by cases id <;> rfl
@[simp] theorem clearStatus_hostData (id : TableId) (s : State) : (clearStatus id s).hostData = s.hostData := by cases id <;> rfl
@[simp] theorem clearStatus_draws (id : TableId) (s : State) : (clearStatus id s).draws = s.draws := by cases id <;> rfl

/-! ### endBuild -/

@[simp] theorem endBuild_cfg (id : TableId) (b : Build) (s : State) : (endBuild id b s).cfg = s.cfg := by cases id <;> rfl
@[simp] theorem endBuild_regs (id : TableId) (b : Build) (s : State) : (endBuild id b s).regs = s.regs := by cases id <;> rfl
@[simp] theorem endBuild_status (id : TableId) (b : Build) (s : State) : (endBuild id b s).status = s.status := by cases id <;> rfl
@[simp] theorem endBuild_lat (id : TableId) (b : Build) (s : State) : (endBuild id b s).lat = s.lat := by cases id <;> rfl
@[simp] theorem endBuild_bits (id : TableId) (b : Build) (s : State) : (endBuild id b s).bits = s.bits := by cases id <;> rfl
@[simp] theorem endBuild_win (id : TableId) (b : Build) (s : State) : (endBuild id b s).win = s.win := by cases id <;> rfl
@[simp] theorem endBuild_inMem (id : TableId) (b : Build) (s : State) : (endBuild id b s).inMem = s.inMem := by cases id <;> rfl
@[simp] theorem endBuild_outMem (id : TableId) (b : Build) (s : State) : (endBuild id b s).outMem = s.outMem := by cases id <;> rfl
@[simp] theorem endBuild_hostOps (id : TableId) (b : Build) (s : State) : (endBuild id b s).hostOps = s.hostOps := by cases id <;> rfl
@[simp] theorem endBuild_hostData (id : TableId) (b : Build) (s : State) : (endBuild id b s).hostData = s.hostData := by cases id <;> rfl
@[simp] theorem endBuild_draws (id : TableId) (b : Build) (s : State) : (endBuild id b s).draws = s.draws := by cases id <;> rfl

/-! ### setPtLen -/

@[simp] theorem setPtLen_cfg (i c : Nat) (s : State) : (setPtLen i c s).cfg = s.cfg := rfl
@[simp] theorem setPtLen_regs (i c : Nat) (s : State) : (setPtLen i c s).regs = s.regs := rfl
@[simp] theorem setPtLen_status (i c : Nat) (s : State) : (setPtLen i c s).status = s.status := rfl
@[simp] theorem setPtLen_lat (i c : Nat) (s : State) : (setPtLen i c s).lat = s.lat := rfl
@[simp] theorem setPtLen_bits (i c : Nat) (s : State) : (setPtLen i c s).bits = s.bits := rfl
@[simp] theorem setPtLen_win (i c : Nat) (s : State) : (setPtLen i c s).win = s.win := rfl
@[simp] theorem setPtLen_inMem (i c : Nat) (s : State) : (setPtLen i c s).inMem = s.inMem := rfl
@[simp] theorem setPtLen_outMem (i c : Nat) (s : State) : (setPtLen i c s).outMem = s.outMem := rfl
@[simp] theorem setPtLen_hostOps (i c : Nat) (s : State) : (setPtLen i c s).hostOps = s.hostOps := rfl
@[simp] theorem setPtLen_hostData (i c : Nat) (s : State) : (setPtLen i c s).hostData = s.hostData := rfl
@[simp] theorem setPtLen_draws (i c : Nat) (s : State) : (setPtLen i c s).draws = s.draws := rfl

/-! ### zeroPtLens -/

@[simp] theorem zeroPtLens_cfg (lo hi : Nat) (s : State) : (zeroPtLens lo hi s).cfg = s.cfg := rfl
@[simp] theorem zeroPtLens_regs (lo hi : Nat) (s : State) : (zeroPtLens lo hi s).regs = s.regs := rfl
@[simp] theorem zeroPtLens_status (lo hi : Nat) (s : State) : (zeroPtLens lo hi s).status = s.status := rfl
@[simp] theorem zeroPtLens_lat (lo hi : Nat) (s : State) : (zeroPtLens lo hi s).lat = s.lat := rfl
@[simp] theorem zeroPtLens_bits (lo hi : Nat) (s : State) : (zeroPtLens lo hi s).bits = s.bits := rfl
@[simp] theorem zeroPtLens_win (lo hi : Nat) (s : State) : (zeroPtLens lo hi s).win = s.win := rfl
@[simp] theorem zeroPtLens_inMem (lo hi : Nat) (s : State) : (zeroPtLens lo hi s).inMem = s.inMem := rfl
@[simp] theorem zeroPtLens_outMem (lo hi : Nat) (s : State) : (zeroPtLens lo hi s).outMem = s.outMem := rfl
@[simp] theorem zeroPtLens_hostOps (lo hi : Nat) (s : State) : (zeroPtLens lo hi s).hostOps = s.hostOps := rfl
@[simp] theorem zeroPtLens_hostData (lo hi : Nat) (s : State) : (zeroPtLens lo hi s).hostData = s.hostData := rfl
@[simp] theorem zeroPtLens_draws (lo hi : Nat) (s : State) : (zeroPtLens lo hi s).draws = s.draws := rfl

/-! ### setCLen -/

@[simp] theorem setCLen_cfg (i c : Nat) (s : State) : (setCLen i c s).cfg = s.cfg := rfl
@[simp] theorem setCLen_regs (i c : Nat) (s : State) : (setCLen i c s).regs = s.regs := rfl
@[simp] theorem setCLen_status (i c : Nat) (s : State) : (setCLen i c s).status = s.status := rfl
@[simp] theorem setCLen_lat (i c : Nat) (s : State) : (setCLen i c s).lat = s.lat := rfl
@[simp] theorem setCLen_bits (i c : Nat) (s : State) : (setCLen i c s).bits = s.bits := rfl
@[simp] theorem setCLen_win (i c : Nat) (s : State) : (setCLen i c s).win = s.win := rfl
@[simp] theorem setCLen_inMem (i c : Nat) (s : State) : (setCLen i c s).inMem = s.inMem := rfl
@[simp] theorem setCLen_outMem (i c : Nat) (s : State) : (setCLen i c s).outMem = s.outMem := rfl
@[simp] theorem setCLen_hostOps (i c : Nat) (s : State) : (setCLen i c s).hostOps = s.hostOps := rfl
@[simp] theorem setCLen_hostData (i c : Nat) (s : State) : (setCLen i c s).hostData = s.hostData := rfl
@[simp] theorem setCLen_draws (i c : Nat) (s : State) : (setCLen i c s).draws = s.draws := rfl

/-! ### zeroCLens -/

@[simp] theorem zeroCLens_cfg (lo hi : Nat) (s : State) : (zeroCLens lo hi s).cfg = s.cfg := rfl
@[simp] theorem zeroCLens_regs (lo hi : Nat) (s : State) : (zeroCLens lo hi s).regs = s.regs := rfl
@[simp] theorem zeroCLens_status (lo hi : Nat) (s : State) : (zeroCLens lo hi s).status = s.status := rfl
@[simp] theorem zeroCLens_lat (lo hi : Nat) (s : State) : (zeroCLens lo hi s).lat = s.lat := rfl
@[simp] theorem zeroCLens_bits (lo hi : Nat) (s : State) : (zeroCLens lo hi s).bits = s.bits := rfl
@[simp] theorem zeroCLens_win (lo hi : Nat) (s : State) : (zeroCLens lo hi s).win = s.win := rfl
@[simp] theorem zeroCLens_inMem (lo hi : Nat) (s : State) : (zeroCLens lo hi s).inMem = s.inMem := rfl
@[simp] theorem zeroCLens_outMem (lo hi : Nat) (s : State) : (zeroCLens lo hi s).outMem = s.outMem := rfl
@[simp] theorem zeroCLens_hostOps (lo hi : Nat) (s : State) : (zeroCLens lo hi s).hostOps = s.hostOps := rfl
@[simp] theorem zeroCLens_hostData (lo hi : Nat) (s : State) : (zeroCLens lo hi s).hostData = s.hostData := rfl
@[simp] theorem zeroCLens_draws (lo hi : Nat) (s : State) : (zeroCLens lo hi s).draws = s.draws := rfl

/-! ### setBlockSize -/

@[simp] theorem setBlockSize_cfg (v : Word) (s : State) : (setBlockSize v s).cfg = s.cfg := rfl
@[simp] theorem setBlockSize_regs (v : Word) (s : State) : (setBlockSize v s).regs = s.regs := rfl
@[simp] theorem setBlockSize_status (v : Word) (s : State) : (setBlockSize v s).status = s.status := rfl
@[simp] theorem setBlockSize_lat (v : Word) (s : State) : (setBlockSize v s).lat = s.lat := rfl
@[simp] theorem setBlockSize_bits (v : Word) (s : State) : (setBlockSize v s).bits = s.bits := rfl
@[simp] theorem setBlockSize_win (v : Word) (s : State) : (setBlockSize v s).win = s.win := rfl
@[simp] theorem setBlockSize_inMem (v : Word) (s : State) : (setBlockSize v s).inMem = s.inMem := rfl
@[simp] theorem setBlockSize_outMem (v : Word) (s : State) : (setBlockSize v s).outMem = s.outMem := rfl
@[simp] theorem setBlockSize_hostOps (v : Word) (s : State) : (setBlockSize v s).hostOps = s.hostOps := rfl
@[simp] theorem setBlockSize_hostData (v : Word) (s : State) : (setBlockSize v s).hostData = s.hostData := rfl
@[simp] theorem setBlockSize_draws (v : Word) (s : State) : (setBlockSize v s).draws = s.draws := rfl

/-! ### setLength -/

@[simp] theorem setLength_cfg (t : Side) (n : BitVec 5) (i : Nat) (s : State) : (setLength t n i s).cfg = s.cfg := by cases t <;> rfl
@[simp] theorem setLength_regs (t : Side) (n : BitVec 5) (i : Nat) (s : State) : (setLength t n i s).regs = s.regs := by cases t <;> rfl
@[simp] theorem setLength_status (t : Side) (n : BitVec 5) (i : Nat) (s : State) : (setLength t n i s).status = s.status := by cases t <;> rfl
@[simp] theorem setLength_lat (t : Side) (n : BitVec 5) (i : Nat) (s : State) : (setLength t n i s).lat = s.lat := by cases t <;> rfl
@[simp] theorem setLength_bits (t : Side) (n : BitVec 5) (i : Nat) (s : State) : (setLength t n i s).bits = s.bits := by cases t <;> rfl
@[simp] theorem setLength_win (t : Side) (n : BitVec 5) (i : Nat) (s : State) : (setLength t n i s).win = s.win := by cases t <;> rfl
@[simp] theorem setLength_inMem (t : Side) (n : BitVec 5) (i : Nat) (s : State) : (setLength t n i s).inMem = s.inMem := by cases t <;> rfl
@[simp] theorem setLength_outMem (t : Side) (n : BitVec 5) (i : Nat) (s : State) : (setLength t n i s).outMem = s.outMem := by cases t <;> rfl
@[simp] theorem setLength_hostOps (t : Side) (n : BitVec 5) (i : Nat) (s : State) : (setLength t n i s).hostOps = s.hostOps := by cases t <;> rfl
@[simp] theorem setLength_hostData (t : Side) (n : BitVec 5) (i : Nat) (s : State) : (setLength t n i s).hostData = s.hostData := by cases t <;> rfl
@[simp] theorem setLength_draws (t : Side) (n : BitVec 5) (i : Nat) (s : State) : (setLength t n i s).draws = s.draws := by cases t <;> rfl

/-! ### singlePt -/

@[simp] theorem singlePt_cfg (p : PtList) (s : State) : (singlePt p s).cfg = s.cfg := by simp [singlePt, getBits]
@[simp] theorem singlePt_regs (p : PtList) (s : State) : (singlePt p s).regs = s.regs := by simp [singlePt, getBits]
@[simp] theorem singlePt_status (p : PtList) (s : State) : (singlePt p s).status = s.status := by simp [singlePt, getBits]
@[simp] theorem singlePt_lat (p : PtList) (s : State) : (singlePt p s).lat = s.lat := by simp [singlePt, getBits]
@[simp] theorem singlePt_win (p : PtList) (s : State) : (singlePt p s).win = s.win := by simp [singlePt, getBits]
@[simp] theorem singlePt_inMem (p : PtList) (s : State) : (singlePt p s).inMem = s.inMem := by simp [singlePt, getBits]
@[simp] theorem singlePt_outMem (p : PtList) (s : State) : (singlePt p s).outMem = s.outMem := by simp [singlePt, getBits]
@[simp] theorem singlePt_hostOps (p : PtList) (s : State) : (singlePt p s).hostOps = s.hostOps := by simp [singlePt, getBits]
@[simp] theorem singlePt_hostData (p : PtList) (s : State) : (singlePt p s).hostData = s.hostData := by simp [singlePt, getBits]
@[simp] theorem singlePt_draws (p : PtList) (s : State) : (singlePt p s).draws = s.draws := by simp [singlePt, getBits]

/-! ### singleC -/

@[simp] theorem singleC_cfg (s : State) : (singleC s).cfg = s.cfg := by simp [singleC, getBits]
@[simp] theorem singleC_regs (s : State) : (singleC s).regs = s.regs := by simp [singleC, getBits]
@[simp] theorem singleC_status (s : State) : (singleC s).status = s.status := by simp [singleC, getBits]
@[simp] theorem singleC_lat (s : State) : (singleC s).lat = s.lat := by simp [singleC, getBits]
@[simp] theorem singleC_win (s : State) : (singleC s).win = s.win := by simp [singleC, getBits]
@[simp] theorem singleC_inMem (s : State) : (singleC s).inMem = s.inMem := by simp [singleC, getBits]
@[simp] theorem singleC_outMem (s : State) : (singleC s).outMem = s.outMem := by simp [singleC, getBits]
@[simp] theorem singleC_hostOps (s : State) : (singleC s).hostOps = s.hostOps := by simp [singleC, getBits]
@[simp] theorem singleC_hostData (s : State) : (singleC s).hostData = s.hostData := by simp [singleC, getBits]
@[simp] theorem singleC_draws (s : State) : (singleC s).draws = s.draws := by simp [singleC, getBits]

/-! ### emit -/

@[simp] theorem emit_cfg (b : Byte) (s : State) : (emit b s).cfg = s.cfg := rfl
@[simp] theorem emit_regs (b : Byte) (s : State) : (emit b s).regs = s.regs := rfl
@[simp] theorem emit_status (b : Byte) (s : State) : (emit b s).status = s.status := rfl
@[simp] theorem emit_lat (b : Byte) (s : State) : (emit b s).lat = s.lat := rfl
@[simp] theorem emit_bits (b : Byte) (s : State) : (emit b s).bits = s.bits := rfl
@[simp] theorem emit_tabs (b : Byte) (s : State) : (emit b s).tabs = s.tabs := rfl
@[simp] theorem emit_inMem (b : Byte) (s : State) : (emit b s).inMem = s.inMem := rfl
@[simp] theorem emit_hostOps (b : Byte) (s : State) : (emit b s).hostOps = s.hostOps := rfl
@[simp] theorem emit_hostData (b : Byte) (s : State) : (emit b s).hostData = s.hostData := rfl
@[simp] theorem emit_draws (b : Byte) (s : State) : (emit b s).draws = s.draws := rfl

/-! ### startCopy -/

@[simp] theorem startCopy_cfg (len d : Nat) (s : State) : (startCopy len d s).cfg = s.cfg := rfl
@[simp] theorem startCopy_regs (len d : Nat) (s : State) : (startCopy len d s).regs = s.regs := rfl
@[simp] theorem startCopy_status (len d : Nat) (s : State) : (startCopy len d s).status = s.status := rfl
@[simp] theorem startCopy_lat (len d : Nat) (s : State) : (startCopy len d s).lat = s.lat := rfl
@[simp] theorem startCopy_bits (len d : Nat) (s : State) : (startCopy len d s).bits = s.bits := rfl
@[simp] theorem startCopy_tabs (len d : Nat) (s : State) : (startCopy len d s).tabs = s.tabs := rfl
@[simp] theorem startCopy_inMem (len d : Nat) (s : State) : (startCopy len d s).inMem = s.inMem := rfl
@[simp] theorem startCopy_outMem (len d : Nat) (s : State) : (startCopy len d s).outMem = s.outMem := rfl
@[simp] theorem startCopy_hostOps (len d : Nat) (s : State) : (startCopy len d s).hostOps = s.hostOps := rfl
@[simp] theorem startCopy_hostData (len d : Nat) (s : State) : (startCopy len d s).hostData = s.hostData := rfl
@[simp] theorem startCopy_draws (len d : Nat) (s : State) : (startCopy len d s).draws = s.draws := rfl

/-! ### advanceMatch -/

@[simp] theorem advanceMatch_cfg (s : State) : (advanceMatch s).cfg = s.cfg := rfl
@[simp] theorem advanceMatch_regs (s : State) : (advanceMatch s).regs = s.regs := rfl
@[simp] theorem advanceMatch_status (s : State) : (advanceMatch s).status = s.status := rfl
@[simp] theorem advanceMatch_lat (s : State) : (advanceMatch s).lat = s.lat := rfl
@[simp] theorem advanceMatch_bits (s : State) : (advanceMatch s).bits = s.bits := rfl
@[simp] theorem advanceMatch_tabs (s : State) : (advanceMatch s).tabs = s.tabs := rfl
@[simp] theorem advanceMatch_inMem (s : State) : (advanceMatch s).inMem = s.inMem := rfl
@[simp] theorem advanceMatch_outMem (s : State) : (advanceMatch s).outMem = s.outMem := rfl
@[simp] theorem advanceMatch_hostOps (s : State) : (advanceMatch s).hostOps = s.hostOps := rfl
@[simp] theorem advanceMatch_hostData (s : State) : (advanceMatch s).hostData = s.hostData := rfl
@[simp] theorem advanceMatch_draws (s : State) : (advanceMatch s).draws = s.draws := rfl

/-! ### initDecode -/

@[simp] theorem initDecode_cfg (s : State) : (initDecode s).cfg = s.cfg := rfl
@[simp] theorem initDecode_regs (s : State) : (initDecode s).regs = s.regs := rfl
@[simp] theorem initDecode_inMem (s : State) : (initDecode s).inMem = s.inMem := rfl
@[simp] theorem initDecode_outMem (s : State) : (initDecode s).outMem = s.outMem := rfl
@[simp] theorem initDecode_hostOps (s : State) : (initDecode s).hostOps = s.hostOps := rfl
@[simp] theorem initDecode_hostData (s : State) : (initDecode s).hostData = s.hostData := rfl
@[simp] theorem initDecode_draws (s : State) : (initDecode s).draws = s.draws := rfl

/-! ### What the updates set -/

@[simp] theorem accept_running (s : State) : (accept s).status.running = s.status.running := rfl
@[simp] theorem accept_ready (s : State) : (accept s).status.ready = s.status.ready := rfl
@[simp] theorem accept_fail (s : State) : (accept s).status.fail = s.status.fail := rfl
@[simp] theorem accept_err (s : State) : (accept s).status.err = false := rfl
@[simp] theorem accept_errCause (s : State) : (accept s).status.errCause = 0#8 := rfl
@[simp] theorem accept_ovr (s : State) : (accept s).status.ovr = s.status.ovr := rfl
@[simp] theorem accept_failCause (s : State) : (accept s).status.failCause = s.status.failCause := rfl
@[simp] theorem accept_failTable (s : State) : (accept s).status.failTable = s.status.failTable := rfl
@[simp] theorem accept_failDetail (s : State) : (accept s).status.failDetail = s.status.failDetail := rfl
@[simp] theorem accept_accept (s : State) : accept (accept s) = accept s := rfl

theorem accept_eq_cleared (s : State) : accept s = s.cleared := rfl
theorem reject_eq_withError (c : ErrCause) (s : State) : reject c s = s.withError c.code := rfl
theorem setResult_eq_withResult (v : Word) (s : State) : setResult v s = s.withResult v := rfl
theorem failWith_eq_withFailure (f : Failure) (s : State) :
    failWith f s = s.withFailure f.cause.code f.table f.detail := rfl

@[simp] theorem setResult_result (v : Word) (s : State) : (setResult v s).regs.result = v := rfl
@[simp] theorem setResult_regs (v : Word) (s : State) : (setResult v s).regs = { s.regs with result := v } := rfl

@[simp] theorem failWith_running (f : Failure) (s : State) : (failWith f s).status.running = s.status.running := rfl
@[simp] theorem failWith_ready (f : Failure) (s : State) : (failWith f s).status.ready = s.status.ready := rfl
@[simp] theorem failWith_fail (f : Failure) (s : State) : (failWith f s).status.fail = true := rfl
@[simp] theorem failWith_err (f : Failure) (s : State) : (failWith f s).status.err = s.status.err := rfl
@[simp] theorem failWith_errCause (f : Failure) (s : State) : (failWith f s).status.errCause = s.status.errCause := rfl
@[simp] theorem failWith_ovr (f : Failure) (s : State) : (failWith f s).status.ovr = s.status.ovr := rfl
@[simp] theorem failWith_failCause (f : Failure) (s : State) : (failWith f s).status.failCause = f.cause.code := rfl
@[simp] theorem failWith_failTable (f : Failure) (s : State) : (failWith f s).status.failTable = f.table := rfl
@[simp] theorem failWith_failDetail (f : Failure) (s : State) : (failWith f s).status.failDetail = f.detail := rfl
@[simp] theorem failWith_outMem (f : Failure) (s : State) :
    (failWith f s).outMem = dropRange s.outMem 0 (min s.win.produced.toNat s.lat.outCap.toNat) := rfl

@[simp] theorem emit_pos (b : Byte) (s : State) : (emit b s).win.pos = s.win.pos + 1 := rfl
@[simp] theorem emit_produced (b : Byte) (s : State) : (emit b s).win.produced = s.win.produced + 1 := rfl
@[simp] theorem emit_matchSrc (b : Byte) (s : State) : (emit b s).win.matchSrc = s.win.matchSrc := rfl
@[simp] theorem emit_matchRem (b : Byte) (s : State) : (emit b s).win.matchRem = s.win.matchRem := rfl
@[simp] theorem emit_window (b : Byte) (s : State) :
    (emit b s).win.window = s.win.window.write s.win.pos.toNat b := rfl
@[simp] theorem emit_outMem (b : Byte) (s : State) : (emit b s).outMem =
    if s.win.produced < s.lat.outCap then s.outMem.write s.win.produced.toNat b else s.outMem := rfl

@[simp] theorem startCopy_window (n d : Nat) (s : State) : (startCopy n d s).win.window = s.win.window := rfl
@[simp] theorem startCopy_pos (n d : Nat) (s : State) : (startCopy n d s).win.pos = s.win.pos := rfl
@[simp] theorem startCopy_produced (n d : Nat) (s : State) : (startCopy n d s).win.produced = s.win.produced := rfl
@[simp] theorem startCopy_matchSrc (n d : Nat) (s : State) :
    (startCopy n d s).win.matchSrc = matchSource s.win.pos d := rfl
@[simp] theorem startCopy_matchRem (n d : Nat) (s : State) :
    (startCopy n d s).win.matchRem = BitVec.ofNat 9 n := rfl

@[simp] theorem advanceMatch_window (s : State) : (advanceMatch s).win.window = s.win.window := rfl
@[simp] theorem advanceMatch_pos (s : State) : (advanceMatch s).win.pos = s.win.pos := rfl
@[simp] theorem advanceMatch_produced (s : State) : (advanceMatch s).win.produced = s.win.produced := rfl
@[simp] theorem advanceMatch_matchSrc (s : State) : (advanceMatch s).win.matchSrc = s.win.matchSrc + 1 := rfl
@[simp] theorem advanceMatch_matchRem (s : State) : (advanceMatch s).win.matchRem = s.win.matchRem - 1 := rfl

@[simp] theorem singleC_cBuilt (s : State) : (singleC s).tabs.cBuilt = true := rfl
@[simp] theorem singleC_cAvail (s : State) : (singleC s).tabs.cAvail = 510#11 := rfl
@[simp] theorem singleC_bits (s : State) : (singleC s).bits = (consumeBits 9 s).bits := rfl
@[simp] theorem singleC_cLen (s : State) : (singleC s).tabs.cLen = zeroLens s.tabs.cLen 0 510 := by
  simp [singleC, getBits, zeroCLens]
@[simp] theorem singleC_cTable (s : State) :
    (singleC s).tabs.cTable = fillRange s.tabs.cTable 0 4096 ((peekBits 9 s).setWidth 10) := by
  simp [singleC, getBits, zeroCLens]
@[simp] theorem singleC_ptKind (s : State) : (singleC s).tabs.ptKind = s.tabs.ptKind := by
  simp [singleC, getBits, zeroCLens]

@[simp] theorem singlePt_ptKind (p : PtList) (s : State) : (singlePt p s).tabs.ptKind = p.id.kind := rfl
@[simp] theorem singlePt_ptNchar (p : PtList) (s : State) :
    (singlePt p s).tabs.ptNchar = BitVec.ofNat 5 p.id.nchar := rfl
@[simp] theorem singlePt_ptAvail (p : PtList) (s : State) :
    (singlePt p s).tabs.ptAvail = BitVec.ofNat 11 p.id.nchar := rfl
@[simp] theorem singlePt_bits (p : PtList) (s : State) : (singlePt p s).bits = (consumeBits p.nbit s).bits := rfl
@[simp] theorem singlePt_ptLen (p : PtList) (s : State) :
    (singlePt p s).tabs.ptLen = zeroLens s.tabs.ptLen 0 p.id.nchar := by
  simp [singlePt, getBits, zeroPtLens]
@[simp] theorem singlePt_ptTable (p : PtList) (s : State) :
    (singlePt p s).tabs.ptTable = fillRange s.tabs.ptTable 0 256 ((peekBits p.nbit s).setWidth 10) := by
  simp [singlePt, getBits, zeroPtLens]

theorem endBuild_c (b : Build) (s : State) : endBuild .cTable b s =
    { s with tabs :=
      { s.tabs with
        cTable := b.table, left := b.left, right := b.right
        cAvail := BitVec.ofNat 11 b.avail, cBuilt := true } } := rfl

theorem endBuild_pt {id : TableId} (h : id ≠ .cTable) (b : Build) (s : State) : endBuild id b s =
    { s with tabs :=
      { s.tabs with
        ptTable := b.table, left := b.left, right := b.right
        ptAvail := BitVec.ofNat 11 b.avail, ptKind := id.kind
        ptNchar := BitVec.ofNat 5 id.nchar, ptFirst := BitVec.ofNat 5 id.nchar } } := by
  cases id <;> first | rfl | exact absurd rfl h

@[simp] theorem setBlockSize_blockSize (v : Word) (s : State) : (setBlockSize v s).tabs.blockSize = v := rfl

end Sys2Proof.Machine
end

