-- ==== Sys2Proof/Laws/Ops.lean ====
section
/-! SUPPORT. What the shared operations of a command can do: a flow's course, the prechecks, a command's outcome, and each command
of the opcode map as one run of `runCommand`. -/

namespace Sys2Proof.Machine

/-! ## Flows -/

section Flows
variable {α β : Type}

@[simp] theorem Flow.andThen_ok (a : α) (s : State) (k : α → State → Flow β) : (Flow.ok a s).andThen k = k a s := rfl

@[simp] theorem Flow.andThen_failed (f : Failure) (s : State) (k : α → State → Flow β) :
    (Flow.failed f s : Flow α).andThen k = .failed f s := rfl

@[simp] theorem Flow.state_ok (a : α) (s : State) : (Flow.ok a s).state = s := rfl

@[simp] theorem Flow.state_failed (f : Failure) (s : State) : (Flow.failed f s : Flow α).state = s := rfl

theorem Flow.andThen_eq_ok {x : Flow α} {k : α → State → Flow β} {b : β} {t : State} :
    x.andThen k = .ok b t ↔ ∃ a u, x = .ok a u ∧ k a u = .ok b t := by
  cases x <;> simp

theorem Flow.andThen_eq_failed {x : Flow α} {k : α → State → Flow β} {f : Failure} {t : State} :
    x.andThen k = .failed f t ↔ x = .failed f t ∨ ∃ a u, x = .ok a u ∧ k a u = .failed f t := by
  cases x <;> simp

theorem Flow.andThen_assoc {γ : Type} (x : Flow α) (k : α → State → Flow β) (l : β → State → Flow γ) :
    (x.andThen k).andThen l = x.andThen fun a s => (k a s).andThen l := by
  cases x <;> rfl

/-- A property of states that a flow's first part keeps, and that its second part keeps from there, holds at its end. -/
theorem Flow.andThen_state {P : State → Prop} {x : Flow α} {k : α → State → Flow β} (hx : P x.state)
    (hk : ∀ a u, x = .ok a u → P u → P (k a u).state) : P (x.andThen k).state := by
  cases x with
  | ok a u => exact hk a u rfl hx
  | failed f u => exact hx

end Flows

/-! ## Prechecks and outcomes -/

theorem precheck_none {g : Gate} {legal : Bool} {pre : Option ErrCause} {s : State} (h : precheck g legal pre s = none) :
    (g ≠ .always → s.status.ready = true) ∧ (g = .working → s.status.fail = false) ∧ legal = true ∧ pre = none := by
  unfold precheck at h
  split at h
  · simp at h
  split at h
  · simp at h
  split at h
  · simp at h
  · simp_all

theorem precheck_working {s : State} (hs : s.Runs) (legal : Bool) (pre : Option ErrCause) :
    precheck .working legal pre s = if legal then pre else some .illegalOperand := by
  obtain ⟨-, h1, h2⟩ := hs
  cases legal <;> simp [precheck, h1, h2]

theorem precheck_inspect {s : State} (hs : s.Inspectable) (legal : Bool) (pre : Option ErrCause) :
    precheck .inspect legal pre s = if legal then pre else some .illegalOperand := by
  obtain ⟨-, h1⟩ := hs
  cases legal <;> simp [precheck, h1]

theorem busyBit_eq_false {s : State} (h : s.status.running = none) : busyBit s = false := by simp [busyBit, h]

/-- An idle core rejects a command, with the cause its prechecks give, or runs it to its end. -/
theorem runCommand_idle {s : State} (h : s.status.running = none) (g : Gate) (legal : Bool) (pre : Option ErrCause)
    (body : State → Flow (Option Word)) :
    runCommand g legal pre body s =
      match precheck g legal pre s with
      | some c => reject c s
      | none => finish (body (accept s)) := by
  simp only [runCommand, busyBit_eq_false h]
  rfl

theorem runCommand_busy {s : State} (h : s.status.running ≠ none) (g : Gate) (legal : Bool) (pre : Option ErrCause)
    (body : State → Flow (Option Word)) : runCommand g legal pre body s = dropWrite s := by
  have : busyBit s = true := by
    unfold busyBit
    cases hr : s.status.running <;> simp_all
  simp [runCommand, this]

/-- The three ends of a command: dropped, rejected, or run. -/
theorem runCommand_cases (g : Gate) (legal : Bool) (pre : Option ErrCause) (body : State → Flow (Option Word)) (s : State) :
    (s.status.running ≠ none ∧ runCommand g legal pre body s = dropWrite s) ∨
    (∃ c, s.status.running = none ∧ precheck g legal pre s = some c ∧ runCommand g legal pre body s = reject c s) ∨
    (s.status.running = none ∧ precheck g legal pre s = none ∧
      runCommand g legal pre body s = finish (body (accept s))) := by
  by_cases h : s.status.running = none
  · right
    rw [runCommand_idle h]
    cases hp : precheck g legal pre s with
    | some c => exact .inl ⟨c, h, rfl, rfl⟩
    | none => exact .inr ⟨h, rfl, rfl⟩
  · exact .inl ⟨h, runCommand_busy h ..⟩

/-- A working command whose operands are legal and whose precondition holds runs. -/
theorem runCommand_runs {s : State} (hs : s.Runs) {legal : Bool} {pre : Option ErrCause} (hl : legal = true)
    (hp : pre = none) (body : State → Flow (Option Word)) :
    runCommand .working legal pre body s = finish (body s.cleared) := by
  rw [runCommand_idle hs.1, precheck_working hs, hl, hp]
  rfl

theorem runCommand_rejects {s : State} (hs : s.Runs) {legal : Bool} {pre : Option ErrCause} (hl : legal = true)
    {c : ErrCause} (hp : pre = some c) (body : State → Flow (Option Word)) :
    runCommand .working legal pre body s = s.withError c.code := by
  rw [runCommand_idle hs.1, precheck_working hs, hl, hp]
  rfl

theorem runCommand_inspects {s : State} (hs : s.Inspectable) {legal : Bool} (hl : legal = true)
    (body : State → Flow (Option Word)) :
    runCommand .inspect legal none body s = finish (body s.cleared) := by
  rw [runCommand_idle hs.1, precheck_inspect hs, hl]
  rfl

@[simp] theorem finish_value (v : Word) (s : State) : finish (.ok (some v) s) = setResult v s := rfl
@[simp] theorem finish_none (s : State) : finish (.ok none s) = s := rfl
@[simp] theorem finish_failed (f : Failure) (s : State) : finish (.failed f s) = failWith f s := rfl

/-- Where a command ends: the last state of its flow, with RESULT written or kept, or with the failure recorded. -/
theorem finish_cases (x : Flow (Option Word)) :
    (∃ v, x = .ok (some v) x.state ∧ finish x = setResult v x.state) ∨
    (x = .ok none x.state ∧ finish x = x.state) ∨
    (∃ f, x = .failed f x.state ∧ finish x = failWith f x.state) := by
  rcases x with ⟨_ | v, s⟩ | ⟨f, s⟩ <;> simp

/-! ## Every command as one run -/

/-- What READY and FAIL a command needs. -/
def gateOf : Instr → Gate
  | .init | .reset => .always
  | .getLen _ _ | .getTable _ _ | .getNode _ _ => .inspect
  | _ => .working

/-- The legality of a command's operands. -/
def operandsLegal (i : Instr) (s : State) : Bool :=
  match i with
  | .decodeChunk b => chunkCountLegal b
  | .peek n => bitCountLegal n
  | .consume n => bitCountLegal n
  | .getBits n => bitCountLegal n
  | .setLen t n b => bitCountLegal n && lenIndexLegal t b
  | .getLen t b => lenIndexLegal t b
  | .makeTable t b => symbolCountLegal t b
  | .getTable t b => tableIndexLegal t b
  | .getNode _ b => nodeIdLegal b
  | .putLiteral b => literalLegal b
  | .startMatch b => matchLegal b s
  | .copy b => copyCountLegal b
  | _ => true

/-- The state precondition of a command. -/
def preconditionOf (i : Instr) (s : State) : Option ErrCause :=
  match i with
  | .decodeChunk b => chunkPrecondition b s
  | .decodeAll => decodeAllPrecondition s
  | .readCLen => needsMeta s
  | .decodeC => needsCTable s
  | .decodeP => needsPosition s
  | .putLiteral _ => literalPrecondition s
  | .startMatch _ => matchPrecondition s
  | _ => none

@[simp] theorem preconditionOf_decodeChunk (b : BitVec 16) (s : State) :
    preconditionOf (.decodeChunk b) s = chunkPrecondition b s := rfl
@[simp] theorem preconditionOf_decodeAll (s : State) : preconditionOf .decodeAll s = decodeAllPrecondition s := rfl
@[simp] theorem preconditionOf_readCLen (s : State) : preconditionOf .readCLen s = needsMeta s := rfl
@[simp] theorem preconditionOf_decodeC (s : State) : preconditionOf .decodeC s = needsCTable s := rfl
@[simp] theorem preconditionOf_decodeP (s : State) : preconditionOf .decodeP s = needsPosition s := rfl
@[simp] theorem preconditionOf_putLiteral (b : BitVec 16) (s : State) :
    preconditionOf (.putLiteral b) s = literalPrecondition s := rfl
@[simp] theorem preconditionOf_startMatch (b : BitVec 16) (s : State) :
    preconditionOf (.startMatch b) s = matchPrecondition s := rfl

/-- The steps of a command, its RESULT at their end. -/
def bodyOf (i : Instr) (s : State) : Flow (Option Word) :=
  match i with
  | .init => .ok (some 0) (initDecode s)
  | .reset => .ok (some 0) (coldReset s)
  | .decodeChunk b => (chunkBody b.toNat s).andThen fun _ s => .ok (some (b.setWidth 32)) s
  | .decodeAll =>
    (decodeChunks (outRemaining s) s).andThen fun _ t => .ok (some (t.win.produced - s.win.produced)) t
  | .peek n => .ok (some ((peekBits n.toNat s).setWidth 32)) s
  | .consume n => .ok none (consumeBits n.toNat s)
  | .getBits n => .ok (some ((peekBits n.toNat s).setWidth 32)) (consumeBits n.toNat s)
  | .setLen t n b => .ok none (setLength t n b.toNat s)
  | .getLen .c b => .ok (some ((lenAt s.tabs.cLen b.toNat).setWidth 32)) s
  | .getLen .pt b => .ok (some ((lenAt s.tabs.ptLen b.toNat).setWidth 32)) s
  | .makeTable t b => (buildTable (makeTableId t b) s).andThen fun avail s => .ok (some avail) s
  | .getTable .c b => readOrDraw (readCell s.tabs.cTable b.toNat) s
  | .getTable .pt b => readOrDraw (readCell s.tabs.ptTable b.toNat) s
  | .getNode t b => readOrDraw (nodeEntry t b.toNat s) s
  | .readMetaLen => returning (readPtLen metaList s)
  | .readCLen => returning (readCLen s)
  | .readPLen => returning (readPtLen positionList s)
  | .readBlockHeader => returning (readBlockHeader s)
  | .decodeC => (decodeLiteralLength s).andThen fun c s => .ok (some (c.setWidth 32)) s
  | .decodeP => (decodeDistance s).andThen fun d s => .ok (some (BitVec.ofNat 32 d)) s
  | .putLiteral b => .ok none (emit (b.setWidth 8) s)
  | .startMatch b =>
    .ok (some ((startCopy (matchLength s) b.toNat s).win.matchSrc.setWidth 32)) (startCopy (matchLength s) b.toNat s)
  | .copy b => (copyTimes (copyCount b s) s).andThen fun _ t => .ok (some (BitVec.ofNat 32 (copyCount b s))) t

/-- Every command is one run of `runCommand`: every later fact about all commands goes through this one. -/
theorem exec_eq_run (i : Instr) (s : State) :
    exec i s = .next (runCommand (gateOf i) (operandsLegal i s) (preconditionOf i s) (bodyOf i) s) := by
  cases i with
  | getLen t b => cases t <;> rfl
  | getTable t b => cases t <;> rfl
  | _ => rfl

/-- What a command can do: it is dropped while BUSY, rejected with the cause its prechecks give, or run to its end. -/
theorem exec_cases {i : Instr} {s t : State} (h : exec i s = .next t) :
    (s.status.running ≠ none ∧ t = dropWrite s) ∨
    (∃ c, s.status.running = none ∧ precheck (gateOf i) (operandsLegal i s) (preconditionOf i s) s = some c ∧
      t = reject c s) ∨
    (s.status.running = none ∧ precheck (gateOf i) (operandsLegal i s) (preconditionOf i s) s = none ∧
      t = finish (bodyOf i (accept s))) := by
  rw [exec_eq_run] at h
  cases h
  exact runCommand_cases ..

theorem exec_runs {i : Instr} {s : State} (hs : s.Runs) (hg : gateOf i = .working) (hl : operandsLegal i s = true)
    (hp : preconditionOf i s = none) : exec i s = .next (finish (bodyOf i s.cleared)) := by
  rw [exec_eq_run, hg, runCommand_runs hs hl hp]

theorem exec_rejects {i : Instr} {s : State} (hs : s.Runs) (hg : gateOf i = .working) (hl : operandsLegal i s = true)
    {c : ErrCause} (hp : preconditionOf i s = some c) : exec i s = .next (s.withError c.code) := by
  rw [exec_eq_run, hg, runCommand_rejects hs hl hp]

theorem exec_inspects {i : Instr} {s : State} (hs : s.Inspectable) (hg : gateOf i = .inspect)
    (hl : operandsLegal i s = true) : exec i s = .next (finish (bodyOf i s.cleared)) := by
  have hp : preconditionOf i s = none := by cases i <;> first | rfl | simp [gateOf] at hg
  rw [exec_eq_run, hg, hp, runCommand_inspects hs hl]

/-- INIT and RESET run in every state that is not BUSY. -/
theorem exec_control {i : Instr} {s : State} (h : s.status.running = none) (hg : gateOf i = .always) :
    exec i s = .next (finish (bodyOf i s.cleared)) := by
  have hl : operandsLegal i s = true ∧ preconditionOf i s = none := by
    cases i <;> first | exact ⟨rfl, rfl⟩ | simp [gateOf] at hg
  rw [exec_eq_run, runCommand_idle h, hg, hl.1, hl.2]
  rfl

/-- The machine's operand checks are those of the syntax, with START_MATCH's length in ARG added. -/
theorem operandsLegal_iff (i : Instr) (s : State) : operandsLegal i s = true ↔ legalIn i s := by
  have hm : matchLength s = s.regs.arg.toNat % 65536 := by simp [matchLength]
  cases i with
  | setLen t n b => cases t <;> simp [operandsLegal, legalIn, Instr.wellFormed, bitCountLegal, lenIndexLegal]
  | getLen t b => cases t <;> simp [operandsLegal, legalIn, Instr.wellFormed, lenIndexLegal]
  | makeTable t b => cases t <;> simp [operandsLegal, legalIn, Instr.wellFormed, symbolCountLegal]
  | getTable t b => cases t <;> simp [operandsLegal, legalIn, Instr.wellFormed, tableIndexLegal]
  | startMatch b => simp [operandsLegal, legalIn, Instr.wellFormed, matchLegal, hm, and_assoc]
  | _ =>
    simp [operandsLegal, legalIn, Instr.wellFormed, chunkCountLegal, bitCountLegal, nodeIdLegal, literalLegal,
      copyCountLegal]

end Sys2Proof.Machine
end

