-- ==== Sys2Proof/Laws/BitReader.lean ====
section
/-! SUPPORT. The BitReader (40_bitreader.md): what a fetch and a shift-in do to its registers, and that CONSUME keeps it in the stream
of 20_memory.md R101 for every byte boundary, every STAGE_CAP and past the end of the input. -/

namespace Sys2Proof.Machine

/-! ## The staging queue -/

/-- Stream byte F: the IN byte at F, or 0 at and past L_IN_LEN. -/
def Source.streamByte (src : Source) (F : Nat) : Byte := if F < src.len then src.byte F else 0

/-- Stream bit k (20_memory.md R101). -/
def Source.bit (src : Source) (k : Nat) : Bool := (src.streamByte (k / 8)).getLsbD (7 - k % 8)

theorem streamBit_eq (s : State) (k : Nat) : streamBit s k = (sourceOf s).bit k := by
  unfold streamBit Source.bit Source.streamByte
  have : k < 8 * s.lat.inLen.toNat ↔ k / 8 < (sourceOf s).len := by simp only [sourceOf]; omega
  by_cases h : k < 8 * s.lat.inLen.toNat
  · simp [h, this.mp h]
  · have h2 : ¬ k / 8 < (sourceOf s).len := fun hh => h (this.mpr hh)
    simp [h, h2]

/-- The queue after F fetches: `stage` ends at IN_CURSOR, and min(F, L_IN_LEN) bytes have been handed out. -/
structure Queue (src : Source) (b : BitReader) (F : Nat) : Prop where
  cap_pos : 1 ≤ src.cap
  cap_le : src.cap ≤ 65535
  len_lt : src.len < 2 ^ 32
  stage_le : b.stage.length ≤ b.inCursor.toNat
  stageIdx_le : b.stageIdx.toNat ≤ b.stage.length
  stageLen_le : b.stage.length ≤ 65535
  inCursor_le : b.inCursor.toNat ≤ src.len
  fetched : b.inCursor.toNat - b.stage.length + b.stageIdx.toNat = min F src.len
  staged : ∀ k, b.stageIdx.toNat ≤ k → ∀ h : k < b.stage.length,
    b.stage[k] = src.byte (b.inCursor.toNat - b.stage.length + k)

@[simp] theorem refill_bitbuf (src : Source) (b : BitReader) : (refill src b).bitbuf = b.bitbuf := by
  unfold refill; split <;> rfl
@[simp] theorem refill_subbitbuf (src : Source) (b : BitReader) : (refill src b).subbitbuf = b.subbitbuf := by
  unfold refill; split <;> rfl
@[simp] theorem refill_bitcount (src : Source) (b : BitReader) : (refill src b).bitcount = b.bitcount := by
  unfold refill; split <;> rfl
@[simp] theorem refill_bitpos (src : Source) (b : BitReader) : (refill src b).bitpos = b.bitpos := by
  unfold refill; split <;> rfl

@[simp] theorem fetchByte_bitbuf (src : Source) (b : BitReader) : (fetchByte src b).2.bitbuf = b.bitbuf := by
  unfold fetchByte; dsimp only; split <;> simp
@[simp] theorem fetchByte_subbitbuf (src : Source) (b : BitReader) :
    (fetchByte src b).2.subbitbuf = b.subbitbuf := by
  unfold fetchByte; dsimp only; split <;> simp
@[simp] theorem fetchByte_bitcount (src : Source) (b : BitReader) : (fetchByte src b).2.bitcount = b.bitcount := by
  unfold fetchByte; dsimp only; split <;> simp
@[simp] theorem fetchByte_bitpos (src : Source) (b : BitReader) : (fetchByte src b).2.bitpos = b.bitpos := by
  unfold fetchByte; dsimp only; split <;> simp

@[simp] theorem Source.batch_length (src : Source) (i k : Nat) : (src.batch i k).length = k := by simp [Source.batch]

@[simp] theorem Source.batch_getElem (src : Source) (i k j : Nat) (h : j < (src.batch i k).length) :
    (src.batch i k)[j] = src.byte (i + j) := by simp [Source.batch]

/-- A refill keeps the queue, and leaves it empty only at the end of the input. -/
theorem Queue.refill {src : Source} {b : BitReader} {F : Nat} (h : Queue src b F) :
    Queue src (refill src b) F ∧
      ((refill src b).stageIdx.toNat = (refill src b).stage.length → (refill src b).inCursor.toNat = src.len) := by
  have hc := h.cap_pos
  have hc2 := h.cap_le
  have hl := h.len_lt
  have h1 := h.stage_le
  have h4 := h.inCursor_le
  have h5 := h.fetched
  by_cases he : b.stageIdx.toNat = b.stage.length
  · have hk : (b.inCursor + BitVec.ofNat 32 (min src.cap (src.len - b.inCursor.toNat))).toNat =
        b.inCursor.toNat + min src.cap (src.len - b.inCursor.toNat) := by
      rw [BitVec.toNat_add, BitVec.toNat_ofNat]
      omega
    have hr : Machine.refill src b =
        { b with
          stage := src.batch b.inCursor.toNat (min src.cap (src.len - b.inCursor.toNat))
          stageIdx := 0
          inCursor := b.inCursor + BitVec.ofNat 32 (min src.cap (src.len - b.inCursor.toNat)) } := by
      simp [Machine.refill, he]
    rw [hr]
    refine ⟨⟨hc, hc2, hl, ?_, ?_, ?_, ?_, ?_, ?_⟩, ?_⟩
    · simp only [Source.batch_length, hk]; omega
    · simp
    · simp only [Source.batch_length]; omega
    · simp only [hk]; omega
    · simp only [Source.batch_length, hk]; simp; omega
    · intro k _ hk'
      simp only [Source.batch_length] at hk'
      simp only [Source.batch_getElem, Source.batch_length, hk]
      congr 1; omega
    · simp only [Source.batch_length, hk]; simp; omega
  · have hr : Machine.refill src b = b := by simp [Machine.refill, he]
    rw [hr]
    exact ⟨h, fun h' => absurd h' he⟩

/-- FETCH_BYTE hands out stream byte F and counts it. -/
theorem Queue.fetchByte {src : Source} {b : BitReader} {F : Nat} (h : Queue src b F) :
    (fetchByte src b).1 = src.streamByte F ∧ Queue src (fetchByte src b).2 (F + 1) := by
  obtain ⟨h, he⟩ := h.refill
  revert h he
  unfold Machine.fetchByte
  generalize Machine.refill src b = b
  intro h he
  have h5 := h.fetched
  have h1 := h.stage_le
  have h2 := h.stageIdx_le
  have h3 := h.stageLen_le
  have h4 := h.inCursor_le
  dsimp only
  by_cases hlt : b.stageIdx.toNat < b.stage.length
  · rw [List.getElem?_eq_getElem hlt]
    dsimp only
    have hF : F < src.len := by omega
    have hi : (b.stageIdx + 1).toNat = b.stageIdx.toNat + 1 := by
      rw [BitVec.toNat_add]; simp; omega
    refine ⟨?_, ⟨h.cap_pos, h.cap_le, h.len_lt, h1, ?_, h3, h4, ?_, ?_⟩⟩
    · rw [h.staged _ (Nat.le_refl _) hlt, Source.streamByte, if_pos hF]
      congr 1; omega
    · simp only [hi]; omega
    · simp only [hi]; omega
    · intro k hk hk'
      simp only [hi] at hk
      exact h.staged k (by omega) hk'
  · rw [List.getElem?_eq_none (by omega)]
    dsimp only
    have hend := he (by omega)
    have hF : ¬ F < src.len := by omega
    exact ⟨by simp [Source.streamByte, hF],
      ⟨h.cap_pos, h.cap_le, h.len_lt, h1, h2, h3, h4, by omega, h.staged⟩⟩

/-! ## Shift-in -/

/-- SHIFT_IN inside its loop: BITBUF is the 16 bits before stream bit E but for its low m bits, which are 0; SUBBITBUF is stream byte
F − 1, of which BITCOUNT bits are still to shift in. -/
structure Shifting (src : Source) (E F m : Nat) (b : BitReader) : Prop where
  buf : ∀ t, t < 16 → b.bitbuf.getLsbD t = (decide (m ≤ t) && src.bit (E - 1 - t))
  sub : ∀ j, j < 8 → b.subbitbuf.getLsbD j = src.bit (8 * F - 1 - j)
  fetches : 1 ≤ F
  pos : 8 * F + m = E + b.bitcount.toNat
  bitcount_le : b.bitcount.toNat ≤ 8
  full : b.bitcount.toNat = 8 → 1 ≤ m
  queue : Queue src b F

theorem Source.streamByte_bit (src : Source) (F j : Nat) (hj : j < 8) :
    (src.streamByte F).getLsbD j = src.bit (8 * (F + 1) - 1 - j) := by
  unfold Source.bit
  have h1 : (8 * (F + 1) - 1 - j) / 8 = F := by omega
  have h2 : 7 - (8 * (F + 1) - 1 - j) % 8 = j := by omega
  rw [h1, h2]

theorem Shifting.pass {src : Source} {E F m : Nat} {b : BitReader} (hE : 16 ≤ E) (h : Shifting src E F m b)
    (hm : b.bitcount.toNat < m) :
    Shifting src E (F + 1) (m - b.bitcount.toNat)
      { (fetchByte src b).2 with
        bitbuf := b.bitbuf ||| (b.subbitbuf.setWidth 16 <<< (m - b.bitcount.toNat))
        subbitbuf := (fetchByte src b).1
        bitcount := 8 } := by
  obtain ⟨hb, hq⟩ := h.queue.fetchByte
  have hpos := h.pos
  have hf := h.fetches
  have hbc := h.bitcount_le
  refine ⟨?_, ?_, by omega, ?_, by simp, ?_, ?_⟩
  · intro t ht
    rw [BitVec.getLsbD_or, h.buf t ht, BitVec.getLsbD_shiftLeft, BitVec.getLsbD_setWidth]
    by_cases h1 : m - b.bitcount.toNat ≤ t
    · by_cases h2 : t - (m - b.bitcount.toNat) < 8
      · rw [h.sub _ h2]
        have : 8 * F - 1 - (t - (m - b.bitcount.toNat)) = E - 1 - t := by omega
        rw [this]
        have ht2 : t - (m - b.bitcount.toNat) < 16 := by omega
        have h3 : ¬ t < m - b.bitcount.toNat := by omega
        by_cases h4 : m ≤ t <;> simp [h1, h3, h4, ht, ht2]
      · have h5 : m ≤ t := by omega
        rw [BitVec.getLsbD_of_ge _ (t - (m - b.bitcount.toNat)) (by omega)]
        simp [h1, h5]
    · have h3 : t < m - b.bitcount.toNat := by omega
      have h4 : ¬ m ≤ t := by omega
      simp [h1, h3, h4]
  · intro j hj
    dsimp only
    rw [hb]
    exact src.streamByte_bit F j hj
  · simp; omega
  · intro _; omega
  · exact ⟨hq.cap_pos, hq.cap_le, hq.len_lt, hq.stage_le, hq.stageIdx_le, hq.stageLen_le, hq.inCursor_le, hq.fetched,
      hq.staged⟩

/-- The loop of SHIFT_IN keeps its form and ends with no more bits to shift than BITCOUNT holds. -/
theorem Shifting.loop {src : Source} {E : Nat} (hE : 16 ≤ E) (fuel : Nat) :
    ∀ {F m : Nat} {b : BitReader}, Shifting src E F m b → (m < fuel ∨ (m ≤ fuel ∧ b.bitcount.toNat = 8)) →
      ∃ F', Shifting src E F' (shiftLoop src fuel m b).1 (shiftLoop src fuel m b).2 ∧
        (shiftLoop src fuel m b).1 ≤ (shiftLoop src fuel m b).2.bitcount.toNat ∧
        (shiftLoop src fuel m b).2.bitpos = b.bitpos := by
  induction fuel with
  | zero =>
    intro F m b h hf
    exact ⟨F, h, by simp only [shiftLoop]; omega, rfl⟩
  | succ fuel ih =>
    intro F m b h hf
    by_cases hm : b.bitcount.toNat < m
    · have hp := h.pass hE hm
      have hstep := ih hp (by simp; omega)
      obtain ⟨F', h1, h2, h3⟩ := hstep
      refine ⟨F', ?_, ?_, ?_⟩ <;> simp only [shiftLoop, hm, if_true]
      · exact h1
      · exact h2
      · rw [h3]; simp
    · refine ⟨F, ?_, ?_, ?_⟩ <;> simp only [shiftLoop, hm, if_false]
      · exact h
      · omega

/-- The last two lines of SHIFT_IN, with m bits left to shift. -/
def shiftEnd (m : Nat) (b : BitReader) : BitReader :=
  { b with
    bitcount := BitVec.ofNat 4 (b.bitcount.toNat - m)
    bitbuf := b.bitbuf ||| (b.subbitbuf >>> (b.bitcount.toNat - m)).setWidth 16 }

theorem shiftIn_eq_shiftEnd (src : Source) (n : Nat) (b : BitReader) :
    shiftIn src n b = shiftEnd (shiftLoop src (n + 1) n { b with bitbuf := b.bitbuf <<< n }).1
      (shiftLoop src (n + 1) n { b with bitbuf := b.bitbuf <<< n }).2 := rfl

/-- The end of SHIFT_IN: BITBUF is the 16 stream bits before E, SUBBITBUF the byte whose BITCOUNT bits follow. -/
structure InStream (src : Source) (E : Nat) (b : BitReader) : Prop where
  buf : ∀ t, t < 16 → b.bitbuf.getLsbD t = src.bit (E - 1 - t)
  sub : ∀ j, j < 8 → b.subbitbuf.getLsbD j = src.bit (E + b.bitcount.toNat - 1 - j)
  bitcount_le : b.bitcount.toNat ≤ 7
  whole : (E + b.bitcount.toNat) % 8 = 0
  queue : Queue src b ((E + b.bitcount.toNat) / 8)

theorem Shifting.finish {src : Source} {E F m : Nat} {b : BitReader} (hE : 16 ≤ E) (h : Shifting src E F m b)
    (hm : m ≤ b.bitcount.toNat) :
    InStream src E (shiftEnd m b) := by
  unfold shiftEnd
  have hpos := h.pos
  have hbc := h.bitcount_le
  have hfull := h.full
  have hc : (BitVec.ofNat 4 (b.bitcount.toNat - m)).toNat = b.bitcount.toNat - m := by
    rw [BitVec.toNat_ofNat]; omega
  have hF : E + (b.bitcount.toNat - m) = 8 * F := by omega
  refine ⟨?_, ?_, ?_, ?_, ?_⟩
  · intro t ht
    rw [BitVec.getLsbD_or, h.buf t ht, BitVec.getLsbD_setWidth, BitVec.getLsbD_ushiftRight]
    by_cases h1 : b.bitcount.toNat - m + t < 8
    · rw [h.sub _ h1]
      have : 8 * F - 1 - (b.bitcount.toNat - m + t) = E - 1 - t := by omega
      rw [this]
      cases src.bit (E - 1 - t) <;> simp [ht]
    · rw [BitVec.getLsbD_of_ge _ (b.bitcount.toNat - m + t) (by omega)]
      have : m ≤ t := by omega
      simp [this]
  · intro j hj
    simp only [hc, hF]
    exact h.sub j hj
  · simp only [hc]; omega
  · simp only [hc, hF]; omega
  · simp only [hc, hF]
    have : 8 * F / 8 = F := by omega
    rw [this]
    have hq := h.queue
    exact ⟨hq.cap_pos, hq.cap_le, hq.len_lt, hq.stage_le, hq.stageIdx_le, hq.stageLen_le, hq.inCursor_le, hq.fetched,
      hq.staged⟩

/-- SHIFT_IN(n) moves the window of a BitReader that stands in the stream by n bits. -/
theorem InStream.shiftIn {src : Source} {E : Nat} {b : BitReader} (hE : 16 ≤ E) (h : InStream src E b) (n : Nat) :
    InStream src (E + n) (shiftIn src n b) := by
  have hw := h.whole
  have hb := h.bitcount_le
  have h0 : Shifting src (E + n) ((E + b.bitcount.toNat) / 8) n { b with bitbuf := b.bitbuf <<< n } := by
    refine ⟨?_, ?_, by omega, by simp only; omega, by simp only; omega, fun h8 => by simp only at h8; omega, ?_⟩
    · intro t ht
      simp only [BitVec.getLsbD_shiftLeft]
      by_cases h1 : n ≤ t
      · rw [h.buf _ (by omega)]
        have : E - 1 - (t - n) = E + n - 1 - t := by omega
        have h2 : ¬ t < n := by omega
        simp [this, h1, h2, ht]
      · have h2 : t < n := by omega
        simp [h1, h2]
    · intro j hj
      have := h.sub j hj
      simp only
      rw [this]
      congr 1; omega
    · have hq := h.queue
      exact ⟨hq.cap_pos, hq.cap_le, hq.len_lt, hq.stage_le, hq.stageIdx_le, hq.stageLen_le, hq.inCursor_le, hq.fetched,
        hq.staged⟩
  obtain ⟨F', h1, h2, -⟩ := h0.loop (by omega) (n + 1) (by left; omega)
  exact h1.finish (by omega) h2

/-- INIT_BITS enters the stream at bit 0: BITBUF is its first 16 bits. -/
theorem InStream.initBits (src : Source) (b : BitReader) (hc : 1 ≤ src.cap) (hc2 : src.cap ≤ 65535)
    (hl : src.len < 2 ^ 32) : InStream src 16 (initBits src b) := by
  have hq : Queue src { b with bitbuf := 0, subbitbuf := 0, bitcount := 0, stage := [], stageIdx := 0, inCursor := 0 } 0 := by
    refine ⟨hc, hc2, hl, by simp, by simp, by simp, by simp, by simp, ?_⟩
    intro k _ hk
    simp at hk
  obtain ⟨hb, hq1⟩ := hq.fetchByte
  revert hb hq1
  generalize hr : Machine.fetchByte src
    { b with bitbuf := 0, subbitbuf := 0, bitcount := 0, stage := [], stageIdx := 0, inCursor := 0 } = r
  intro hb hq1
  have h1 : Shifting src 16 1 16 { r.2 with bitbuf := 0, subbitbuf := r.1, bitcount := 8 } := by
    refine ⟨?_, ?_, by omega, by simp, by simp, by simp, ?_⟩
    · intro t ht
      have : ¬ 16 ≤ t := by omega
      simp [this]
    · intro j hj
      simp only
      rw [hb]
      exact src.streamByte_bit 0 j hj
    · exact ⟨hq1.cap_pos, hq1.cap_le, hq1.len_lt, hq1.stage_le, hq1.stageIdx_le, hq1.stageLen_le, hq1.inCursor_le,
        hq1.fetched, hq1.staged⟩
  obtain ⟨F', h2, h3, -⟩ := h1.loop (by omega) 16 (by right; simp)
  have h4 := h2.finish (by omega) h3
  have hl : shiftLoop src 17 16
      { b with bitbuf := 0, subbitbuf := 0, bitcount := 0, stage := [], stageIdx := 0, inCursor := 0 } =
      shiftLoop src 16 16 { r.2 with bitbuf := 0, subbitbuf := r.1, bitcount := 8 } := by
    rw [shiftLoop, ← hr]
    simp
  have he : Machine.initBits src b =
      { shiftEnd (shiftLoop src 16 16 { r.2 with bitbuf := 0, subbitbuf := r.1, bitcount := 8 }).1
          (shiftLoop src 16 16 { r.2 with bitbuf := 0, subbitbuf := r.1, bitcount := 8 }).2 with bitpos := 0 } := by
    rw [← hl]
    rfl
  rw [he]
  have hq4 := h4.queue
  exact ⟨h4.buf, h4.sub, h4.bitcount_le, h4.whole, ⟨hq4.cap_pos, hq4.cap_le, hq4.len_lt, hq4.stage_le, hq4.stageIdx_le,
    hq4.stageLen_le, hq4.inCursor_le, hq4.fetched, hq4.staged⟩⟩

/-! ## The stream invariant of a state -/

/-- `StreamInv` is the BitReader standing in the stream at BITPOS. -/
theorem streamInv_iff (s : State) : StreamInv s ↔ InStream (sourceOf s) (s.bits.bitpos + 16) s.bits := by
  constructor
  · intro h
    have hw := h.whole_bytes
    have hb := h.bitcount_le
    refine ⟨?_, ?_, hb, hw, ⟨h.stageCap_pos, h.stageCap_le, s.lat.inLen.isLt, h.stage_le, h.stageIdx_le, h.stageLen_le,
      h.inCursor_le, h.fetched, h.staged⟩⟩
    · intro t ht
      have := h.bitbuf_eq (15 - t) (by omega)
      rw [streamBit_eq] at this
      have h1 : 15 - (15 - t) = t := by omega
      have h2 : s.bits.bitpos + (15 - t) = s.bits.bitpos + 16 - 1 - t := by omega
      rwa [h1, h2] at this
    · intro j hj
      have := h.sub_eq (7 - j) (by omega)
      rw [streamBit_eq] at this
      have h1 : 7 - (7 - j) = j := by omega
      have h2 : s.bits.bitpos + 8 + s.bits.bitcount.toNat + (7 - j) =
          s.bits.bitpos + 16 + s.bits.bitcount.toNat - 1 - j := by omega
      rwa [h1, h2] at this
  · intro h
    have hw := h.whole
    have hb := h.bitcount_le
    have hq := h.queue
    refine ⟨?_, ?_, hb, hw, hq.fetched, hq.staged, hq.stage_le, hq.stageIdx_le, hq.inCursor_le, hq.stageLen_le,
      hq.cap_pos, hq.cap_le⟩
    · intro t ht
      rw [h.buf _ (by omega), streamBit_eq]
      congr 1; omega
    · intro j hj
      rw [h.sub _ (by omega), streamBit_eq]
      congr 1; omega

@[simp] theorem consumeBits_zero (s : State) : consumeBits 0 s = s := rfl

@[simp] theorem consumeBits_bitpos (n : Nat) (s : State) : (consumeBits n s).bits.bitpos = s.bits.bitpos + n := by
  unfold consumeBits
  split
  · next h => simp [h]
  · rfl

theorem peekBits_toNat (n : Nat) (s : State) : (peekBits n s).toNat = s.bits.bitbuf.toNat / 2 ^ (16 - n) := by
  simp [peekBits, Nat.shiftRight_eq_div_pow]

theorem peekBits_lt {n : Nat} (hn : n ≤ 16) (s : State) : (peekBits n s).toNat < 2 ^ n := by
  rw [peekBits_toNat, Nat.div_lt_iff_lt_mul (Nat.two_pow_pos _), ← Nat.pow_add, Nat.add_sub_cancel' hn]
  exact s.bits.bitbuf.isLt

/-- PEEK and CONSUME look at the BitReader and its source only. -/
theorem peekBits_congr {s t : State} (n : Nat) (h : t.bits = s.bits) : peekBits n t = peekBits n s := by
  unfold peekBits
  rw [h]

theorem consumeBits_congr {s t : State} (n : Nat) (h : t.bits = s.bits) (hs : sourceOf t = sourceOf s) :
    (consumeBits n t).bits = (consumeBits n s).bits := by
  unfold consumeBits
  split
  · exact h
  · rw [hs, h]

theorem consumeBits_eq (n : Nat) (s : State) : consumeBits n s = { s with bits := (consumeBits n s).bits } := by
  unfold consumeBits
  split <;> rfl

theorem consumeBits_cleared (n : Nat) (s : State) :
    consumeBits n s.cleared = { s.cleared with bits := (consumeBits n s).bits } := by
  unfold consumeBits
  split <;> rfl

@[simp] theorem sourceOf_clearStatus (id : TableId) (s : State) : sourceOf (clearStatus id s) = sourceOf s := by
  simp [sourceOf]

theorem sourceOf_consumeBits (n : Nat) (s : State) : sourceOf (consumeBits n s) = sourceOf s := by simp [sourceOf]

theorem StreamInv.consumeBits {s : State} (h : StreamInv s) (n : Nat) : StreamInv (consumeBits n s) := by
  rw [streamInv_iff] at h ⊢
  rw [sourceOf_consumeBits, consumeBits_bitpos]
  by_cases hn : n = 0
  · subst hn; exact h
  · have h1 := h.shiftIn (by omega) n
    have h2 : s.bits.bitpos + 16 + n = s.bits.bitpos + n + 16 := by omega
    rw [h2] at h1
    have hq := h1.queue
    have he : (Machine.consumeBits n s).bits = { shiftIn (sourceOf s) n s.bits with bitpos := s.bits.bitpos + n } := by
      simp [Machine.consumeBits, hn]
    rw [he]
    exact ⟨h1.buf, h1.sub, h1.bitcount_le, h1.whole, ⟨hq.cap_pos, hq.cap_le, hq.len_lt, hq.stage_le, hq.stageIdx_le,
      hq.stageLen_le, hq.inCursor_le, hq.fetched, hq.staged⟩⟩

theorem StreamInv.initDecode {s : State} (h : s.cfg.wf = true) : StreamInv (initDecode s) := by
  simp only [Params.wf, Bool.and_eq_true, decide_eq_true_eq] at h
  rw [streamInv_iff]
  exact InStream.initBits (sourceOf (Machine.initDecode s)) s.bits h.1.1.1 h.1.1.2 (Machine.initDecode s).lat.inLen.isLt

/-- A state with the same BitReader, IN, latched length and parameters stands in the same stream. -/
theorem StreamInv.congr {s t : State} (h : StreamInv s) (hb : t.bits = s.bits) (hi : t.inMem = s.inMem)
    (hl : t.lat.inLen = s.lat.inLen) (hc : t.cfg = s.cfg) : StreamInv t := by
  rw [streamInv_iff] at h ⊢
  have : sourceOf t = sourceOf s := by simp [sourceOf, hi, hl, hc]
  rw [this, hb]
  exact h

/-! ## The register bounds -/

/-- The bounds of 10_state.md R43 to R45 on the BitReader's registers. -/
structure ReaderBounds (src : Source) (b : BitReader) : Prop where
  len_lt : src.len < 2 ^ 32
  stageIdx_le : b.stageIdx.toNat ≤ b.stage.length
  stageLen_le : b.stage.length ≤ src.cap
  inCursor_le : b.inCursor.toNat ≤ src.len

theorem ReaderBounds.fetchByte {src : Source} {b : BitReader} (hc : src.cap ≤ 65535) (h : ReaderBounds src b) :
    ReaderBounds src (fetchByte src b).2 := by
  have h0 : ReaderBounds src (refill src b) := by
    have h4 := h.inCursor_le
    have hl := h.len_lt
    unfold refill
    split
    · refine ⟨hl, by simp, by simp only [Source.batch_length]; omega, ?_⟩
      simp only [BitVec.toNat_add, BitVec.toNat_ofNat]
      omega
    · exact h
  revert h0
  unfold Machine.fetchByte
  generalize refill src b = b
  intro h
  dsimp only
  split
  · next x hx =>
    have hlt : b.stageIdx.toNat < b.stage.length := by
      rw [List.getElem?_eq_some_iff] at hx
      exact hx.1
    have := h.stageLen_le
    refine ⟨h.len_lt, ?_, h.stageLen_le, h.inCursor_le⟩
    simp only [BitVec.toNat_add]
    simp
    omega
  · exact h

theorem ReaderBounds.shiftLoop {src : Source} (hc : src.cap ≤ 65535) (fuel : Nat) :
    ∀ {m : Nat} {b : BitReader}, ReaderBounds src b → (m < fuel ∨ (m ≤ fuel ∧ b.bitcount.toNat = 8)) →
      b.bitcount.toNat ≤ 8 → (b.bitcount.toNat = 8 → 1 ≤ m) →
      ReaderBounds src (shiftLoop src fuel m b).2 ∧
        (shiftLoop src fuel m b).1 ≤ (shiftLoop src fuel m b).2.bitcount.toNat ∧
        (shiftLoop src fuel m b).2.bitcount.toNat ≤ (shiftLoop src fuel m b).1 + 7 := by
  induction fuel with
  | zero =>
    intro m b h hf h8 h1
    simp only [Machine.shiftLoop]
    exact ⟨h, by omega, by omega⟩
  | succ fuel ih =>
    intro m b h hf h8 h1
    by_cases hm : b.bitcount.toNat < m
    · simp only [Machine.shiftLoop, hm, if_true]
      have hb := h.fetchByte hc
      exact ih ⟨hb.len_lt, hb.stageIdx_le, hb.stageLen_le, hb.inCursor_le⟩ (by simp; omega) (by simp)
        (by intro _; omega)
    · simp only [Machine.shiftLoop, hm, if_false]
      exact ⟨h, by omega, by omega⟩

theorem ReaderBounds.shiftIn {src : Source} {b : BitReader} (hc : src.cap ≤ 65535) (h : ReaderBounds src b) (n : Nat)
    (hb : b.bitcount.toNat ≤ 7) :
    ReaderBounds src (shiftIn src n b) ∧ (shiftIn src n b).bitcount.toNat ≤ 7 := by
  obtain ⟨h1, h2, h3⟩ := ReaderBounds.shiftLoop hc (n + 1)
    (b := { b with bitbuf := b.bitbuf <<< n }) (m := n) ⟨h.len_lt, h.stageIdx_le, h.stageLen_le, h.inCursor_le⟩
    (by left; omega) (by simp only; omega) (by intro h8; simp only at h8; omega)
  refine ⟨⟨h1.len_lt, h1.stageIdx_le, h1.stageLen_le, h1.inCursor_le⟩, ?_⟩
  simp only [Machine.shiftIn, BitVec.toNat_ofNat]
  omega

/-! ## Past the end of the input -/

/-- No staged and no IN byte is left, and every bit held is 0. -/
structure Drained (src : Source) (b : BitReader) : Prop where
  bitbuf_eq : b.bitbuf = 0#16
  sub_eq : b.subbitbuf = 0#8
  stage_eq : b.stage = []
  stageIdx_eq : b.stageIdx = 0#16
  inCursor_eq : b.inCursor.toNat = src.len

/-- A fetch past the end gives 0 and stays past the end (R200). -/
theorem Drained.fetchByte {src : Source} {b : BitReader} (h : Drained src b) :
    (fetchByte src b).1 = 0#8 ∧ Drained src (fetchByte src b).2 := by
  have hr : Drained src (refill src b) := by
    have hc := h.inCursor_eq
    unfold refill
    rw [if_pos (by rw [h.stageIdx_eq, h.stage_eq]; rfl)]
    have hk : min src.cap (src.len - b.inCursor.toNat) = 0 := by omega
    simp only [hk]
    exact ⟨h.bitbuf_eq, h.sub_eq, rfl, rfl, by simpa using hc⟩
  unfold Machine.fetchByte
  dsimp only
  rw [hr.stage_eq, hr.stageIdx_eq]
  exact ⟨rfl, hr⟩

theorem Drained.shiftLoop {src : Source} (fuel m : Nat) {b : BitReader} (h : Drained src b) :
    Drained src (shiftLoop src fuel m b).2 := by
  induction fuel generalizing m b with
  | zero => exact h
  | succ n ih =>
    simp only [Machine.shiftLoop]
    split
    · obtain ⟨h1, h2⟩ := h.fetchByte
      refine ih _ ⟨?_, h1, h2.stage_eq, h2.stageIdx_eq, h2.inCursor_eq⟩
      rw [h.bitbuf_eq, h.sub_eq]; simp
    · exact h

theorem Drained.shiftIn {src : Source} (n : Nat) {b : BitReader} (h : Drained src b) : Drained src (shiftIn src n b) := by
  have h2 := Drained.shiftLoop (n + 1) n (src := src) (b := { b with bitbuf := b.bitbuf <<< n })
    ⟨by rw [h.bitbuf_eq]; simp, h.sub_eq, h.stage_eq, h.stageIdx_eq, h.inCursor_eq⟩
  rw [shiftIn_eq_shiftEnd]
  refine ⟨?_, h2.sub_eq, h2.stage_eq, h2.stageIdx_eq, h2.inCursor_eq⟩
  simp only [shiftEnd, h2.bitbuf_eq, h2.sub_eq]
  simp

/-- The state's BitReader is drained. -/
def State.Drained (s : State) : Prop := Machine.Drained (sourceOf s) s.bits

theorem State.OnlyZeroBits.drained {s : State} (h : s.OnlyZeroBits) : s.Drained :=
  ⟨h.1, h.2.1, h.2.2.1, h.2.2.2.1, by rw [h.2.2.2.2]; rfl⟩

theorem State.Drained.consumeBits {s : State} (h : s.Drained) (n : Nat) : (consumeBits n s).Drained := by
  unfold State.Drained
  rw [sourceOf_consumeBits]
  unfold Machine.consumeBits
  split
  · exact h
  · have h2 := Machine.Drained.shiftIn n h
    exact ⟨h2.bitbuf_eq, h2.sub_eq, h2.stage_eq, h2.stageIdx_eq, h2.inCursor_eq⟩

theorem State.Drained.congr {s t : State} (h : s.Drained) (h1 : t.bits = s.bits) (h2 : t.inMem = s.inMem) (h3 : t.lat = s.lat)
    (h4 : t.cfg = s.cfg) : t.Drained := by
  have hs : sourceOf t = sourceOf s := by simp [sourceOf, h2, h3, h4]
  unfold State.Drained
  rw [hs, h1]
  exact h

/-- Every field read past the end is 0 (R213). -/
theorem State.Drained.peekBits {s : State} (h : s.Drained) (n : Nat) : peekBits n s = 0#16 := by
  unfold Machine.peekBits
  rw [h.bitbuf_eq]
  simp

end Sys2Proof.Machine
end

