-- ==== Sys2Proof/Laws/Tables.lean ====
section
/-! SUPPORT. The HuffmanTableBuilder (41_table_builder.md): the start codes, the intervals of the canonical codes, what a build writes,
and what a lookup can answer. -/

namespace Sys2Proof.Machine

/-! ## Start codes -/

@[simp] theorem startCode_one (lens : List Nat) : startCode lens 1 = 0 := rfl

theorem startCode_succ (lens : List Nat) (i : Nat) (hi : 1 ≤ i) :
    startCode lens (i + 1) = startCode lens i + codeCount lens i * 2 ^ (16 - i) := by
  have : i ≠ 0 := by omega
  simp [startCode, this, Nat.shiftLeft_eq]

theorem startCode_mono (lens : List Nat) {i j : Nat} (h : i ≤ j) : startCode lens i ≤ startCode lens j := by
  induction j with
  | zero =>
    have : i = 0 := by omega
    simp [this]
  | succ j ih =>
    by_cases hi : i = j + 1
    · simp [hi]
    · exact Nat.le_trans (ih (by omega)) (by simp [startCode])

/-- The completeness sum of R252 is start[17]. -/
theorem kraftSum_eq_startCode (lens : List Nat) : kraftSum lens = startCode lens 17 := by
  have h : ∀ n, n ≤ 16 →
      ((List.range n).map fun i => lens.countP (fun l => l == i + 1) * 2 ^ (15 - i)).sum = startCode lens (n + 1) := by
    intro n
    induction n with
    | zero => intro _; simp
    | succ n ih =>
      intro hn
      rw [List.range_succ, List.map_append, List.sum_append, ih (by omega), startCode_succ lens (n + 1) (by omega)]
      have : 16 - (n + 1) = 15 - n := by omega
      simp [codeCount, this]
  exact h 16 (by omega)

/-- start[i] counts whole multiples of the code space of every shorter length. -/
theorem startCode_dvd (lens : List Nat) {i k : Nat} (hi : i ≤ k + 1) (hk : k ≤ 16) : 2 ^ (16 - k) ∣ startCode lens i := by
  induction i with
  | zero => simp [startCode]
  | succ i ih =>
    by_cases h0 : i = 0
    · subst h0; simp
    · rw [startCode_succ lens i (by omega)]
      refine Nat.dvd_add (ih (by omega)) (Nat.dvd_mul_left_of_dvd ?_ _)
      exact Nat.pow_dvd_pow 2 (by omega)

/-! ## Canonical codes -/

theorem codeCount_take_le (lens : List Nat) (ch L : Nat) : codeCount (lens.take ch) L ≤ codeCount lens L := by
  have h := congrArg (List.countP fun l => l == L) (List.take_append_drop ch lens)
  rw [List.countP_append] at h
  simp only [codeCount]
  omega

theorem codeCount_take_succ (lens : List Nat) {ch L : Nat} (h : lens[ch]? = some L) (M : Nat) :
    codeCount (lens.take (ch + 1)) M = codeCount (lens.take ch) M + if L = M then 1 else 0 := by
  rw [List.take_add_one, h]
  simp [codeCount, List.countP_append, List.countP_cons]

/-- A symbol's code interval ends at or before the next length's start code. -/
theorem canonicalCode_end_le (lens : List Nat) {ch L : Nat} (h : lens[ch]? = some L) (h1 : 1 ≤ L) :
    canonicalCode lens ch L + 2 ^ (16 - L) ≤ startCode lens (L + 1) := by
  have h2 := codeCount_take_succ lens h L
  have h3 := codeCount_take_le lens (ch + 1) L
  rw [if_pos rfl] at h2
  rw [startCode_succ lens L h1, canonicalCode]
  have : (codeCount (lens.take ch) L + 1) * 2 ^ (16 - L) ≤ codeCount lens L * 2 ^ (16 - L) :=
    Nat.mul_le_mul_right _ (by omega)
  rw [Nat.add_mul] at this
  omega

/-- Two symbols' code intervals do not meet: the shorter code, or of equal codes the smaller symbol, lies below. -/
theorem canonicalCode_disjoint (lens : List Nat) {c d L M : Nat} (hc : lens[c]? = some L) (hd : lens[d]? = some M)
    (hL : 1 ≤ L) (hM : 1 ≤ M) (hne : c ≠ d) :
    canonicalCode lens c L + 2 ^ (16 - L) ≤ canonicalCode lens d M ∨
      canonicalCode lens d M + 2 ^ (16 - M) ≤ canonicalCode lens c L := by
  have key : ∀ {c d L M : Nat}, lens[c]? = some L → lens[d]? = some M → 1 ≤ L → (L < M ∨ (L = M ∧ c < d)) →
      canonicalCode lens c L + 2 ^ (16 - L) ≤ canonicalCode lens d M := by
    intro c d L M hc hd hL h
    rcases h with h | ⟨rfl, h⟩
    · have h1 := canonicalCode_end_le lens hc hL
      have h2 := startCode_mono lens (i := L + 1) (j := M) (by omega)
      have h3 : startCode lens M ≤ canonicalCode lens d M := by simp [canonicalCode]
      omega
    · have h1 := codeCount_take_succ lens hc L
      rw [if_pos rfl] at h1
      have h2 : codeCount (lens.take (c + 1)) L ≤ codeCount (lens.take d) L := by
        have := codeCount_take_le (lens.take d) (c + 1) L
        rwa [List.take_take, Nat.min_eq_left (by omega)] at this
      have : (codeCount (lens.take c) L + 1) * 2 ^ (16 - L) ≤ codeCount (lens.take d) L * 2 ^ (16 - L) :=
        Nat.mul_le_mul_right _ (by omega)
      rw [Nat.add_mul] at this
      simp only [canonicalCode]
      omega
  rcases Nat.lt_trichotomy L M with h | h | h
  · exact .inl (key hc hd hL (.inl h))
  · rcases Nat.lt_or_gt_of_ne hne with h' | h'
    · exact .inl (key hc hd hL (.inr ⟨h, h'⟩))
    · exact .inr (key hd hc hM (.inr ⟨h.symm, h'⟩))
  · exact .inr (key hd hc hM (.inl h))

/-! ## The table units of R253 -/

/-- A canonical code in table units, for a length within the direct table. -/
theorem canonicalCode_div (lens : List Nat) {tb ch L : Nat} (hL : L ≤ tb) (htb : tb ≤ 16) :
    canonicalCode lens ch L / 2 ^ (16 - tb) = unitStart tb lens L + codeCount (lens.take ch) L * codeWeight tb L := by
  have hd := startCode_dvd lens (i := L) (k := tb) (by omega) htb
  have hw : 2 ^ (16 - L) = 2 ^ (tb - L) * 2 ^ (16 - tb) := by
    rw [← Nat.pow_add]; congr 1; omega
  simp only [canonicalCode, unitStart, codeWeight, hL, if_true, Nat.shiftRight_eq_div_pow, Nat.shiftLeft_eq, Nat.one_mul]
  rw [hw, ← Nat.mul_assoc, Nat.add_mul_div_right _ _ (Nat.two_pow_pos _)]

theorem canonicalCode_long (lens : List Nat) {tb ch L : Nat} (hL : tb < L) :
    canonicalCode lens ch L = unitStart tb lens L + codeCount (lens.take ch) L * codeWeight tb L := by
  have : ¬ L ≤ tb := by omega
  simp [canonicalCode, unitStart, codeWeight, this, Nat.shiftLeft_eq]

theorem unitStart_succ (lens : List Nat) {tb L : Nat} (h1 : 1 ≤ L) (hL : L ≤ tb) (htb : tb ≤ 16) :
    unitStart tb lens L + codeCount lens L * codeWeight tb L = startCode lens (L + 1) / 2 ^ (16 - tb) := by
  have hw : 2 ^ (16 - L) = 2 ^ (tb - L) * 2 ^ (16 - tb) := by
    rw [← Nat.pow_add]; congr 1; omega
  simp only [unitStart, codeWeight, hL, if_true, Nat.shiftRight_eq_div_pow, Nat.shiftLeft_eq, Nat.one_mul]
  rw [startCode_succ lens L h1, hw, ← Nat.mul_assoc, Nat.add_mul_div_right _ _ (Nat.two_pow_pos _)]

/-! ## Builds -/

@[simp] theorem Build.put_start (b : Build) (sl : Slot) (x : BitVec 10) : (b.put sl x).start = b.start := by
  cases sl <;> rfl
@[simp] theorem Build.put_avail (b : Build) (sl : Slot) (x : BitVec 10) : (b.put sl x).avail = b.avail := by
  cases sl <;> rfl
@[simp] theorem Build.alloc_start (b : Build) (sl : Slot) : (b.alloc sl).start = b.start := by simp [Build.alloc]
@[simp] theorem Build.alloc_avail (b : Build) (sl : Slot) : (b.alloc sl).avail = b.avail + 1 := rfl

/-- A property of builds that storing to a slot and allocating a node keep is kept by TREE_INSERT. -/
theorem treeInsert_keeps {P : Build → Prop} (hput : ∀ b sl x, P b → P (b.put sl x)) (halloc : ∀ b sl, P b → P (b.alloc sl))
    (tb ch L k : Nat) (b : Build) (h : P b) : P (treeInsert tb ch L k b) := by
  have hp : ∀ fuel sl b, P b → P (treePath k (16 - L) fuel sl b).2 := by
    intro fuel
    induction fuel with
    | zero => intro sl b h; exact h
    | succ fuel ih =>
      intro sl b h
      simp only [treePath]
      exact ih _ _ (by split <;> [exact halloc b sl h; exact h])
  exact hput _ _ _ (hp _ _ _ h)

/-- A property that also the fill of a short code keeps is kept by the whole of step 4, START left aside. -/
theorem placeSymbols_keeps {P : Build → Prop} (hput : ∀ b sl x, P b → P (b.put sl x))
    (halloc : ∀ b sl, P b → P (b.alloc sl))
    (hfill : ∀ b lo hi x, P b → P { b with table := fillRange b.table lo hi x })
    (hstart : ∀ b st, P b → P { b with start := st }) (tb : Nat) (lens : List Nat) :
    ∀ (ch : Nat) (b : Build), P b → P (placeSymbols tb lens ch b) := by
  induction lens with
  | nil => intro ch b h; exact h
  | cons L rest ih =>
    intro ch b h
    refine ih _ _ ?_
    simp only [placeSymbol]
    split
    · exact h
    · refine hstart _ _ ?_
      split
      · exact hfill _ _ _ _ h
      · exact treeInsert_keeps hput halloc _ _ _ _ _ h

@[simp] theorem treeInsert_start (tb ch L k : Nat) (b : Build) : (treeInsert tb ch L k b).start = b.start :=
  treeInsert_keeps (P := fun c => c.start = b.start) (by intros; simpa) (by intros; simpa) tb ch L k b rfl

/-- The start codes of a build after the symbols below `ch`: R254's `start[L] <- nextcode`. -/
structure Placed (tb : Nat) (lens : List Nat) (ch : Nat) (b : Build) : Prop where
  length : b.start.length = 17
  start : ∀ L, 1 ≤ L → L ≤ 16 → b.start.getD L 0 = unitStart tb lens L + codeCount (lens.take ch) L * codeWeight tb L

theorem Placed.step {tb : Nat} {lens : List Nat} {ch L : Nat} {b : Build} (h : Placed tb lens ch b)
    (hL : lens[ch]? = some L) : Placed tb lens (ch + 1) (placeSymbol tb ch L b) := by
  have hlen := h.length
  have hs : ∀ x : Nat, (placeSymbol tb ch L b).start =
      if L = 0 then b.start else b.start.set L (b.start.getD L 0 + codeWeight tb L) := by
    intro _
    unfold placeSymbol
    split
    · rfl
    · dsimp only; split <;> simp
  refine ⟨?_, ?_⟩
  · rw [hs 0]; split <;> simp [hlen]
  · intro M h1 h16
    rw [hs 0, codeCount_take_succ lens hL]
    by_cases h0 : L = 0
    · have : L ≠ M := by omega
      simp only [h0, if_true]
      rw [h.start M h1 h16]
      have : ¬ 0 = M := by omega
      simp [this]
    · simp only [h0, if_false]
      by_cases hLM : L = M
      · subst hLM
        rw [List.getD_eq_getElem?_getD, List.getElem?_set, if_pos rfl, if_pos (by omega), h.start L h1 h16]
        simp [Nat.add_mul, Nat.add_assoc]
      · rw [List.getD_eq_getElem?_getD, List.getElem?_set, if_neg hLM, ← List.getD_eq_getElem?_getD, h.start M h1 h16]
        simp [hLM]

/-- An induction over the symbols of step 4 in increasing order. -/
theorem placeSymbols_induction {tb : Nat} {lens : List Nat} {P : Nat → Build → Prop}
    (step : ∀ ch L b, lens[ch]? = some L → P ch b → P (ch + 1) (placeSymbol tb ch L b)) {b : Build} (h0 : P 0 b) :
    P lens.length (placeSymbols tb lens 0 b) := by
  have : ∀ (rest : List Nat) (ch : Nat) (b : Build), lens.drop ch = rest → ch + rest.length = lens.length → P ch b →
      P lens.length (placeSymbols tb rest ch b) := by
    intro rest
    induction rest with
    | nil =>
      intro ch b _ hl hp
      have : ch = lens.length := by simpa using hl
      rw [← this]
      exact hp
    | cons L rest ih =>
      intro ch b hd hl hp
      have hget : lens[ch]? = some L := by
        have := congrArg (·[0]?) hd
        simpa using this
      refine ih (ch + 1) _ ?_ (by simp at hl; omega) (step ch L b hget hp)
      have := congrArg List.tail hd
      simpa using this
  exact this lens 0 b (by simp) (by simp) h0

/-- The build MAKE_TABLE starts step 4 from. -/
def buildStart (tb : Nat) (lens : List Nat) (table left right : Entries 10) : Build :=
  { table := fillRange table (unitStart tb lens (tb + 1) >>> (16 - tb)) (2 ^ tb) 0
    left := left
    right := right
    start := (List.range 17).map (unitStart tb lens)
    avail := lens.length }

theorem makeTable_eq (tb : Nat) (lens : List Nat) (table left right : Entries 10) :
    makeTable tb lens table left right =
      if kraftSum lens = 65536 then .ok (placeSymbols tb lens 0 (buildStart tb lens table left right))
      else .error (kraftSum lens) := by
  rw [kraftSum_eq_startCode]
  unfold makeTable
  by_cases h : startCode lens 17 = 65536
  · simp [h, buildStart]
  · simp [h]

theorem Placed.init (tb : Nat) (lens : List Nat) (table left right : Entries 10) :
    Placed tb lens 0 (buildStart tb lens table left right) := by
  refine ⟨by simp [buildStart], ?_⟩
  intro L h1 h16
  simp [buildStart, List.getD_eq_getElem?_getD, codeCount, show L < 17 by omega]

/-- A build's node counter starts at nchar and only grows. -/
theorem placeSymbols_avail (tb : Nat) (lens : List Nat) (b : Build) : b.avail ≤ (placeSymbols tb lens 0 b).avail :=
  placeSymbols_keeps (P := fun c => b.avail ≤ c.avail) (by intros; simpa) (by intros; simp; omega) (by intros; simpa)
    (by intros; simpa) tb lens 0 b (Nat.le_refl _)

/-- The array lists of a build keep their form. -/
structure BuildRising (b : Build) : Prop where
  table : rising b.table = true
  left : rising b.left = true
  right : rising b.right = true

theorem BuildRising.put {b : Build} (h : BuildRising b) (sl : Slot) (x : BitVec 10) : BuildRising (b.put sl x) := by
  cases sl with
  | table i => exact ⟨rising_writeCell _ _ _ h.table, h.left, h.right⟩
  | left i => exact ⟨h.table, rising_writeCell _ _ _ h.left, h.right⟩
  | right i => exact ⟨h.table, h.left, rising_writeCell _ _ _ h.right⟩

theorem BuildRising.alloc {b : Build} (h : BuildRising b) (sl : Slot) : BuildRising (b.alloc sl) := by
  have h1 : BuildRising { b with left := writeCell b.left b.avail 0, right := writeCell b.right b.avail 0 } :=
    ⟨h.table, rising_writeCell _ _ _ h.left, rising_writeCell _ _ _ h.right⟩
  have h2 := h1.put sl (BitVec.ofNat 10 b.avail)
  exact ⟨h2.table, h2.left, h2.right⟩

theorem BuildRising.placeSymbols {tb : Nat} {lens : List Nat} {b : Build} (h : BuildRising b) :
    BuildRising (placeSymbols tb lens 0 b) :=
  placeSymbols_keeps (P := BuildRising) (fun _ sl x h => h.put sl x) (fun _ sl h => h.alloc sl)
    (fun _ _ _ _ h => ⟨rising_fillRange _ _ _ _ h.table, h.left, h.right⟩) (fun _ _ h => ⟨h.table, h.left, h.right⟩)
    tb lens 0 b h

/-! ## Every entry is written (R254) -/

theorem isSome_put_table (b : Build) (sl : Slot) (x : BitVec 10) (i : Nat) (h : (readCell b.table i).isSome = true) :
    (readCell (b.put sl x).table i).isSome = true := by
  cases sl with
  | table j => simp only [Build.put, readCell_writeCell]; split <;> simp [h]
  | left j => exact h
  | right j => exact h

/-- After step 4 every direct-table entry holds a value. -/
theorem placeSymbols_covers {tb : Nat} (htb : tb ≤ 16) (lens : List Nat)
    (table left right : Entries 10) {i : Nat} (hi : i < 2 ^ tb) :
    (readCell (placeSymbols tb lens 0 (buildStart tb lens table left right)).table i).isSome = true := by
  let P : Nat → Build → Prop := fun ch b => Placed tb lens ch b ∧
    (∀ j, startCode lens (tb + 1) / 2 ^ (16 - tb) ≤ j → j < 2 ^ tb → (readCell b.table j).isSome = true) ∧
    ∀ L, 1 ≤ L → L ≤ tb → ∀ j, unitStart tb lens L ≤ j → j < b.start.getD L 0 → (readCell b.table j).isSome = true
  have hz : unitStart tb lens (tb + 1) >>> (16 - tb) = startCode lens (tb + 1) / 2 ^ (16 - tb) := by
    have : ¬ tb + 1 ≤ tb := by omega
    simp [unitStart, this, Nat.shiftRight_eq_div_pow]
  have h0 : P 0 (buildStart tb lens table left right) := by
    refine ⟨Placed.init .., ?_, ?_⟩
    · intro j h1 h2
      simp [buildStart, hz, h1, h2]
    · intro L h1 hL j hj1 hj2
      rw [(Placed.init tb lens table left right).start L h1 (by omega)] at hj2
      simp [codeCount] at hj2
      omega
  have hend : P lens.length (placeSymbols tb lens 0 (buildStart tb lens table left right)) := by
    refine placeSymbols_induction (P := P) ?_ h0
    intro ch L b hL ⟨hp, hlong, hshort⟩
    have hp' := hp.step hL
    refine ⟨hp', ?_, ?_⟩
    · intro j h1 h2
      have hj := hlong j h1 h2
      unfold placeSymbol
      split
      · exact hj
      · dsimp only
        split
        · simp only [readCell_fillRange]; split <;> simp [hj]
        · exact treeInsert_keeps (P := fun c => (readCell c.table j).isSome = true)
            (fun c sl x h => isSome_put_table c sl x j h)
            (fun c sl h => isSome_put_table { c with left := _, right := _ } sl _ j h) _ _ _ _ _ hj
    · intro M h1 hM j hj1 hj2
      rw [hp'.start M h1 (by omega), codeCount_take_succ lens hL] at hj2
      by_cases hj : j < b.start.getD M 0
      · have hj := hshort M h1 hM j hj1 hj
        unfold placeSymbol
        split
        · exact hj
        · dsimp only
          split
          · simp only [readCell_fillRange]; split <;> simp [hj]
          · exact treeInsert_keeps (P := fun c => (readCell c.table j).isSome = true)
              (fun c sl x h => isSome_put_table c sl x j h)
              (fun c sl h => isSome_put_table { c with left := _, right := _ } sl _ j h) _ _ _ _ _ hj
      · have hs := hp.start M h1 (by omega)
        by_cases hLM : L = M
        · subst hLM
          have h0 : L ≠ 0 := by omega
          rw [if_pos rfl, Nat.add_mul] at hj2
          simp only [placeSymbol, h0, if_false, hM, if_true, readCell_fillRange]
          rw [if_pos (by omega)]
          rfl
        · rw [if_neg hLM, Nat.add_zero] at hj2
          omega
  obtain ⟨hp, hlong, hshort⟩ := hend
  by_cases hi2 : startCode lens (tb + 1) / 2 ^ (16 - tb) ≤ i
  · exact hlong i hi2 hi
  · have : ∀ L, L ≤ tb → i < startCode lens (L + 1) / 2 ^ (16 - tb) →
        (readCell (placeSymbols tb lens 0 (buildStart tb lens table left right)).table i).isSome = true := by
      intro L
      induction L with
      | zero => intro _ h; simp at h
      | succ L ih =>
        intro hL h
        by_cases hlt : i < startCode lens (L + 1) / 2 ^ (16 - tb)
        · exact ih (by omega) hlt
        · refine hshort (L + 1) (by omega) hL i ?_ ?_
          · simp only [unitStart, hL, if_true, Nat.shiftRight_eq_div_pow]; omega
          · rw [hp.start (L + 1) (by omega) (by omega), List.take_length,
              unitStart_succ lens (by omega) hL htb]
            exact h
    exact this tb (Nat.le_refl _) (by omega)

/-! ## What a tree insertion leaves of the direct table -/

theorem put_table_ne (b : Build) (sl : Slot) (x : BitVec 10) {j : Nat} (h : sl ≠ .table j) :
    readCell (b.put sl x).table j = readCell b.table j := by
  cases sl with
  | table i =>
    simp only [Build.put, readCell_writeCell]
    rw [if_neg (fun e => h (by rw [e]))]
  | left i => rfl
  | right i => rfl

/-- TREE_INSERT writes no direct entry but the one the code leads through (R255). -/
theorem treeInsert_table (tb ch L k : Nat) (b : Build) {j : Nat} (hj : j ≠ k / 2 ^ (16 - tb)) :
    readCell (treeInsert tb ch L k b).table j = readCell b.table j := by
  have hp : ∀ fuel sl b, sl ≠ .table j → (treePath k (16 - L) fuel sl b).1 ≠ .table j ∧
      readCell (treePath k (16 - L) fuel sl b).2.table j = readCell b.table j := by
    intro fuel
    induction fuel with
    | zero => intro sl b h; exact ⟨h, rfl⟩
    | succ fuel ih =>
      intro sl b h
      simp only [treePath]
      have := ih (if k.testBit (fuel + (16 - L)) then .right ((if b.get sl = 0#10 then b.alloc sl else b).get sl).toNat
        else .left ((if b.get sl = 0#10 then b.alloc sl else b).get sl).toNat) (if b.get sl = 0#10 then b.alloc sl else b)
        (by split <;> simp)
      refine ⟨this.1, this.2.trans ?_⟩
      split
      · simp only [Build.alloc]; exact put_table_ne _ _ _ h
      · rfl
  have h0 : Slot.table (k >>> (16 - tb)) ≠ .table j := by
    rw [Nat.shiftRight_eq_div_pow]; simp; omega
  have := hp (L - tb) _ b h0
  unfold treeInsert
  exact (put_table_ne _ _ _ this.1).trans this.2

/-! ## Lookup -/

theorem walk_ok {nchar avail : Nat} {buf : BitVec 16} {left right : Entries 10} {fuel : Nat} {c d : BitVec 10}
    (h : walk nchar avail buf left right fuel c = .ok d) : d.toNat < nchar := by
  induction fuel generalizing c with
  | zero =>
    unfold walk at h
    split at h <;> simp_all
  | succ fuel ih =>
    unfold walk at h
    split at h
    · simp_all
    · split at h
      · simp at h
      · exact ih h

theorem walk_error {nchar avail : Nat} {buf : BitVec 16} {left right : Entries 10} {fuel : Nat} {c d : BitVec 10}
    (h : walk nchar avail buf left right fuel c = .error d) : nchar ≤ d.toNat := by
  induction fuel generalizing c with
  | zero =>
    unfold walk at h
    split at h <;> simp_all
  | succ fuel ih =>
    unfold walk at h
    split at h
    · simp at h
    · split at h
      · simp only [Except.error.injEq] at h
        subst h
        omega
      · exact ih h

/-- A lookup changes nothing: it answers a symbol, or fails STALE_NODE with a value that is none. -/
theorem lookup_ends (id : TableId) (s : State) :
    (∃ c : BitVec 10, c.toNat < id.nchar ∧ lookup id s = .ok c s) ∨
    (∃ c : BitVec 10, id.nchar ≤ c.toNat ∧
      lookup id s = .failed { cause := .staleNode, table := id.code, detail := c.setWidth 24 } s) := by
  unfold lookup
  dsimp only
  split
  · next c h => exact .inl ⟨c, walk_ok h, rfl⟩
  · next c h => exact .inr ⟨c, walk_error h, rfl⟩

theorem lookup_state (id : TableId) (s : State) : (lookup id s).state = s := by
  rcases lookup_ends id s with ⟨c, -, h⟩ | ⟨c, -, h⟩ <;> rw [h] <;> rfl

theorem lookup_ok {id : TableId} {s u : State} {c : BitVec 10} (h : lookup id s = .ok c u) : u = s ∧ c.toNat < id.nchar := by
  rcases lookup_ends id s with ⟨d, h1, h2⟩ | ⟨d, h1, h2⟩ <;> rw [h2] at h
  · simp only [Flow.ok.injEq] at h
    obtain ⟨rfl, rfl⟩ := h
    exact ⟨rfl, h1⟩
  · simp at h

theorem nchar_le (id : TableId) : id.nchar ≤ 510 := by cases id <;> simp [TableId.nchar]

/-- A symbol decode: what it looked up, and the bits it consumed. -/
theorem decodeSymbol_ends (id : TableId) (s : State) :
    (∃ c : BitVec 10, c.toNat < id.nchar ∧
      decodeSymbol id s = .ok c (consumeBits (lenAt (lensOf id s) c.toNat).toNat s)) ∨
    (∃ c : BitVec 10, id.nchar ≤ c.toNat ∧
      decodeSymbol id s = .failed { cause := .staleNode, table := id.code, detail := c.setWidth 24 } s) := by
  unfold decodeSymbol
  rcases lookup_ends id s with ⟨c, h1, h2⟩ | ⟨c, h1, h2⟩ <;> rw [h2]
  · exact .inl ⟨c, h1, rfl⟩
  · exact .inr ⟨c, h1, rfl⟩

/-! ## A whole build -/

@[simp] theorem lensOf_clearStatus (id id' : TableId) (s : State) : lensOf id (clearStatus id' s) = lensOf id s := by
  cases id <;> cases id' <;> rfl
@[simp] theorem tableOf_clearStatus (id id' : TableId) (s : State) : tableOf id (clearStatus id' s) = tableOf id s := by
  cases id <;> cases id' <;> rfl
@[simp] theorem lensOf_endBuild (id id' : TableId) (b : Build) (s : State) :
    lensOf id (endBuild id' b s) = lensOf id s := by
  cases id <;> cases id' <;> rfl
@[simp] theorem clearStatus_left (id : TableId) (s : State) : (clearStatus id s).tabs.left = s.tabs.left := by
  cases id <;> rfl
@[simp] theorem clearStatus_right (id : TableId) (s : State) : (clearStatus id s).tabs.right = s.tabs.right := by
  cases id <;> rfl
@[simp] theorem clearStatus_blockSize (id : TableId) (s : State) :
    (clearStatus id s).tabs.blockSize = s.tabs.blockSize := by
  cases id <;> rfl
@[simp] theorem endBuild_blockSize (id : TableId) (b : Build) (s : State) :
    (endBuild id b s).tabs.blockSize = s.tabs.blockSize := by
  cases id <;> rfl
@[simp] theorem tableOf_endBuild (id : TableId) (b : Build) (s : State) : tableOf id (endBuild id b s) = b.table := by
  cases id <;> rfl

@[simp] theorem buildLens_clearStatus (id id' : TableId) (s : State) :
    buildLens id (clearStatus id' s) = buildLens id s := by simp only [buildLens, lensOf_clearStatus]
@[simp] theorem buildLens_endBuild (id id' : TableId) (b : Build) (s : State) :
    buildLens id (endBuild id' b s) = buildLens id s := by simp only [buildLens, lensOf_endBuild]

/-- The build an instance's lengths and arrays give, its completeness check passed. -/
def builtFrom (id : TableId) (s : State) : Build :=
  placeSymbols id.tb (buildLens id s) 0
    (buildStart id.tb (buildLens id s) (tableOf id s) s.tabs.left s.tabs.right)

/-- What MAKE_TABLE does: it fails before any write, or it stores the build. -/
theorem buildTable_eq (id : TableId) (s : State) :
    buildTable id s =
      if kraftSum (buildLens id s) = 65536 then
        .ok (BitVec.ofNat 32 (builtFrom id s).avail) (endBuild id (builtFrom id s) (clearStatus id s))
      else
        .failed { cause := .badTable, table := id.code, detail := BitVec.ofNat 24 (kraftSum (buildLens id s)) }
          (clearStatus id s) := by
  unfold buildTable
  dsimp only
  rw [lensOf_clearStatus, tableOf_clearStatus, clearStatus_left, clearStatus_right]
  have : lensUpTo (lensOf id s) id.nchar = buildLens id s := rfl
  rw [this, makeTable_eq]
  by_cases h : kraftSum (buildLens id s) = 65536
  · simp only [h, if_true]; rfl
  · simp only [h, if_false]

theorem builtFrom_avail (id : TableId) (s : State) : id.nchar ≤ (builtFrom id s).avail := by
  have h := placeSymbols_avail id.tb (buildLens id s)
    (buildStart id.tb (buildLens id s) (tableOf id s) s.tabs.left s.tabs.right)
  have h2 : (buildStart id.tb (buildLens id s) (tableOf id s) s.tabs.left s.tabs.right).avail = id.nchar := by
    simp [buildStart, buildLens]
  rw [h2] at h
  exact h

theorem builtFrom_covers (id : TableId) (s : State) {i : Nat}
    (hi : i < 2 ^ id.tb) : (readCell (builtFrom id s).table i).isSome = true :=
  placeSymbols_covers (by cases id <;> simp [TableId.tb]) _ _ _ _ hi

theorem builtFrom_rising (id : TableId) (s : State) (ht : rising (tableOf id s) = true) (hl : rising s.tabs.left = true)
    (hr : rising s.tabs.right = true) : BuildRising (builtFrom id s) :=
  BuildRising.placeSymbols ⟨rising_fillRange _ _ _ _ ht, hl, hr⟩

/-! ## The size of a sum, and the shortest lookups -/

theorem countP_upTo_succ (lens : List Nat) (n : Nat) :
    lens.countP (fun l => decide (1 ≤ l ∧ l ≤ n + 1)) =
      lens.countP (fun l => decide (1 ≤ l ∧ l ≤ n)) + lens.countP (fun l => l == n + 1) := by
  induction lens with
  | nil => rfl
  | cons a l ih =>
    simp only [List.countP_cons, ih, decide_eq_true_eq, beq_iff_eq]
    split <;> split <;> split <;> omega

/-- The sum of R252 is at most 2^15 for each symbol. -/
theorem kraftSum_le (lens : List Nat) : kraftSum lens ≤ 2 ^ 15 * lens.length := by
  have h : ∀ n, ((List.range n).map fun i => lens.countP (fun l => l == i + 1) * 2 ^ (15 - i)).sum ≤
      2 ^ 15 * lens.countP (fun l => decide (1 ≤ l ∧ l ≤ n)) := by
    intro n
    induction n with
    | zero => simp
    | succ n ih =>
      rw [List.range_succ, List.map_append, List.sum_append, countP_upTo_succ, Nat.mul_add]
      refine Nat.add_le_add ih ?_
      simp only [List.map_cons, List.map_nil, List.sum_cons, List.sum_nil, Nat.add_zero]
      rw [Nat.mul_comm]
      exact Nat.mul_le_mul_right _ (Nat.pow_le_pow_right (by omega) (by omega))
  exact Nat.le_trans (h 16) (Nat.mul_le_mul_left _ List.countP_le_length)

/-- A value that is a symbol ends the walk. -/
theorem walk_symbol {nchar avail : Nat} {buf : BitVec 16} {left right : Entries 10} (fuel : Nat) {c : BitVec 10}
    (h : c.toNat < nchar) : walk nchar avail buf left right fuel c = .ok c := by
  cases fuel <;> simp [walk, h]

/-- A direct-table entry that is a symbol is the answer. -/
theorem lookup_direct {id : TableId} {s : State} {c : BitVec 10} (h : c.toNat < id.nchar)
    (hc : readCell (tableOf id s) (peekBits id.tb s).toNat = some c) : lookup id s = .ok c s := by
  unfold lookup
  simp only [entryAt, hc, Option.getD_some, walk_symbol _ h]

/-- A lookup depends on BITBUF, its table, AVAIL and the tree alone. -/
theorem lookup_congr {id : TableId} {s t : State} (hb : t.bits.bitbuf = s.bits.bitbuf) (ht : tableOf id t = tableOf id s)
    (ha : availOf id t = availOf id s) (hl : t.tabs.left = s.tabs.left) (hr : t.tabs.right = s.tabs.right) :
    (∀ c, lookup id s = .ok c s ↔ lookup id t = .ok c t) ∧
    (∀ f, lookup id s = .failed f s ↔ lookup id t = .failed f t) := by
  have hp : peekBits id.tb t = peekBits id.tb s := by simp only [peekBits, hb]
  unfold lookup
  simp only [hb, ht, ha, hl, hr, hp]
  constructor <;> intro x <;> split <;> simp

end Sys2Proof.Machine
end

