-- ==== Sys2Proof/Laws/Blocks.lean ====
section
/-! SUPPORT. The BlockDecoder (42_block_decoder.md): which updates its reads and symbol decodes are made of, so that a property those
updates keep is kept by every read, whether it succeeds or fails; and what a read that succeeds leaves. -/

namespace Sys2Proof.Machine

/-! ## The single steps -/

/-- A length code: what it consumed, or the failure before anything is consumed (R301). -/
theorem readLenCode_ends (code : BitVec 4) (s : State) :
    (∃ c n, c ≤ 16 ∧ readLenCode code s = .ok c (consumeBits n s)) ∨
    (∃ c, 16 < c ∧ readLenCode code s = failNat .lengthOverflow code c s) := by
  unfold readLenCode
  by_cases h : 16 < lenCodeValue s.bits.bitbuf
  · exact .inr ⟨_, h, by simp [h]⟩
  · exact .inl ⟨lenCodeValue s.bits.bitbuf, _, by omega, by simp only [h, if_false]; rfl⟩

/-- A special run: the bits it consumed, and the entries it cleared unless it fails (R302). -/
theorem specialRun_ends (id : TableId) (i : Nat) (s : State) :
    (∃ j, i ≤ j ∧ j ≤ id.nchar ∧ specialRun id i s = .ok j (zeroPtLens i j (consumeBits 2 s))) ∨
    (∃ j, id.nchar < j ∧ specialRun id i s = failNat .runOverflow id.code j (consumeBits 2 s)) := by
  unfold specialRun getBits
  by_cases h : id.nchar < i + (peekBits 2 s).toNat
  · exact .inr ⟨_, h, by simp [h]⟩
  · exact .inl ⟨i + (peekBits 2 s).toNat, by omega, by omega, by simp only [h, if_false]⟩

/-- A zero run of the C list (R307). -/
theorem zeroRun_ends (i r : Nat) (s : State) :
    (i + r ≤ 510 ∧ zeroRun i r s = .ok (i + r) (zeroCLens i (i + r) s)) ∨
    (510 < i + r ∧ zeroRun i r s = failNat .runOverflow 2#4 (i + r) s) := by
  unfold zeroRun
  by_cases h : 510 < i + r
  · exact .inr ⟨h, by simp [h]⟩
  · exact .inl ⟨by omega, by simp [h]⟩

/-! ## Properties the reads keep -/

/-- Kept by the BitReader and by what a PT list read writes. -/
structure PtClosed (P : State → Prop) : Prop where
  consume : ∀ n s, P s → P (consumeBits n s)
  clear : ∀ id s, id ≠ .cTable → P s → P (clearStatus id s)
  build : ∀ id s, id ≠ .cTable → kraftSum (buildLens id s) = 65536 → P s →
    P (endBuild id (builtFrom id s) (clearStatus id s))
  setLen : ∀ i c s, c ≤ 16 → P s → P (setPtLen i c s)
  zeroLens : ∀ lo hi s, P s → P (zeroPtLens lo hi s)
  single : ∀ p s, p = metaList ∨ p = positionList → P s → P (singlePt p s)

/-- Kept by the BitReader and by what a C list read writes. -/
structure CClosed (P : State → Prop) : Prop where
  consume : ∀ n s, P s → P (consumeBits n s)
  clear : ∀ s, P s → P (clearStatus .cTable s)
  build : ∀ s, kraftSum (buildLens .cTable s) = 65536 → P s →
    P (endBuild .cTable (builtFrom .cTable s) (clearStatus .cTable s))
  setLen : ∀ i c s, c ≤ 16 → P s → P (setCLen i c s)
  zeroLens : ∀ lo hi s, P s → P (zeroCLens lo hi s)
  single : ∀ s, P s → P (singleC s)

/-- Kept by everything a block header and a symbol decode write. -/
structure BlockClosed (P : State → Prop) : Prop where
  pt : PtClosed P
  c : CClosed P
  header : ∀ s, P s → P (setBlockSize (s.bits.bitbuf.setWidth 32) s)
  decrement : ∀ s, P s → P (setBlockSize (decrementBlock s.cfg.blockCntBits s.tabs.blockSize) s)

section Closed
variable {P : State → Prop}

theorem decodeSymbol_keeps (h : ∀ n s, P s → P (consumeBits n s)) (id : TableId) {s : State} (hs : P s) :
    P (decodeSymbol id s).state := by
  rcases decodeSymbol_ends id s with ⟨c, -, he⟩ | ⟨c, -, he⟩ <;> rw [he]
  · exact h _ _ hs
  · exact hs

theorem decodeDistance_keeps (h : ∀ n s, P s → P (consumeBits n s)) {s : State} (hs : P s) :
    P (decodeDistance s).state := by
  refine Flow.andThen_state (decodeSymbol_keeps h _ hs) ?_
  intro c u _ hu
  dsimp only
  split
  · exact hu
  · exact h _ _ hu

theorem PtClosed.buildTable (h : PtClosed P) {id : TableId} (hid : id ≠ .cTable) {s : State} (hs : P s) :
    P (buildTable id s).state := by
  rw [buildTable_eq]
  split
  · next hk => exact h.build id s hid hk hs
  · exact h.clear id s hid hs

theorem PtClosed.ptLenLoop (h : PtClosed P) (p : PtList) (n fuel : Nat) :
    ∀ i s, P s → P (ptLenLoop p n fuel i s).state := by
  induction fuel with
  | zero => intro i s hs; exact hs
  | succ fuel ih =>
    intro i s hs
    unfold Machine.ptLenLoop
    split
    · exact hs
    refine Flow.andThen_state ?_ ?_
    · rcases readLenCode_ends p.id.code s with ⟨c, k, -, he⟩ | ⟨c, -, he⟩ <;> rw [he]
      · exact h.consume _ _ hs
      · exact hs
    · intro c u he hu
      have hc : c ≤ 16 := by
        rcases readLenCode_ends p.id.code s with ⟨c', k, hc, he'⟩ | ⟨c', -, he'⟩ <;> rw [he'] at he
        · simp only [Flow.ok.injEq] at he; omega
        · simp [failNat] at he
      have hset := h.setLen i c u hc hu
      dsimp only
      split
      · refine Flow.andThen_state ?_ fun j v _ hv => ih j v hv
        rcases specialRun_ends p.id (i + 1) (setPtLen i c u) with ⟨j, -, -, he⟩ | ⟨j, -, he⟩ <;> rw [he]
        · exact h.zeroLens _ _ _ (h.consume _ _ hset)
        · exact h.consume _ _ hset
      · exact ih _ _ hset

/-- A PT list read, whether it succeeds or fails, keeps what its updates keep. -/
theorem PtClosed.readPtLen (h : PtClosed P) {p : PtList} (hp : p = metaList ∨ p = positionList) {s : State} (hs : P s) :
    P (readPtLen p s).state := by
  have hid : p.id ≠ .cTable := by rcases hp with rfl | rfl <;> simp [metaList, positionList]
  have hg : P (consumeBits p.nbit (clearStatus p.id s)) := h.consume _ _ (h.clear _ _ hid hs)
  unfold Machine.readPtLen
  dsimp only [getBits]
  split
  · exact h.single p _ hp hg
  split
  · exact hg
  refine Flow.andThen_state (h.ptLenLoop p _ _ _ _ hg) ?_
  intro i u _ hu
  refine Flow.andThen_state (h.buildTable hid (h.zeroLens _ _ _ hu)) ?_
  intro _ v _ hv
  exact hv

theorem CClosed.cItem (h : CClosed P) (i : Nat) {s : State} (hs : P s) : P (cItem i s).state := by
  refine Flow.andThen_state (decodeSymbol_keeps h.consume _ hs) ?_
  intro c u he hu
  have hz : ∀ i r v, P v → P (zeroRun i r v).state := by
    intro i r v hv
    rcases zeroRun_ends i r v with ⟨-, he⟩ | ⟨-, he⟩ <;> rw [he]
    · exact h.zeroLens _ _ _ hv
    · exact hv
  have hc : c.toNat < 19 := by
    rcases decodeSymbol_ends .metaTable s with ⟨c', h1, he'⟩ | ⟨c', -, he'⟩ <;> rw [he'] at he
    · simp only [Flow.ok.injEq] at he
      rw [← he.1]
      exact h1
    · simp at he
  dsimp only [getBits]
  split
  · exact hz _ _ _ hu
  split
  · exact hz _ _ _ (h.consume _ _ hu)
  split
  · exact hz _ _ _ (h.consume _ _ hu)
  · exact h.setLen _ _ _ (by omega) hu

theorem CClosed.cLenLoop (h : CClosed P) (n fuel : Nat) : ∀ i s, P s → P (cLenLoop n fuel i s).state := by
  induction fuel with
  | zero => intro i s hs; exact hs
  | succ fuel ih =>
    intro i s hs
    unfold Machine.cLenLoop
    split
    · exact hs
    · exact Flow.andThen_state (h.cItem i hs) fun j u _ hu => ih j u hu

/-- A C list read, whether it succeeds or fails, keeps what its updates keep. -/
theorem CClosed.readCLen (h : CClosed P) {s : State} (hs : P s) : P (readCLen s).state := by
  have hg : P (consumeBits 9 (clearStatus .cTable s)) := h.consume _ _ (h.clear _ hs)
  unfold Machine.readCLen
  dsimp only [getBits]
  split
  · exact h.single _ hg
  split
  · exact hg
  refine Flow.andThen_state (h.cLenLoop _ _ _ _ hg) ?_
  intro i u _ hu
  refine Flow.andThen_state ?_ fun _ v _ hv => hv
  rw [buildTable_eq]
  split
  · next hk => exact h.build _ hk (h.zeroLens _ _ _ hu)
  · exact h.clear _ (h.zeroLens _ _ _ hu)

theorem setBlockSize_consumeBits (v : Word) (n : Nat) (s : State) :
    setBlockSize v (consumeBits n s) = consumeBits n (setBlockSize v s) := by
  unfold consumeBits
  split <;> rfl

theorem BlockClosed.readBlockHeader (h : BlockClosed P) {s : State} (hs : P s) : P (readBlockHeader s).state := by
  have hb : ∀ s, P s → P (setBlockSize ((peekBits 16 s).setWidth 32) (consumeBits 16 s)) := by
    intro s hs
    have : peekBits 16 s = s.bits.bitbuf := by simp [peekBits]
    rw [this, setBlockSize_consumeBits]
    exact h.pt.consume _ _ (h.header s hs)
  unfold Machine.readBlockHeader
  dsimp only [getBits]
  refine Flow.andThen_state (h.pt.readPtLen (.inl rfl) (hb s hs)) fun _ u _ hu => ?_
  refine Flow.andThen_state (h.c.readCLen hu) fun _ v _ hv => ?_
  exact Flow.andThen_state (h.pt.readPtLen (.inr rfl) hv) fun _ w _ hw => hw

theorem BlockClosed.decodeLiteralLength (h : BlockClosed P) {s : State} (hs : P s) :
    P (decodeLiteralLength s).state := by
  refine Flow.andThen_state ?_ fun _ u _ hu => decodeSymbol_keeps h.pt.consume _ (h.decrement u hu)
  split
  · exact Flow.andThen_state (h.readBlockHeader hs) fun _ u _ hu => hu
  · exact hs

end Closed

/-! ## Frames -/

/-- The BitReader and the tables are all that changed. -/
def OnlyBitsTabs (s t : State) : Prop := t = { s with bits := t.bits, tabs := t.tabs }

theorem OnlyBitsTabs.refl (s : State) : OnlyBitsTabs s s := rfl

theorem OnlyBitsTabs.of_groups {s t : State} (h1 : t.cfg = s.cfg) (h2 : t.regs = s.regs) (h3 : t.status = s.status)
    (h4 : t.lat = s.lat) (h5 : t.win = s.win) (h6 : t.inMem = s.inMem) (h7 : t.outMem = s.outMem)
    (h8 : t.hostOps = s.hostOps) (h9 : t.hostData = s.hostData) (h10 : t.draws = s.draws) : OnlyBitsTabs s t := by
  unfold OnlyBitsTabs
  rw [← h1, ← h2, ← h3, ← h4, ← h5, ← h6, ← h7, ← h8, ← h9, ← h10]

theorem onlyBitsTabs_closed (s : State) : BlockClosed (OnlyBitsTabs s) := by
  have key : ∀ t u : State, OnlyBitsTabs s t → OnlyBitsTabs t u → OnlyBitsTabs s u := by
    intro t u h1 h2
    unfold OnlyBitsTabs at *
    rw [h2, h1]
  refine ⟨⟨?_, ?_, ?_, ?_, ?_, ?_⟩, ⟨?_, ?_, ?_, ?_, ?_, ?_⟩, ?_, ?_⟩ <;> intros <;>
    first
      | exact key _ _ (by assumption) (OnlyBitsTabs.of_groups (by simp) (by simp) (by simp) (by simp) (by simp)
          (by simp) (by simp) (by simp) (by simp) (by simp))

/-- The length-list reads, the header and the symbol decodes change the BitReader and the tables only. -/
theorem readPtLen_frame {p : PtList} (hp : p = metaList ∨ p = positionList) (s : State) :
    OnlyBitsTabs s (readPtLen p s).state := (onlyBitsTabs_closed s).pt.readPtLen hp (.refl s)
theorem readCLen_frame (s : State) : OnlyBitsTabs s (readCLen s).state := (onlyBitsTabs_closed s).c.readCLen (.refl s)
theorem readBlockHeader_frame (s : State) : OnlyBitsTabs s (readBlockHeader s).state :=
  (onlyBitsTabs_closed s).readBlockHeader (.refl s)
theorem decodeLiteralLength_frame (s : State) : OnlyBitsTabs s (decodeLiteralLength s).state :=
  (onlyBitsTabs_closed s).decodeLiteralLength (.refl s)
theorem decodeDistance_frame (s : State) : OnlyBitsTabs s (decodeDistance s).state :=
  decodeDistance_keeps (onlyBitsTabs_closed s).pt.consume (.refl s)
theorem buildTable_frame (id : TableId) (s : State) : OnlyBitsTabs s (buildTable id s).state := by
  rw [buildTable_eq]
  split <;> exact OnlyBitsTabs.of_groups (by simp) (by simp) (by simp) (by simp) (by simp) (by simp) (by simp) (by simp)
    (by simp) (by simp)

/-! ## What a read that succeeds leaves -/

/-- A zero count gives the single-code list and RESULT 0 (R303). -/
theorem readPtLen_single {p : PtList} {s : State} (h : (peekBits p.nbit s).toNat = 0) :
    readPtLen p s = .ok 0 (singlePt p (consumeBits p.nbit (clearStatus p.id s))) := by
  have h' : peekBits p.nbit (clearStatus p.id s) = 0 := by
    apply BitVec.eq_of_toNat_eq
    rw [peekBits_congr _ (clearStatus_bits _ s), h]
    rfl
  unfold readPtLen
  simp only [getBits, h']
  simp

theorem readCLen_single {s : State} (h : (peekBits 9 s).toNat = 0) :
    readCLen s = .ok 0 (singleC (consumeBits 9 (clearStatus .cTable s))) := by
  have h' : peekBits 9 (clearStatus .cTable s) = 0 := by
    apply BitVec.eq_of_toNat_eq
    rw [peekBits_congr _ (clearStatus_bits _ s), h]
    rfl
  unfold readCLen
  simp only [getBits, h']
  simp

/-- A count above the symbol count fails before any length is read (R304). -/
theorem readPtLen_over {p : PtList} {s : State} {n : Nat} (h : (peekBits p.nbit s).toNat = n) (hn : p.id.nchar < n) :
    readPtLen p s = failNat .countOverflow p.id.code n (consumeBits p.nbit (clearStatus p.id s)) := by
  have e : (peekBits p.nbit (clearStatus p.id s)).toNat = n := by rw [peekBits_congr _ (clearStatus_bits _ s), h]
  unfold readPtLen
  simp only [getBits, e]
  rw [if_neg (by omega), if_pos hn]

theorem readCLen_over {s : State} {n : Nat} (h : (peekBits 9 s).toNat = n) (hn : 510 < n) :
    readCLen s = failNat .countOverflow 2#4 n (consumeBits 9 (clearStatus .cTable s)) := by
  have e : (peekBits 9 (clearStatus .cTable s)).toNat = n := by rw [peekBits_congr _ (clearStatus_bits _ s), h]
  unfold readCLen
  simp only [getBits, e]
  rw [if_neg (by omega), if_pos hn]

/-- A PT list read that succeeds ends in a build of its instance, or is the single-code list of a zero count. -/
theorem readPtLen_ok {p : PtList} {s u : State} {v : Word} (h : readPtLen p s = .ok v u) :
    (v = 0 ∧ u = singlePt p (consumeBits p.nbit (clearStatus p.id s))) ∨
    (∃ w : State, kraftSum (buildLens p.id w) = 65536 ∧ u = endBuild p.id (builtFrom p.id w) (clearStatus p.id w)) := by
  unfold readPtLen at h
  dsimp only [getBits] at h
  split at h
  · next h0 =>
    simp only [Flow.ok.injEq] at h
    left
    refine ⟨?_, h.2.symm⟩
    rw [← h.1]
    apply BitVec.eq_of_toNat_eq
    simp [BitVec.toNat_setWidth, h0]
  split at h
  · simp [failNat] at h
  · rw [Flow.andThen_eq_ok] at h
    obtain ⟨i, w, -, h⟩ := h
    rw [Flow.andThen_eq_ok] at h
    obtain ⟨a, x, hb, h⟩ := h
    simp only [Flow.ok.injEq] at h
    obtain ⟨-, rfl⟩ := h
    rw [buildTable_eq] at hb
    split at hb
    · next hk =>
      simp only [Flow.ok.injEq] at hb
      exact .inr ⟨_, hk, hb.2.symm⟩
    · simp at hb

theorem readCLen_ok {s u : State} {v : Word} (h : readCLen s = .ok v u) :
    (v = 0 ∧ u = singleC (consumeBits 9 (clearStatus .cTable s))) ∨
    (∃ w : State, kraftSum (buildLens .cTable w) = 65536 ∧
      u = endBuild .cTable (builtFrom .cTable w) (clearStatus .cTable w)) := by
  unfold readCLen at h
  dsimp only [getBits] at h
  split at h
  · next h0 =>
    simp only [Flow.ok.injEq] at h
    left
    refine ⟨?_, h.2.symm⟩
    rw [← h.1]
    apply BitVec.eq_of_toNat_eq
    simp [BitVec.toNat_setWidth, h0]
  split at h
  · simp [failNat] at h
  · rw [Flow.andThen_eq_ok] at h
    obtain ⟨i, w, -, h⟩ := h
    rw [Flow.andThen_eq_ok] at h
    obtain ⟨a, x, hb, h⟩ := h
    simp only [Flow.ok.injEq] at h
    obtain ⟨-, rfl⟩ := h
    rw [buildTable_eq] at hb
    split at hb
    · next hk =>
      simp only [Flow.ok.injEq] at hb
      exact .inr ⟨_, hk, hb.2.symm⟩
    · simp at hb

theorem readPtLen_ok_kind {p : PtList} (hp : p = metaList ∨ p = positionList) {s u : State} {v : Word}
    (h : readPtLen p s = .ok v u) : u.tabs.ptKind = p.id.kind := by
  rcases readPtLen_ok h with ⟨-, rfl⟩ | ⟨w, -, rfl⟩ <;> rcases hp with rfl | rfl <;> rfl

theorem readCLen_ok_built {s u : State} {v : Word} (h : readCLen s = .ok v u) : u.tabs.cBuilt = true := by
  rcases readCLen_ok h with ⟨-, rfl⟩ | ⟨w, -, rfl⟩ <;> rfl

/-- A PT list read keeps the C side and BLOCKSIZE. -/
theorem readPtLen_keeps_c {p : PtList} (hp : p = metaList ∨ p = positionList) (s : State) :
    let t := (readPtLen p s).state
    t.tabs.blockSize = s.tabs.blockSize ∧ t.tabs.cLen = s.tabs.cLen ∧ t.tabs.cTable = s.tabs.cTable ∧
      t.tabs.cBuilt = s.tabs.cBuilt ∧ t.tabs.cAvail = s.tabs.cAvail := by
  have hc : PtClosed fun t => t.tabs.blockSize = s.tabs.blockSize ∧ t.tabs.cLen = s.tabs.cLen ∧
      t.tabs.cTable = s.tabs.cTable ∧ t.tabs.cBuilt = s.tabs.cBuilt ∧ t.tabs.cAvail = s.tabs.cAvail := by
    refine ⟨?_, ?_, ?_, ?_, ?_, ?_⟩
    · intro n t h; simpa using h
    · intro id t hid h; cases id <;> first | exact h | exact absurd rfl hid
    · intro id t hid _ h; cases id <;> first | exact absurd rfl hid | simpa [endBuild, clearStatus] using h
    · intro i c t _ h; exact h
    · intro lo hi t h; exact h
    · intro p t _ h
      simpa [singlePt, getBits, zeroPtLens] using h
  exact hc.readPtLen hp ⟨rfl, rfl, rfl, rfl, rfl⟩

/-- A C list read keeps the PT side and BLOCKSIZE. -/
theorem readCLen_keeps_pt (s : State) :
    let t := (readCLen s).state
    t.tabs.blockSize = s.tabs.blockSize ∧ t.tabs.ptLen = s.tabs.ptLen ∧ t.tabs.ptTable = s.tabs.ptTable ∧
      t.tabs.ptKind = s.tabs.ptKind ∧ t.tabs.ptNchar = s.tabs.ptNchar ∧ t.tabs.ptAvail = s.tabs.ptAvail := by
  have hc : CClosed fun t => t.tabs.blockSize = s.tabs.blockSize ∧ t.tabs.ptLen = s.tabs.ptLen ∧
      t.tabs.ptTable = s.tabs.ptTable ∧ t.tabs.ptKind = s.tabs.ptKind ∧ t.tabs.ptNchar = s.tabs.ptNchar ∧
      t.tabs.ptAvail = s.tabs.ptAvail := by
    refine ⟨?_, ?_, ?_, ?_, ?_, ?_⟩
    · intro n t h; simpa using h
    · intro t h; exact h
    · intro t _ h; simpa [endBuild, clearStatus] using h
    · intro i c t _ h; exact h
    · intro lo hi t h; exact h
    · intro t h
      simpa [singleC, getBits, zeroCLens] using h
  exact hc.readCLen ⟨rfl, rfl, rfl, rfl, rfl, rfl⟩

/-- A header that succeeds leaves both tables built. -/
theorem readBlockHeader_ok_built {s u : State} {v : Word} (h : readBlockHeader s = .ok v u) :
    u.tabs.cBuilt = true ∧ u.tabs.ptKind = .position := by
  unfold readBlockHeader at h
  dsimp only [getBits] at h
  rw [Flow.andThen_eq_ok] at h
  obtain ⟨_, w, -, h⟩ := h
  rw [Flow.andThen_eq_ok] at h
  obtain ⟨_, x, hc, h⟩ := h
  rw [Flow.andThen_eq_ok] at h
  obtain ⟨_, y, hp, h⟩ := h
  simp only [Flow.ok.injEq] at h
  obtain ⟨-, rfl⟩ := h
  refine ⟨?_, readPtLen_ok_kind (.inr rfl) hp⟩
  have := (readPtLen_keeps_c (.inr rfl) x).2.2.2.1
  rw [hp] at this
  exact this.trans (readCLen_ok_built hc)

/-- The counter after a symbol (R313). -/
theorem decrementBlock_toNat (w : CounterWidth) (v : Word) (h : v.toNat < 2 ^ w.bits) :
    (decrementBlock w v).toNat = (v.toNat + (2 ^ w.bits - 1)) % 2 ^ w.bits := by
  cases w <;> simp only [CounterWidth.bits] at * <;> simp [decrementBlock, BitVec.toNat_sub] <;> omega

/-- A header stores its first 16 bits as BLOCKSIZE, whether it goes on to succeed or to fail (R310). -/
theorem readBlockHeader_blockSize (s : State) :
    (readBlockHeader s).state.tabs.blockSize = (peekBits 16 s).setWidth 32 := by
  unfold readBlockHeader
  dsimp only [getBits]
  have e1 := (readPtLen_keeps_c (.inl rfl) (setBlockSize ((peekBits 16 s).setWidth 32) (consumeBits 16 s))).1
  cases h1 : readPtLen metaList (setBlockSize ((peekBits 16 s).setWidth 32) (consumeBits 16 s)) with
  | failed f w => rw [h1] at e1; exact e1
  | ok _ w =>
    rw [h1] at e1
    have e2 := (readCLen_keeps_pt w).1
    simp only [Flow.andThen_ok]
    cases h2 : readCLen w with
    | failed f x => rw [h2] at e2; exact e2.trans e1
    | ok _ x =>
      rw [h2] at e2
      have e3 := (readPtLen_keeps_c (.inr rfl) x).1
      simp only [Flow.andThen_ok]
      cases h3 : readPtLen positionList x with
      | failed f y => rw [h3] at e3; exact e3.trans (e2.trans e1)
      | ok _ y => rw [h3] at e3; exact e3.trans (e2.trans e1)

end Sys2Proof.Machine
end

