-- ==== Sys2Proof/Laws/Window.lean ====
section
/-! SUPPORT. The WindowExpander and the Orchestrator (43_window_expander.md, 44_orchestrator.md): what one produced byte does, what a run
of them does, and that runs add up, so that a decode does not depend on how it is split into chunks. -/

namespace Sys2Proof.Machine

/-! ## One byte -/

/-- The draw counter moved by one: a window byte under WINDOW_INIT = ANY. -/
def drawn (s : State) : State := { s with draws := s.draws + 1 }

/-- What a window read does: it answers, with a draw under ANY, or it fails under FAULT (R350). -/
theorem winRead_ends (idx : BitVec 13) (s : State) :
    (∃ b, winRead idx s = .ok b s) ∨ (∃ b, winRead idx s = .ok b (drawn s)) ∨
    (s.cfg.windowInit = .fault ∧ writtenSinceInit s idx.toNat = false ∧
      winRead idx s = .failed { cause := .unwrittenWindow, table := 0, detail := idx.setWidth 24 } s) := by
  unfold winRead
  cases hw : writtenSinceInit s idx.toNat with
  | true => exact .inl ⟨(s.win.window.read idx.toNat).getD (Config.drawByte s.draws), by simp⟩
  | false =>
    cases hc : s.cfg.windowInit with
    | fault => exact .inr (.inr ⟨rfl, rfl, by simp⟩)
    | zero => exact .inl ⟨0, by simp⟩
    | any => exact .inr (.inl ⟨Config.drawByte s.draws, by simp [drawn]⟩)

/-- COPY_ONE: a byte read, emitted and counted, or a failure with nothing changed (R353). -/
theorem copyOne_ends (s : State) :
    (∃ b u, (u = s ∨ u = drawn s) ∧ copyOne s = .ok () (advanceMatch (emit b u))) ∨
    (s.cfg.windowInit = .fault ∧ writtenSinceInit s s.win.matchSrc.toNat = false ∧
      copyOne s = .failed { cause := .unwrittenWindow, table := 0, detail := s.win.matchSrc.setWidth 24 } s) := by
  unfold copyOne
  rcases winRead_ends s.win.matchSrc s with ⟨b, h⟩ | ⟨b, h⟩ | ⟨h1, h2, h⟩ <;> rw [h]
  · exact .inl ⟨b, s, .inl rfl, rfl⟩
  · exact .inl ⟨b, drawn s, .inr rfl, rfl⟩
  · exact .inr ⟨h1, h2, rfl⟩

/-- Everything a decode command may change: all but the parameters, the registers, STATUS, the latched lengths, IN and the host. -/
def OnlyDecode (s t : State) : Prop :=
  t = { s with bits := t.bits, tabs := t.tabs, win := t.win, outMem := t.outMem, draws := t.draws }

theorem OnlyDecode.refl (s : State) : OnlyDecode s s := rfl

theorem OnlyDecode.trans {s t u : State} (h1 : OnlyDecode s t) (h2 : OnlyDecode t u) : OnlyDecode s u := by
  unfold OnlyDecode at *
  rw [h2, h1]

theorem OnlyBitsTabs.onlyDecode {s t : State} (h : OnlyBitsTabs s t) : OnlyDecode s t := by
  unfold OnlyBitsTabs at h
  unfold OnlyDecode
  rw [h]

theorem OnlyDecode.cfg {s t : State} (h : OnlyDecode s t) : t.cfg = s.cfg := by rw [h]
theorem OnlyDecode.regs {s t : State} (h : OnlyDecode s t) : t.regs = s.regs := by rw [h]
theorem OnlyDecode.status {s t : State} (h : OnlyDecode s t) : t.status = s.status := by rw [h]
theorem OnlyDecode.lat {s t : State} (h : OnlyDecode s t) : t.lat = s.lat := by rw [h]
theorem OnlyDecode.inMem {s t : State} (h : OnlyDecode s t) : t.inMem = s.inMem := by rw [h]
theorem OnlyDecode.hostOps {s t : State} (h : OnlyDecode s t) : t.hostOps = s.hostOps := by rw [h]
theorem OnlyDecode.hostData {s t : State} (h : OnlyDecode s t) : t.hostData = s.hostData := by rw [h]

theorem OnlyBitsTabs.win {s t : State} (h : OnlyBitsTabs s t) : t.win = s.win := by rw [h]
theorem OnlyBitsTabs.lat {s t : State} (h : OnlyBitsTabs s t) : t.lat = s.lat := by rw [h]
theorem OnlyBitsTabs.cfg {s t : State} (h : OnlyBitsTabs s t) : t.cfg = s.cfg := by rw [h]
theorem OnlyBitsTabs.outMem {s t : State} (h : OnlyBitsTabs s t) : t.outMem = s.outMem := by rw [h]
theorem OnlyBitsTabs.status {s t : State} (h : OnlyBitsTabs s t) : t.status = s.status := by rw [h]

/-- Kept by every update of a decode. -/
structure OutputClosed (P : State → Prop) : Prop where
  block : BlockClosed P
  literal : ∀ b s, s.win.produced.toNat < s.lat.outLen.toNat → P s → P (emit b s)
  copy : ∀ b s, s.win.produced.toNat < s.lat.outLen.toNat → s.win.matchRem ≠ 0#9 → P s → P (advanceMatch (emit b s))
  start : ∀ n d s, 3 ≤ n → n ≤ 256 → P s → P (startCopy n d s)
  draw : ∀ s, P s → P (drawn s)

theorem OutputClosed.copyOne {P : State → Prop} (h : OutputClosed P) {s : State}
    (hp : s.win.produced.toNat < s.lat.outLen.toNat) (hm : s.win.matchRem ≠ 0#9) (hs : P s) : P (copyOne s).state := by
  rcases copyOne_ends s with ⟨b, u, hu, he⟩ | ⟨-, -, he⟩ <;> rw [he]
  · rcases hu with rfl | rfl
    · exact h.copy b _ hp hm hs
    · exact h.copy b _ hp hm (h.draw _ hs)
  · exact hs

theorem decodeLiteralLength_ok {s u : State} {c : BitVec 10} (h : decodeLiteralLength s = .ok c u) : c.toNat < 510 := by
  unfold decodeLiteralLength at h
  rw [Flow.andThen_eq_ok] at h
  obtain ⟨_, w, -, h⟩ := h
  rcases decodeSymbol_ends .cTable (setBlockSize (decrementBlock w.cfg.blockCntBits w.tabs.blockSize) w) with
    ⟨d, h1, h2⟩ | ⟨d, -, h2⟩ <;> rw [h2] at h
  · simp only [Flow.ok.injEq] at h
    rw [← h.1]
    exact h1
  · simp at h

/-- A state in which a symbol decode's match has just been started still has the whole match to copy. -/
theorem startCopy_pending {n d : Nat} (s : State) (h3 : 3 ≤ n) (h256 : n ≤ 256) :
    (startCopy n d s).win.matchRem ≠ 0#9 := by
  intro h
  have := congrArg BitVec.toNat h
  simp at this
  omega

theorem OutputClosed.produceByte {P : State → Prop} (h : OutputClosed P) {s : State}
    (hp : s.win.produced.toNat < s.lat.outLen.toNat) (hs : P s) : P (produceByte s).state := by
  unfold Machine.produceByte
  split
  · next hm => exact h.copyOne hp hm hs
  · refine Flow.andThen_state (P := P) (h.block.decodeLiteralLength hs) fun c u he hu => ?_
    have hfu := decodeLiteralLength_frame s
    rw [he, Flow.state_ok] at hfu
    have hc := decodeLiteralLength_ok he
    split
    · exact h.literal _ _ (by rw [hfu.win, hfu.lat]; exact hp) hu
    · refine Flow.andThen_state (P := P) (decodeDistance_keeps h.block.pt.consume hu) fun d v he' hv => ?_
      have hfv := decodeDistance_frame u
      rw [he', Flow.state_ok] at hfv
      refine h.copyOne ?_ (startCopy_pending v (by omega) (by omega)) (h.start _ _ _ (by omega) (by omega) hv)
      simp only [startCopy_produced, startCopy_lat]
      rw [hfv.win, hfv.lat, hfu.win, hfu.lat]
      exact hp

/-! ## Counting the bytes -/

theorem copyOne_produced {s u : State} (h : copyOne s = .ok () u) : u.win.produced = s.win.produced + 1 := by
  rcases copyOne_ends s with ⟨b, v, hv, he⟩ | ⟨-, -, he⟩ <;> rw [he] at h
  · simp only [Flow.ok.injEq, true_and] at h
    subst h
    rcases hv with rfl | rfl <;> rfl
  · simp at h

theorem copyOne_frame (s : State) : OnlyDecode s (copyOne s).state := by
  rcases copyOne_ends s with ⟨b, v, hv, he⟩ | ⟨-, -, he⟩ <;> rw [he]
  · rcases hv with rfl | rfl <;> rfl
  · exact .refl s

theorem copyOne_failed {s u : State} {f : Failure} (h : copyOne s = .failed f u) : u = s := by
  rcases copyOne_ends s with ⟨b, v, hv, he⟩ | ⟨-, -, he⟩ <;> rw [he] at h
  · simp at h
  · simp only [Flow.failed.injEq] at h
    exact h.2.symm

/-- One pass of CHUNK_BODY changes only the decode's own state. -/
theorem produceByte_frame (s : State) : OnlyDecode s (produceByte s).state := by
  unfold produceByte
  split
  · exact copyOne_frame s
  · refine Flow.andThen_state (P := OnlyDecode s) (decodeLiteralLength_frame s).onlyDecode fun c u _ hu => ?_
    split
    · exact hu.trans rfl
    · refine Flow.andThen_state (P := OnlyDecode s) (hu.trans (decodeDistance_frame u).onlyDecode) fun d v _ hv => ?_
      exact hv.trans ((show OnlyDecode v (startCopy (c.toNat - 253) d v) from rfl).trans (copyOne_frame _))

/-- One pass of CHUNK_BODY produces one byte. -/
theorem produceByte_ok {s u : State} (h : produceByte s = .ok () u) : u.win.produced = s.win.produced + 1 := by
  unfold produceByte at h
  split at h
  · exact copyOne_produced h
  · rw [Flow.andThen_eq_ok] at h
    obtain ⟨c, v, he, h⟩ := h
    have hv := decodeLiteralLength_frame s
    rw [he, Flow.state_ok] at hv
    split at h
    · simp only [Flow.ok.injEq, true_and] at h
      subst h
      rw [emit_produced, hv.win]
    · rw [Flow.andThen_eq_ok] at h
      obtain ⟨d, w, he', h⟩ := h
      have hw := decodeDistance_frame v
      rw [he', Flow.state_ok] at hw
      rw [copyOne_produced h, startCopy_produced, hw.win, hv.win]

/-- A pass that fails has produced nothing. -/
theorem produceByte_failed {s u : State} {f : Failure} (h : produceByte s = .failed f u) :
    u.win.produced = s.win.produced ∧ u.outMem = s.outMem := by
  unfold produceByte at h
  split at h
  · rw [copyOne_failed h]
    exact ⟨rfl, rfl⟩
  · rw [Flow.andThen_eq_failed] at h
    have hv := decodeLiteralLength_frame s
    rcases h with h | ⟨c, v, he, h⟩
    · rw [h] at hv
      exact ⟨congrArg _ hv.win, hv.outMem⟩
    · rw [he, Flow.state_ok] at hv
      split at h
      · simp at h
      · rw [Flow.andThen_eq_failed] at h
        have hw := decodeDistance_frame v
        rcases h with h | ⟨d, w, he', h⟩
        · rw [h] at hw
          exact ⟨congrArg _ (hw.win.trans hv.win), hw.outMem.trans hv.outMem⟩
        · rw [he', Flow.state_ok] at hw
          rw [copyOne_failed h]
          exact ⟨by rw [startCopy_produced, hw.win, hv.win], hw.outMem.trans hv.outMem⟩

/-! ## Runs of bytes -/

theorem chunkBody_frame (n : Nat) : ∀ s, OnlyDecode s (chunkBody n s).state := by
  induction n with
  | zero => intro s; exact .refl s
  | succ n ih =>
    intro s
    exact Flow.andThen_state (P := OnlyDecode s) (produceByte_frame s) fun _ u _ hu => hu.trans (ih u)

theorem chunkBody_add (a b : Nat) : ∀ s, chunkBody (a + b) s = (chunkBody a s).andThen fun _ u => chunkBody b u := by
  induction a with
  | zero => intro s; simp [chunkBody]
  | succ a ih =>
    intro s
    have : a + 1 + b = a + b + 1 := by omega
    rw [this]
    simp only [chunkBody, Flow.andThen_assoc]
    congr 1
    funext _ u
    exact ih u

theorem produced_succ {s u : State} (hp : s.win.produced.toNat < s.lat.outLen.toNat)
    (h : u.win.produced = s.win.produced + 1) : u.win.produced.toNat = s.win.produced.toNat + 1 := by
  have := s.lat.outLen.isLt
  rw [h, BitVec.toNat_add]
  simp
  omega

/-- CHUNK_BODY within what is left to produce: exactly its count, or fewer when it fails (R402). -/
theorem chunkBody_counts (n : Nat) : ∀ s, n ≤ outRemaining s →
    (∀ u, chunkBody n s = .ok () u → u.win.produced.toNat = s.win.produced.toNat + n) ∧
    (∀ f u, chunkBody n s = .failed f u →
      s.win.produced.toNat ≤ u.win.produced.toNat ∧ u.win.produced.toNat < s.win.produced.toNat + n) := by
  induction n with
  | zero =>
    intro s _
    refine ⟨?_, ?_⟩
    · intro u h
      simp only [chunkBody, Flow.ok.injEq, true_and] at h
      rw [← h]; rfl
    · intro f u h
      simp [chunkBody] at h
  | succ n ih =>
    intro s hn
    have hp : s.win.produced.toNat < s.lat.outLen.toNat := by unfold outRemaining at hn; omega
    cases hb : produceByte s with
    | failed f u =>
      have hu := (produceByte_failed hb).1
      refine ⟨?_, ?_⟩
      · intro v h
        simp [chunkBody, hb] at h
      · intro f' v h
        simp only [chunkBody, hb, Flow.andThen_failed, Flow.failed.injEq] at h
        rw [← h.2, hu]
        omega
    | ok a u =>
      have hu := produced_succ hp (produceByte_ok hb)
      have hf := produceByte_frame s
      rw [hb] at hf
      have hr : n ≤ outRemaining u := by
        unfold outRemaining at hn ⊢
        rw [show u.lat = s.lat from hf.lat, hu]
        omega
      obtain ⟨h1, h2⟩ := ih u hr
      refine ⟨?_, ?_⟩
      · intro v h
        simp only [chunkBody, hb, Flow.andThen_ok] at h
        rw [h1 v h, hu]
        omega
      · intro f v h
        simp only [chunkBody, hb, Flow.andThen_ok] at h
        have := h2 f v h
        omega

theorem OutputClosed.chunkBody {P : State → Prop} (h : OutputClosed P) (n : Nat) :
    ∀ s, n ≤ outRemaining s → P s → P (chunkBody n s).state := by
  induction n with
  | zero => intro s _ hs; exact hs
  | succ n ih =>
    intro s hn hs
    have hp : s.win.produced.toNat < s.lat.outLen.toNat := by unfold outRemaining at hn; omega
    refine Flow.andThen_state (P := P) (h.produceByte hp hs) fun _ u he hu => ih u ?_ hu
    have hu := produced_succ hp (produceByte_ok he)
    have hf := produceByte_frame s
    rw [he] at hf
    unfold outRemaining at hn ⊢
    rw [show u.lat = s.lat from hf.lat, hu]
    omega

/-- DECODE_ALL's chunks add up to one chunk of everything left, whatever CHUNK is (R405, R406). -/
theorem decodeChunks_eq (fuel : Nat) : ∀ s, 1 ≤ s.cfg.chunk → outRemaining s ≤ fuel →
    decodeChunks fuel s = chunkBody (outRemaining s) s := by
  induction fuel with
  | zero =>
    intro s _ h
    have : outRemaining s = 0 := by omega
    simp [this, decodeChunks, chunkBody]
  | succ fuel ih =>
    intro s hc hf
    by_cases h0 : outRemaining s = 0
    · simp [h0, decodeChunks, chunkBody]
    · simp only [decodeChunks, h0, if_false]
      generalize hn : min s.cfg.chunk (outRemaining s) = n
      have hsum : outRemaining s = n + (outRemaining s - n) := by omega
      conv_rhs => rw [hsum, chunkBody_add]
      cases hb : chunkBody n s with
      | failed f u => rfl
      | ok a u =>
        have hu := (chunkBody_counts n s (by omega)).1 u hb
        have hfr := chunkBody_frame n s
        rw [hb] at hfr
        have hr : outRemaining u = outRemaining s - n := by
          unfold outRemaining
          rw [show u.lat = s.lat from hfr.lat, hu]
          omega
        simp only [Flow.andThen_ok]
        rw [ih u (by rw [show u.cfg = s.cfg from hfr.cfg]; exact hc) (by omega), hr]

/-- While a match is pending CHUNK_BODY only copies (R403). -/
theorem chunkBody_eq_copyTimes (n : Nat) : ∀ s, n ≤ s.win.matchRem.toNat → chunkBody n s = copyTimes n s := by
  induction n with
  | zero => intro s _; rfl
  | succ n ih =>
    intro s hn
    have hm : s.win.matchRem ≠ 0#9 := by
      intro h
      rw [h] at hn
      simp at hn
    simp only [chunkBody, copyTimes, produceByte, if_pos hm]
    rcases copyOne_ends s with ⟨b, u, hu, he⟩ | ⟨-, -, he⟩ <;> rw [he]
    · simp only [Flow.andThen_ok]
      refine ih _ ?_
      have hw : u.win = s.win := by rcases hu with rfl | rfl <;> rfl
      rw [advanceMatch_matchRem, emit_matchRem, hw, BitVec.toNat_sub]
      have := s.win.matchRem.isLt
      simp
      omega
    · rfl

/-- The command's clamp, or a chunk's count, keeps a copy within the pending match and the declared length. -/
theorem OutputClosed.copyTimes {P : State → Prop} (h : OutputClosed P) (n : Nat) (s : State)
    (hn : n ≤ s.win.matchRem.toNat) (hr : n ≤ outRemaining s) (hs : P s) : P (copyTimes n s).state := by
  rw [← chunkBody_eq_copyTimes n s hn]
  exact h.chunkBody n s hr hs

/-! ## Copies that cannot fail -/

/-- Unless WINDOW_INIT is FAULT and the byte unwritten, COPY_ONE completes. -/
theorem copyOne_completes {s : State} (h : s.SourceReadable) :
    ∃ b u, (u = s ∨ u = drawn s) ∧ copyOne s = .ok () (advanceMatch (emit b u)) := by
  rcases copyOne_ends s with h' | ⟨h1, h2, -⟩
  · exact h'
  · exfalso
    simp only [writtenSinceInit, Bool.or_eq_false_iff, decide_eq_false_iff_not] at h2
    rcases h with h | h | h
    · exact h h1
    · exact h2.1 h
    · exact h2.2 h

/-- A readable source stays readable: the next source byte lies below the next write position, or the window is full. -/
theorem sourceReadable_advance {s u : State} (h : s.SourceReadable) (hp : s.win.produced.toNat < s.lat.outLen.toNat)
    (hu : u = s ∨ u = drawn s) (b : Byte) : (advanceMatch (emit b u)).SourceReadable := by
  have hl := s.lat.outLen.isLt
  have hw : u.win = s.win ∧ u.cfg = s.cfg := by rcases hu with rfl | rfl <;> exact ⟨rfl, rfl⟩
  have hpr : (s.win.produced + 1).toNat = s.win.produced.toNat + 1 := by
    rw [BitVec.toNat_add]; simp; omega
  have hsrc := s.win.matchSrc.isLt
  unfold State.SourceReadable at *
  simp only [advanceMatch_cfg, emit_cfg, advanceMatch_produced, emit_produced, advanceMatch_matchSrc, emit_matchSrc, hw.1,
    hw.2, hpr]
  rcases h with h | h | h
  · exact .inl h
  · exact .inr (.inl (by omega))
  · by_cases h8 : 8192 ≤ s.win.produced.toNat + 1
    · exact .inr (.inl h8)
    · refine .inr (.inr ?_)
      rw [BitVec.toNat_add]
      simp
      omega

/-- A run of n copies from a readable source: all n happen, the cursors move by n, only OUT below L_OUT_CAP changes. -/
theorem copyTimes_completes (n : Nat) : ∀ s : State, s.SourceReadable → n ≤ s.win.matchRem.toNat → n ≤ outRemaining s →
    ∃ u, copyTimes n s = .ok () u ∧ OnlyDecode s u ∧ u.bits = s.bits ∧ u.tabs = s.tabs ∧
      u.win.pos = s.win.pos + BitVec.ofNat 13 n ∧
      u.win.produced = s.win.produced + BitVec.ofNat 32 n ∧
      u.win.matchSrc = s.win.matchSrc + BitVec.ofNat 13 n ∧
      u.win.matchRem = s.win.matchRem - BitVec.ofNat 9 n ∧
      ∀ a, ¬ (s.win.produced.toNat ≤ a ∧ a < s.win.produced.toNat + n ∧ a < s.lat.outCap.toNat) →
        u.outMem.read a = s.outMem.read a := by
  induction n with
  | zero =>
    intro s _ _ _
    exact ⟨s, rfl, .refl s, rfl, rfl, by simp, by simp, by simp, by simp, fun _ _ => rfl⟩
  | succ n ih =>
    intro s hs hm hr
    have hp : s.win.produced.toNat < s.lat.outLen.toNat := by unfold outRemaining at hr; omega
    have hl := s.lat.outLen.isLt
    obtain ⟨b, v, hv, he⟩ := copyOne_completes hs
    have hw : v.win = s.win ∧ v.lat = s.lat ∧ v.outMem = s.outMem ∧ v.bits = s.bits ∧ v.tabs = s.tabs := by
      rcases hv with rfl | rfl <;> exact ⟨rfl, rfl, rfl, rfl, rfl⟩
    have hpr : (s.win.produced + 1).toNat = s.win.produced.toNat + 1 := by
      rw [BitVec.toNat_add]; simp; omega
    have hmr : (s.win.matchRem - 1).toNat = s.win.matchRem.toNat - 1 := by
      have := s.win.matchRem.isLt
      rw [BitVec.toNat_sub]; simp; omega
    have hfr := copyOne_frame s
    rw [he] at hfr
    have h1 : n ≤ (advanceMatch (emit b v)).win.matchRem.toNat := by
      simp only [advanceMatch_matchRem, emit_matchRem, hw.1, hmr]; omega
    have h2 : n ≤ outRemaining (advanceMatch (emit b v)) := by
      unfold outRemaining at hr ⊢
      simp only [advanceMatch_lat, emit_lat, advanceMatch_produced, emit_produced, hw.1, hw.2.1, hpr]; omega
    obtain ⟨u, hu, hfu, hbits, htabs, hpos, hprod, hsrc, hrem, hmem⟩ := ih _ (sourceReadable_advance hs hp hv b) h1 h2
    have hcast : ∀ w : Nat, BitVec.ofNat w (n + 1) = 1 + BitVec.ofNat w n := by
      intro w
      rw [Nat.add_comm, BitVec.ofNat_add]
      rfl
    refine ⟨u, ?_, OnlyDecode.trans hfr hfu, ?_, ?_, ?_, ?_, ?_, ?_, ?_⟩
    · simp only [copyTimes, he, Flow.andThen_ok, hu]
    · rw [hbits]; exact hw.2.2.2.1
    · rw [htabs]; exact hw.2.2.2.2
    · rw [hpos, hcast, ← BitVec.add_assoc]
      simp only [advanceMatch_pos, emit_pos, hw.1]
    · rw [hprod, hcast, ← BitVec.add_assoc]
      simp only [advanceMatch_produced, emit_produced, hw.1]
    · rw [hsrc, hcast, ← BitVec.add_assoc]
      simp only [advanceMatch_matchSrc, emit_matchSrc, hw.1]
    · rw [hrem, hcast]
      simp only [advanceMatch_matchRem, emit_matchRem, hw.1]
      rw [BitVec.sub_sub]
    · intro a ha
      have hne : ¬ ((advanceMatch (emit b v)).win.produced.toNat ≤ a ∧
          a < (advanceMatch (emit b v)).win.produced.toNat + n ∧ a < (advanceMatch (emit b v)).lat.outCap.toNat) := by
        simp only [advanceMatch_produced, emit_produced, hw.1, hpr, advanceMatch_lat, emit_lat, hw.2.1]
        omega
      rw [hmem a hne]
      simp only [advanceMatch_outMem, emit_outMem, hw.1, hw.2.1, hw.2.2.1]
      split
      · next hlt =>
        rw [Memory.read_write]
        have hlt' : s.win.produced.toNat < s.lat.outCap.toNat := hlt
        have : ¬ s.win.produced.toNat = a := by omega
        simp [this]
      · rfl

end Sys2Proof.Machine
end

