-- ==== Sys2Proof/Laws/Commands.lean ====
section
/-! SUPPORT. What all commands do: the steps of every command leave STATUS as acceptance left it, and a property that the updates of
the machine keep is kept by every command that runs. -/

namespace Sys2Proof.Machine

theorem decodeChunks_keeps {P : State → Prop} (h : ∀ n s, P s → P (chunkBody n s).state) (fuel : Nat) :
    ∀ s, P s → P (decodeChunks fuel s).state := by
  induction fuel with
  | zero => intro s hs; exact hs
  | succ fuel ih =>
    intro s hs
    simp only [decodeChunks]
    split
    · exact hs
    · exact Flow.andThen_state (h _ s hs) fun _ u _ hu => ih u hu

theorem copyCount_le (b : BitVec 16) (s : State) :
    copyCount b s ≤ s.win.matchRem.toNat ∧ copyCount b s ≤ outRemaining s := by
  unfold copyCount
  omega

theorem copyTimes_frame (b : BitVec 16) (s : State) : OnlyDecode s (copyTimes (copyCount b s) s).state := by
  rw [← chunkBody_eq_copyTimes _ _ (copyCount_le b s).1]
  exact chunkBody_frame _ s

theorem decodeChunks_frame (fuel : Nat) (s : State) : OnlyDecode s (decodeChunks fuel s).state :=
  decodeChunks_keeps (P := OnlyDecode s) (fun n u hu => hu.trans (chunkBody_frame n u)) fuel s (.refl s)

theorem OnlyBitsTabs.of_tabs {s t : State} (h : t = { s with tabs := t.tabs }) : OnlyDecode s t := by
  unfold OnlyDecode
  rw [h]

/-- INIT and RESET apart, a command's steps change only the decode's own state. -/
theorem bodyOf_frame {i : Instr} (h : i ≠ .init ∧ i ≠ .reset) (s : State) : OnlyDecode s (bodyOf i s).state := by
  cases i with
  | init => exact absurd rfl h.1
  | reset => exact absurd rfl h.2
  | decodeChunk b =>
    exact Flow.andThen_state (P := OnlyDecode s) (chunkBody_frame _ s) fun _ _ _ hu => hu
  | decodeAll => exact Flow.andThen_state (P := OnlyDecode s) (decodeChunks_frame _ s) fun _ _ _ hu => hu
  | peek n => exact .refl s
  | consume n => exact (OnlyBitsTabs.onlyDecode ((onlyBitsTabs_closed s).pt.consume n.toNat s rfl))
  | getBits n => exact (OnlyBitsTabs.onlyDecode ((onlyBitsTabs_closed s).pt.consume n.toNat s rfl))
  | setLen t n b => cases t <;> rfl
  | getLen t b => cases t <;> exact .refl s
  | makeTable t b =>
    exact Flow.andThen_state (P := OnlyDecode s) (buildTable_frame _ s).onlyDecode fun _ _ _ hu => hu
  | getTable t b => cases t <;> simp only [bodyOf, readOrDraw] <;> split <;> rfl
  | getNode t b => simp only [bodyOf, readOrDraw]; split <;> rfl
  | readMetaLen =>
    exact Flow.andThen_state (P := OnlyDecode s) (readPtLen_frame (.inl rfl) s).onlyDecode fun _ _ _ hu => hu
  | readCLen => exact Flow.andThen_state (P := OnlyDecode s) (readCLen_frame s).onlyDecode fun _ _ _ hu => hu
  | readPLen =>
    exact Flow.andThen_state (P := OnlyDecode s) (readPtLen_frame (.inr rfl) s).onlyDecode fun _ _ _ hu => hu
  | readBlockHeader =>
    exact Flow.andThen_state (P := OnlyDecode s) (readBlockHeader_frame s).onlyDecode fun _ _ _ hu => hu
  | decodeC =>
    exact Flow.andThen_state (P := OnlyDecode s) (decodeLiteralLength_frame s).onlyDecode fun _ _ _ hu => hu
  | decodeP => exact Flow.andThen_state (P := OnlyDecode s) (decodeDistance_frame s).onlyDecode fun _ _ _ hu => hu
  | putLiteral b => rfl
  | startMatch b => rfl
  | copy b => exact Flow.andThen_state (P := OnlyDecode s) (copyTimes_frame b s) fun _ _ _ hu => hu

theorem finish_err (x : Flow (Option Word)) :
    (finish x).status.err = x.state.status.err ∧ (finish x).status.errCause = x.state.status.errCause := by
  rcases x with ⟨_ | v, s⟩ | ⟨f, s⟩ <;> simp

/-- A command that runs ends with ERR and ERR_CAUSE clear. -/
theorem ran_err (i : Instr) (s : State) :
    (finish (bodyOf i (accept s))).status.err = false ∧ (finish (bodyOf i (accept s))).status.errCause = 0#8 := by
  rw [(finish_err _).1, (finish_err _).2]
  by_cases h : i = .init
  · subst h; exact ⟨rfl, rfl⟩
  by_cases h' : i = .reset
  · subst h'; exact ⟨rfl, rfl⟩
  · rw [(bodyOf_frame ⟨h, h'⟩ _).status]
    exact ⟨rfl, rfl⟩

theorem chunkPrecondition_none {b : BitVec 16} {s : State} (h : chunkPrecondition b s = none) :
    b.toNat ≤ outRemaining s := by
  unfold chunkPrecondition at h
  by_cases hh : outRemaining s < b.toNat
  · simp [hh] at h
  · omega

theorem literalPrecondition_none {s : State} (h : literalPrecondition s = none) :
    s.win.matchRem = 0#9 ∧ s.win.produced.toNat < s.lat.outLen.toNat := by
  unfold literalPrecondition at h
  split at h
  · simp at h
  split at h
  · simp at h
  · next hm hle => exact ⟨by simpa using hm, Nat.lt_of_not_le fun hh => hle hh⟩

/-- Kept by every update of a command but INIT's and RESET's. -/
structure CommandClosed (P : State → Prop) : Prop where
  output : OutputClosed P
  setLength : ∀ t n i s, n.toNat ≤ 16 → P s → P (setLength t n i s)

/-- What the steps of a command keep, once its operands and its precondition let it run. -/
theorem CommandClosed.bodyOf {P : State → Prop} (h : CommandClosed P) {i : Instr} (hi : i ≠ .init ∧ i ≠ .reset) {s : State}
    (hl : operandsLegal i s = true) (hp : preconditionOf i s = none) (hs : P s) : P (Machine.bodyOf i s).state := by
  have hb := h.output.block
  cases i with
  | init => exact absurd rfl hi.1
  | reset => exact absurd rfl hi.2
  | decodeChunk b =>
    have hr := chunkPrecondition_none hp
    exact Flow.andThen_state (P := P) (h.output.chunkBody b.toNat s hr hs) fun _ _ _ hu => hu
  | decodeAll =>
    refine Flow.andThen_state (P := P) ?_ fun _ _ _ hu => hu
    have : ∀ fuel s, P s → P (decodeChunks fuel s).state := by
      intro fuel
      induction fuel with
      | zero => intro s hs; exact hs
      | succ fuel ih =>
        intro s hs
        simp only [decodeChunks]
        split
        · exact hs
        · exact Flow.andThen_state (h.output.chunkBody _ s (by omega) hs) fun _ u _ hu => ih u hu
    exact this _ s hs
  | peek n => exact hs
  | consume n => exact hb.pt.consume _ _ hs
  | getBits n => exact hb.pt.consume _ _ hs
  | setLen t n b =>
    simp only [operandsLegal, bitCountLegal, Bool.and_eq_true, decide_eq_true_eq] at hl
    exact h.setLength _ _ _ _ hl.1 hs
  | getLen t b => cases t <;> exact hs
  | makeTable t b =>
    refine Flow.andThen_state (P := P) ?_ fun _ _ _ hu => hu
    rw [buildTable_eq]
    cases t with
    | c =>
      split
      · next hk => exact hb.c.build _ hk hs
      · exact hb.c.clear _ hs
    | pt =>
      have hid : makeTableId .pt b ≠ .cTable := by
        simp only [makeTableId]
        split <;> simp
      split
      · next hk => exact hb.pt.build _ _ hid hk hs
      · exact hb.pt.clear _ _ hid hs
  | getTable t b =>
    cases t <;> simp only [Machine.bodyOf, readOrDraw] <;> split <;> first | exact hs | exact h.output.draw s hs
  | getNode t b =>
    simp only [Machine.bodyOf, readOrDraw]
    split <;> first | exact hs | exact h.output.draw s hs
  | readMetaLen => exact Flow.andThen_state (P := P) (hb.pt.readPtLen (.inl rfl) hs) fun _ _ _ hu => hu
  | readCLen => exact Flow.andThen_state (P := P) (hb.c.readCLen hs) fun _ _ _ hu => hu
  | readPLen => exact Flow.andThen_state (P := P) (hb.pt.readPtLen (.inr rfl) hs) fun _ _ _ hu => hu
  | readBlockHeader => exact Flow.andThen_state (P := P) (hb.readBlockHeader hs) fun _ _ _ hu => hu
  | decodeC => exact Flow.andThen_state (P := P) (hb.decodeLiteralLength hs) fun _ _ _ hu => hu
  | decodeP => exact Flow.andThen_state (P := P) (decodeDistance_keeps hb.pt.consume hs) fun _ _ _ hu => hu
  | putLiteral b =>
    have hr := (literalPrecondition_none hp).2
    exact h.output.literal _ s hr hs
  | startMatch b =>
    simp only [operandsLegal, matchLegal, Bool.and_eq_true, decide_eq_true_eq] at hl
    exact h.output.start _ _ _ hl.1.2 hl.2 hs
  | copy b =>
    have hc := copyCount_le b s
    exact Flow.andThen_state (P := P) (h.output.copyTimes _ s hc.1 hc.2 hs) fun _ _ _ hu => hu

/-- From acceptance to the end of a command, INIT and RESET apart. -/
theorem CommandClosed.ran {P : State → Prop} (h : CommandClosed P) {i : Instr} (hi : i ≠ .init ∧ i ≠ .reset) {s : State}
    (hp : precheck (gateOf i) (operandsLegal i s) (preconditionOf i s) s = none) (hs : P (accept s)) :
    P (Machine.bodyOf i (accept s)).state := by
  obtain ⟨-, -, h1, h2⟩ := precheck_none hp
  have h3 : operandsLegal i (accept s) = operandsLegal i s := by cases i <;> rfl
  have h4 : preconditionOf i (accept s) = preconditionOf i s := by cases i <;> rfl
  exact h.bodyOf hi (h3.trans h1) (h4.trans h2) hs

/-! ## What a failure names -/

/-- Every failure of the flow names a table code 0..3 (R453). -/
def Flow.NamesTable {α : Type} (x : Flow α) : Prop := ∀ f u, x = .failed f u → f.table.toNat ≤ 3

section
variable {α β : Type}

theorem Flow.NamesTable.ok (a : α) (s : State) : (Flow.ok a s).NamesTable := by
  intro f u h
  simp at h

theorem Flow.NamesTable.failNat (c : FailCause) {t : BitVec 4} (d : Nat) (s : State) (ht : t.toNat ≤ 3) :
    (failNat c t d s : Flow α).NamesTable := by
  intro f u h
  simp only [Machine.failNat, Flow.failed.injEq] at h
  rw [← h.1]
  exact ht

theorem Flow.NamesTable.andThen {x : Flow α} {k : α → State → Flow β} (hx : x.NamesTable)
    (hk : ∀ a u, (k a u).NamesTable) : (x.andThen k).NamesTable := by
  intro f u h
  rw [Flow.andThen_eq_failed] at h
  rcases h with h | ⟨a, v, -, h⟩
  · exact hx f u h
  · exact hk a v f u h

theorem Flow.NamesTable.ite {c : Prop} [Decidable c] {x y : Flow α} (hx : x.NamesTable) (hy : y.NamesTable) :
    (if c then x else y).NamesTable := by
  split <;> assumption
end

theorem TableId.code_le (id : TableId) : id.code.toNat ≤ 3 := by cases id <;> decide

theorem namesTable_decodeSymbol (id : TableId) (s : State) : (decodeSymbol id s).NamesTable := by
  intro f u h
  rcases decodeSymbol_ends id s with ⟨c, -, e⟩ | ⟨c, -, e⟩ <;> rw [e] at h
  · simp at h
  · simp only [Flow.failed.injEq] at h
    rw [← h.1]
    exact id.code_le

theorem namesTable_buildTable (id : TableId) (s : State) : (buildTable id s).NamesTable := by
  intro f u h
  rw [buildTable_eq] at h
  split at h
  · simp at h
  · simp only [Flow.failed.injEq] at h
    rw [← h.1]
    exact id.code_le

theorem namesTable_ptLenLoop (p : PtList) (n fuel : Nat) : ∀ i s, (ptLenLoop p n fuel i s).NamesTable := by
  induction fuel with
  | zero => intro i s; exact .ok _ _
  | succ fuel ih =>
    intro i s
    refine .ite (.ok _ _) (.andThen ?_ fun c u => .ite (.andThen ?_ fun j v => ih j v) (ih _ _))
    · rcases readLenCode_ends p.id.code s with ⟨c, k, -, e⟩ | ⟨c, -, e⟩ <;> rw [e]
      · exact .ok _ _
      · exact .failNat _ _ _ p.id.code_le
    · rcases specialRun_ends p.id (i + 1) (setPtLen i c u) with ⟨j, -, -, e⟩ | ⟨j, -, e⟩ <;> rw [e]
      · exact .ok _ _
      · exact .failNat _ _ _ p.id.code_le

theorem namesTable_readPtLen (p : PtList) (s : State) : (readPtLen p s).NamesTable := by
  refine .ite (.ok _ _) (.ite (.failNat _ _ _ p.id.code_le) (.andThen (namesTable_ptLenLoop _ _ _ _ _) fun i u => ?_))
  exact .andThen (namesTable_buildTable _ _) fun _ _ => .ok _ _

theorem namesTable_cLenLoop (n fuel : Nat) : ∀ i s, (cLenLoop n fuel i s).NamesTable := by
  induction fuel with
  | zero => intro i s; exact .ok _ _
  | succ fuel ih =>
    intro i s
    have hz : ∀ i r v, (zeroRun i r v).NamesTable := fun _ _ _ => .ite (.failNat _ _ _ (by decide)) (.ok _ _)
    refine .ite (.ok _ _) (.andThen (.andThen (namesTable_decodeSymbol _ _) fun c u => ?_) fun j v => ih j v)
    exact .ite (hz _ _ _) (.ite (hz _ _ _) (.ite (hz _ _ _) (.ok _ _)))

theorem namesTable_readCLen (s : State) : (readCLen s).NamesTable := by
  refine .ite (.ok _ _) (.ite (.failNat _ _ _ (by decide)) (.andThen (namesTable_cLenLoop _ _ _ _) fun i u => ?_))
  exact .andThen (namesTable_buildTable _ _) fun _ _ => .ok _ _

theorem namesTable_readBlockHeader (s : State) : (readBlockHeader s).NamesTable :=
  .andThen (namesTable_readPtLen _ _) fun _ _ => .andThen (namesTable_readCLen _) fun _ _ =>
    .andThen (namesTable_readPtLen _ _) fun _ _ => .ok _ _

theorem namesTable_decodeLiteralLength (s : State) : (decodeLiteralLength s).NamesTable :=
  .andThen (.ite (.andThen (namesTable_readBlockHeader _) fun _ _ => .ok _ _) (.ok _ _)) fun _ _ =>
    namesTable_decodeSymbol _ _

theorem namesTable_decodeDistance (s : State) : (decodeDistance s).NamesTable :=
  .andThen (namesTable_decodeSymbol _ _) fun _ _ => .ite (.ok _ _) (.ok _ _)

theorem namesTable_copyOne (s : State) : (copyOne s).NamesTable := by
  intro f u h
  rcases copyOne_ends s with ⟨b, v, -, e⟩ | ⟨-, -, e⟩ <;> rw [e] at h
  · simp at h
  · simp only [Flow.failed.injEq] at h
    rw [← h.1]
    exact Nat.zero_le 3

theorem namesTable_produceByte (s : State) : (produceByte s).NamesTable :=
  .ite (namesTable_copyOne s) (.andThen (namesTable_decodeLiteralLength s) fun _ _ =>
    .ite (.ok _ _) (.andThen (namesTable_decodeDistance _) fun _ _ => namesTable_copyOne _))

theorem namesTable_chunkBody (n : Nat) : ∀ s, (chunkBody n s).NamesTable := by
  induction n with
  | zero => intro s; exact .ok _ _
  | succ n ih => intro s; exact .andThen (namesTable_produceByte s) fun _ u => ih u

theorem namesTable_decodeChunks (fuel : Nat) : ∀ s, (decodeChunks fuel s).NamesTable := by
  induction fuel with
  | zero => intro s; exact .ok _ _
  | succ fuel ih => intro s; exact .ite (.ok _ _) (.andThen (namesTable_chunkBody _ s) fun _ u => ih u)

theorem namesTable_bodyOf (i : Instr) (s : State) : (bodyOf i s).NamesTable := by
  cases i with
  | decodeChunk b => exact .andThen (namesTable_chunkBody _ s) fun _ _ => .ok _ _
  | decodeAll => exact .andThen (namesTable_decodeChunks _ s) fun _ _ => .ok _ _
  | getLen t b => cases t <;> exact .ok _ _
  | makeTable t b => exact .andThen (namesTable_buildTable _ s) fun _ _ => .ok _ _
  | getTable t b => cases t <;> simp only [bodyOf, readOrDraw] <;> split <;> exact .ok _ _
  | getNode t b => simp only [bodyOf, readOrDraw]; split <;> exact .ok _ _
  | readMetaLen => exact .andThen (namesTable_readPtLen _ s) fun _ _ => .ok _ _
  | readCLen => exact .andThen (namesTable_readCLen s) fun _ _ => .ok _ _
  | readPLen => exact .andThen (namesTable_readPtLen _ s) fun _ _ => .ok _ _
  | readBlockHeader => exact .andThen (namesTable_readBlockHeader s) fun _ _ => .ok _ _
  | decodeC => exact .andThen (namesTable_decodeLiteralLength s) fun _ _ => .ok _ _
  | decodeP => exact .andThen (namesTable_decodeDistance s) fun _ _ => .ok _ _
  | copy b =>
    refine .andThen ?_ fun _ _ => .ok _ _
    rw [← chunkBody_eq_copyTimes _ _ (copyCount_le b s).1]
    exact namesTable_chunkBody _ _
  | _ => exact .ok _ _

end Sys2Proof.Machine
end

