-- ==== Sys2Proof/Laws/Decode.lean ====
section
/-! SUPPORT. The command word (30_encoding.md R150): what each field of a packed word is, and that the fields are the whole word. -/

namespace Sys2Proof

/-- A command word bit by bit (30_encoding.md R150). -/
theorem pack_getLsbD (op : BitVec 8) (n : BitVec 5) (t : Bool) (b : BitVec 16) (i : Nat) :
    (packWord op n t b).getLsbD i =
      if i < 8 then op.getLsbD i else if i < 13 then n.getLsbD (i - 8) else if i = 13 then t
      else if i < 16 then false else b.getLsbD (i - 16) := by
  show BitVec.getLsbD (w := 16 + (2 + (1 + (5 + 8)))) (b ++ (0#2 ++ (BitVec.ofBool t ++ (n ++ op)))) i = _
  simp only [BitVec.getLsbD_append, BitVec.getLsbD_ofBool]
  by_cases h1 : i < 8
  · simp [h1, show i < 16 by omega, show i < 14 by omega, show i < 13 by omega]
  by_cases h2 : i < 13
  · simp [h1, h2, show i < 16 by omega, show i < 14 by omega]
  by_cases h3 : i = 13
  · subst h3; simp
  by_cases h4 : i < 16
  · simp [h1, h2, h3, h4]
    intros; omega
  · simp [h1, h2, h3, h4]

@[simp] theorem opField_pack (op : BitVec 8) (n : BitVec 5) (t : Bool) (b : BitVec 16) : opField (packWord op n t b) = op := by
  apply BitVec.eq_of_getLsbD_eq
  intro i hi
  simp only [opField, BitVec.getLsbD_extractLsb', pack_getLsbD]
  simp [hi]

@[simp] theorem nField_pack (op : BitVec 8) (n : BitVec 5) (t : Bool) (b : BitVec 16) : nField (packWord op n t b) = n := by
  apply BitVec.eq_of_getLsbD_eq
  intro i hi
  simp only [nField, BitVec.getLsbD_extractLsb', pack_getLsbD]
  simp [hi, show 8 + i < 13 by omega]

@[simp] theorem tField_pack (op : BitVec 8) (n : BitVec 5) (t : Bool) (b : BitVec 16) : tField (packWord op n t b) = t := by
  simp only [tField, pack_getLsbD]
  simp

@[simp] theorem zField_pack (op : BitVec 8) (n : BitVec 5) (t : Bool) (b : BitVec 16) : zField (packWord op n t b) = 0#2 := by
  apply BitVec.eq_of_getLsbD_eq
  intro i hi
  simp only [zField, BitVec.getLsbD_extractLsb', pack_getLsbD]
  simp [show ¬ 14 + i < 8 by omega, show ¬ 14 + i < 13 by omega, show ¬ 14 + i = 13 by omega,
    show 14 + i < 16 by omega]

@[simp] theorem bField_pack (op : BitVec 8) (n : BitVec 5) (t : Bool) (b : BitVec 16) : bField (packWord op n t b) = b := by
  apply BitVec.eq_of_getLsbD_eq
  intro i hi
  simp only [bField, BitVec.getLsbD_extractLsb', pack_getLsbD]
  simp [hi, show ¬ 16 + i < 8 by omega, show ¬ 16 + i < 13 by omega, show ¬ 16 + i = 13 by omega]

/-- A word with Z = 0 is its own fields packed again. -/
theorem pack_fields (w : Word) (hz : zField w = 0#2) :
    packWord (opField w) (nField w) (tField w) (bField w) = w := by
  apply BitVec.eq_of_getLsbD_eq
  intro i hi
  have hz' : ∀ j, j < 2 → w.getLsbD (14 + j) = false := by
    intro j hj
    have := congrArg (fun v => v.getLsbD j) hz
    simpa [zField, hj] using this
  rw [pack_getLsbD]
  simp only [opField, nField, tField, bField, BitVec.getLsbD_extractLsb']
  split
  · simp [*]
  split
  · simp [show i - 8 < 5 by omega, show 8 + (i - 8) = i by omega]
  split
  · simp [*]
  split
  · have := hz' (i - 14) (by omega)
    rw [show 14 + (i - 14) = i by omega] at this
    exact this.symm
  · simp [show i - 16 < 16 by omega, show 16 + (i - 16) = i by omega]

@[simp] theorem sideOf_sideBit (t : Side) : sideOf (sideBit t) = t := by cases t <;> rfl
@[simp] theorem sideBit_sideOf (t : Bool) : sideBit (sideOf t) = t := by cases t <;> rfl
@[simp] theorem childOf_childBit (t : Child) : childOf (childBit t) = t := by cases t <;> rfl
@[simp] theorem childBit_childOf (t : Bool) : childBit (childOf t) = t := by cases t <;> rfl

/-- A word that decodes has Z = 0 and 0 in every field its command does not use (R153). -/
theorem ifUnusedZero_ok {w : Word} {useN useT useB : Bool} {i j : Instr} (h : ifUnusedZero w useN useT useB i = .ok j) :
    j = i ∧ zField w = 0#2 ∧ (useN = false → nField w = 0#5) ∧ (useT = false → tField w = false) ∧
      (useB = false → bField w = 0#16) := by
  unfold ifUnusedZero at h
  split at h
  · next hc =>
    simp at h hc
    refine ⟨h.symm, hc.1.1.1, ?_, ?_, ?_⟩ <;> intro hu <;> simp_all
  · simp at h

end Sys2Proof
end

