-- ==== Sys2Proof/Laws/HostPort.lean ====
section
/-! SUPPORT. The host's side: the free choices of a read while BUSY, and what it may see of a command in flight (10_state.md R35,
93_implementation_defined.md M20). -/

namespace Sys2Proof.Machine

section Choices
variable {α β : Type} (k : Nat) (s : State)

@[simp] theorem fork_self (x : α) : fork k s x x = x := by simp [fork]

theorem fork_or (x y : α) : fork k s x y = x ∨ fork k s x y = y := by
  unfold fork
  split <;> simp

theorem fork_map (f : α → β) (x y : α) : f (fork k s x y) = fork k s (f x) (f y) := by
  unfold fork
  split <;> rfl

theorem upTo_le (top : Nat) : upTo k s top ≤ top := Nat.le_of_lt_succ (Nat.mod_lt _ (Nat.succ_pos top))

theorem onTheWay_ge {x y : Nat} (h : x ≤ y) : x ≤ onTheWay k s x y ∧ onTheWay k s x y ≤ y := by
  have := upTo_le k s (y - x)
  unfold onTheWay
  rw [if_pos h]
  omega

theorem onTheWay_le (x y : Nat) : onTheWay k s x y ≤ max x y := by
  have := upTo_le k s (y - x)
  unfold onTheWay
  split <;> omega

end Choices

section Glimpse
variable (i : Instr) (s t : State)

@[simp] theorem glimpse_running : (glimpse i s t).status.running = s.status.running := rfl
@[simp] theorem glimpse_err : (glimpse i s t).status.err = s.status.err := rfl
@[simp] theorem glimpse_errCause : (glimpse i s t).status.errCause = s.status.errCause := rfl
@[simp] theorem glimpse_regs : (glimpse i s t).regs = fork 18 s s.regs t.regs := rfl
@[simp] theorem glimpse_ready : (glimpse i s t).status.ready = fork 19 s s.status.ready t.status.ready := rfl
@[simp] theorem glimpse_ovr : (glimpse i s t).status.ovr = fork 20 s s.status.ovr t.status.ovr := rfl
@[simp] theorem glimpse_fail : (glimpse i s t).status.fail = fork 17 s s.status.fail t.status.fail := by
  simp only [glimpse, fork]
  split <;> rfl
@[simp] theorem glimpse_win : (glimpse i s t).win = glimpseWindow (rewrites i s) s t := rfl
@[simp] theorem glimpse_tabs : (glimpse i s t).tabs = glimpseTables (rewrites i s) s t := rfl
@[simp] theorem glimpse_bits : (glimpse i s t).bits = glimpseBits (rewrites i s) s t := rfl

/-- FAIL_INFO reads as before or after. -/
theorem glimpse_failInfo : failInfoWord (glimpse i s t) = failInfoWord s ∨ failInfoWord (glimpse i s t) = failInfoWord t := by
  rcases fork_or 17 s s.status t.status with h | h
  · left; simp only [failInfoWord, glimpse, h]
  · right; simp only [failInfoWord, glimpse, h]

/-- PRODUCED lies on the way from before to after. -/
theorem glimpseWindow_produced (r : List Rewrites) (h : s.win.produced.toNat ≤ t.win.produced.toNat) :
    s.win.produced.toNat ≤ (glimpseWindow r s t).produced.toNat ∧
      (glimpseWindow r s t).produced.toNat ≤ t.win.produced.toNat := by
  unfold glimpseWindow
  split
  · have hu := upTo_le 13 s (t.win.produced.toNat - s.win.produced.toNat)
    have ht := t.win.produced.isLt
    have hsum : (s.win.produced + BitVec.ofNat 32 (upTo 13 s (t.win.produced.toNat - s.win.produced.toNat))).toNat =
        s.win.produced.toNat + upTo 13 s (t.win.produced.toNat - s.win.produced.toNat) := by
      rw [BitVec.toNat_add, BitVec.toNat_ofNat]
      omega
    dsimp only
    rw [hsum]
    omega
  · dsimp only
    rcases fork_or 13 s s.win.produced t.win.produced with e | e <;> rw [e] <;> omega

/-- BLOCKSIZE keeps BLOCKCNT_BITS bits (10_state.md R47). -/
theorem glimpseTables_blockSize (r : List Rewrites) (hs : s.tabs.blockSize.toNat < 2 ^ s.cfg.blockCntBits.bits)
    (ht : t.tabs.blockSize.toNat < 2 ^ s.cfg.blockCntBits.bits) :
    (glimpseTables r s t).blockSize.toNat < 2 ^ s.cfg.blockCntBits.bits := by
  have hw : 2 ^ s.cfg.blockCntBits.bits ≤ 2 ^ 32 ∧ 2 ^ 16 ≤ 2 ^ s.cfg.blockCntBits.bits := by
    cases s.cfg.blockCntBits <;> decide
  have hb := s.bits.bitbuf.isLt
  have hf : ∀ (k : Nat) (x y : Word), x.toNat < 2 ^ s.cfg.blockCntBits.bits → y.toNat < 2 ^ s.cfg.blockCntBits.bits →
      (fork k s x y).toNat < 2 ^ s.cfg.blockCntBits.bits := by
    intro k x y hx hy
    rcases fork_or k s x y with e | e <;> rw [e] <;> assumption
  have hn : ∀ n, n < 2 ^ s.cfg.blockCntBits.bits → (BitVec.ofNat 32 n).toNat < 2 ^ s.cfg.blockCntBits.bits := by
    intro n h
    rw [BitVec.toNat_ofNat]
    exact Nat.lt_of_le_of_lt (Nat.mod_le _ _) h
  unfold glimpseTables
  split <;> dsimp only <;> split
  · refine hn _ ?_
    have := upTo_le 9 s (2 ^ s.cfg.blockCntBits.bits - 1)
    omega
  · refine hf _ _ _ hs (hf _ _ _ ?_ ht)
    rw [BitVec.toNat_setWidth]
    omega
  · refine hn _ ?_
    have := onTheWay_le 9 s s.tabs.blockSize.toNat t.tabs.blockSize.toNat
    omega
  · exact hf _ _ _ hs ht

end Glimpse

/-- A read changes what the host last read and the count of free values, and nothing else (R34). -/
theorem hostRead_frame (off : BitVec 8) (s : State) :
    hostRead off s = { s with hostData := (hostRead off s).hostData, draws := (hostRead off s).draws } := by
  unfold hostRead
  cases s.status.running <;> rfl

/-- A read while BUSY shows the core at some moment of the command in flight. -/
theorem hostRead_busy {off : BitVec 8} {s t : State} {r : Running} {i : Instr} (h : s.status.running = some r)
    (hd : decode r.word = .ok i) (he : exec i { s with status := { s.status with running := none } } = .next t) :
    (hostRead off s).hostData = readReg off (glimpse i s t) := by
  simp only [hostRead, h, readRegBusy, hd, he]

end Sys2Proof.Machine
end

