-- ==== Sys2Proof/Laws/PerInstr.lean ====
section
/-! SUPPORT. Claims about every command as syntax, one lemma per constructor. -/

open Sys2Proof

/-- R150, R151, R154: the word of a command has Z = 0, and its OP byte is the one the opcode map lists for it. -/
def Sys2Proof.Laws.ReservedBitsZero.Statement (i : Instr) : Prop :=
  zField (encode i) = 0#2 ∧ opField (encode i) =
    match i with
    | .init => 0x01#8
    | .reset => 0x02#8
    | .decodeChunk _ => 0x03#8
    | .decodeAll => 0x04#8
    | .peek _ => 0x10#8
    | .consume _ => 0x11#8
    | .getBits _ => 0x12#8
    | .setLen _ _ _ => 0x20#8
    | .getLen _ _ => 0x21#8
    | .makeTable _ _ => 0x22#8
    | .getTable _ _ => 0x23#8
    | .getNode _ _ => 0x24#8
    | .readMetaLen => 0x30#8
    | .readCLen => 0x31#8
    | .readPLen => 0x32#8
    | .readBlockHeader => 0x33#8
    | .decodeC => 0x34#8
    | .decodeP => 0x35#8
    | .putLiteral _ => 0x40#8
    | .startMatch _ => 0x41#8
    | .copy _ => 0x42#8

theorem Sys2Proof.Laws.ReservedBitsZero.init : Sys2Proof.Laws.ReservedBitsZero.Statement .init :=
  ⟨zField_pack _ _ _ _, opField_pack _ _ _ _⟩

theorem Sys2Proof.Laws.ReservedBitsZero.reset : Sys2Proof.Laws.ReservedBitsZero.Statement .reset :=
  ⟨zField_pack _ _ _ _, opField_pack _ _ _ _⟩

theorem Sys2Proof.Laws.ReservedBitsZero.decodeChunk (b : BitVec 16) : Sys2Proof.Laws.ReservedBitsZero.Statement (.decodeChunk b) :=
  ⟨zField_pack _ _ _ _, opField_pack _ _ _ _⟩

theorem Sys2Proof.Laws.ReservedBitsZero.decodeAll : Sys2Proof.Laws.ReservedBitsZero.Statement .decodeAll :=
  ⟨zField_pack _ _ _ _, opField_pack _ _ _ _⟩

theorem Sys2Proof.Laws.ReservedBitsZero.peek (n : BitVec 5) : Sys2Proof.Laws.ReservedBitsZero.Statement (.peek n) :=
  ⟨zField_pack _ _ _ _, opField_pack _ _ _ _⟩

theorem Sys2Proof.Laws.ReservedBitsZero.consume (n : BitVec 5) : Sys2Proof.Laws.ReservedBitsZero.Statement (.consume n) :=
  ⟨zField_pack _ _ _ _, opField_pack _ _ _ _⟩

theorem Sys2Proof.Laws.ReservedBitsZero.getBits (n : BitVec 5) : Sys2Proof.Laws.ReservedBitsZero.Statement (.getBits n) :=
  ⟨zField_pack _ _ _ _, opField_pack _ _ _ _⟩

theorem Sys2Proof.Laws.ReservedBitsZero.setLen (t : Side) (n : BitVec 5) (b : BitVec 16) : Sys2Proof.Laws.ReservedBitsZero.Statement (.setLen t n b) :=
  ⟨zField_pack _ _ _ _, opField_pack _ _ _ _⟩

theorem Sys2Proof.Laws.ReservedBitsZero.getLen (t : Side) (b : BitVec 16) : Sys2Proof.Laws.ReservedBitsZero.Statement (.getLen t b) :=
  ⟨zField_pack _ _ _ _, opField_pack _ _ _ _⟩

theorem Sys2Proof.Laws.ReservedBitsZero.makeTable (t : Side) (b : BitVec 16) : Sys2Proof.Laws.ReservedBitsZero.Statement (.makeTable t b) :=
  ⟨zField_pack _ _ _ _, opField_pack _ _ _ _⟩

theorem Sys2Proof.Laws.ReservedBitsZero.getTable (t : Side) (b : BitVec 16) : Sys2Proof.Laws.ReservedBitsZero.Statement (.getTable t b) :=
  ⟨zField_pack _ _ _ _, opField_pack _ _ _ _⟩

theorem Sys2Proof.Laws.ReservedBitsZero.getNode (t : Child) (b : BitVec 16) : Sys2Proof.Laws.ReservedBitsZero.Statement (.getNode t b) :=
  ⟨zField_pack _ _ _ _, opField_pack _ _ _ _⟩

theorem Sys2Proof.Laws.ReservedBitsZero.readMetaLen : Sys2Proof.Laws.ReservedBitsZero.Statement .readMetaLen :=
  ⟨zField_pack _ _ _ _, opField_pack _ _ _ _⟩

theorem Sys2Proof.Laws.ReservedBitsZero.readCLen : Sys2Proof.Laws.ReservedBitsZero.Statement .readCLen :=
  ⟨zField_pack _ _ _ _, opField_pack _ _ _ _⟩

theorem Sys2Proof.Laws.ReservedBitsZero.readPLen : Sys2Proof.Laws.ReservedBitsZero.Statement .readPLen :=
  ⟨zField_pack _ _ _ _, opField_pack _ _ _ _⟩

theorem Sys2Proof.Laws.ReservedBitsZero.readBlockHeader : Sys2Proof.Laws.ReservedBitsZero.Statement .readBlockHeader :=
  ⟨zField_pack _ _ _ _, opField_pack _ _ _ _⟩

theorem Sys2Proof.Laws.ReservedBitsZero.decodeC : Sys2Proof.Laws.ReservedBitsZero.Statement .decodeC :=
  ⟨zField_pack _ _ _ _, opField_pack _ _ _ _⟩

theorem Sys2Proof.Laws.ReservedBitsZero.decodeP : Sys2Proof.Laws.ReservedBitsZero.Statement .decodeP :=
  ⟨zField_pack _ _ _ _, opField_pack _ _ _ _⟩

theorem Sys2Proof.Laws.ReservedBitsZero.putLiteral (b : BitVec 16) : Sys2Proof.Laws.ReservedBitsZero.Statement (.putLiteral b) :=
  ⟨zField_pack _ _ _ _, opField_pack _ _ _ _⟩

theorem Sys2Proof.Laws.ReservedBitsZero.startMatch (b : BitVec 16) : Sys2Proof.Laws.ReservedBitsZero.Statement (.startMatch b) :=
  ⟨zField_pack _ _ _ _, opField_pack _ _ _ _⟩

theorem Sys2Proof.Laws.ReservedBitsZero.copy (b : BitVec 16) : Sys2Proof.Laws.ReservedBitsZero.Statement (.copy b) :=
  ⟨zField_pack _ _ _ _, opField_pack _ _ _ _⟩
end

