-- ==== Sys2Proof/Laws/Result.lean ====
section
/-! SUPPORT. No step of a decode reads or writes RESULT: run from a state with another RESULT, it ends in the same state with that
RESULT (44_orchestrator.md R406). And what a decode step leaves of the tables a symbol decode needs. -/

namespace Sys2Proof.Machine

/-- A flow with RESULT set at its end. -/
def Flow.withResult {α : Type} (v : Word) : Flow α → Flow α
  | .ok a s => .ok a (setResult v s)
  | .failed f s => .failed f (setResult v s)

/-- An operation that neither reads nor writes RESULT. -/
def IgnoresResult {α : Type} (k : State → Flow α) : Prop := ∀ v s, k (setResult v s) = (k s).withResult v

section
variable {α β : Type}

theorem IgnoresResult.ok (a : α) {g : State → State} (hg : ∀ v s, g (setResult v s) = setResult v (g s)) :
    IgnoresResult fun s => .ok a (g s) := by
  intro v s
  simp only [hg]; rfl

theorem IgnoresResult.ite {c : State → Prop} [∀ s, Decidable (c s)] {k l : State → Flow α}
    (hc : ∀ v s, c (setResult v s) ↔ c s) (hk : IgnoresResult k) (hl : IgnoresResult l) :
    IgnoresResult fun s => if c s then k s else l s := by
  intro v s
  by_cases h : c s
  · simp only [if_pos h, if_pos ((hc v s).mpr h)]
    exact hk v s
  · simp only [if_neg h, if_neg (fun h' => h ((hc v s).mp h'))]
    exact hl v s

/-- An update that commutes with setting RESULT, before an operation. -/
theorem IgnoresResult.after {k : State → Flow α} {g : State → State} (hg : ∀ v s, g (setResult v s) = setResult v (g s))
    (hk : IgnoresResult k) : IgnoresResult fun s => k (g s) := by
  intro v s
  simp only [hg]
  exact hk v _

theorem IgnoresResult.andThen {k : State → Flow α} {l : α → State → Flow β} (hk : IgnoresResult k)
    (hl : ∀ a, IgnoresResult (l a)) : IgnoresResult fun s => (k s).andThen l := by
  intro v s
  simp only [hk v s]
  cases k s with
  | ok a u => exact hl a v u
  | failed f u => rfl
end

theorem setResult_consumeBits (v : Word) (n : Nat) (s : State) :
    consumeBits n (setResult v s) = setResult v (consumeBits n s) := by
  unfold consumeBits
  split <;> rfl

theorem setResult_clearStatus (id : TableId) (v : Word) (s : State) :
    clearStatus id (setResult v s) = setResult v (clearStatus id s) := by cases id <;> rfl

theorem setResult_singlePt (p : PtList) (v : Word) (s : State) : singlePt p (setResult v s) = setResult v (singlePt p s) := by
  unfold singlePt getBits
  have : peekBits p.nbit (setResult v s) = peekBits p.nbit s := rfl
  simp only [setResult_consumeBits, this]
  rfl

theorem setResult_singleC (v : Word) (s : State) : singleC (setResult v s) = setResult v (singleC s) := by
  unfold singleC getBits
  have : peekBits 9 (setResult v s) = peekBits 9 s := rfl
  simp only [setResult_consumeBits, this]
  generalize consumeBits 9 s = u
  generalize (510 : Nat) = a
  generalize (4096 : Nat) = b
  rfl

theorem ignoresResult_lookup (id : TableId) : IgnoresResult (lookup id) := by
  intro v s
  have h := lookup_congr (id := id) (s := s) (t := setResult v s) rfl (by cases id <;> rfl) (by cases id <;> rfl) rfl rfl
  rcases lookup_ends id s with ⟨c, -, e⟩ | ⟨c, -, e⟩
  · rw [(h.1 c).mp e, e]; rfl
  · rw [(h.2 _).mp e, e]; rfl

theorem ignoresResult_decodeSymbol (id : TableId) : IgnoresResult (decodeSymbol id) := by
  refine IgnoresResult.andThen (ignoresResult_lookup id) fun c v s => ?_
  rw [setResult_consumeBits]
  cases id <;> rfl

theorem ignoresResult_buildTable (id : TableId) : IgnoresResult (buildTable id) := by
  intro v s
  rw [buildTable_eq, buildTable_eq]
  have e : buildLens id (setResult v s) = buildLens id s := by cases id <;> rfl
  have e2 : builtFrom id (setResult v s) = builtFrom id s := by
    unfold builtFrom
    rw [e]
    cases id <;> rfl
  have e3 : ∀ b u, endBuild id b (setResult v u) = setResult v (endBuild id b u) := by intro b u; cases id <;> rfl
  rw [e, e2, setResult_clearStatus, e3]
  by_cases h : kraftSum (buildLens id s) = 65536
  · rw [if_pos h, if_pos h]; rfl
  · rw [if_neg h, if_neg h]; rfl

theorem ignoresResult_readLenCode (code : BitVec 4) : IgnoresResult (readLenCode code) :=
  IgnoresResult.ite (c := fun s => 16 < lenCodeValue s.bits.bitbuf) (fun _ _ => Iff.rfl) (fun _ _ => rfl)
    fun v s => by rw [setResult_consumeBits]; rfl

theorem ignoresResult_specialRun (id : TableId) (i : Nat) : IgnoresResult (specialRun id i) :=
  IgnoresResult.ite (c := fun s => id.nchar < i + (peekBits 2 s).toNat) (fun _ _ => Iff.rfl)
    (fun v s => by simp only [getBits]; rw [setResult_consumeBits]; rfl)
    fun v s => by simp only [getBits]; rw [setResult_consumeBits]; rfl

theorem ignoresResult_ptLenLoop (p : PtList) (n fuel : Nat) : ∀ i, IgnoresResult (ptLenLoop p n fuel i) := by
  induction fuel with
  | zero => intro i v s; rfl
  | succ fuel ih =>
    intro i
    refine IgnoresResult.ite (c := fun _ => n ≤ i) (fun _ _ => Iff.rfl) (fun _ _ => rfl) ?_
    refine IgnoresResult.andThen (ignoresResult_readLenCode p.id.code) fun c => ?_
    refine IgnoresResult.ite (c := fun _ => p.special = some (i + 1)) (fun _ _ => Iff.rfl) ?_ ?_
    · exact IgnoresResult.andThen (k := fun s => specialRun p.id (i + 1) (setPtLen i c s))
        (IgnoresResult.after (fun _ _ => rfl) (ignoresResult_specialRun _ _)) fun i => ih i
    · exact IgnoresResult.after (fun _ _ => rfl) (ih (i + 1))

theorem ignoresResult_readPtLen (p : PtList) : IgnoresResult (readPtLen p) := by
  refine IgnoresResult.ite (c := fun s => (peekBits p.nbit (clearStatus p.id s)).toNat = 0) ?_ ?_ ?_
  · intro v s; rw [setResult_clearStatus]; rfl
  · intro v s
    simp only [getBits]
    rw [setResult_clearStatus, setResult_consumeBits, setResult_singlePt]
    rfl
  refine IgnoresResult.ite (c := fun s => p.id.nchar < (peekBits p.nbit (clearStatus p.id s)).toNat) ?_ ?_ ?_
  · intro v s; rw [setResult_clearStatus]; rfl
  · intro v s
    simp only [getBits]
    rw [setResult_clearStatus, setResult_consumeBits]
    rfl
  · intro v s
    simp only [getBits]
    rw [setResult_clearStatus, setResult_consumeBits]
    refine (IgnoresResult.andThen (ignoresResult_ptLenLoop p _ _ 0) fun i => ?_) v _
    exact IgnoresResult.andThen (k := fun s => buildTable p.id (zeroPtLens i p.id.nchar s))
      (IgnoresResult.after (fun _ _ => rfl) (ignoresResult_buildTable _)) fun _ _ _ => rfl

theorem ignoresResult_zeroRun (i r : Nat) : IgnoresResult (zeroRun i r) :=
  IgnoresResult.ite (c := fun _ => 510 < i + r) (fun _ _ => Iff.rfl) (fun _ _ => rfl) fun _ _ => rfl

theorem ignoresResult_cItem (i : Nat) : IgnoresResult (cItem i) := by
  refine IgnoresResult.andThen (ignoresResult_decodeSymbol _) fun c => ?_
  refine IgnoresResult.ite (c := fun _ => c.toNat = 0) (fun _ _ => Iff.rfl) (ignoresResult_zeroRun i 1) ?_
  refine IgnoresResult.ite (c := fun _ => c.toNat = 1) (fun _ _ => Iff.rfl) ?_ ?_
  · intro v s
    simp only [getBits]
    rw [setResult_consumeBits]
    exact ignoresResult_zeroRun i _ v _
  refine IgnoresResult.ite (c := fun _ => c.toNat = 2) (fun _ _ => Iff.rfl) ?_ fun _ _ => rfl
  intro v s
  simp only [getBits]
  rw [setResult_consumeBits]
  exact ignoresResult_zeroRun i _ v _

theorem ignoresResult_cLenLoop (n fuel : Nat) : ∀ i, IgnoresResult (cLenLoop n fuel i) := by
  induction fuel with
  | zero => intro i v s; rfl
  | succ fuel ih =>
    intro i
    exact IgnoresResult.ite (c := fun _ => n ≤ i) (fun _ _ => Iff.rfl) (fun _ _ => rfl)
      (IgnoresResult.andThen (ignoresResult_cItem i) fun i => ih i)

theorem ignoresResult_readCLen : IgnoresResult readCLen := by
  refine IgnoresResult.ite (c := fun s => (peekBits 9 (clearStatus .cTable s)).toNat = 0) (fun _ _ => Iff.rfl) ?_ ?_
  · intro v s
    simp only [getBits]
    rw [setResult_clearStatus, setResult_consumeBits, setResult_singleC]
    rfl
  refine IgnoresResult.ite (c := fun s => 510 < (peekBits 9 (clearStatus .cTable s)).toNat) (fun _ _ => Iff.rfl) ?_ ?_
  · intro v s
    simp only [getBits]
    rw [setResult_clearStatus, setResult_consumeBits]
    rfl
  · intro v s
    simp only [getBits]
    rw [setResult_clearStatus, setResult_consumeBits]
    refine (IgnoresResult.andThen (ignoresResult_cLenLoop _ _ 0) fun i => ?_) v _
    exact IgnoresResult.andThen (k := fun s => buildTable .cTable (zeroCLens i 510 s))
      (IgnoresResult.after (fun _ _ => rfl) (ignoresResult_buildTable _)) fun _ _ _ => rfl

theorem ignoresResult_readBlockHeader : IgnoresResult readBlockHeader := by
  intro v s
  unfold readBlockHeader
  simp only [getBits]
  rw [setResult_consumeBits]
  exact (IgnoresResult.andThen (ignoresResult_readPtLen metaList) fun _ => IgnoresResult.andThen ignoresResult_readCLen fun _ =>
    IgnoresResult.andThen (ignoresResult_readPtLen positionList) fun _ v s => rfl) v
      (setBlockSize ((peekBits 16 s).setWidth 32) (consumeBits 16 s))

theorem ignoresResult_decodeLiteralLength : IgnoresResult decodeLiteralLength := by
  refine IgnoresResult.andThen ?_ fun _ =>
    IgnoresResult.after (g := fun s => setBlockSize (decrementBlock s.cfg.blockCntBits s.tabs.blockSize) s)
      (fun _ _ => rfl) (ignoresResult_decodeSymbol _)
  refine IgnoresResult.ite (c := fun s => s.tabs.blockSize = 0#32) (fun _ _ => Iff.rfl) ?_ fun _ _ => rfl
  exact IgnoresResult.andThen ignoresResult_readBlockHeader fun _ _ _ => rfl

theorem ignoresResult_decodeDistance : IgnoresResult decodeDistance := by
  refine IgnoresResult.andThen (ignoresResult_decodeSymbol _) fun c => ?_
  refine IgnoresResult.ite (c := fun _ => c.toNat = 0) (fun _ _ => Iff.rfl) (fun _ _ => rfl) fun v s => ?_
  simp only [getBits]
  rw [setResult_consumeBits]
  rfl

theorem ignoresResult_copyOne : IgnoresResult copyOne := by
  refine IgnoresResult.andThen (k := fun s => winRead s.win.matchSrc s) ?_ fun b v s => rfl
  refine IgnoresResult.ite (c := fun s => writtenSinceInit s s.win.matchSrc.toNat = true) (fun _ _ => Iff.rfl)
    (fun _ _ => rfl) fun v s => ?_
  simp only [setResult_cfg]
  cases s.cfg.windowInit <;> rfl

theorem ignoresResult_produceByte : IgnoresResult produceByte := by
  refine IgnoresResult.ite (c := fun s => s.win.matchRem ≠ 0#9) (fun _ _ => Iff.rfl) ignoresResult_copyOne ?_
  refine IgnoresResult.andThen ignoresResult_decodeLiteralLength fun c => ?_
  refine IgnoresResult.ite (c := fun _ => c.toNat ≤ 255) (fun _ _ => Iff.rfl) (fun _ _ => rfl) ?_
  exact IgnoresResult.andThen ignoresResult_decodeDistance fun d =>
    IgnoresResult.after (g := startCopy (c.toNat - 253) d) (fun _ _ => rfl) ignoresResult_copyOne

/-- CHUNK_BODY neither reads nor writes RESULT. -/
theorem ignoresResult_chunkBody (n : Nat) : IgnoresResult (chunkBody n) := by
  induction n with
  | zero => intro v s; rfl
  | succ n ih => exact IgnoresResult.andThen ignoresResult_produceByte fun _ => ih

/-! ## The tables of a block stay ready -/

theorem decodeSymbol_tabs (id : TableId) (s : State) : (decodeSymbol id s).state.tabs = s.tabs := by
  rcases decodeSymbol_ends id s with ⟨c, -, h⟩ | ⟨c, -, h⟩ <;> rw [h] <;> simp

theorem decodeDistance_tabs (s : State) : (decodeDistance s).state.tabs = s.tabs := by
  refine Flow.andThen_state (P := fun t => t.tabs = s.tabs) (decodeSymbol_tabs _ s) fun c u _ hu => ?_
  dsimp only [getBits]
  split
  · exact hu
  · rw [Flow.state_ok, consumeBits_tabs]; exact hu

theorem copyOne_tabs (s : State) : (copyOne s).state.tabs = s.tabs := by
  rcases copyOne_ends s with ⟨b, u, hu, h⟩ | ⟨-, -, h⟩ <;> rw [h]
  · rcases hu with rfl | rfl <;> rfl
  · rfl

/-- A symbol that decodes leaves both tables built, if they were wherever a block was open (R310, R311). -/
theorem tablesReady_decodeLiteralLength {s u : State} {c : BitVec 10} (hr : s.TablesReady)
    (h : decodeLiteralLength s = .ok c u) : u.TablesReady := by
  unfold decodeLiteralLength at h
  rw [Flow.andThen_eq_ok] at h
  obtain ⟨_, w, hw, h⟩ := h
  have hb : w.tabs.cBuilt = true ∧ w.tabs.ptKind = .position := by
    by_cases h0 : s.tabs.blockSize = 0#32
    · rw [if_pos h0, Flow.andThen_eq_ok] at hw
      obtain ⟨v, x, hx, hw⟩ := hw
      simp only [Flow.ok.injEq, true_and] at hw
      subst hw
      exact readBlockHeader_ok_built hx
    · rw [if_neg h0] at hw
      simp only [Flow.ok.injEq, true_and] at hw
      subst hw
      exact hr h0
  have ht := decodeSymbol_tabs .cTable (setBlockSize (decrementBlock w.cfg.blockCntBits w.tabs.blockSize) w)
  rw [h, Flow.state_ok] at ht
  intro _
  rw [ht]
  exact hb

theorem tablesReady_produceByte {s u : State} (hr : s.TablesReady) (h : produceByte s = .ok () u) : u.TablesReady := by
  have congr : ∀ {a b : State}, b.tabs = a.tabs → a.TablesReady → b.TablesReady := by
    intro a b e ha hb
    rw [e] at hb ⊢
    exact ha hb
  unfold produceByte at h
  split at h
  · have ht := copyOne_tabs s
    rw [h, Flow.state_ok] at ht
    exact congr ht hr
  · rw [Flow.andThen_eq_ok] at h
    obtain ⟨c, v, hv, h⟩ := h
    have hrv := tablesReady_decodeLiteralLength hr hv
    split at h
    · simp only [Flow.ok.injEq, true_and] at h
      subst h
      exact congr (by simp) hrv
    · rw [Flow.andThen_eq_ok] at h
      obtain ⟨d, w, hw, h⟩ := h
      have h1 := decodeDistance_tabs v
      rw [hw, Flow.state_ok] at h1
      have h2 := copyOne_tabs (startCopy (c.toNat - 253) d w)
      rw [h, Flow.state_ok] at h2
      exact congr h2 (congr (by simp) (congr h1 hrv))

/-- A chunk that completes leaves the next one's tables ready. -/
theorem tablesReady_chunkBody (n : Nat) : ∀ {s u : State}, s.TablesReady → chunkBody n s = .ok () u → u.TablesReady := by
  induction n with
  | zero =>
    intro s u hr h
    simp only [chunkBody, Flow.ok.injEq, true_and] at h
    exact h ▸ hr
  | succ n ih =>
    intro s u hr h
    simp only [chunkBody] at h
    rw [Flow.andThen_eq_ok] at h
    obtain ⟨_, v, hv, h⟩ := h
    exact ih (tablesReady_produceByte hr hv) h

end Sys2Proof.Machine
end

