-- ==== Sys2Proof/Laws/Tree.lean ====
section
/-! SUPPORT. The code tree of a build (41_table_builder.md R254 to R256): canonical codes tile 0 .. 65535, no code is a prefix of
another, every long code leads through nodes of its own prefixes to its symbol, there are fewer nodes than symbols, and a build
of one side keeps the nodes of the other (10_state.md R50). -/

namespace Sys2Proof.Machine

theorem two_pow_split {a b c : Nat} (h : a = b + c) : 2 ^ a = 2 ^ b * 2 ^ c := by rw [h, Nat.pow_add]

theorem two_pow_succ {a b : Nat} (h : a = b + 1) : 2 ^ a = 2 * 2 ^ b := by rw [h, Nat.pow_succ']

/-- The i-th symbol of a length. -/
theorem codeCount_find (lens : List Nat) (L : Nat) : ∀ i, i < codeCount lens L →
    ∃ c, lens[c]? = some L ∧ codeCount (lens.take c) L = i := by
  induction lens with
  | nil => intro i h; simp [codeCount] at h
  | cons a l ih =>
    intro i h
    by_cases ha : a = L
    · subst ha
      cases i with
      | zero => exact ⟨0, rfl, rfl⟩
      | succ i =>
        simp only [codeCount, List.countP_cons, beq_self_eq_true, if_true] at h
        obtain ⟨c, h1, h2⟩ := ih i (by simp only [codeCount]; omega)
        exact ⟨c + 1, by simpa using h1, by simp only [codeCount, List.take_succ_cons, List.countP_cons] at h2 ⊢; simp [h2]⟩
    · simp only [codeCount, List.countP_cons, beq_iff_eq, ha, if_false] at h
      obtain ⟨c, h1, h2⟩ := ih i h
      exact ⟨c + 1, by simpa using h1, by simp only [codeCount, List.take_succ_cons, List.countP_cons] at h2 ⊢; simp [h2, ha]⟩

/-- The intervals of the canonical codes of a complete code tile 0 .. 65535. -/
theorem canonicalCode_covers {lens : List Nat} (hk : kraftSum lens = 65536) {x : Nat} (hx : x < 65536) :
    ∃ c L, lens[c]? = some L ∧ 1 ≤ L ∧ L ≤ 16 ∧ canonicalCode lens c L ≤ x ∧ x < canonicalCode lens c L + 2 ^ (16 - L) := by
  rw [kraftSum_eq_startCode] at hk
  have key : ∀ n, n ≤ 16 → x < startCode lens (n + 1) →
      ∃ L, 1 ≤ L ∧ L ≤ n ∧ startCode lens L ≤ x ∧ x < startCode lens (L + 1) := by
    intro n
    induction n with
    | zero => intro _ h; simp at h
    | succ n ih =>
      intro hn h
      by_cases hlt : x < startCode lens (n + 1)
      · obtain ⟨L, h1, h2, h3⟩ := ih (by omega) hlt
        exact ⟨L, h1, by omega, h3⟩
      · exact ⟨n + 1, by omega, by omega, by omega, h⟩
  obtain ⟨L, h1, h16, hs, he⟩ := key 16 (by omega) (by show x < startCode lens 17; omega)
  rw [startCode_succ lens L h1] at he
  have hpos := Nat.two_pow_pos (16 - L)
  obtain ⟨c, hc, hi⟩ := codeCount_find lens L ((x - startCode lens L) / 2 ^ (16 - L)) (by
    rw [Nat.div_lt_iff_lt_mul hpos]; omega)
  refine ⟨c, L, hc, h1, h16, ?_, ?_⟩ <;> simp only [canonicalCode, hi]
  · have := Nat.div_mul_le_self (x - startCode lens L) (2 ^ (16 - L)); omega
  · have := Nat.lt_div_mul_add hpos (a := x - startCode lens L); omega

/-- A code starts at a multiple of its own width. -/
theorem canonicalCode_dvd (lens : List Nat) (c : Nat) {M k : Nat} (h : M ≤ k) (hk : k ≤ 16) :
    2 ^ (16 - k) ∣ canonicalCode lens c M := by
  refine Nat.dvd_add (startCode_dvd lens (by omega) hk) ?_
  exact Nat.dvd_mul_left_of_dvd (Nat.pow_dvd_pow 2 (by omega)) _

theorem canonicalCode_lt {lens : List Nat} (hk : kraftSum lens = 65536) {c L : Nat} (hc : lens[c]? = some L)
    (h1 : 1 ≤ L) (h16 : L ≤ 16) : canonicalCode lens c L + 2 ^ (16 - L) ≤ 65536 := by
  have h2 := canonicalCode_end_le lens hc h1
  have h3 := startCode_mono lens (i := L + 1) (j := 17) (by omega)
  rw [kraftSum_eq_startCode] at hk
  omega

/-- No code is a prefix of another symbol's code. -/
theorem canonicalCode_prefixFree (lens : List Nat) {c d L M : Nat} (hc : lens[c]? = some M) (hd : lens[d]? = some L)
    (hM : 1 ≤ M) (hM16 : M ≤ 16) (hL : 1 ≤ L) (hne : c ≠ d) :
    canonicalCode lens c M / 2 ^ (16 - M) ≠ canonicalCode lens d L / 2 ^ (16 - M) := by
  intro e
  obtain ⟨q, hq⟩ := canonicalCode_dvd lens c (Nat.le_refl M) hM16
  have hpos := Nat.two_pow_pos (16 - M)
  have hpos' := Nat.two_pow_pos (16 - L)
  have hdis := canonicalCode_disjoint lens hc hd hM hL hne
  rw [hq, Nat.mul_div_cancel_left _ hpos] at e
  have h1 := Nat.div_mul_le_self (canonicalCode lens d L) (2 ^ (16 - M))
  have h2 := Nat.lt_div_mul_add hpos (a := canonicalCode lens d L)
  rw [← e, Nat.mul_comm] at h1 h2
  rw [hq] at hdis
  omega

/-! ## The direct table -/

/-- Step 4 (R254) leaves every direct entry that begins with a short symbol's code holding that symbol. -/
theorem placeSymbols_direct {tb : Nat} (htb : tb ≤ 16) (lens : List Nat) (h16 : ∀ L ∈ lens, L ≤ 16)
    (table left right : Entries 10) {ch len : Nat} (hch : lens[ch]? = some len) (hlen : 1 ≤ len) (hlt : len ≤ tb) {e : Nat}
    (he1 : canonicalCode lens ch len / 2 ^ (16 - tb) ≤ e)
    (he2 : e < canonicalCode lens ch len / 2 ^ (16 - tb) + 2 ^ (tb - len)) :
    readCell (placeSymbols tb lens 0 (buildStart tb lens table left right)).table e = some (BitVec.ofNat 10 ch) := by
  let P : Nat → Build → Prop := fun ch b => Placed tb lens ch b ∧
    ∀ c L, c < ch → lens[c]? = some L → 1 ≤ L → L ≤ tb → ∀ i, canonicalCode lens c L / 2 ^ (16 - tb) ≤ i →
      i < canonicalCode lens c L / 2 ^ (16 - tb) + 2 ^ (tb - L) → readCell b.table i = some (BitVec.ofNat 10 c)
  have key : P lens.length (placeSymbols tb lens 0 (buildStart tb lens table left right)) := ?_
  · exact key.2 ch len (by rw [List.getElem?_eq_some_iff] at hch; exact hch.1) hch hlen hlt e he1 he2
  refine placeSymbols_induction (P := P) ?_ ⟨Placed.init .., by intro c L h; omega⟩
  intro ch L b hL ⟨hp, hs⟩
  refine ⟨hp.step hL, ?_⟩
  have hw : ∀ M, M ≤ tb → 2 ^ (16 - M) = 2 ^ (tb - M) * 2 ^ (16 - tb) := by
    intro M hM
    rw [← Nat.pow_add]; congr 1; omega
  have hdvd : ∀ c M, M ≤ tb → 2 ^ (16 - tb) ∣ canonicalCode lens c M := by
    intro c M hM
    refine Nat.dvd_add (startCode_dvd lens (by omega) htb) ?_
    exact Nat.dvd_mul_left_of_dvd (Nat.pow_dvd_pow 2 (by omega)) _
  have hpos := Nat.two_pow_pos (16 - tb)
  intro c M hc hM h1 hMt i hi1 hi2
  have hL16 : L ≤ 16 := h16 L (List.mem_of_getElem? hL)
  unfold placeSymbol
  split
  · next h0 =>
    refine hs c M ?_ hM h1 hMt i hi1 hi2
    by_contra hcc
    have : c = ch := by omega
    subst this
    rw [hL] at hM; simp at hM; omega
  next h0 =>
  dsimp only
  rw [hp.start L (by omega) hL16]
  split
  · next hLt =>
    rw [← canonicalCode_div lens hLt htb, readCell_fillRange]
    have hcw : codeWeight tb L = 2 ^ (tb - L) := by simp [codeWeight, hLt, Nat.shiftLeft_eq]
    rw [hcw]
    by_cases hcc : c = ch
    · subst hcc
      rw [hL] at hM; simp at hM; subst hM
      rw [if_pos ⟨hi1, hi2⟩]
    · rw [if_neg]
      · exact hs c M (by omega) hM h1 hMt i hi1 hi2
      · rintro ⟨g1, g2⟩
        have hd := canonicalCode_disjoint lens hM hL h1 (by omega) hcc
        obtain ⟨x, hx⟩ := hdvd c M hMt
        obtain ⟨y, hy⟩ := hdvd ch L hLt
        rw [hx, hy, hw M hMt, hw L hLt] at hd
        rw [hx, Nat.mul_div_cancel_left _ hpos] at hi1 hi2
        rw [hy, Nat.mul_div_cancel_left _ hpos] at g1 g2
        rcases hd with hd | hd
        · rw [Nat.mul_comm (2 ^ (16-tb)) x, Nat.mul_comm (2 ^ (16-tb)) y, ← Nat.add_mul] at hd
          have := Nat.le_of_mul_le_mul_right hd hpos
          omega
        · rw [Nat.mul_comm (2 ^ (16-tb)) x, Nat.mul_comm (2 ^ (16-tb)) y, ← Nat.add_mul] at hd
          have := Nat.le_of_mul_le_mul_right hd hpos
          omega
  · next hLt =>
    rw [← canonicalCode_long lens (tb := tb) (by omega)]
    have hne : c ≠ ch := by rintro rfl; rw [hL] at hM; simp at hM; omega
    rw [treeInsert_table]
    · exact hs c M (by omega) hM h1 hMt i hi1 hi2
    · intro e
      have g1 := canonicalCode_end_le lens hM h1
      have g2 := startCode_mono lens (i := M + 1) (j := L) (by omega)
      have g3 : startCode lens L ≤ canonicalCode lens ch L := by simp [canonicalCode]
      obtain ⟨x, hx⟩ := hdvd c M hMt
      rw [hx, Nat.mul_div_cancel_left _ hpos] at hi2
      rw [hx, hw M hMt, Nat.mul_comm (2 ^ (16-tb)) x, ← Nat.add_mul] at g1
      have := Nat.div_le_div_right (c := 2 ^ (16 - tb)) (g1.trans (g2.trans g3))
      rw [Nat.mul_div_cancel _ hpos] at this
      omega

/-! ## The code tree -/

/-- The slot of the code prefix of `d` bits whose value is `p`, when `ns` lists the prefixes that have a node, oldest first: a
direct entry, or a child of the node of the prefix one bit shorter. -/
def SlotOf (tb nchar : Nat) (ns : List (Nat × Nat)) (d p : Nat) (sl : Slot) : Prop :=
  (d = tb ∧ sl = .table p) ∨
  (tb < d ∧ ∃ j, ns[j]? = some (d - 1, p / 2) ∧ sl = if p % 2 = 1 then .right (nchar + j) else .left (nchar + j))

theorem SlotOf.inj {tb nchar : Nat} {ns : List (Nat × Nat)} {d p d' p' : Nat} {sl : Slot}
    (h : SlotOf tb nchar ns d p sl) (h' : SlotOf tb nchar ns d' p' sl) : d = d' ∧ p = p' := by
  rcases h with ⟨rfl, h⟩ | ⟨hd, j, hj, h⟩ <;> rcases h' with ⟨rfl, h'⟩ | ⟨hd', j', hj', h'⟩ <;> subst h
  · simpa using h'
  · split at h' <;> simp at h'
  · split at h' <;> simp at h'
  · have hb : j = j' ∧ (p % 2 = 1 ↔ p' % 2 = 1) := by
      split at h' <;> split at h' <;> simp_all
    obtain ⟨rfl, hb⟩ := hb
    rw [hj] at hj'
    simp at hj'
    omega

theorem SlotOf.fun {tb nchar : Nat} {ns : List (Nat × Nat)} (hn : ns.Nodup) {d p : Nat} {sl sl' : Slot}
    (h : SlotOf tb nchar ns d p sl) (h' : SlotOf tb nchar ns d p sl') : sl = sl' := by
  rcases h with ⟨rfl, rfl⟩ | ⟨hd, j, hj, rfl⟩ <;> rcases h' with ⟨hd', rfl⟩ | ⟨hd', j', hj', rfl⟩
  · rfl
  · omega
  · omega
  · have : j = j' := by
      rw [List.getElem?_eq_some_iff] at hj hj'
      obtain ⟨h1, h2⟩ := hj
      obtain ⟨h3, h4⟩ := hj'
      exact (List.Nodup.getElem_inj_iff hn).1 (h2.trans h4.symm)
    rw [this]

/-- A slot of an older tree is a slot of the grown one. -/
theorem SlotOf.mono {tb nchar : Nat} {ns : List (Nat × Nat)} {x : Nat × Nat} {d p : Nat} {sl : Slot}
    (h : SlotOf tb nchar ns d p sl) : SlotOf tb nchar (ns ++ [x]) d p sl := by
  rcases h with h | ⟨hd, j, hj, h⟩
  · exact .inl h
  · refine .inr ⟨hd, j, ?_, h⟩
    rw [List.getElem?_append_left (by rw [List.getElem?_eq_some_iff] at hj; exact hj.1)]
    exact hj

/-- A slot of the grown tree is an old slot or a child of the new node. -/
theorem SlotOf.old_or_new {tb nchar : Nat} {ns : List (Nat × Nat)} {x : Nat × Nat} {d p : Nat} {sl : Slot}
    (h : SlotOf tb nchar (ns ++ [x]) d p sl) :
    SlotOf tb nchar ns d p sl ∨
      (tb < d ∧ x = (d - 1, p / 2) ∧ (sl = .left (nchar + ns.length) ∨ sl = .right (nchar + ns.length))) := by
  rcases h with h | ⟨hd, j, hj, h⟩
  · exact .inl (.inl h)
  · rcases Nat.lt_trichotomy j ns.length with hlt | rfl | hgt
    · rw [List.getElem?_append_left hlt] at hj
      exact .inl (.inr ⟨hd, j, hj, h⟩)
    · rw [List.getElem?_concat_length] at hj
      simp at hj
      refine .inr ⟨hd, hj, ?_⟩
      split at h <;> simp [h]
    · rw [List.getElem?_eq_none (by simp; omega)] at hj
      simp at hj

/-- An old slot is no child of a node that does not exist yet. -/
theorem SlotOf.ne_new {tb nchar : Nat} {ns : List (Nat × Nat)} {d p : Nat} {sl : Slot}
    (h : SlotOf tb nchar ns d p sl) : sl ≠ .left (nchar + ns.length) ∧ sl ≠ .right (nchar + ns.length) := by
  rcases h with ⟨-, rfl⟩ | ⟨hd, j, hj, rfl⟩
  · simp
  · have : j < ns.length := by rw [List.getElem?_eq_some_iff] at hj; exact hj.1
    constructor <;> split <;> simp <;> omega

/-- The first d bits of a left-justified 16-bit code. -/
def codePrefix (k d : Nat) : Nat := k / 2 ^ (16 - d)

theorem codePrefix_half (k : Nat) {d : Nat} (h : d + 1 ≤ 16) : codePrefix k (d + 1) / 2 = codePrefix k d := by
  unfold codePrefix
  rw [Nat.div_div_eq_div_mul, Nat.mul_comm, ← two_pow_succ (show 16 - d = 16 - (d + 1) + 1 by omega)]

/-- The tree of a build: its nodes are the prefixes `ns`, each a proper prefix of the code of a long symbol below `m`; the codes
of the long symbols below `ch` are in it. -/
structure CodeTree (tb : Nat) (lens : List Nat) (ch m : Nat) (ns : List (Nat × Nat)) (b : Build) : Prop where
  avail : b.avail = lens.length + ns.length
  nodup : ns.Nodup
  node : ∀ d p, (d, p) ∈ ns → tb ≤ d ∧ (tb < d → (d - 1, p / 2) ∈ ns) ∧
    ∃ c L, c < m ∧ lens[c]? = some L ∧ d < L ∧ codePrefix (canonicalCode lens c L) d = p
  path : ∀ c L d, c < ch → lens[c]? = some L → tb ≤ d → d < L → (d, codePrefix (canonicalCode lens c L) d) ∈ ns
  get_node : ∀ j d p sl, ns[j]? = some (d, p) → SlotOf tb lens.length ns d p sl →
    b.get sl = BitVec.ofNat 10 (lens.length + j)
  get_leaf : ∀ c L sl, c < ch → lens[c]? = some L → tb < L →
    SlotOf tb lens.length ns L (codePrefix (canonicalCode lens c L) L) sl → b.get sl = BitVec.ofNat 10 c
  get_empty : ∀ d p sl, SlotOf tb lens.length ns d p sl →
    (d = tb → startCode lens (tb + 1) / 2 ^ (16 - tb) ≤ p ∧ p < 2 ^ tb) → (d, p) ∉ ns →
    (∀ c L, c < ch → lens[c]? = some L → L = d → codePrefix (canonicalCode lens c L) d ≠ p) → b.get sl = 0#10

theorem Build.get_put (b : Build) (sl sl' : Slot) (x : BitVec 10) :
    (b.put sl x).get sl' = if sl = sl' then x else b.get sl' := by
  cases sl <;> cases sl' <;> simp [Build.put, Build.get]

theorem Build.get_alloc (b : Build) (sl sl' : Slot) :
    (b.alloc sl).get sl' = if sl = sl' then BitVec.ofNat 10 b.avail
      else if sl' = .left b.avail ∨ sl' = .right b.avail then 0#10 else b.get sl' := by
  let c : Build := { b with left := writeCell b.left b.avail 0, right := writeCell b.right b.avail 0 }
  have h : (b.alloc sl).get sl' = (c.put sl (BitVec.ofNat 10 b.avail)).get sl' := by cases sl' <;> rfl
  rw [h, Build.get_put]
  subst c
  split
  · rfl
  · cases sl' with
    | table i => simp [Build.get]
    | left i =>
      simp only [Build.get, entryAt_writeCell]
      by_cases e : i = b.avail
      · simp [e]
      · simp [e, Ne.symm e]
    | right i =>
      simp only [Build.get, entryAt_writeCell]
      by_cases e : i = b.avail
      · simp [e]
      · simp [e, Ne.symm e]

theorem mul_sandwich {u a t : Nat} (h1 : u * a ≤ u * t) (h2 : u * t < u * a + u) : a = t := by
  have hu : 0 < u := by omega
  have g1 := Nat.le_of_mul_le_mul_left h1 hu
  have g2 : u * t < u * (a + 1) := h2
  have := Nat.lt_of_mul_lt_mul_left g2
  omega

theorem mul_enclose {h a w p : Nat} (h1 : 2 * h * a ≤ 2 * h * p + h) (h2 : 2 * h * p + h < 2 * h * a + 2 * h * w) :
    2 * h * a ≤ 2 * h * p ∧ 2 * h * p + 2 * h ≤ 2 * h * a + 2 * h * w := by
  have hh : 0 < h := by
    rcases Nat.eq_zero_or_pos h with rfl | hp
    · simp at h2
    · exact hp
  have g1 : 2 * h * a < 2 * h * (p + 1) := by rw [Nat.mul_add]; omega
  have g2 : 2 * h * p < 2 * h * (a + w) := by rw [Nat.mul_add]; omega
  have k1 := Nat.lt_of_mul_lt_mul_left g1
  have k2 := Nat.lt_of_mul_lt_mul_left g2
  have m1 : 2 * h * a ≤ 2 * h * p := Nat.mul_le_mul_left _ (by omega)
  have m2 : 2 * h * (p + 1) ≤ 2 * h * (a + w) := Nat.mul_le_mul_left _ (by omega)
  rw [Nat.mul_add, Nat.mul_add] at m2
  omega

/-- The middle of the interval of a proper prefix of a code is the start of some symbol's code. -/
theorem canonicalCode_middle {lens : List Nat} (hk : kraftSum lens = 65536) {c0 L0 d : Nat} (hc0 : lens[c0]? = some L0)
    (hd : d < L0) (hL0 : L0 ≤ 16) :
    ∃ c L, lens[c]? = some L ∧ 1 ≤ L ∧
      canonicalCode lens c L = 2 * 2 ^ (15 - d) * codePrefix (canonicalCode lens c0 L0) d + 2 ^ (15 - d) := by
  have hend := canonicalCode_lt hk hc0 (by omega) hL0
  have e16 : 2 ^ (16 - d) = 2 * 2 ^ (15 - d) := two_pow_succ (by omega)
  have hlo := Nat.div_mul_le_self (canonicalCode lens c0 L0) (2 ^ (16 - d))
  have hhi := Nat.lt_div_mul_add (Nat.two_pow_pos (16 - d)) (a := canonicalCode lens c0 L0)
  have hpp : codePrefix (canonicalCode lens c0 L0) d = canonicalCode lens c0 L0 / 2 ^ (16 - d) := rfl
  have hpl := Nat.two_pow_pos (16 - L0)
  have hpd := Nat.two_pow_pos (15 - d)
  have hdd : 2 ^ (16 - d) * 2 ^ d = 65536 := by
    rw [← Nat.pow_add, Nat.sub_add_cancel (show d ≤ 16 by omega)]
  have hle : 2 ^ (16 - d) * (codePrefix (canonicalCode lens c0 L0) d + 1) ≤ 65536 := by
    rw [← hdd]
    refine Nat.mul_le_mul_left _ ?_
    refine Nat.lt_of_mul_lt_mul_left (a := 2 ^ (16 - d)) ?_
    rw [hdd, hpp, Nat.mul_comm]
    omega
  rw [← hpp] at hlo hhi
  rw [Nat.mul_comm] at hlo hhi
  rw [Nat.mul_add, Nat.mul_one] at hle
  generalize codePrefix (canonicalCode lens c0 L0) d = p at *
  rw [e16] at hlo hhi hle
  obtain ⟨c, L, hc, h1, hL, hge, hlt⟩ := canonicalCode_covers hk (x := 2 * 2 ^ (15 - d) * p + 2 ^ (15 - d)) (by omega)
  refine ⟨c, L, hc, h1, ?_⟩
  by_cases hLd : d < L
  · obtain ⟨a, ha⟩ := canonicalCode_dvd lens c (Nat.le_refl L) hL
    obtain ⟨e, he⟩ : 2 ^ (16 - L) ∣ 2 ^ (15 - d) := Nat.pow_dvd_pow 2 (by omega)
    have hme : 2 * 2 ^ (15 - d) * p + 2 ^ (15 - d) = 2 ^ (16 - L) * ((2 * p + 1) * e) := by rw [he]; ring
    rw [ha, hme] at hge hlt
    rw [ha, hme, mul_sandwich hge hlt]
  · exfalso
    have hne : c ≠ c0 := by
      rintro rfl
      rw [hc] at hc0
      simp at hc0
      omega
    have hdis := canonicalCode_disjoint lens hc hc0 h1 (by omega) hne
    obtain ⟨a, ha⟩ := canonicalCode_dvd lens c (M := L) (k := d) (by omega) (by omega)
    have hw : 2 ^ (16 - L) = 2 ^ (16 - d) * 2 ^ (d - L) := two_pow_split (by omega)
    rw [e16] at ha hw
    rw [ha] at hge
    rw [ha, hw] at hlt hdis
    have := mul_enclose hge hlt
    omega

/-- A middle tells its prefix. -/
theorem middle_inj {d p d' p' : Nat} (hd : d < 16) (hd' : d' < 16)
    (e : 2 * 2 ^ (15 - d) * p + 2 ^ (15 - d) = 2 * 2 ^ (15 - d') * p' + 2 ^ (15 - d')) : d = d' ∧ p = p' := by
  have key : ∀ {d p d' p' : Nat}, d < 16 → d' < 16 →
      2 * 2 ^ (15 - d) * p + 2 ^ (15 - d) = 2 * 2 ^ (15 - d') * p' + 2 ^ (15 - d') → ¬ d < d' := by
    intro d p d' p' h15 h15' e2 hlt
    have hw : 2 ^ (15 - d) = 2 ^ (15 - d') * (2 * 2 ^ (d' - d - 1)) := by
      rw [← two_pow_succ rfl]; exact two_pow_split (by omega)
    have hp := Nat.two_pow_pos (15 - d')
    rw [hw] at e2
    have e3 : 2 ^ (15 - d') * (2 * (2 * (2 ^ (d' - d - 1)) * p + 2 ^ (d' - d - 1))) = 2 ^ (15 - d') * (2 * p' + 1) := by
      linarith
    have := Nat.eq_of_mul_eq_mul_left hp e3
    omega
  have g1 := key hd hd' e
  have g2 := key hd' hd e.symm
  have : d = d' := by omega
  subst this
  have hp := Nat.two_pow_pos (15 - d)
  refine ⟨rfl, ?_⟩
  have e3 : 2 * 2 ^ (15 - d) * p = 2 * 2 ^ (15 - d) * p' := by omega
  exact Nat.eq_of_mul_eq_mul_left (by omega) e3

/-- A complete code has fewer nodes than symbols (R256). -/
theorem CodeTree.nodes_lt {tb : Nat} {lens : List Nat} {ch m : Nat} {ns : List (Nat × Nat)} {b : Build} (hk : kraftSum lens = 65536)
    (h16 : ∀ L ∈ lens, L ≤ 16) (h : CodeTree tb lens ch m ns b) : ns.length < lens.length := by
  have hmid : ∀ x : Nat × Nat, ∃ c, x ∈ ns → c < lens.length ∧ x.1 < 16 ∧ ∃ L, lens[c]? = some L ∧
      canonicalCode lens c L = 2 * 2 ^ (15 - x.1) * x.2 + 2 ^ (15 - x.1) := by
    rintro ⟨d, p⟩
    by_cases hx : (d, p) ∈ ns
    · obtain ⟨-, -, c0, L0, -, hc0, hd, rfl⟩ := h.node d p hx
      have hL0 : L0 ≤ 16 := h16 L0 (List.mem_of_getElem? hc0)
      obtain ⟨c, L, hc, -, e⟩ := canonicalCode_middle hk hc0 hd hL0
      exact ⟨c, fun _ => ⟨by rw [List.getElem?_eq_some_iff] at hc; exact hc.1, by show d < 16; omega, L, hc, e⟩⟩
    · exact ⟨0, fun hc => absurd hc hx⟩
  choose f hf using hmid
  obtain ⟨c0, L0, hc0, h1, hL0, hz, -⟩ := canonicalCode_covers hk (x := 0) (by omega)
  have hc0l : c0 < lens.length := by rw [List.getElem?_eq_some_iff] at hc0; exact hc0.1
  have hcard : ns.toFinset.card ≤ ((Finset.range lens.length).erase c0).card := by
    refine Finset.card_le_card_of_injOn f ?_ ?_
    · intro x hx
      rw [Finset.mem_coe, List.mem_toFinset] at hx
      obtain ⟨a, -, L, hL, e⟩ := hf x hx
      rw [Finset.mem_coe, Finset.mem_erase, Finset.mem_range]
      refine ⟨?_, a⟩
      intro ec
      rw [ec, hc0] at hL
      simp at hL
      subst hL
      rw [ec] at e
      have := Nat.two_pow_pos (15 - x.1)
      omega
    · rintro ⟨d, p⟩ hx ⟨d', p'⟩ hx' e
      rw [Finset.mem_coe, List.mem_toFinset] at hx hx'
      obtain ⟨-, h15, L, hL, e1⟩ := hf _ hx
      obtain ⟨-, h15', L', hL', e2⟩ := hf _ hx'
      rw [e, hL'] at hL
      simp at hL
      subst hL
      rw [e, e2] at e1
      obtain ⟨rfl, rfl⟩ := middle_inj h15 h15' e1.symm
      rfl
  rw [List.toFinset_card_of_nodup h.nodup, Finset.card_erase_of_mem (by simpa using hc0l), Finset.card_range] at hcard
  omega

/-- The prefixes of a long symbol's code lie in the long-code region of the direct table. -/
theorem codePrefix_region {tb : Nat} {lens : List Nat} (hk : kraftSum lens = 65536) (htb : tb ≤ 16) {c L : Nat}
    (hc : lens[c]? = some L) (h1 : tb < L) (h16 : L ≤ 16) :
    startCode lens (tb + 1) / 2 ^ (16 - tb) ≤ codePrefix (canonicalCode lens c L) tb ∧
      codePrefix (canonicalCode lens c L) tb < 2 ^ tb := by
  have hend := canonicalCode_lt hk hc (by omega) h16
  have h2 := startCode_mono lens (i := tb + 1) (j := L) (by omega)
  have h3 : startCode lens L ≤ canonicalCode lens c L := by simp [canonicalCode]
  refine ⟨Nat.div_le_div_right (by omega), ?_⟩
  unfold codePrefix
  rw [Nat.div_lt_iff_lt_mul (Nat.two_pow_pos _), ← Nat.pow_add, Nat.add_sub_cancel' htb]
  have := Nat.two_pow_pos (16 - L)
  omega

theorem codePrefix_ne {lens : List Nat} {c d L M : Nat} (hc : lens[c]? = some M) (hd : lens[d]? = some L)
    (hM : 1 ≤ M) (hM16 : M ≤ 16) (hL : 1 ≤ L) (hne : c ≠ d) :
    codePrefix (canonicalCode lens c M) M ≠ codePrefix (canonicalCode lens d L) M :=
  canonicalCode_prefixFree lens hc hd hM hM16 hL hne

/-- A new node's slot is the only one that changes, but for the node's own two children. -/
theorem SlotOf.get_alloc_old {tb : Nat} {lens : List Nat} {ns : List (Nat × Nat)} {b : Build} {d p d' p' : Nat} {sl sl' : Slot}
    (hav : b.avail = lens.length + ns.length) (hs : SlotOf tb lens.length ns d' p' sl')
    (hsl : SlotOf tb lens.length ns d p sl) (hne : (d', p') ≠ (d, p)) : (b.alloc sl).get sl' = b.get sl' := by
  rw [Build.get_alloc, hav, if_neg, if_neg (not_or.2 hs.ne_new)]
  rintro rfl
  obtain ⟨rfl, rfl⟩ := hs.inj hsl
  exact hne rfl

/-- An empty slot of a prefix that no earlier code ends at gets a node (R255). -/
theorem CodeTree.grow {tb : Nat} {lens : List Nat} {ch d p : Nat} {ns : List (Nat × Nat)} {b : Build} {sl : Slot}
    (h16 : ∀ L ∈ lens, L ≤ 16) (h : CodeTree tb lens ch (ch + 1) ns b) (hmem : (d, p) ∉ ns)
    (hnode : tb ≤ d ∧ (tb < d → (d - 1, p / 2) ∈ ns) ∧
      ∃ c L, c < ch + 1 ∧ lens[c]? = some L ∧ d < L ∧ codePrefix (canonicalCode lens c L) d = p)
    (hleaf : ∀ c M, c < ch → lens[c]? = some M → M = d → codePrefix (canonicalCode lens c M) d ≠ p)
    (hsl : SlotOf tb lens.length ns d p sl) : CodeTree tb lens ch (ch + 1) (ns ++ [(d, p)]) (b.alloc sl) := by
  have hav := h.avail
  refine ⟨?_, ?_, ?_, ?_, ?_, ?_, ?_⟩
  · rw [Build.alloc_avail, hav, List.length_append, List.length_singleton, Nat.add_assoc]
  · rw [List.nodup_append]
    refine ⟨h.nodup, List.nodup_singleton _, ?_⟩
    rintro x hx y hy rfl
    rw [List.mem_singleton] at hy
    exact hmem (hy ▸ hx)
  · intro d' p' hx
    rcases List.mem_append.1 hx with hx | hx
    · obtain ⟨g1, g2, g3⟩ := h.node d' p' hx
      exact ⟨g1, fun e => List.mem_append_left _ (g2 e), g3⟩
    · rw [List.mem_singleton, Prod.mk.injEq] at hx
      obtain ⟨rfl, rfl⟩ := hx
      exact ⟨hnode.1, fun e => List.mem_append_left _ (hnode.2.1 e), hnode.2.2⟩
  · intro c M e hc hM h1 h2
    exact List.mem_append_left _ (h.path c M e hc hM h1 h2)
  · intro j d' p' sl' hj hs
    rcases Nat.lt_trichotomy j ns.length with hlt | rfl | hgt
    · rw [List.getElem?_append_left hlt] at hj
      have hmem' : (d', p') ∈ ns := List.mem_of_getElem? hj
      have hold : SlotOf tb lens.length ns d' p' sl' := by
        rcases hs.old_or_new with ho | ⟨g1, g2, -⟩
        · exact ho
        · rw [g2] at hmem
          exact absurd ((h.node d' p' hmem').2.1 g1) hmem
      rw [hold.get_alloc_old hav hsl (fun e => hmem (e ▸ hmem'))]
      exact h.get_node j d' p' sl' hj hold
    · rw [List.getElem?_concat_length, Option.some.injEq, Prod.mk.injEq] at hj
      obtain ⟨rfl, rfl⟩ := hj
      rw [Build.get_alloc, if_pos, hav]
      rcases hs.old_or_new with ho | ⟨g1, g2, -⟩
      · exact hsl.fun h.nodup ho
      · rw [Prod.mk.injEq] at g2
        omega
    · rw [List.getElem?_eq_none (by rw [List.length_append, List.length_singleton]; omega)] at hj
      cases hj
  · intro c M sl' hc hM h1 hs
    have hold : SlotOf tb lens.length ns M (codePrefix (canonicalCode lens c M) M) sl' := by
      rcases hs.old_or_new with ho | ⟨g1, g2, -⟩
      · exact ho
      · have hM16 : M ≤ 16 := h16 M (List.mem_of_getElem? hM)
        have := h.path c M (M - 1) hc hM (by omega) (by omega)
        rw [← codePrefix_half _ (show M - 1 + 1 ≤ 16 by omega), Nat.sub_add_cancel (show 1 ≤ M by omega), ← g2] at this
        exact absurd this hmem
    rw [hold.get_alloc_old hav hsl]
    · exact h.get_leaf c M sl' hc hM h1 hold
    · intro e
      rw [Prod.mk.injEq] at e
      exact hleaf c M hc hM e.1 (by rw [← e.1]; exact e.2)
  · intro d' p' sl' hs hr hn hl
    rcases hs.old_or_new with ho | ⟨g1, g2, g3⟩
    · rw [ho.get_alloc_old hav hsl (fun e => hn (by rw [e]; exact List.mem_append_right _ (List.mem_singleton_self _)))]
      exact h.get_empty d' p' sl' ho hr (fun e => hn (List.mem_append_left _ e)) hl
    · rw [Build.get_alloc, if_neg, hav, if_pos g3]
      rintro rfl
      rcases g3 with g3 | g3
      · exact hsl.ne_new.1 g3
      · exact hsl.ne_new.2 g3

/-- One turn of TREE_INSERT's loop (R255): the node of the prefix reached is found, or allocated in an empty slot. -/
theorem CodeTree.visit {tb : Nat} {lens : List Nat} {ch L d : Nat} {ns : List (Nat × Nat)} {b : Build} {sl : Slot}
    (hk : kraftSum lens = 65536) (h16 : ∀ L ∈ lens, L ≤ 16) (hlen : lens.length ≤ 510) (h : CodeTree tb lens ch (ch + 1) ns b)
    (hL : lens[ch]? = some L) (htb1 : 1 ≤ tb) (htb : tb ≤ d) (hd : d < L)
    (hpre : ∀ e, tb ≤ e → e < d → (e, codePrefix (canonicalCode lens ch L) e) ∈ ns)
    (hsl : SlotOf tb lens.length ns d (codePrefix (canonicalCode lens ch L) d) sl) :
    ∃ ns' j, CodeTree tb lens ch (ch + 1) ns' (if b.get sl = 0#10 then b.alloc sl else b) ∧ (∀ x ∈ ns, x ∈ ns') ∧
      ns'[j]? = some (d, codePrefix (canonicalCode lens ch L) d) ∧
      ((if b.get sl = 0#10 then b.alloc sl else b).get sl).toNat = lens.length + j := by
  have hL16 : L ≤ 16 := h16 L (List.mem_of_getElem? hL)
  have hbound := h.nodes_lt hk h16
  -- the prefix reached is no earlier symbol's code
  have hleaf : ∀ c M, c < ch → lens[c]? = some M → M = d →
      codePrefix (canonicalCode lens c M) d ≠ codePrefix (canonicalCode lens ch L) d := by
    rintro c M hc hM rfl
    exact codePrefix_ne hM hL (by omega) (by omega) (by omega) (by omega)
  by_cases hmem : (d, codePrefix (canonicalCode lens ch L) d) ∈ ns
  · obtain ⟨j, hj, hjp⟩ := List.mem_iff_getElem.1 hmem
    have hjs : ns[j]? = some (d, codePrefix (canonicalCode lens ch L) d) := by rw [List.getElem?_eq_getElem hj, hjp]
    have hg := h.get_node j d _ sl hjs hsl
    have hv : (b.get sl).toNat = lens.length + j := by
      rw [hg, BitVec.toNat_ofNat]
      exact Nat.mod_eq_of_lt (by omega)
    have hne : b.get sl ≠ 0#10 := by
      intro e
      rw [e] at hv
      simp only [BitVec.toNat_ofNat] at hv
      omega
    rw [if_neg hne]
    exact ⟨ns, j, h, fun _ hx => hx, hjs, hv⟩
  · have hg : b.get sl = 0#10 := by
      refine h.get_empty d _ sl hsl ?_ hmem hleaf
      rintro rfl
      exact codePrefix_region hk (by omega) hL hd hL16
    rw [if_pos hg]
    refine ⟨ns ++ [(d, codePrefix (canonicalCode lens ch L) d)], ns.length,
      h.grow h16 hmem ⟨htb, fun e => ?_, ch, L, by omega, hL, hd, rfl⟩ hleaf hsl,
      fun x hx => List.mem_append_left _ hx, List.getElem?_concat_length .., ?_⟩
    · have := hpre (d - 1) (by omega) (by omega)
      rw [← codePrefix_half _ (show d - 1 + 1 ≤ 16 by omega), Nat.sub_add_cancel (show 1 ≤ d by omega)] at this
      exact this
    · rw [Build.get_alloc, if_pos rfl, BitVec.toNat_ofNat, h.avail]
      exact Nat.mod_eq_of_lt (by omega)

/-- LEFT and RIGHT of `b` hold what those of `o` hold at every index that is no node of `b`. -/
def Outside (nchar : Nat) (o b : Build) : Prop :=
  ∀ k, k < nchar ∨ b.avail ≤ k → readCell b.left k = readCell o.left k ∧ readCell b.right k = readCell o.right k

theorem Outside.put {tb nchar d p : Nat} {ns : List (Nat × Nat)} {o b : Build} {sl : Slot} (h : Outside nchar o b)
    (hav : b.avail = nchar + ns.length) (hsl : SlotOf tb nchar ns d p sl) (x : BitVec 10) : Outside nchar o (b.put sl x) := by
  intro k hk
  rw [Build.put_avail] at hk
  obtain ⟨h1, h2⟩ := h k hk
  rcases hsl with ⟨-, rfl⟩ | ⟨-, j, hj, rfl⟩
  · exact ⟨h1, h2⟩
  · rw [List.getElem?_eq_some_iff] at hj
    obtain ⟨hj, -⟩ := hj
    have hne : nchar + j ≠ k := by omega
    split <;> simp [Build.put, hne, h1, h2]

theorem Outside.alloc {tb nchar d p : Nat} {ns : List (Nat × Nat)} {o b : Build} {sl : Slot} (h : Outside nchar o b)
    (hav : b.avail = nchar + ns.length) (hsl : SlotOf tb nchar ns d p sl) : Outside nchar o (b.alloc sl) := by
  intro k hk
  rw [Build.alloc_avail] at hk
  obtain ⟨h1, h2⟩ := h k (by omega)
  have hne' : b.avail ≠ k := by omega
  rcases hsl with ⟨-, rfl⟩ | ⟨-, j, hj, rfl⟩
  · simp [Build.alloc, Build.put, hne', h1, h2]
  · rw [List.getElem?_eq_some_iff] at hj
    obtain ⟨hj, -⟩ := hj
    have hne : nchar + j ≠ k := by omega
    split <;> simp [Build.alloc, Build.put, hne, hne', h1, h2]

/-- The loop of TREE_INSERT (R255) ends at the slot of the whole code, every shorter prefix being a node, and writes no entry
outside the nodes. -/
theorem CodeTree.path_end {tb : Nat} {lens : List Nat} {ch L : Nat}
    (hk : kraftSum lens = 65536) (h16 : ∀ L ∈ lens, L ≤ 16) (hlen : lens.length ≤ 510)
    (hL : lens[ch]? = some L) (htb1 : 1 ≤ tb) :
    ∀ (fuel d : Nat) (sl : Slot) (b : Build) (ns : List (Nat × Nat)), d + fuel = L → tb ≤ d →
      CodeTree tb lens ch (ch + 1) ns b →
      (∀ e, tb ≤ e → e < d → (e, codePrefix (canonicalCode lens ch L) e) ∈ ns) →
      SlotOf tb lens.length ns d (codePrefix (canonicalCode lens ch L) d) sl →
      ∃ ns', CodeTree tb lens ch (ch + 1) ns' (treePath (canonicalCode lens ch L) (16 - L) fuel sl b).2 ∧
        (∀ e, tb ≤ e → e < L → (e, codePrefix (canonicalCode lens ch L) e) ∈ ns') ∧
        SlotOf tb lens.length ns' L (codePrefix (canonicalCode lens ch L) L)
          (treePath (canonicalCode lens ch L) (16 - L) fuel sl b).1 ∧
        ∀ o, Outside lens.length o b →
          Outside lens.length o (treePath (canonicalCode lens ch L) (16 - L) fuel sl b).2 := by
  have hL16 : L ≤ 16 := h16 L (List.mem_of_getElem? hL)
  intro fuel
  induction fuel with
  | zero =>
    intro d sl b ns hd _ h hpre hsl
    obtain rfl : d = L := by omega
    exact ⟨ns, h, hpre, hsl, fun _ ho => ho⟩
  | succ fuel ih =>
    intro d sl b ns hd htb h hpre hsl
    obtain ⟨ns', j, h', hsub, hj, hv⟩ := h.visit hk h16 hlen hL htb1 htb (by omega) hpre hsl
    refine Exists.imp (fun ns'' hr => ⟨hr.1, hr.2.1, hr.2.2.1, fun o ho => hr.2.2.2 o ?_⟩)
      (ih (d + 1) _ _ ns' (by omega) (by omega) h' ?_ ?_)
    · intro e h1 h2
      by_cases he : e = d
      · rw [he]
        exact List.mem_of_getElem? hj
      · exact hsub _ (hpre e h1 (by omega))
    · refine .inr ⟨by omega, j, ?_, ?_⟩
      · rw [codePrefix_half _ (by omega)]
        exact hj
      · rw [hv]
        have hbit : (canonicalCode lens ch L).testBit (fuel + (16 - L)) = true ↔ codePrefix (canonicalCode lens ch L) (d + 1) % 2 = 1 := by
          rw [Nat.testBit_eq_decide_div_mod_eq, decide_eq_true_eq, codePrefix, show fuel + (16 - L) = 16 - (d + 1) by omega]
        by_cases hb : codePrefix (canonicalCode lens ch L) (d + 1) % 2 = 1
        · rw [if_pos hb, if_pos (hbit.2 hb)]
        · rw [if_neg hb, if_neg (fun e => hb (hbit.1 e))]
    · split
      · exact ho.alloc h.avail hsl
      · exact ho

/-- A tree does not depend on the short codes' part of the direct table. -/
theorem CodeTree.congr {tb : Nat} {lens : List Nat} {ch m : Nat} {ns : List (Nat × Nat)} {b b' : Build}
    (hk : kraftSum lens = 65536) (h16 : ∀ L ∈ lens, L ≤ 16) (htb : tb ≤ 16)
    (h : CodeTree tb lens ch m ns b) (ha : b'.avail = b.avail)
    (hg : ∀ sl, (∀ i, sl = .table i → startCode lens (tb + 1) / 2 ^ (16 - tb) ≤ i ∧ i < 2 ^ tb) → b'.get sl = b.get sl) :
    CodeTree tb lens ch m ns b' := by
  have hslot : ∀ {d p sl}, SlotOf tb lens.length ns d p sl →
      (d = tb → startCode lens (tb + 1) / 2 ^ (16 - tb) ≤ p ∧ p < 2 ^ tb) → b'.get sl = b.get sl := by
    intro d p sl hs hr
    refine hg sl fun i hi => ?_
    rcases hs with ⟨hd, rfl⟩ | ⟨-, j, -, rfl⟩
    · cases hi
      exact hr hd
    · split at hi <;> cases hi
  refine ⟨ha.trans h.avail, h.nodup, h.node, h.path, ?_, ?_, ?_⟩
  · intro j d p sl hj hs
    rw [hslot hs]
    · exact h.get_node j d p sl hj hs
    · rintro rfl
      obtain ⟨-, -, c, L, -, hc, hL, rfl⟩ := h.node d p (List.mem_of_getElem? hj)
      exact codePrefix_region hk htb hc hL (h16 L (List.mem_of_getElem? hc))
  · intro c L sl hc hL h1 hs
    rw [hslot hs (fun e => by omega)]
    exact h.get_leaf c L sl hc hL h1 hs
  · intro d p sl hs hr hn hl
    rw [hslot hs hr]
    exact h.get_empty d p sl hs hr hn hl

/-- A symbol without a long code leaves the tree as it is. -/
theorem CodeTree.skip {tb : Nat} {lens : List Nat} {ch L : Nat} {ns : List (Nat × Nat)} {b : Build} (h : CodeTree tb lens ch ch ns b)
    (hL : lens[ch]? = some L) (hlt : L ≤ tb) : CodeTree tb lens (ch + 1) (ch + 1) ns b := by
  have hlong : ∀ c M, c < ch + 1 → lens[c]? = some M → tb < M → c < ch := by
    intro c M hc hM h1
    by_contra hcc
    obtain rfl : c = ch := by omega
    rw [hL, Option.some.injEq] at hM
    omega
  refine ⟨h.avail, h.nodup, ?_, ?_, h.get_node, ?_, ?_⟩
  · intro d p hx
    obtain ⟨g1, g2, c, M, hc, g3⟩ := h.node d p hx
    exact ⟨g1, g2, c, M, by omega, g3⟩
  · intro c M d hc hM h1 h2
    exact h.path c M d (hlong c M hc hM (by omega)) hM h1 h2
  · intro c M sl hc hM h1 hs
    exact h.get_leaf c M sl (hlong c M hc hM h1) hM h1 hs
  · intro d p sl hs hr hn hl
    exact h.get_empty d p sl hs hr hn (fun c M hc => hl c M (by omega))

/-- TREE_INSERT (R255) puts a long symbol into the tree and writes no entry outside the nodes. -/
theorem CodeTree.insert {tb : Nat} {lens : List Nat} {ch L : Nat} {ns : List (Nat × Nat)} {b : Build}
    (hk : kraftSum lens = 65536) (h16 : ∀ L ∈ lens, L ≤ 16) (hlen : lens.length ≤ 510) (htb1 : 1 ≤ tb)
    (h : CodeTree tb lens ch ch ns b) (hL : lens[ch]? = some L) (hlt : tb < L) :
    (∃ ns', CodeTree tb lens (ch + 1) (ch + 1) ns' (treeInsert tb ch L (canonicalCode lens ch L) b)) ∧
      ∀ o, Outside lens.length o b → Outside lens.length o (treeInsert tb ch L (canonicalCode lens ch L) b) := by
  have hL16 : L ≤ 16 := h16 L (List.mem_of_getElem? hL)
  have h' : CodeTree tb lens ch (ch + 1) ns b := by
    refine ⟨h.avail, h.nodup, ?_, h.path, h.get_node, h.get_leaf, h.get_empty⟩
    intro d p hx
    obtain ⟨g1, g2, c, M, hc, g3⟩ := h.node d p hx
    exact ⟨g1, g2, c, M, by omega, g3⟩
  obtain ⟨ns', t, hpath, hsl, hout⟩ := CodeTree.path_end hk h16 hlen hL htb1 (L - tb) tb
    (.table (canonicalCode lens ch L >>> (16 - tb))) b ns (by omega) (Nat.le_refl _) h' (fun e h1 h2 => by omega)
    (.inl ⟨rfl, by rw [Nat.shiftRight_eq_div_pow, codePrefix]⟩)
  unfold treeInsert
  dsimp only
  generalize treePath (canonicalCode lens ch L) (16 - L) (L - tb) (.table (canonicalCode lens ch L >>> (16 - tb))) b = r at t hsl hout
  refine ⟨⟨ns', ?_⟩, fun o ho => (hout o ho).put t.avail hsl _⟩
  -- the end of the code is no node and no other symbol's code
  have hend : (L, codePrefix (canonicalCode lens ch L) L) ∉ ns' := by
    intro hx
    obtain ⟨-, -, c, M, hc, hM, hd, e⟩ := t.node _ _ hx
    have hne : c ≠ ch := by
      rintro rfl
      rw [hL, Option.some.injEq] at hM
      omega
    exact codePrefix_ne hL hM (by omega) hL16 (by omega) (Ne.symm hne) e.symm
  have hother : ∀ {d p sl}, SlotOf tb lens.length ns' d p sl → (d, p) ≠ (L, codePrefix (canonicalCode lens ch L) L) →
      (r.2.put r.1 (BitVec.ofNat 10 ch)).get sl = r.2.get sl := by
    intro d p sl hs hne
    rw [Build.get_put, if_neg]
    rintro rfl
    obtain ⟨rfl, rfl⟩ := hs.inj hsl
    exact hne rfl
  refine ⟨by rw [Build.put_avail]; exact t.avail, t.nodup, t.node, ?_, ?_, ?_, ?_⟩
  · intro c M d hc hM h1 h2
    by_cases hcc : c = ch
    · subst hcc
      rw [hL, Option.some.injEq] at hM
      subst hM
      exact hpath d h1 h2
    · exact t.path c M d (by omega) hM h1 h2
  · intro j d p sl hj hs
    rw [hother hs (fun e => hend (e ▸ List.mem_of_getElem? hj))]
    exact t.get_node j d p sl hj hs
  · intro c M sl hc hM h1 hs
    by_cases hcc : c = ch
    · subst hcc
      rw [hL, Option.some.injEq] at hM
      subst hM
      rw [Build.get_put, if_pos (hsl.fun t.nodup hs)]
    · rw [hother hs]
      · exact t.get_leaf c M sl (by omega) hM h1 hs
      · intro e
        rw [Prod.mk.injEq] at e
        obtain ⟨rfl, e⟩ := e
        exact codePrefix_ne hM hL (by omega) hL16 (by omega) hcc e
  · intro d p sl hs hr hn hl
    rw [hother hs]
    · exact t.get_empty d p sl hs hr hn (fun c M hc => hl c M (by omega))
    · intro e
      rw [Prod.mk.injEq] at e
      obtain ⟨rfl, rfl⟩ := e
      exact hl ch d (by omega) hL rfl rfl

/-- Step 4 (R254, R255) builds the tree of all long codes and writes no entry of LEFT or RIGHT outside its nodes. -/
theorem placeSymbols_tree {tb : Nat} {lens : List Nat} (hk : kraftSum lens = 65536) (h16 : ∀ L ∈ lens, L ≤ 16)
    (hlen : lens.length ≤ 510) (htb1 : 1 ≤ tb) (htb : tb ≤ 16) (table left right : Entries 10) :
    (∃ ns, CodeTree tb lens lens.length lens.length ns (placeSymbols tb lens 0 (buildStart tb lens table left right))) ∧
      Outside lens.length (buildStart tb lens table left right)
        (placeSymbols tb lens 0 (buildStart tb lens table left right)) := by
  have hz : unitStart tb lens (tb + 1) >>> (16 - tb) = startCode lens (tb + 1) / 2 ^ (16 - tb) := by
    have : ¬ tb + 1 ≤ tb := by omega
    simp [unitStart, this, Nat.shiftRight_eq_div_pow]
  refine (placeSymbols_induction (P := fun ch b => Placed tb lens ch b ∧ (∃ ns, CodeTree tb lens ch ch ns b) ∧
      Outside lens.length (buildStart tb lens table left right) b) ?_ ?_).2
  · intro ch L b hL ⟨hp, ⟨ns, t⟩, ho⟩
    have hL16 : L ≤ 16 := h16 L (List.mem_of_getElem? hL)
    refine ⟨hp.step hL, ?_⟩
    unfold placeSymbol
    split
    · exact ⟨⟨ns, t.skip hL (by omega)⟩, ho⟩
    next h0 =>
    dsimp only
    rw [hp.start L (by omega) hL16]
    split
    · next hLt =>
      refine ⟨⟨ns, CodeTree.congr hk h16 htb (t.skip hL hLt) rfl ?_⟩, ho⟩
      intro sl hsl
      cases sl with
      | left i => rfl
      | right i => rfl
      | table i =>
        obtain ⟨hi, -⟩ := hsl i rfl
        simp only [Build.get, entryAt_fillRange]
        rw [if_neg]
        rintro ⟨-, hlt⟩
        have g1 := codeCount_take_succ lens hL L
        have g2 := codeCount_take_le lens (ch + 1) L
        rw [if_pos rfl] at g1
        have g3 := unitStart_succ lens (by omega) hLt htb
        have g4 : (codeCount (lens.take ch) L + 1) * codeWeight tb L ≤ codeCount lens L * codeWeight tb L :=
          Nat.mul_le_mul_right _ (by omega)
        rw [Nat.add_mul] at g4
        have g5 := Nat.div_le_div_right (c := 2 ^ (16 - tb)) (startCode_mono lens (i := L + 1) (j := tb + 1) (by omega))
        omega
    · next hLt =>
      rw [← canonicalCode_long lens (tb := tb) (by omega)]
      obtain ⟨⟨ns', t'⟩, ho'⟩ := t.insert hk h16 hlen htb1 hL (by omega)
      exact ⟨⟨ns', CodeTree.congr hk h16 htb t' rfl (fun sl _ => by cases sl <;> rfl)⟩, ho' _ ho⟩
  · refine ⟨Placed.init .., ⟨[], ?_⟩, fun _ _ => ⟨rfl, rfl⟩⟩
    refine ⟨rfl, List.nodup_nil, ?_, ?_, ?_, ?_, ?_⟩
    · intro d p hx
      cases hx
    · intro c L d hc
      omega
    · intro j d p sl hj
      cases hj
    · intro c L sl hc
      omega
    · intro d p sl hs hr _ _
      rcases hs with ⟨hd, rfl⟩ | ⟨-, j, hj, -⟩
      · simp only [Build.get, buildStart, hz, entryAt_fillRange]
        rw [if_pos (hr hd)]
        rfl
      · cases hj

/-- R256: a build's node counter ends at most at 2 · nchar − 1. -/
theorem placeSymbols_avail_lt {tb : Nat} {lens : List Nat} (hk : kraftSum lens = 65536) (h16 : ∀ L ∈ lens, L ≤ 16)
    (hlen : lens.length ≤ 510) (htb1 : 1 ≤ tb) (htb : tb ≤ 16) (table left right : Entries 10) :
    (placeSymbols tb lens 0 (buildStart tb lens table left right)).avail < 2 * lens.length := by
  obtain ⟨⟨ns, t⟩, -⟩ := placeSymbols_tree hk h16 hlen htb1 htb table left right
  have := t.nodes_lt hk h16
  rw [t.avail]
  omega

/-! ## One side's build and the other side's nodes (10_state.md R50) -/

/-- The instance's build writes LEFT and RIGHT at its own nodes only. -/
theorem builtFrom_outside (id : TableId) (s : State) (hk : kraftSum (buildLens id s) = 65536)
    (h16 : ∀ L ∈ buildLens id s, L ≤ 16) {k : Nat} (h : k < id.nchar ∨ (builtFrom id s).avail ≤ k) :
    readCell (builtFrom id s).left k = readCell s.tabs.left k ∧ readCell (builtFrom id s).right k = readCell s.tabs.right k := by
  have hlen : (buildLens id s).length = id.nchar := by simp [buildLens]
  have hn := nchar_le id
  refine (placeSymbols_tree hk h16 (by omega) (by cases id <;> decide) (by cases id <;> decide) (tableOf id s) s.tabs.left
    s.tabs.right).2 k ?_
  rw [hlen]
  exact h

theorem builtFrom_avail_lt (id : TableId) (s : State) (hk : kraftSum (buildLens id s) = 65536)
    (h16 : ∀ L ∈ buildLens id s, L ≤ 16) : (builtFrom id s).avail < 2 * id.nchar := by
  have hlen : (buildLens id s).length = id.nchar := by simp [buildLens]
  have hn := nchar_le id
  have := placeSymbols_avail_lt (tb := id.tb) hk h16 (by omega) (by cases id <;> decide) (by cases id <;> decide)
    (tableOf id s) s.tabs.left s.tabs.right
  rw [hlen] at this
  exact this

theorem buildLens_le {id : TableId} {s : State} (h : ∀ i, (lenAt (lensOf id s) i).toNat ≤ 16) :
    ∀ L ∈ buildLens id s, L ≤ 16 := by
  intro L hL
  simp only [buildLens, lensUpTo, List.mem_map] at hL
  obtain ⟨i, -, rfl⟩ := hL
  exact h i

/-- Code lengths are at most 16, and the nodes at the indexes `S` stand as in `o`. -/
def KeepsNodes (S : Nat → Prop) (lens : State → Entries 5) (o s : State) : Prop :=
  (∀ i, (lenAt (lens s) i).toNat ≤ 16) ∧
  ∀ k, S k → readCell s.tabs.left k = readCell o.tabs.left k ∧ readCell s.tabs.right k = readCell o.tabs.right k

theorem keepsNodes_pt (o : State) : PtClosed (KeepsNodes (510 ≤ ·) (fun s => s.tabs.ptLen) o) := by
  refine ⟨?_, ?_, ?_, ?_, ?_, ?_⟩
  · intro n s h; simpa [KeepsNodes] using h
  · intro id s _ h; cases id <;> exact h
  · intro id s hid hk h
    have hl : ∀ i, (lenAt (lensOf id s) i).toNat ≤ 16 := by
      cases id <;> first | exact h.1 | exact absurd rfl hid
    have h16 := buildLens_le hl
    have hav := builtFrom_avail_lt id s hk h16
    have hn : id.nchar ≤ 19 := by cases id <;> simp [TableId.nchar] at hid ⊢
    have key : ∀ k, 510 ≤ k → readCell (builtFrom id s).left k = readCell o.tabs.left k ∧
        readCell (builtFrom id s).right k = readCell o.tabs.right k := by
      intro k hk'
      obtain ⟨h1, h2⟩ := builtFrom_outside id s hk h16 (k := k) (.inr (by omega))
      obtain ⟨h3, h4⟩ := h.2 k hk'
      exact ⟨h1.trans h3, h2.trans h4⟩
    generalize builtFrom id s = bb at key
    cases id <;> first | exact absurd rfl hid | exact ⟨h.1, key⟩
  · intro i c s hc h
    refine ⟨fun j => ?_, h.2⟩
    simp only [setPtLen, lenAt_setLenAt]
    split
    · rw [BitVec.toNat_ofNat]; omega
    · exact h.1 j
  · intro lo hi s h
    refine ⟨fun j => ?_, h.2⟩
    simp only [zeroPtLens, lenAt_zeroLens]
    split
    · simp
    · exact h.1 j
  · intro p s _ h
    refine ⟨fun j => ?_, ?_⟩
    · simp only [singlePt, getBits, zeroPtLens, lenAt_zeroLens, consumeBits_tabs]
      split
      · simp
      · exact h.1 j
    · simpa [singlePt, getBits, zeroPtLens] using h.2

theorem keepsNodes_c (o : State) : CClosed (KeepsNodes (· < 510) (fun s => s.tabs.cLen) o) := by
  refine ⟨?_, ?_, ?_, ?_, ?_, ?_⟩
  · intro n s h; simpa [KeepsNodes] using h
  · intro s h; exact h
  · intro s hk h
    have key : ∀ k, k < 510 → readCell (builtFrom .cTable s).left k = readCell o.tabs.left k ∧
        readCell (builtFrom .cTable s).right k = readCell o.tabs.right k := by
      intro k hk'
      obtain ⟨h1, h2⟩ := builtFrom_outside .cTable s hk (buildLens_le h.1) (k := k) (.inl hk')
      obtain ⟨h3, h4⟩ := h.2 k hk'
      exact ⟨h1.trans h3, h2.trans h4⟩
    generalize builtFrom .cTable s = bb at key
    exact ⟨h.1, key⟩
  · intro i c s hc h
    refine ⟨fun j => ?_, h.2⟩
    simp only [setCLen, lenAt_setLenAt]
    split
    · rw [BitVec.toNat_ofNat]; omega
    · exact h.1 j
  · intro lo hi s h
    refine ⟨fun j => ?_, h.2⟩
    simp only [zeroCLens, lenAt_zeroLens]
    split
    · simp
    · exact h.1 j
  · intro s h
    refine ⟨fun j => ?_, ?_⟩
    · simp only [singleC, getBits, zeroCLens, lenAt_zeroLens, consumeBits_tabs]
      split
      · simp
      · exact h.1 j
    · simpa [singleC, getBits, zeroCLens] using h.2

/-- A PT list read keeps the C side's nodes. -/
theorem readPtLen_keeps_c_nodes {p : PtList} (hp : p = metaList ∨ p = positionList) {s : State}
    (h : ∀ i, (lenAt s.tabs.ptLen i).toNat ≤ 16) : KeepsNodes (510 ≤ ·) (fun s => s.tabs.ptLen) s (readPtLen p s).state :=
  (keepsNodes_pt s).readPtLen hp ⟨h, fun _ _ => ⟨rfl, rfl⟩⟩

/-- A C list read keeps the PT side's nodes. -/
theorem readCLen_keeps_pt_nodes {s : State} (h : ∀ i, (lenAt s.tabs.cLen i).toNat ≤ 16) :
    KeepsNodes (· < 510) (fun s => s.tabs.cLen) s (readCLen s).state :=
  (keepsNodes_c s).readCLen ⟨h, fun _ _ => ⟨rfl, rfl⟩⟩

end Sys2Proof.Machine
end

