-- ==== Sys2Proof/Tests/Slice0.lean ====
section
/-! SUPPORT. Tests: operand ranges of the syntax, decoding of written-out words, one step of every command with results from
95_test_vectors.md or worked out by hand from the rules, and a witness for the hypotheses of every statement. -/

namespace Sys2Proof.Tests

open Sys2Proof Sys2Proof.Machine

-- one test at a time: each kernel evaluation waits for every declaration before it
set_option Elab.async false

/-! ## Small states -/

/-- READY, nothing produced, all stream bits zero (IN_LEN = 0). -/
def ready : State := { State.reset with status := { State.reset.status with ready := true } }
/-- READY after a failure. -/
def failed : State := { ready with status := { ready.status with fail := true, failCause := 0x01#8 } }
/-- READY with the next 16 stream bits given, zeros after. -/
def seeing (buf : BitVec 16) : State := { ready with bits := { ready.bits with bitbuf := buf } }
/-- READY with room for `n` output bytes. -/
def room (n : Word) : State := { ready with lat := { inLen := 0, outLen := n, outCap := n } }
/-- 'A' produced, `n` bytes declared, a match of `rem` bytes pending from `src`. -/
def pending (n : Word) (src : BitVec 13) (rem : BitVec 9) : State :=
  { room n with
    outMem := [(0, 0x41#8)]
    win := { window := [(0, 0x41#8)], pos := 1, produced := 1, matchSrc := src, matchRem := rem } }
/-- Three bytes A5 3C FF in IN, IN_LEN = 3 (95_test_vectors.md 2.1), before INIT. -/
def loaded : State :=
  { State.reset with
    inMem := [(0, 0xA5#8), (1, 0x3C#8), (2, 0xFF#8)]
    regs := { State.reset.regs with inLen := 3 }
    cfg := { State.reset.cfg with stageCap := 2 } }
/-- The state a command leaves. -/
def after (i : Instr) (s : State) : State :=
  match exec i s with
  | .next t => t
  | _ => s
/-- `loaded` after INIT. -/
def started : State := after .init loaded
/-- READY with PT_LEN = [1, 1, 0, …]. -/
def ptPair : State := { ready with tabs := { ready.tabs with ptLen := [(0, 1#5), (1, 1#5)] } }
/-- READY with C_LEN = [1, 1, 0, …]. -/
def cPair : State := { ready with tabs := { ready.tabs with cLen := [(0, 1#5), (1, 1#5)] } }
/-- Inside a block whose tables hold one C symbol `c` and one position symbol `p` at the entries zero bits look up. -/
def inBlock (c p : BitVec 10) : State :=
  { room 8 with tabs :=
    { ready.tabs with
      blockSize := 5, cBuilt := true, ptKind := .position, ptNchar := 14, cAvail := 510, ptAvail := 14
      cTable := [(0, c)], ptTable := [(0, p)] } }

/-! ## Operand ranges (30_encoding.md R151): each check refuses an operand just outside its range -/

theorem illFormed_decodeChunk_zero : (Instr.decodeChunk 0#16).wellFormed = false := by decide
theorem illFormed_decodeChunk : (Instr.decodeChunk 8193#16).wellFormed = false := by decide
theorem illFormed_peek : (Instr.peek 17#5).wellFormed = false := by decide
theorem illFormed_consume : (Instr.consume 17#5).wellFormed = false := by decide
theorem illFormed_getBits : (Instr.getBits 31#5).wellFormed = false := by decide
theorem illFormed_setLen_length : (Instr.setLen .c 17#5 0#16).wellFormed = false := by decide
theorem illFormed_setLen_length_pt : (Instr.setLen .pt 17#5 0#16).wellFormed = false := by decide
theorem illFormed_setLen_c : (Instr.setLen .c 1#5 510#16).wellFormed = false := by decide
theorem illFormed_setLen_pt : (Instr.setLen .pt 1#5 19#16).wellFormed = false := by decide
theorem illFormed_getLen_c : (Instr.getLen .c 510#16).wellFormed = false := by decide
theorem illFormed_getLen_pt : (Instr.getLen .pt 19#16).wellFormed = false := by decide
theorem illFormed_makeTable_c : (Instr.makeTable .c 509#16).wellFormed = false := by decide
theorem illFormed_makeTable_pt : (Instr.makeTable .pt 18#16).wellFormed = false := by decide
theorem illFormed_getTable_c : (Instr.getTable .c 4096#16).wellFormed = false := by decide
theorem illFormed_getTable_pt : (Instr.getTable .pt 256#16).wellFormed = false := by decide
theorem illFormed_getNode : (Instr.getNode .left 1019#16).wellFormed = false := by decide
theorem illFormed_putLiteral : (Instr.putLiteral 256#16).wellFormed = false := by decide
theorem illFormed_startMatch : (Instr.startMatch 8192#16).wellFormed = false := by decide
theorem illFormed_copy : (Instr.copy 0#16).wellFormed = false := by decide
theorem wellFormed_maxima : ([.decodeChunk 8192#16, .peek 16#5, .setLen .pt 16#5 18#16, .setLen .c 16#5 509#16,
    .getTable .c 4095#16, .getTable .pt 255#16, .getNode .right 1018#16, .makeTable .pt 14#16, .makeTable .pt 19#16,
    .makeTable .c 510#16, .putLiteral 255#16, .startMatch 8191#16, .copy 1#16, .decodeChunk 1#16] : List Instr).all
    Instr.wellFormed = true := by decide

/-! ## Decoding: words laid out bit by bit as B, Z, T, N, OP (30_encoding.md R150, R151) -/

theorem decode_init : decode 0b0000000000000000_00_0_00000_00000001#32 = .ok .init := by decide
theorem decode_reset : decode 0b0000000000000000_00_0_00000_00000010#32 = .ok .reset := by decide
theorem decode_decodeChunk : decode 0b0010000000000000_00_0_00000_00000011#32 = .ok (.decodeChunk 8192#16) := by decide
theorem decode_decodeAll : decode 0b0000000000000000_00_0_00000_00000100#32 = .ok .decodeAll := by decide
theorem decode_peek : decode 0b0000000000000000_00_0_01100_00010000#32 = .ok (.peek 12#5) := by decide
theorem decode_consume : decode 0b0000000000000000_00_0_10000_00010001#32 = .ok (.consume 16#5) := by decide
theorem decode_getBits : decode 0b0000000000000000_00_0_00011_00010010#32 = .ok (.getBits 3#5) := by decide
theorem decode_setLen : decode 0b0000000001000001_00_0_00001_00100000#32 = .ok (.setLen .c 1#5 65#16) := by decide
theorem decode_setLen_pt : decode 0b0000000000000011_00_1_00111_00100000#32 = .ok (.setLen .pt 7#5 3#16) := by decide
theorem decode_getLen : decode 0b0000000000000111_00_1_00000_00100001#32 = .ok (.getLen .pt 7#16) := by decide
theorem decode_makeTable : decode 0b0000000000001110_00_1_00000_00100010#32 = .ok (.makeTable .pt 14#16) := by decide
theorem decode_getTable : decode 0b0000111111111111_00_0_00000_00100011#32 = .ok (.getTable .c 4095#16) := by decide
theorem decode_getNode_left : decode 0b0000000111111110_00_0_00000_00100100#32 = .ok (.getNode .left 510#16) := by decide
theorem decode_getNode_right : decode 0b0000000111111110_00_1_00000_00100100#32 = .ok (.getNode .right 510#16) := by decide
theorem decode_readMetaLen : decode 0b0000000000000000_00_0_00000_00110000#32 = .ok .readMetaLen := by decide
theorem decode_readCLen : decode 0b0000000000000000_00_0_00000_00110001#32 = .ok .readCLen := by decide
theorem decode_readPLen : decode 0b0000000000000000_00_0_00000_00110010#32 = .ok .readPLen := by decide
theorem decode_readBlockHeader : decode 0b0000000000000000_00_0_00000_00110011#32 = .ok .readBlockHeader := by decide
theorem decode_decodeC : decode 0b0000000000000000_00_0_00000_00110100#32 = .ok .decodeC := by decide
theorem decode_decodeP : decode 0b0000000000000000_00_0_00000_00110101#32 = .ok .decodeP := by decide
theorem decode_putLiteral : decode 0b0000000001000001_00_0_00000_01000000#32 = .ok (.putLiteral 65#16) := by decide
theorem decode_startMatch : decode 0b0001111111111111_00_0_00000_01000001#32 = .ok (.startMatch 8191#16) := by decide
theorem decode_copy : decode 0b0000000000000101_00_0_00000_01000010#32 = .ok (.copy 5#16) := by decide
theorem decode_rejects_opcode : decode 0x00000005#32 = .error .illegalOpcode := by decide
theorem decode_rejects_opcode_zero : decode 0x00000000#32 = .error .illegalOpcode := by decide
theorem decode_rejects_z : decode 0x00004010#32 = .error .reservedField := by decide
theorem decode_rejects_b : decode 0x00010001#32 = .error .reservedField := by decide
theorem decode_rejects_n : decode 0x00000134#32 = .error .reservedField := by decide
theorem decode_rejects_t : decode 0x00002010#32 = .error .reservedField := by decide
theorem decodeTableWord_reads_a_word : decodeTableWord 32 0x20000003 = some (.decodeChunk 8192#16) := by decide
/-- After reset, with INIT as the next word, one step has run INIT. -/
theorem step_runs_the_placed_word :
    (match step (State.reset.withFetchWord 32 1) with
      | .next t => t.status.ready
      | _ => false) = true := by decide +kernel

/-! ## One step of every command -/

/-- 95_test_vectors.md 2.1 step 1. -/
theorem test_init : bitStateWord started = 0x003CA53C#32 ∧ started.bits.inCursor = 2#32 ∧
    stageStateWord started = 0x00020002#32 := by decide +kernel
/-- 44_orchestrator.md R400: INIT clears a failure. -/
theorem test_init_clears_fail : statusWord (after .init failed) = 0x00000086#32 := by decide +kernel
/-- 95_test_vectors.md 2.5. -/
theorem test_reset : statusWord (after .reset failed) = 0x00000080#32 := by decide +kernel
/-- 95_test_vectors.md 2.1 step 2: PEEK 4. -/
theorem test_peek : (after (.peek 4#5) started).regs.result = 10#32 ∧
    (after (.peek 4#5) started).bits = started.bits := by decide +kernel
/-- 40_bitreader.md R221: after GETBITS 3, CONSUME 16 leaves BITBUF = 0xF800. -/
theorem test_consume :
    bitStateWord (after (.consume 16#5) (after (.getBits 3#5) started)) = 0x0500F800#32 := by decide +kernel
/-- 95_test_vectors.md 2.1 step 5: GETBITS 3. -/
theorem test_getBits : (after (.getBits 3#5) started).regs.result = 5#32 ∧
    bitStateWord (after (.getBits 3#5) started) = 0x05FF29E7#32 := by decide +kernel
/-- 95_test_vectors.md 2.2 row 8: SET_LEN PT, 7, 3. -/
theorem test_setLen : lenAt (after (.setLen .pt 3#5 7#16) ptPair).tabs.ptLen 7 = 3#5 ∧
    tableStateWord (after (.setLen .pt 3#5 7#16) ptPair) = 0#32 := by decide +kernel
/-- GET_LEN is accepted after a failure (95_test_vectors.md 2.2 row 11). -/
theorem test_getLen : (after (.getLen .pt 1#16) { ptPair with status := failed.status }).regs.result = 1#32 := by
  decide +kernel
/-- 95_test_vectors.md 2.2 row 3: MAKE_TABLE PT, 19 of [1, 1]. -/
theorem test_makeTable : (after (.makeTable .pt 19#16) ptPair).regs.result = 19#32 ∧
    tableStateWord (after (.makeTable .pt 19#16) ptPair) = 0x00001302#32 := by decide +kernel
/-- 41_table_builder.md R260: an all-zero list fails with detail 0. -/
theorem test_makeTable_fails : statusWord (after (.makeTable .pt 19#16) ready) = 0x0000018A#32 ∧
    failInfoWord (after (.makeTable .pt 19#16) ready) = 1#32 := by decide +kernel
/-- 95_test_vectors.md 2.2 rows 4 and 5. -/
theorem test_getTable :
    (after (.getTable .pt 127#16) (after (.makeTable .pt 19#16) ptPair)).regs.result = 0#32 ∧
    (after (.getTable .pt 128#16) (after (.makeTable .pt 19#16) ptPair)).regs.result = 1#32 := by decide +kernel
/-- 41_table_builder.md R260, meta lengths [1, …, 9, 10, 10]: LEFT[19] = 8, RIGHT[20] = 10. -/
def tenLengths : State :=
  { ready with tabs :=
    { ready.tabs with
      ptLen := [(0, 1#5), (1, 2#5), (2, 3#5), (3, 4#5), (4, 5#5), (5, 6#5), (6, 7#5), (7, 8#5), (8, 9#5), (9, 10#5), (10, 10#5)] } }
theorem test_getNode :
    (after (.getNode .left 19#16) (after (.makeTable .pt 19#16) tenLengths)).regs.result = 8#32 ∧
    (after (.getNode .right 20#16) (after (.makeTable .pt 19#16) tenLengths)).regs.result = 10#32 := by decide +kernel
/-- 95_test_vectors.md 2.3, `00101 001 001 000 10`: RESULT 5, PT_LEN = [1, 1, 0, 0, 0], 16 bits. -/
theorem test_readMetaLen : (after .readMetaLen (seeing 0b0010100100100010#16)).regs.result = 5#32 ∧
    (after .readMetaLen (seeing 0b0010100100100010#16)).bits.bitpos = 16 ∧
    (after .readMetaLen (seeing 0b0010100100100010#16)).tabs.ptLen = [(0, 1#5), (1, 1#5)] := by decide +kernel
/-- The 19 bits `00001 111 1111111111 0`: 16 in BITBUF, three in SUBBITBUF. -/
def tooLong : State :=
  { ready with bits := { ready.bits with bitbuf := 0b0000111111111111#16, subbitbuf := 0b110#8, bitcount := 3#4 } }
/-- 95_test_vectors.md 2.3, `00001 111 1111111111 0`: LENGTH_OVERFLOW with detail 17 before the code is consumed. -/
theorem test_readMetaLen_overflow :
    statusWord (after .readMetaLen tooLong) = 0x0000048A#32 ∧ failInfoWord (after .readMetaLen tooLong) = 0x00001101#32 ∧
    (after .readMetaLen tooLong).bits.bitpos = 5 := by decide +kernel
/-- 95_test_vectors.md 2.3: without a meta table READ_C_LEN is rejected TABLE_MISMATCH. -/
theorem test_readCLen_rejected : statusWord (after .readCLen ready) = 0x00080096#32 := by decide +kernel
/-- A C count of 0 is a single-code table whose value is the next 9 bits (42_block_decoder.md R303). -/
theorem test_readCLen :
    (after .readCLen { seeing 0b0000000000010000#16 with tabs := { ready.tabs with ptKind := .metaList } }).regs.result = 0#32 ∧
    readCell (after .readCLen { seeing 0b0000000000010000#16 with tabs := { ready.tabs with ptKind := .metaList } }).tabs.cTable 0 =
      some 64#10 := by decide +kernel
/-- 95_test_vectors.md 2.3, `0011 001 010 010`: RESULT 3, PT_KIND = POS, 13 bits. -/
theorem test_readPLen : (after .readPLen (seeing 0b0011001010010000#16)).regs.result = 3#32 ∧
    (after .readPLen (seeing 0b0011001010010000#16)).bits.bitpos = 13 ∧
    tableStateWord (after .readPLen (seeing 0b0011001010010000#16)) = 0x00000E04#32 := by decide +kernel
/-- 42_block_decoder.md R313, 60_exceptions.md R464: a header of zero bits. -/
theorem test_readBlockHeader : (after .readBlockHeader ready).bits.bitpos = 52 ∧
    availWord (after .readBlockHeader ready) = 0x000E01FE#32 := by decide +kernel
/-- 95_test_vectors.md P7 step 12: DECODE_C past the end of the input. -/
theorem test_decodeC : (after .decodeC ready).tabs.blockSize = 65535#32 ∧
    bitStateWord (after .decodeC ready) = 0x04000000#32 := by decide +kernel
/-- 42_block_decoder.md R312: symbol 13 and twelve zero bits give 4096. -/
theorem test_decodeP : (after .decodeP (inBlock 65#10 13#10)).regs.result = 4096#32 := by decide +kernel
/-- A single-code value that is no symbol fails STALE_NODE with the value (42_block_decoder.md R303). -/
theorem test_decodeP_stale : failInfoWord (after .decodeP (inBlock 65#10 15#10)) = 0x00000F03#32 := by decide +kernel
/-- 43_window_expander.md R360. -/
theorem test_putLiteral : (after (.putLiteral 65#16) (room 6)).outMem = [(0, 0x41#8)] ∧
    (after (.putLiteral 65#16) (room 6)).win.pos = 1#13 := by decide +kernel
/-- 95_test_vectors.md P7 step 9. -/
theorem test_putLiteral_full : statusWord (after (.putLiteral 66#16) ready) = 0x00060096#32 := by decide +kernel
/-- 95_test_vectors.md X-3: POS 1, distance 1 gives MATCH_SRC 8191. -/
theorem test_startMatch :
    (after (.startMatch 1#16) { pending 6 0 0 with regs := { ready.regs with arg := 0x00010005#32 } }).regs.result = 8191#32 ∧
    matchWord (after (.startMatch 1#16) { pending 6 0 0 with regs := { ready.regs with arg := 0x00010005#32 } }) =
      0x00051FFF#32 := by decide +kernel
/-- 95_test_vectors.md 2.4: COPY 5 expands "A" to "AAAAAA". -/
theorem test_copy : (after (.copy 5#16) (pending 6 0 5)).outMem.map Prod.snd =
      [0x41#8, 0x41#8, 0x41#8, 0x41#8, 0x41#8, 0x41#8] ∧
    matchWord (after (.copy 5#16) (pending 6 0 5)) = 0x00000005#32 := by decide +kernel
/-- 95_test_vectors.md 2.4: COPY clamped by the declared length. -/
theorem test_copy_clamped : (after (.copy 5#16) (pending 4 0 5)).regs.result = 3#32 ∧
    statusWord (after (.copy 5#16) (pending 4 0 5)) = 0x000000C6#32 := by decide +kernel
/-- A chunk of two literals of an open block. -/
theorem test_decodeChunk : (after (.decodeChunk 2#16) (inBlock 65#10 0#10)).outMem = [(0, 0x41#8), (1, 0x41#8)] ∧
    (after (.decodeChunk 2#16) (inBlock 65#10 0#10)).tabs.blockSize = 3#32 := by decide +kernel
/-- 95_test_vectors.md 2.5: DECODE_CHUNK beyond the declared length is rejected OUTPUT_FULL. -/
theorem test_decodeChunk_full : statusWord (after (.decodeChunk 9#16) (inBlock 65#10 0#10)) = 0x00060012#32 := by
  decide +kernel
/-- 44_orchestrator.md R408: DECODE_ALL produces the declared length. -/
theorem test_decodeAll : (after .decodeAll (inBlock 66#10 0#10)).regs.result = 8#32 ∧
    doneBit (after .decodeAll (inBlock 66#10 0#10)) = true := by decide +kernel
/-- 95_test_vectors.md P7 step 1. -/
theorem test_not_ready : statusWord (after (.peek 0#5) State.reset) = 0x00040090#32 := by decide +kernel

/-- The word a step leaves for the host to see. -/
def readBack (s : State) : Option Word :=
  match step s with
  | .next t => some t.hostData
  | _ => none
/-- 20_memory.md R100: the host reads back a byte it placed in IN. -/
theorem test_readIn : readBack { loaded with hostOps := [.readIn 1#32] } = some 0x3C#32 := by decide +kernel

/-! ## Witnesses: concrete states and operands that meet the hypotheses of each statement, one for each clause -/

theorem exec_after (i : Instr) (s : State) : exec i s = .next (after i s) := by
  unfold after
  rw [exec_eq_run]
/-- Whether a flow runs to its end. -/
def completes {α : Type} : Flow α → Bool
  | .ok _ _ => true
  | .failed _ _ => false
theorem of_completes {α : Type} {x : Flow α} (h : completes x = true) : ∃ a u, x = .ok a u := by
  cases x with
  | ok a u => exact ⟨a, u, rfl⟩
  | failed f u => cases h
theorem of_not_completes {α : Type} {x : Flow α} (h : completes x = false) : ∃ f u, x = .failed f u := by
  cases x with
  | ok a u => cases h
  | failed f u => exact ⟨f, u, rfl⟩

/-- With the given moves of the host to come. -/
def moves (l : List HostOp) (s : State) : State := { s with hostOps := l }
/-- With a PEEK in flight. -/
def inFlight (s : State) : State :=
  { s with status := { s.status with running := some { word := 0x310#32, dropped := false } } }
/-- With other parameters. -/
def policy (w : WindowInit) (s : State) : State := { s with cfg := { s.cfg with windowInit := w } }
/-- With C_BUILT, PT_KIND and BLOCKSIZE as given. -/
def flagged (c : Bool) (k : PtKind) (size : Word) (s : State) : State :=
  { s with tabs := { s.tabs with cBuilt := c, ptKind := k, blockSize := size } }
/-- A block size of 0, then a meta count of 20. -/
def badHeader : State := { ready with bits := { ready.bits with subbitbuf := 0x14#8, bitcount := 5#4 } }

theorem ready_inv : ready.Inv := by
  constructor <;> first | rfl | decide | (intro i; show (0#5 : BitVec 5).toNat ≤ 16; decide)

theorem witness_StepRunsTheDecodedCommand :
    (moves [.write 0x00#8 0x310#32] ready).status.running = none ∧
    (moves [.write 0x00#8 0x310#32] ready).hostOps = .write 0x00#8 0x310#32 :: [] ∧ decode 0x310#32 = .ok (.peek 3#5) := by
  decide
theorem witness_StepRejectsAWordThatIsNoCommand :
    (moves [.write 0x00#8 0x05#32] ready).status.running = none ∧ decode 0x05#32 = .error .illegalOpcode ∧
    decode 0x4010#32 = .error .reservedField := by decide
theorem witness_WritesWhileBusyAreDropped :
    (inFlight ready).status.running = some { word := 0x310#32, dropped := false } ∧ (0xFC#8).toNat % 4 = 0 ∧
    (moves [.write 0xFC#8 7#32] (inFlight ready)).hostOps = .write 0xFC#8 7#32 :: [] ∧
    (moves [.start 1#32] (inFlight ready)).hostOps = .start 1#32 :: [] := by decide
theorem witness_StartThenCompleteEqualsWrite : ready.status.running = none := by decide
theorem witness_HostDutyBreachesAreRefused :
    ((0x03#8).toNat % 4 ≠ 0 ∧ (moves [.write 0x03#8 0#32] ready).hostOps = .write 0x03#8 0#32 :: [] ∧
      (moves [.read 0x03#8] ready).hostOps = .read 0x03#8 :: []) ∧
    ((inFlight ready).status.running ≠ none ∧ (moves [.readOut 0#32] (inFlight ready)).hostOps = .readOut 0#32 :: [] ∧
      (moves [.readIn 0#32] (inFlight ready)).hostOps = .readIn 0#32 :: [] ∧
      (moves [.placeIn 0#32 1#8] (inFlight ready)).hostOps = .placeIn 0#32 1#8 :: [] ∧
      (moves [.writeOut 0#32 1#8] (inFlight ready)).hostOps = .writeOut 0#32 1#8 :: []) ∧
    ((room 8).status.running = none ∧ (room 8).status.ready = true ∧ (room 8).status.fail = false ∧
      (room 8).win.produced ≠ (room 8).lat.outLen ∧ (moves [.placeIn 0#32 1#8] (room 8)).hostOps = .placeIn 0#32 1#8 :: [] ∧
      (7#32).toNat < (room 8).lat.outCap.toNat) := by decide
theorem witness_HostBufferMovesComplete :
    (ready.status.running = none ∧ ¬ (ready.status.ready = true ∧ ready.status.fail = false ∧ ready.win.produced ≠ ready.lat.outLen) ∧
      (moves [.placeIn 0xFFFFFFFF#32 1#8] ready).hostOps = .placeIn 0xFFFFFFFF#32 1#8 :: []) ∧
    ((moves [.readIn 2#32] loaded).status.running = none ∧ (moves [.readIn 2#32] loaded).hostOps = .readIn 2#32 :: [] ∧
      loaded.inMem.read 2 = some 0xFF#8 ∧ loaded.inMem.read 3 = none) ∧
    ((room 8).status.running = none ∧ (room 8).lat.outCap.toNat ≤ (8#32).toNat ∧
      (moves [.writeOut 8#32 1#8] (room 8)).hostOps = .writeOut 8#32 1#8 :: []) ∧
    ((pending 6 0 5).status.running = none ∧ (moves [.readOut 0#32] (pending 6 0 5)).hostOps = .readOut 0#32 :: [] ∧
      (pending 6 0 5).outMem.read 0 = some 0x41#8 ∧ (pending 6 0 5).outMem.read 1 = none) := by decide
theorem witness_ReadsAndResetWhileACommandRuns :
    ((inFlight ready).status.running = some { word := 0x310#32, dropped := false } ∧
      decode 0x310#32 = .ok (.peek 3#5) ∧ Instr.peek 3#5 ≠ .reset ∧ Instr.peek 3#5 ≠ .init ∧
      exec (.peek 3#5) ready = .next (after (.peek 3#5) ready) ∧
      ready.win.produced.toNat ≤ (after (.peek 3#5) ready).win.produced.toNat ∧
      ready.tabs.blockSize.toNat < 2 ^ ready.cfg.blockCntBits.bits ∧
      (after (.peek 3#5) ready).tabs.blockSize.toNat < 2 ^ ready.cfg.blockCntBits.bits ∧
      (moves [.platformReset] (inFlight ready)).hostOps = .platformReset :: []) ∧
    ([0x00#8, 0x04#8, 0x08#8, 0x0C#8, 0x10#8, 0x14#8, 0x18#8, 0x1C#8, 0x24#8, 0x28#8, 0x2C#8, 0x30#8, 0x38#8, 0x3C#8, 0x40#8,
      0x44#8, 0x48#8, 0xFC#8] : List (BitVec 8)).all (fun off =>
        decide (off.toNat % 4 = 0 ∧ (moves [.read off] (inFlight ready)).hostOps = .read off :: [])) = true :=
  ⟨⟨rfl, by decide, by decide, by decide, exec_after _ _, by decide +kernel, by decide, by decide +kernel, rfl⟩, by decide⟩
theorem witness_ResetStateValues : (0x00#8 ≠ 0x04#8 ∧ 0x00#8 ≠ 0x3C#8) ∧ (0xFF#8 ≠ 0x04#8 ∧ 0xFF#8 ≠ 0x3C#8) := by decide
theorem witness_RegisterMapReads :
    ([0x00#8, 0x04#8, 0x08#8, 0x0C#8, 0x10#8, 0x14#8, 0x18#8, 0x1C#8, 0x20#8, 0x24#8, 0x28#8, 0x2C#8, 0x30#8, 0x34#8, 0x38#8,
      0x3C#8, 0x40#8, 0x44#8, 0x48#8, 0xFC#8] : List (BitVec 8)).all (fun off =>
        decide ((moves [.read off] started).status.running = none ∧ off.toNat % 4 = 0 ∧
          (moves [.read off] started).hostOps = .read off :: [])) = true := by decide +kernel
theorem witness_RegisterWrites :
    ([0x04#8, 0x08#8, 0x0C#8, 0x10#8, 0x14#8, 0x18#8, 0x44#8, 0x48#8, 0xFC#8] : List (BitVec 8)).all (fun off =>
        decide ((moves [.write off 1#32] ready).status.running = none ∧ off.toNat % 4 = 0 ∧ off ≠ 0x00#8 ∧
          (moves [.write off 1#32] ready).hostOps = .write off 1#32 :: [])) = true := by decide
theorem witness_InitStartsADecode : State.reset.status.running = none ∧ failed.status.running = none := by decide
theorem witness_InitFillsTheLookahead :
    ([0#32, 1#32, 2#32, 3#32] : List Word).all (fun n =>
      let s := { loaded with regs := { loaded.regs with inLen := n } }
      decide (s.status.running = none ∧ 1 ≤ s.cfg.stageCap ∧ s.cfg.stageCap ≤ 65535)) = true ∧
    exec .init loaded = .next started := ⟨by decide, exec_after _ _⟩
theorem witness_ResetTakesResetValues :
    failed.status.running = none ∧ (moves [.platformReset] failed).hostOps = .platformReset :: [] := by decide

theorem not_legal {i : Instr} {s : State} (h : i.wellFormed = false) : ¬ legalIn i s := fun hl => by
  rw [hl.1] at h; cases h
theorem witness_NotReadyFailedAndIllegalOperandRejections :
    (State.reset.status.running = none ∧ isControl (.peek 0#5) = false ∧ State.reset.status.ready = false) ∧
    (failed.status.running = none ∧ isControl .decodeAll = false ∧ failed.status.ready = true ∧ failed.status.fail = true ∧
      isInspection .decodeAll = false) ∧
    (ready.status.running = none ∧ ready.status.ready = true ∧ ready.status.fail = false ∧ isControl (.peek 17#5) = false ∧
      ¬ legalIn (.peek 17#5) ready) ∧
    (isInspection (.getNode .left 1019#16) = true ∧ isControl (.getNode .left 1019#16) = false ∧
      ¬ legalIn (.getNode .left 1019#16) failed) ∧
    (¬ legalIn (.startMatch 0#16) { ready with regs := { ready.regs with arg := 0x00070002#32 } } ∧
      ¬ legalIn (.startMatch 0#16) { ready with regs := { ready.regs with arg := 257#32 } }) :=
  ⟨by decide, by decide, ⟨rfl, rfl, rfl, rfl, not_legal rfl⟩, ⟨rfl, rfl, not_legal rfl⟩,
    fun h => absurd h.2.1 (by decide), fun h => absurd h.2.2 (by decide)⟩
theorem witness_StatePreconditionsRejected :
    ((room 4).Runs ∧ legalIn (.decodeChunk 5#16) (room 4) ∧
      (room 4).lat.outLen.toNat - (room 4).win.produced.toNat < (5#16).toNat) ∧
    (legalIn (.decodeChunk 4#16) (flagged true .metaList 1 (room 4)) ∧
      (4#16).toNat ≤ (room 4).lat.outLen.toNat - (room 4).win.produced.toNat ∧ ¬ (flagged true .metaList 1 (room 4)).TablesReady) ∧
    ((flagged false .position 1 ready).tabs.blockSize ≠ 0#32 ∧ (flagged false .position 1 ready).tabs.cBuilt = false) ∧
    (ready.tabs.ptKind ≠ .position ∧ ready.tabs.ptKind ≠ .metaList) ∧
    ((pending 6 0 5).Runs ∧ legalIn (.putLiteral 0xFF#16) (pending 6 0 5) ∧ (pending 6 0 5).win.matchRem ≠ 0#9) ∧
    (legalIn (.putLiteral 0xFF#16) ready ∧ ready.win.matchRem = 0#9 ∧ ready.win.produced = ready.lat.outLen) ∧
    legalIn (.startMatch 8191#16) { pending 6 0 5 with regs := { ready.regs with arg := 256#32 } } :=
  ⟨⟨⟨rfl, rfl, rfl⟩, ⟨rfl, trivial⟩, by decide⟩,
    ⟨⟨rfl, trivial⟩, by decide, fun h => absurd (h (by decide)).2 (by decide)⟩, by decide, by decide,
    ⟨⟨rfl, rfl, rfl⟩, ⟨rfl, trivial⟩, by decide⟩, ⟨⟨rfl, trivial⟩, rfl, rfl⟩, ⟨rfl, by decide⟩⟩

theorem started_runs : started.Runs := ⟨rfl, rfl, rfl⟩
theorem witness_PeekReadsTheTopBits : started.Runs ∧ (0#5).toNat ≤ 16 ∧ (16#5).toNat ≤ 16 :=
  ⟨started_runs, by decide, by decide⟩
theorem witness_ConsumeMovesOnlyTheBitReader : started.Runs ∧ (0#5).toNat ≤ 16 ∧ (16#5).toNat ≤ 16 :=
  ⟨started_runs, by decide, by decide⟩
theorem stream_initDecode_loaded : StreamInv (initDecode loaded) := StreamInv.initDecode (by decide)
theorem witness_GetBitsReturnsTheNextStreamBits :
    (initDecode loaded).Runs ∧ StreamInv (initDecode loaded) ∧ (0#5).toNat ≤ 16 ∧ (1#5).toNat ≤ 16 ∧ (16#5).toNat ≤ 16 :=
  ⟨⟨rfl, rfl, rfl⟩, stream_initDecode_loaded, by decide, by decide, by decide⟩
theorem witness_InitEntersTheStream :
    loaded.status.running = none ∧ loaded.cfg.wf = true ∧ exec .init loaded = .next started :=
  ⟨rfl, by decide, exec_after _ _⟩
theorem witness_EveryCommandStaysInTheStream :
    ready.Inv ∧ StreamInv ready ∧ Instr.decodeC ≠ .reset ∧ exec .decodeC ready = .next (after .decodeC ready) :=
  ⟨ready_inv, (StreamInv.initDecode (s := ready) (by decide)).congr (by decide +kernel) rfl rfl rfl, by decide, exec_after _ _⟩

theorem witness_SetLenWritesOneLength :
    ready.Runs ∧ legalIn (.setLen .c 16#5 509#16) ready ∧ legalIn (.setLen .pt 16#5 18#16) ready ∧ legalIn (.setLen .c 0#5 0#16) ready :=
  ⟨⟨rfl, rfl, rfl⟩, ⟨rfl, trivial⟩, ⟨rfl, trivial⟩, ⟨rfl, trivial⟩⟩
theorem witness_GetLenAndGetTableReturnTheEntry :
    failed.Inspectable ∧ legalIn (.getLen .c 509#16) failed ∧ legalIn (.getLen .pt 18#16) failed ∧
    legalIn (.getTable .c 4095#16) failed ∧ legalIn (.getTable .pt 255#16) failed ∧
    readCell failed.tabs.cTable 4095 = none ∧ readCell (inBlock 65#10 0#10).tabs.cTable 0 = some 65#10 :=
  ⟨⟨rfl, rfl⟩, ⟨rfl, trivial⟩, ⟨rfl, trivial⟩, ⟨rfl, trivial⟩, ⟨rfl, trivial⟩, by decide, by decide⟩
/-- After a build that made nodes 19 and 20. -/
def tenBuilt : State := after (.makeTable .pt 19#16) tenLengths
theorem witness_GetNodeReturnsTheChild :
    tenBuilt.Inspectable ∧ legalIn (.getNode .left 19#16) tenBuilt ∧ legalIn (.getNode .right 1018#16) tenBuilt ∧
    (tenBuilt.tabs.ptFirst.toNat ≤ 19 ∧ 19 < tenBuilt.tabs.ptAvail.toNat ∧ readCell tenBuilt.tabs.left 19 = some 8#10) ∧
    ¬ 1018 < tenBuilt.tabs.cAvail.toNat ∧ ¬ 18 ≥ tenBuilt.tabs.ptFirst.toNat :=
  ⟨⟨by decide +kernel, by decide +kernel⟩, ⟨rfl, trivial⟩, ⟨rfl, trivial⟩, by decide +kernel, by decide +kernel,
    by decide +kernel⟩
theorem witness_IncompleteCodeFailsTheBuild :
    ready.Runs ∧ legalIn (.makeTable .c 510#16) ready ∧ kraftSum (buildLens .cTable ready) ≠ 65536 ∧
    legalIn (.makeTable .pt 19#16) ready ∧ kraftSum (buildLens .metaTable ready) ≠ 65536 ∧
    legalIn (.makeTable .pt 14#16) ready ∧ kraftSum (buildLens .posTable ready) ≠ 65536 :=
  ⟨⟨rfl, rfl, rfl⟩, ⟨rfl, trivial⟩, by decide +kernel, ⟨rfl, trivial⟩, by decide +kernel, ⟨rfl, trivial⟩, by decide +kernel⟩
theorem witness_CompleteCodeBuilds :
    (cPair.Runs ∧ legalIn (.makeTable .c 510#16) cPair ∧ kraftSum (buildLens .cTable cPair) = 65536 ∧
      ∀ L ∈ buildLens .cTable cPair, L ≤ 16) ∧
    (ptPair.Runs ∧ legalIn (.makeTable .pt 19#16) ptPair ∧ kraftSum (buildLens .metaTable ptPair) = 65536 ∧
      ∀ L ∈ buildLens .metaTable ptPair, L ≤ 16) ∧
    (legalIn (.makeTable .pt 14#16) ptPair ∧ kraftSum (buildLens .posTable ptPair) = 65536 ∧
      ∀ L ∈ buildLens .posTable ptPair, L ≤ 16) :=
  ⟨⟨⟨rfl, rfl, rfl⟩, ⟨rfl, trivial⟩, by decide +kernel, by decide +kernel⟩,
    ⟨⟨rfl, rfl, rfl⟩, ⟨rfl, trivial⟩, by decide +kernel, by decide +kernel⟩, ⟨rfl, trivial⟩, by decide +kernel, by decide +kernel⟩
/-- After a build whose codes reach into the tree, with the ten one bits of symbol 10's code next. -/
def tenLookup : State := { tenBuilt with bits := { tenBuilt.bits with bitbuf := 0xFFC0#16 } }
theorem witness_BuiltTableDecodesCanonicalCodes :
    (∀ L ∈ buildLens .metaTable tenLengths, L ≤ 16) ∧
    (∃ v u, buildTable .metaTable tenLengths = .ok v u ∧ tenLookup.tabs = u.tabs) ∧
    ((buildLens .metaTable tenLengths)[0]? = some 1 ∧ 1 ≤ TableId.metaTable.tb ∧
      canonicalCode (buildLens .metaTable tenLengths) 0 1 / 2 ^ (16 - TableId.metaTable.tb) ≤ 127 ∧
      127 < canonicalCode (buildLens .metaTable tenLengths) 0 1 / 2 ^ (16 - TableId.metaTable.tb) + 2 ^ (TableId.metaTable.tb - 1)) ∧
    ((buildLens .metaTable tenLengths)[10]? = some 10 ∧
      canonicalCode (buildLens .metaTable tenLengths) 10 10 ≤ tenLookup.bits.bitbuf.toNat ∧
      tenLookup.bits.bitbuf.toNat < canonicalCode (buildLens .metaTable tenLengths) 10 10 + 2 ^ (16 - 10)) := by
  refine ⟨by decide +kernel, ?_, by decide +kernel, by decide +kernel⟩
  obtain ⟨v, u, h⟩ := of_completes (x := buildTable .metaTable tenLengths) (by decide +kernel)
  refine ⟨v, u, h, ?_⟩
  have hu : (buildTable .metaTable tenLengths).state = u := by rw [h]; rfl
  rw [← hu]
  decide +kernel
theorem witness_LookupAnswersASymbolOrStaleNode :
    (readCell (tableOf .posTable (inBlock 0#10 13#10)) ((inBlock 0#10 13#10).bits.bitbuf.toNat / 2 ^ 8) = some 13#10 ∧
      (13#10).toNat < TableId.posTable.nchar) ∧
    (readCell (tableOf .posTable (inBlock 0#10 14#10)) ((inBlock 0#10 14#10).bits.bitbuf.toNat / 2 ^ 8) = some 14#10 ∧
      TableId.posTable.nchar ≤ (14#10).toNat ∧ (availOf .posTable (inBlock 0#10 14#10)).toNat ≤ (14#10).toNat) := by decide
theorem witness_LengthCodeValueAndCost :
    (seeing 0xC000#16).bits.bitbuf.toNat / 2 ^ 13 = 6 ∧
    ([0, 1, 9, 10, 12, 13] : List Nat).all (fun k =>
      let b := BitVec.ofNat 16 (0xFFFF - if k < 13 then 2 ^ (12 - k) else 0)
      decide (b.toNat / 2 ^ 13 = 7) && (List.range k).all (fun j => b.getLsbD (12 - j)) &&
        (k == 13 || !b.getLsbD (12 - k))) = true := by decide
/-- Whether a flow runs to its end with the value `v`. -/
def endsWith (v : Nat) : Flow Nat → Bool
  | .ok c _ => decide (c = v)
  | .failed _ _ => false
theorem of_endsWith {v : Nat} {x : Flow Nat} (h : endsWith v x = true) : x = .ok v x.state := by
  cases x with
  | ok c u => rw [of_decide_eq_true h]; rfl
  | failed f u => cases h
/-- The meta list `00101 001 001 000 10`: count 5, lengths 1, 1, 0, then a special run of 2. -/
def metaStream : State := seeing 0b0010100100100010#16
/-- The BitReader before each of its codes, and after the special run. -/
def metaReader (k : Nat) : BitReader := (consumeBits (if k < 3 then 5 + 3 * k else 16) metaStream).bits
/-- The position list `0011 001 010 010`: count 3, lengths 1, 2, 2. -/
def posStream : State := seeing 0b0011001010010000#16
/-- The BitReader before each of its codes. -/
def posReader (k : Nat) : BitReader := (consumeBits (4 + 3 * k) posStream).bits
/-- The position list `0001 111 1111111111 0`: its first length is 17. -/
def posTooLong : State :=
  { ready with bits := { ready.bits with bitbuf := 0b0001111111111111#16, subbitbuf := 0b10#8, bitcount := 2#4 } }
theorem witness_PtListsFillThenBuild :
    ((seeing 0xC000#16).bits.bitbuf.toNat / 2 ^ 14 = 3) ∧
    (metaStream.Runs ∧ metaStream.bits.bitbuf.toNat / 2 ^ (16 - 5) = 5 ∧ metaReader 0 = (consumeBits 5 metaStream).bits ∧
      5 ≤ 3 + 2 ∧
      ∀ k, k < 3 → k < 5 ∧ ∃ x : State,
        readLenCode 1#4 { metaStream with bits := metaReader k } = .ok (if k < 2 then 1 else 0) x ∧
        (k ≠ 2 → metaReader (k + 1) = x.bits) ∧
        (k = 2 → 2 = x.bits.bitbuf.toNat / 2 ^ 14 ∧ metaReader 3 = (consumeBits 2 x).bits)) ∧
    (posStream.Runs ∧ posStream.bits.bitbuf.toNat / 2 ^ (16 - 4) = 3 ∧ posReader 0 = (consumeBits 4 posStream).bits ∧
      ∀ k, k < 3 → ∃ x : State,
        readLenCode 3#4 { posStream with bits := posReader k } = .ok (if k = 0 then 1 else 2) x ∧ posReader (k + 1) = x.bits) ∧
    (tooLong.Runs ∧ tooLong.bits.bitbuf.toNat / 2 ^ (16 - 5) = 1 ∧
      ∃ f x, readLenCode 1#4 { tooLong with bits := (consumeBits 5 tooLong).bits } = .failed f x) ∧
    (posTooLong.Runs ∧ posTooLong.bits.bitbuf.toNat / 2 ^ (16 - 4) = 1 ∧
      ∃ f x, readLenCode 3#4 { posTooLong with bits := (consumeBits 4 posTooLong).bits } = .failed f x) := by
  refine ⟨by decide, ⟨⟨rfl, rfl, rfl⟩, by decide, rfl, by decide, fun k hk => ⟨by omega, ?_⟩⟩,
    ⟨⟨rfl, rfl, rfl⟩, by decide, rfl, fun k hk => ?_⟩, ⟨⟨rfl, rfl, rfl⟩, by decide, of_not_completes (by decide +kernel)⟩,
    ⟨⟨rfl, rfl, rfl⟩, by decide, of_not_completes (by decide +kernel)⟩⟩
  · have h : ∀ k, k < 3 → let x := readLenCode 1#4 { metaStream with bits := metaReader k }
        endsWith (if k < 2 then 1 else 0) x = true ∧ (k ≠ 2 → metaReader (k + 1) = x.state.bits) ∧
          (k = 2 → 2 = x.state.bits.bitbuf.toNat / 2 ^ 14 ∧ metaReader 3 = (consumeBits 2 x.state).bits) := by decide +kernel
    exact ⟨_, of_endsWith (h k hk).1, (h k hk).2⟩
  · have h : ∀ k, k < 3 → let x := readLenCode 3#4 { posStream with bits := posReader k }
        endsWith (if k = 0 then 1 else 2) x = true ∧ posReader (k + 1) = x.state.bits := by decide +kernel
    exact ⟨_, of_endsWith (h k hk).1, (h k hk).2⟩
/-- A C count of `n` next, and a meta table whose entry for zero bits is the symbol `c`. -/
def itemState (n c : BitVec 16) : State :=
  { seeing (n <<< 7) with tabs :=
    { ready.tabs with ptKind := .metaList, ptNchar := 19, ptAvail := 19, ptTable := [(0, c.setWidth 10)] } }
/-- Where the list of `itemState` starts. -/
def itemStart (n c : BitVec 16) : State :=
  { (itemState n c).cleared with
    bits := (consumeBits 9 (itemState n c)).bits, tabs := { (itemState n c).tabs with cBuilt := false } }
theorem witness_CListItemsFillThenBuild :
    (510 < 508 + 3 ∧ 507 + 3 ≤ 510) ∧
    (([0, 1, 2, 3, 18] : List (BitVec 16)).all fun c => endsWith c.toNat
      ((lookup .metaTable (itemStart 1 c)).andThen fun x s => .ok x.toNat s)) = true ∧
    (∃ f s, lookup .metaTable (itemStart 1 19) = .failed f s) ∧
    ((itemState 1 3).Runs ∧ (itemState 1 3).tabs.ptKind = .metaList ∧ (itemState 1 3).bits.bitbuf.toNat / 2 ^ 7 = 1 ∧
      cItem 0 (itemStart 1 3) = .ok 1 (cItem 0 (itemStart 1 3)).state ∧ 1 ≤ 1) ∧
    (∃ f u, cItem 0 (itemStart 1 19) = .failed f u) :=
  ⟨by decide, by decide +kernel, of_not_completes (by decide +kernel),
    ⟨⟨rfl, rfl, rfl⟩, rfl, by decide, of_endsWith (by decide +kernel), by decide⟩, of_not_completes (by decide +kernel)⟩
theorem witness_SingleCodeListsComplete :
    ready.Runs ∧ (seeing 0x07FF#16).bits.bitbuf.toNat / 2 ^ 11 = 0 ∧ (seeing 0x0FFF#16).bits.bitbuf.toNat / 2 ^ 12 = 0 ∧
    ((flagged false .metaList 0 (seeing 0x007F#16)).Runs ∧ (flagged false .metaList 0 (seeing 0x007F#16)).tabs.ptKind = .metaList ∧
      (flagged false .metaList 0 (seeing 0x007F#16)).bits.bitbuf.toNat / 2 ^ 7 = 0) :=
  ⟨⟨rfl, rfl, rfl⟩, by decide, by decide, ⟨rfl, rfl, rfl⟩, by decide⟩
theorem witness_CountOverflowFailsBeforeAnyLength :
    (seeing 0xA000#16).Runs ∧ (seeing 0xA000#16).bits.bitbuf.toNat / 2 ^ 11 = 20 ∧ (seeing 0xFFFF#16).bits.bitbuf.toNat / 2 ^ 11 = 31 ∧
    (seeing 0xF000#16).bits.bitbuf.toNat / 2 ^ 12 = 15 ∧
    ((flagged false .metaList 0 (seeing 0xFF80#16)).tabs.ptKind = .metaList ∧
      (flagged false .metaList 0 (seeing 0xFF80#16)).bits.bitbuf.toNat / 2 ^ 7 = 511) :=
  ⟨⟨rfl, rfl, rfl⟩, by decide⟩
theorem witness_TableReadCommandsEndAsTheirRead :
    ready.Runs ∧ (∃ v u, readPtLen metaList ready.cleared = .ok v u) ∧
    (∃ f u, readPtLen metaList (seeing 0xA000#16).cleared = .failed f u) ∧
    (∃ v u, readPtLen positionList ready.cleared = .ok v u) ∧
    (∃ f u, readPtLen positionList (seeing 0xF000#16).cleared = .failed f u) ∧
    (∃ v u, readCLen (flagged false .metaList 0 ready).cleared = .ok v u) ∧
    (∃ f u, readCLen (flagged false .metaList 0 (seeing 0xFF80#16)).cleared = .failed f u) ∧
    (∃ v u, readBlockHeader ready.cleared = .ok v u) ∧ (∃ f u, readBlockHeader badHeader.cleared = .failed f u) :=
  ⟨⟨rfl, rfl, rfl⟩, of_completes (by decide +kernel), of_not_completes (by decide +kernel), of_completes (by decide +kernel),
    of_not_completes (by decide +kernel), of_completes (by decide +kernel), of_not_completes (by decide +kernel),
    of_completes (by decide +kernel), of_not_completes (by decide +kernel)⟩
theorem witness_SuccessfulReadsLeaveBuiltTables :
    (∃ v u, readPtLen metaList (seeing 0b0010100100100010#16) = .ok v u) ∧
    (∃ v u, readPtLen positionList (seeing 0b0011001010010000#16) = .ok v u) ∧
    (∃ v u, readCLen (flagged false .metaList 0 ready) = .ok v u) ∧
    (∃ v u, readBlockHeader ready = .ok v u) ∧ (∃ f u, readBlockHeader badHeader = .failed f u) :=
  ⟨of_completes (by decide +kernel), of_completes (by decide +kernel), of_completes (by decide +kernel),
    of_completes (by decide +kernel), of_not_completes (by decide +kernel)⟩
theorem witness_ZeroBitsAreAValidBlock : ready.Runs ∧ ready.OnlyZeroBits ∧ ready.tabs.blockSize = 0#32 :=
  ⟨⟨rfl, rfl, rfl⟩, ⟨rfl, rfl, rfl, rfl, rfl⟩, rfl⟩
theorem witness_DecodeCDecrementsThenDecodes :
    (ready.Runs ∧ ready.tabs.blockSize.toNat < 2 ^ ready.cfg.blockCntBits.bits ∧ ready.tabs.blockSize = 0#32 ∧
      (∃ v u, readBlockHeader ready.cleared = .ok v u) ∧ (∃ f u, readBlockHeader badHeader.cleared = .failed f u)) ∧
    ((inBlock 65#10 0#10).Runs ∧ (inBlock 65#10 0#10).tabs.blockSize.toNat < 2 ^ (inBlock 65#10 0#10).cfg.blockCntBits.bits ∧
      (inBlock 65#10 0#10).tabs.blockSize ≠ 0#32 ∧ (inBlock 65#10 0#10).tabs.cBuilt = true ∧
      lookup .cTable (inBlock 65#10 0#10).cleared = .ok 65#10 (inBlock 65#10 0#10).cleared ∧
      (∃ f u, lookup .cTable (inBlock 510#10 0#10).cleared = .failed f u)) :=
  ⟨⟨⟨rfl, rfl, rfl⟩, by decide, rfl, of_completes (by decide +kernel), of_not_completes (by decide +kernel)⟩,
    ⟨rfl, rfl, rfl⟩, by decide, by decide, rfl, rfl, of_not_completes (by decide +kernel)⟩
theorem witness_DecodePGivesTheDistance :
    (inBlock 0#10 0#10).Runs ∧ (inBlock 0#10 0#10).tabs.ptKind = .position ∧
    lookup .posTable (inBlock 0#10 0#10) = .ok 0#10 (inBlock 0#10 0#10) ∧
    lookup .posTable (inBlock 0#10 13#10) = .ok 13#10 (inBlock 0#10 13#10) ∧
    readCell (inBlock 0#10 13#10).tabs.ptTable ((inBlock 0#10 13#10).bits.bitbuf.toNat / 2 ^ 8) = some 13#10 ∧
    (∃ f u, lookup .posTable (inBlock 0#10 14#10) = .failed f u) :=
  ⟨⟨rfl, rfl, rfl⟩, rfl, rfl, rfl, by decide, of_not_completes (by decide +kernel)⟩
theorem witness_TableAndSymbolCommandsFrame :
    (∀ i ∈ ([.readMetaLen, .readCLen, .readPLen, .readBlockHeader, .decodeC, .decodeP] : List Instr),
      exec i ready = .next (after i ready)) ∧
    ready.status.running = none ∧ (after .decodeC ready).status.fail = ready.status.fail ∧
    (∀ k, (lenAt ready.tabs.ptLen k).toNat ≤ 16) ∧ (∀ k, (lenAt ready.tabs.cLen k).toNat ≤ 16) :=
  ⟨fun i _ => exec_after i ready, rfl, by decide +kernel, ready_inv.ptLen_le, ready_inv.cLen_le⟩

theorem witness_PutLiteralEmitsOneByte :
    (room 6).Runs ∧ (0#16).toNat ≤ 255 ∧ (255#16).toNat ≤ 255 ∧ (room 6).win.matchRem = 0#9 ∧
    (room 6).win.produced.toNat < (room 6).lat.outLen.toNat := ⟨⟨rfl, rfl, rfl⟩, by decide⟩
/-- READY with a match length in ARG. -/
def withArg (v : Word) : State := { room 6 with regs := { ready.regs with arg := v } }
theorem witness_StartMatchSetsTheCopy :
    (withArg 3#32).Runs ∧ legalIn (.startMatch 0#16) (withArg 3#32) ∧ legalIn (.startMatch 8191#16) (withArg 0xFFFF0100#32) ∧
    (withArg 3#32).win.matchRem = 0#9 := ⟨⟨rfl, rfl, rfl⟩, ⟨rfl, by decide⟩, ⟨rfl, by decide⟩, rfl⟩
theorem witness_CopyMovesByTheClampedCount :
    (pending 6 0 5).Runs ∧ 1 ≤ (1#16).toNat ∧ 1 ≤ (0xFFFF#16).toNat ∧ (pending 6 0 5).SourceReadable ∧
    (policy .zero (pending 6 7 5)).SourceReadable ∧
    (ready.cfg.windowInit = .fault ∧ ¬ ready.SourceReadable ∧
      min (1#16).toNat (min ready.win.matchRem.toNat (ready.lat.outLen.toNat - ready.win.produced.toNat)) = 0) ∧
    (¬ (pending 6 1 5).SourceReadable ∧ min (1#16).toNat (min (pending 6 1 5).win.matchRem.toNat
      ((pending 6 1 5).lat.outLen.toNat - (pending 6 1 5).win.produced.toNat)) ≠ 0) := by
  simp only [State.SourceReadable, State.Runs]
  decide
theorem pending_outInv (n : Word) (src : BitVec 13) (rem : BitVec 9) : OutInv (pending n src rem) := by
  refine ⟨rfl, fun k hk _ _ => ⟨0x41#8, ?_⟩⟩
  have hk : k < 1 := hk
  obtain rfl : k = 0 := by omega
  exact ⟨rfl, rfl⟩
theorem witness_CopyRepeatsEarlierOutput :
    (pending 6 0 5).Runs ∧ OutInv (pending 6 0 5) ∧ 1 ≤ (5#16).toNat ∧ 0 < (pending 6 0 5).win.produced.toNat ∧
    (pending 6 0 5).win.matchSrc = (pending 6 0 5).win.pos - BitVec.ofNat 13 0 - 1#13 ∧
    (pending 6 0 5).win.produced.toNat + min (5#16).toNat (min (pending 6 0 5).win.matchRem.toNat
      ((pending 6 0 5).lat.outLen.toNat - (pending 6 0 5).win.produced.toNat)) ≤ (pending 6 0 5).lat.outCap.toNat :=
  ⟨⟨rfl, rfl, rfl⟩, pending_outInv _ _ _, by decide, by decide, by decide, by decide⟩
theorem witness_UnwrittenWindowFollowsThePolicy :
    ((pending 6 0 5).Runs ∧ (pending 6 0 5).win.matchRem ≠ 0#9 ∧
      (pending 6 0 5).win.produced.toNat < (pending 6 0 5).lat.outLen.toNat ∧
      (pending 6 0 5).win.matchSrc.toNat < (pending 6 0 5).win.produced.toNat ∧
      (pending 6 0 5).win.window.read (pending 6 0 5).win.matchSrc.toNat = some 0x41#8) ∧
    ((pending 6 1 5).win.produced.toNat < 8192 ∧ (pending 6 1 5).win.produced.toNat ≤ (pending 6 1 5).win.matchSrc.toNat ∧
      (pending 6 1 5).cfg.windowInit = .fault ∧ (policy .zero (pending 6 1 5)).cfg.windowInit = .zero ∧
      (policy .any (pending 6 8191 5)).cfg.windowInit = .any) :=
  ⟨⟨⟨rfl, rfl, rfl⟩, by decide⟩, by decide⟩
theorem room_inv : (room 8).Inv := by
  constructor <;> first | rfl | decide | (intro i; show (0#5 : BitVec 5).toNat ≤ 16; decide)
theorem witness_WindowAndOutputStayTheSame :
    (room 8).Inv ∧ OutInv (room 8) ∧ exec (.putLiteral 1#16) (room 8) = .next (after (.putLiteral 1#16) (room 8)) ∧
    (after (.putLiteral 1#16) (room 8)).status.fail = false :=
  ⟨room_inv, ⟨rfl, fun k hk _ _ => absurd hk (Nat.not_lt_zero k)⟩, exec_after _ _, by decide +kernel⟩

theorem inBlock_ready (c p : BitVec 10) : (inBlock c p).TablesReady := fun _ => ⟨rfl, rfl⟩
theorem witness_DecodeChunkProducesExactlyItsCount :
    ((inBlock 65#10 0#10).Runs ∧ legalIn (.decodeChunk 8#16) (inBlock 65#10 0#10) ∧
      (8#16).toNat ≤ (inBlock 65#10 0#10).lat.outLen.toNat - (inBlock 65#10 0#10).win.produced.toNat ∧
      (inBlock 65#10 0#10).TablesReady) ∧
    (∃ v u, chunkBody 5 (inBlock 65#10 0#10).cleared = .ok v u) ∧
    (∃ f u, chunkBody 1 (inBlock 510#10 0#10).cleared = .failed f u) :=
  ⟨⟨⟨rfl, rfl, rfl⟩, ⟨rfl, trivial⟩, by decide, inBlock_ready _ _⟩, of_completes (by decide +kernel),
    of_not_completes (by decide +kernel)⟩
/-- 'A' produced, a symbol next: the C symbol `c`, then the position symbol `p`. -/
def matching (c p : BitVec 10) : State := { inBlock c p with outMem := (pending 8 0 0).outMem, win := (pending 8 0 0).win }
theorem witness_ChunkBytesAreLiteralsAndMatches :
    (([(65, 0), (255, 0), (256, 0), (509, 0), (510, 0), (256, 14)] : List (BitVec 10 × BitVec 10)).all (fun q =>
      let s := matching q.1 q.2
      let u := after .decodeC s
      decide (s.status.running = none ∧ s.status.ready = true ∧ s.status.fail = false ∧ s.tabs.cBuilt = true ∧
        s.tabs.ptKind = .position ∧ s.win.produced.toNat < s.lat.outLen.toNat ∧ s.win.matchRem = 0#9 ∧
        (q.1 < 510#10 → u.status.fail = false ∧ u.regs.result = q.1.setWidth 32) ∧ (q.1 = 510#10 → u.status.fail = true) ∧
        (q.2 = 14#10 → (after .decodeP u).status.fail = true) ∧ (q.2 = 0#10 → 256#10 ≤ q.1 → q.1 < 510#10 →
          (after .decodeP u).status.fail = false)))) = true ∧
    ((pending 6 0 5).Runs ∧ (pending 6 0 5).TablesReady ∧ (pending 6 0 5).win.produced.toNat < (pending 6 0 5).lat.outLen.toNat ∧
      (pending 6 0 5).win.matchRem ≠ 0#9) :=
  ⟨by decide +kernel, ⟨rfl, rfl, rfl⟩, fun h => absurd rfl h, by decide, by decide⟩
theorem witness_PendingCopyResumesWithoutReadingBits :
    (pending 6 0 5).Runs ∧ (5#16).toNat ≤ (pending 6 0 5).win.matchRem.toNat ∧
    (5#16).toNat ≤ (pending 6 0 5).lat.outLen.toNat - (pending 6 0 5).win.produced.toNat ∧ (pending 6 0 5).TablesReady ∧
    (pending 6 0 5).SourceReadable :=
  ⟨⟨rfl, rfl, rfl⟩, by decide, by decide, fun h => absurd rfl h, .inr (.inr (by decide))⟩
theorem witness_ChunkSplitsDoNotMatter :
    (inBlock 65#10 0#10).Runs ∧ (2#16).toNat = (1#16).toNat + (1#16).toNat ∧
    (2#16).toNat ≤ (inBlock 65#10 0#10).lat.outLen.toNat - (inBlock 65#10 0#10).win.produced.toNat ∧
    (inBlock 65#10 0#10).TablesReady ∧
    exec (.decodeChunk 1#16) (inBlock 65#10 0#10) = .next (after (.decodeChunk 1#16) (inBlock 65#10 0#10)) ∧
    (after (.decodeChunk 1#16) (inBlock 65#10 0#10)).status.fail = false ∧
    ((inBlock 510#10 0#10).Runs ∧ (inBlock 510#10 0#10).TablesReady ∧
      (after (.decodeChunk 1#16) (inBlock 510#10 0#10)).status.fail = true) :=
  ⟨⟨rfl, rfl, rfl⟩, by decide, by decide, inBlock_ready _ _, exec_after _ _, by decide +kernel, ⟨rfl, rfl, rfl⟩,
    inBlock_ready _ _, by decide +kernel⟩
theorem witness_DecodeAllReachesTheDeclaredLength :
    (ready.Runs ∧ 1 ≤ ready.cfg.chunk ∧ ready.win.produced = ready.lat.outLen) ∧
    ((inBlock 65#10 0#10).Runs ∧ (inBlock 65#10 0#10).win.produced.toNat < (inBlock 65#10 0#10).lat.outLen.toNat ∧
      (inBlock 65#10 0#10).TablesReady ∧ (after .decodeAll (inBlock 65#10 0#10)).status.fail = false) ∧
    (8#16).toNat = (inBlock 65#10 0#10).lat.outLen.toNat - (inBlock 65#10 0#10).win.produced.toNat :=
  ⟨⟨⟨rfl, rfl, rfl⟩, by decide, rfl⟩, ⟨⟨rfl, rfl, rfl⟩, by decide, inBlock_ready _ _, by decide +kernel⟩, by decide⟩

theorem witness_StepKeepsTheInvariants : ready.Inv ∧ step ready = .next ready := ⟨ready_inv, rfl⟩
theorem witness_AcceptedClearsErrRejectedKeepsTheRest :
    ready.status.running = none ∧ exec (.peek 16#5) ready = .next (after (.peek 16#5) ready) ∧
    exec (.peek 17#5) ready = .next (after (.peek 17#5) ready) := ⟨rfl, exec_after _ _, exec_after _ _⟩
theorem witness_FailureStaysUntilInitOrReset :
    failed.status.running = none ∧ failed.status.fail = true ∧ failed.status.ready = true ∧ isControl (.getLen .c 0#16) = false ∧
    exec (.getLen .c 0#16) failed = .next (after (.getLen .c 0#16) failed) := ⟨rfl, rfl, rfl, rfl, exec_after _ _⟩
theorem witness_FailureKeepsResultAndNamesItsCause :
    ready.status.fail = false ∧ exec (.makeTable .pt 19#16) ready = .next (after (.makeTable .pt 19#16) ready) ∧
    (after (.makeTable .pt 19#16) ready).status.fail = true ∧
    ((after (.copy 1#16) (pending 6 1 5)).status.fail = true ∧ 0 < (after (.copy 1#16) (pending 6 1 5)).win.produced.toNat) :=
  ⟨rfl, exec_after _ _, by decide +kernel, by decide +kernel⟩
theorem witness_OutputWritesStayInTheProducedRange :
    (room 6).win.produced.toNat ≤ (room 6).lat.outLen.toNat ∧
    exec (.putLiteral 65#16) (room 6) = .next (after (.putLiteral 65#16) (room 6)) ∧
    (after (.putLiteral 65#16) (room 6)).status.fail = (room 6).status.fail ∧ exec .init (room 6) = .next (after .init (room 6)) :=
  ⟨by decide, exec_after _ _, by decide +kernel, exec_after _ _⟩
theorem witness_HostOwnedStateAndLatchedLengths :
    exec .init loaded = .next started ∧ loaded.status.running = none ∧ exec .decodeAll ready = .next (after .decodeAll ready) :=
  ⟨exec_after _ _, rfl, exec_after _ _⟩

end Sys2Proof.Tests
end

section
/-! PROOFS. The host's move to CMD (00_scope.md R20, 60_exceptions.md R450, R451): an idle core rejects a command word at once,
or accepts it, and acceptance decides nothing anew. So a command left in flight and then waited for is the command written. -/

namespace Sys2Proof.Machine

/-! ## Acceptance touches nothing that the prechecks read -/

@[simp] theorem operandsLegal_accept (i : Instr) (s : State) : operandsLegal i (accept s) = operandsLegal i s := by
  cases i <;> rfl

@[simp] theorem preconditionOf_accept (i : Instr) (s : State) : preconditionOf i (accept s) = preconditionOf i s := by
  cases i <;> rfl

@[simp] theorem precheck_accept (g : Gate) (legal : Bool) (pre : Option ErrCause) (s : State) :
    precheck g legal pre (accept s) = precheck g legal pre s := rfl

/-- A command that passes its prechecks ends alike from the state before acceptance and from the one after it. -/
theorem exec_accept {i : Instr} {s : State} (h : s.status.running = none)
    (hp : precheck (gateOf i) (operandsLegal i s) (preconditionOf i s) s = none) :
    exec i (accept s) = .next (finish (bodyOf i (accept s))) := by
  have ha : (accept s).status.running = none := h
  rw [exec_eq_run, runCommand_idle ha]
  simp only [operandsLegal_accept, preconditionOf_accept, precheck_accept, hp, accept_accept]

/-! ## A word written to CMD of an idle core -/

theorem hostWrite_cmd {s : State} (h : s.status.running = none) (w : Word) : hostWrite 0x00#8 w s = command w s := by
  simp [hostWrite, busyBit_eq_false h]

/-- A word on CMD of an idle core is rejected, or it is a command that ends with ERR clear and that acceptance does not change
(R450, R451). -/
theorem command_idle_cases {s : State} (h : s.status.running = none) (w : Word) :
    (∃ c, command w s = .next (reject c s)) ∨
    (∃ t, command w s = .next t ∧ t.status.err = false ∧ command w (accept s) = .next t) := by
  cases hd : decode w with
  | error e => exact .inl ⟨decodeCause e, by simp [command, hd, busyBit_eq_false h]⟩
  | ok i =>
    have hc : ∀ u, command w u = exec i u := fun u => by simp only [command, hd]
    simp only [hc]
    obtain ⟨hbusy, -⟩ | ⟨c, -, -, hrej⟩ | ⟨-, hp, hrun⟩ := exec_cases (exec_eq_run i s)
    · exact absurd h hbusy
    · exact .inl ⟨c, by rw [exec_eq_run, hrej]⟩
    · exact .inr ⟨_, by rw [exec_eq_run, hrun], (ran_err i s).1, exec_accept h hp⟩

/-! ## A command in flight -/

/-- The command of `w` in flight, no write dropped yet. -/
def launch (w : Word) (s : State) : State :=
  { s with status := { s.status with running := some { word := w, dropped := false } } }

theorem startCommand_rejected {s : State} (h : s.status.running = none) {w : Word} {c : ErrCause}
    (hc : command w s = .next (reject c s)) : startCommand w s = .next (reject c s) := by
  simp [startCommand, busyBit_eq_false h, hc, reject]

theorem startCommand_accepted {s t : State} (h : s.status.running = none) {w : Word} (hc : command w s = .next t)
    (ht : t.status.err = false) : startCommand w s = .next (launch w (accept s)) := by
  simp [startCommand, busyBit_eq_false h, hc, ht, launch]

theorem complete_idle {s : State} (h : s.status.running = none) : complete s = .next s := by
  simp only [complete, h]

/-- With no write dropped, a command in flight ends as it does from the idle state it was launched in. -/
theorem complete_launch {s t : State} (h : s.status.running = none) {w : Word} (hc : command w s = .next t) :
    complete (launch w s) = .next t := by
  have hs : { launch w s with status := { (launch w s).status with running := none } } = s := by
    rw [launch, ← h]
  have hr : (launch w s).status.running = some { word := w, dropped := false } := rfl
  simp only [complete, hr, hs, hc]
  rfl

/-- Settles O7: a rejected word leaves nothing in flight; an accepted command completes from the accepted state, which its own
acceptance does not change. -/
theorem startThenCompleteEqualsWrite : Obligations.StartThenCompleteEqualsWrite := by
  intro w s h
  rw [hostWrite_cmd h]
  obtain ⟨c, hc⟩ | ⟨t, hc, ht, ha⟩ := command_idle_cases h w
  · exact ⟨reject c s, startCommand_rejected h hc, by rw [hc]; exact complete_idle h⟩
  · exact ⟨launch w (accept s), startCommand_accepted h hc ht, by rw [hc]; exact complete_launch (s := accept s) h ha⟩

end Sys2Proof.Machine
end

section
/-! PROOFS. The invariants of 10_state.md, grouped by component of the state, so that an update of one component owes the
invariants of that component only; every update of a command keeps them, hence every command, hence every move of the host. -/

namespace Sys2Proof.Machine

/-! ## The invariants by component -/

/-- A length array: its form, and lengths 0..16 (10_state.md R48). -/
structure LensInv (l : Entries 5) : Prop where
  rising : rising l = true
  le : ∀ i, (lenAt l i).toNat ≤ 16

/-- Block and table state (10_state.md R47 to R51), BLOCKSIZE `w` bits wide. -/
structure TablesInv (w : CounterWidth) (t : Tables) : Prop where
  cLen : LensInv t.cLen
  ptLen : LensInv t.ptLen
  cTable : rising t.cTable = true
  ptTable : rising t.ptTable = true
  left : rising t.left = true
  right : rising t.right = true
  blockSize : t.blockSize.toNat < 2 ^ w.bits
  ptNchar : t.ptNchar = ptNcharOf t.ptKind

/-- The WindowExpander (10_state.md R53 to R55), `n` the declared length. -/
structure ExpanderInv (n : Nat) (e : Expander) : Prop where
  window : Memory.wf e.window = true
  pos : e.pos.toNat = e.produced.toNat % 8192
  produced : e.produced.toNat ≤ n
  matchRem : e.matchRem.toNat ≤ 256

/-- STATUS: a cause only with its flag (10_state.md R37). -/
structure StatusInv (r : StatusRegs) : Prop where
  fail_clear : r.fail = false → r.failCause = 0#8 ∧ r.failTable = 0#4 ∧ r.failDetail = 0#24
  err_clear : r.err = false → r.errCause = 0#8

/-- `State.Inv`, one field for each component of the state. -/
structure Invariants (s : State) : Prop where
  cfg : s.cfg.wf = true
  inMem : Memory.wf s.inMem = true
  outMem : Memory.wf s.outMem = true
  tabs : TablesInv s.cfg.blockCntBits s.tabs
  win : ExpanderInv s.lat.outLen.toNat s.win
  status : StatusInv s.status
  reader : ReaderBounds (sourceOf s) s.bits
  bitcount : s.bits.bitcount.toNat ≤ 7

theorem inv_iff_invariants (s : State) : s.Inv ↔ Invariants s := by
  have hk : (match s.tabs.ptKind with | .unbuilt => 0#5 | .metaList => 19#5 | .position => 14#5) =
      ptNcharOf s.tabs.ptKind := by cases s.tabs.ptKind <;> rfl
  constructor
  · intro h
    exact
      { cfg := h.cfg_wf, inMem := h.in_wf, outMem := h.out_wf
        tabs := ⟨⟨h.cLen_rising, h.cLen_le⟩, ⟨h.ptLen_rising, h.ptLen_le⟩, h.cTable_rising, h.ptTable_rising,
          h.left_rising, h.right_rising, h.blockSize_lt, h.ptNchar_eq.trans hk⟩
        win := ⟨h.window_wf, h.pos_eq, h.produced_le, h.matchRem_le⟩
        status := ⟨h.fail_clear, h.err_clear⟩
        reader := ⟨s.lat.inLen.isLt, h.stageIdx_le, h.stageLen_le, h.inCursor_le⟩
        bitcount := h.bitcount_le }
  · intro ⟨hc, hi, ho, ht, hw, hs, hr, hb⟩
    exact
      { cfg_wf := hc, in_wf := hi, out_wf := ho, window_wf := hw.window
        cLen_rising := ht.cLen.rising, ptLen_rising := ht.ptLen.rising, cTable_rising := ht.cTable
        ptTable_rising := ht.ptTable, left_rising := ht.left, right_rising := ht.right
        cLen_le := ht.cLen.le, ptLen_le := ht.ptLen.le
        pos_eq := hw.pos, produced_le := hw.produced, matchRem_le := hw.matchRem
        stageIdx_le := hr.stageIdx_le, stageLen_le := hr.stageLen_le, inCursor_le := hr.inCursor_le, bitcount_le := hb
        blockSize_lt := ht.blockSize, ptNchar_eq := ht.ptNchar.trans hk.symm
        fail_clear := hs.fail_clear, err_clear := hs.err_clear }

theorem stageCap_le {p : Params} (h : p.wf = true) : p.stageCap ≤ 65535 := by
  simp only [Params.wf, Bool.and_eq_true, decide_eq_true_eq] at h
  omega

/-! ## Updates of the tables -/

theorem LensInv.set {l : Entries 5} (h : LensInv l) (i : Nat) {x : BitVec 5} (hx : x.toNat ≤ 16) :
    LensInv (setLenAt l i x) := by
  refine ⟨rising_setLenAt l i x h.rising, fun j => ?_⟩
  rw [lenAt_setLenAt]
  split
  · exact hx
  · exact h.le j

theorem LensInv.zero {l : Entries 5} (h : LensInv l) (lo hi : Nat) : LensInv (zeroLens l lo hi) := by
  refine ⟨rising_zeroLens l lo hi h.rising, fun j => ?_⟩
  rw [lenAt_zeroLens]
  split
  · exact Nat.zero_le 16
  · exact h.le j

theorem ofNat5_le {c : Nat} (h : c ≤ 16) : (BitVec.ofNat 5 c).toNat ≤ 16 := by
  rw [BitVec.toNat_ofNat]
  omega

theorem nchar_eq_ptNcharOf {id : TableId} (h : id ≠ .cTable) : BitVec.ofNat 5 id.nchar = ptNcharOf id.kind := by
  cases id with
  | cTable => exact absurd rfl h
  | metaTable => rfl
  | posTable => rfl

section Tables
variable {w : CounterWidth} {s : State}

theorem TablesInv.clearStatus (h : TablesInv w s.tabs) (id : TableId) : TablesInv w (clearStatus id s).tabs := by
  cases id with
  | cTable => exact { h with }
  | metaTable => exact { h with ptNchar := rfl }
  | posTable => exact { h with ptNchar := rfl }

theorem TablesInv.tableOf (h : TablesInv w s.tabs) (id : TableId) : Machine.rising (tableOf id s) = true := by
  cases id with
  | cTable => exact h.cTable
  | metaTable => exact h.ptTable
  | posTable => exact h.ptTable

theorem TablesInv.endBuild (h : TablesInv w s.tabs) (id : TableId) {b : Build} (hb : BuildRising b) :
    TablesInv w (endBuild id b s).tabs := by
  by_cases hid : id = .cTable
  · subst hid
    exact { h with cTable := hb.table, left := hb.left, right := hb.right }
  · rw [endBuild_pt hid]
    exact { h with ptTable := hb.table, left := hb.left, right := hb.right, ptNchar := nchar_eq_ptNcharOf hid }

/-- A build that passes its completeness check. -/
theorem TablesInv.build (h : TablesInv w s.tabs) (id : TableId) :
    TablesInv w (Machine.endBuild id (builtFrom id s) (Machine.clearStatus id s)).tabs :=
  (h.clearStatus id).endBuild id (builtFrom_rising id s (h.tableOf id) h.left h.right)

theorem TablesInv.singlePt (h : TablesInv w s.tabs) {p : PtList} (hp : p.id ≠ .cTable) :
    TablesInv w (singlePt p s).tabs := by
  simp only [Machine.singlePt, getBits, zeroPtLens, consumeBits_tabs]
  exact
    { h with
      ptLen := h.ptLen.zero _ _
      ptTable := rising_fillRange _ _ _ _ h.ptTable
      ptNchar := nchar_eq_ptNcharOf hp }

theorem TablesInv.singleC (h : TablesInv w s.tabs) : TablesInv w (singleC s).tabs := by
  simp only [Machine.singleC, getBits, zeroCLens, consumeBits_tabs]
  exact { h with cLen := h.cLen.zero _ _, cTable := rising_fillRange _ _ _ _ h.cTable }

theorem TablesInv.setLength (h : TablesInv w s.tabs) (t : Side) {n : BitVec 5} (i : Nat) (hn : n.toNat ≤ 16) :
    TablesInv w (setLength t n i s).tabs := by
  cases t with
  | c => exact { h with cLen := h.cLen.set i hn }
  | pt => exact { h with ptLen := h.ptLen.set i hn, ptNchar := rfl }

theorem two_pow_16_le (w : CounterWidth) : 2 ^ 16 ≤ 2 ^ w.bits := by cases w <;> decide

/-- A block header's 16 bits fit every counter width. -/
theorem TablesInv.header (h : TablesInv w s.tabs) (v : BitVec 16) :
    TablesInv w (setBlockSize (v.setWidth 32) s).tabs := by
  refine { h with blockSize := ?_ }
  have hv := v.isLt
  have hw := two_pow_16_le w
  rw [setBlockSize_blockSize, BitVec.toNat_setWidth]
  omega

theorem TablesInv.decrement (h : TablesInv w s.tabs) :
    TablesInv w (setBlockSize (decrementBlock w s.tabs.blockSize) s).tabs := by
  refine { h with blockSize := ?_ }
  rw [setBlockSize_blockSize, decrementBlock_toNat w _ h.blockSize]
  exact Nat.mod_lt _ (Nat.two_pow_pos _)

end Tables

/-! ## Updates of the state -/

section Updates
variable {s : State}

theorem Invariants.withTabs (h : Invariants s) {t : Tables} (ht : TablesInv s.cfg.blockCntBits t) :
    Invariants { s with tabs := t } := { h with tabs := ht }

/-- An update that leaves everything but the tables as it was owes the tables' invariants only. -/
theorem Invariants.tables (h : Invariants s) {u : State} (hu : u = { s with tabs := u.tabs })
    (ht : TablesInv s.cfg.blockCntBits u.tabs) : Invariants u := by
  rw [hu]
  exact h.withTabs ht

theorem Invariants.consumeBits (h : Invariants s) (n : Nat) : Invariants (consumeBits n s) := by
  unfold Machine.consumeBits
  split
  · exact h
  · obtain ⟨hr, hb⟩ := h.reader.shiftIn (stageCap_le h.cfg) n h.bitcount
    exact { h with reader := ⟨hr.len_lt, hr.stageIdx_le, hr.stageLen_le, hr.inCursor_le⟩, bitcount := hb }

theorem Invariants.clearStatus (h : Invariants s) (id : TableId) : Invariants (clearStatus id s) :=
  h.tables (by cases id <;> rfl) (h.tabs.clearStatus id)

theorem Invariants.build (h : Invariants s) (id : TableId) :
    Invariants (endBuild id (builtFrom id s) (Machine.clearStatus id s)) := by
  have ht := h.tabs.build id
  generalize builtFrom id s = b at ht ⊢
  exact h.tables (by cases id <;> rfl) ht

theorem Invariants.singlePt (h : Invariants s) {p : PtList} (hp : p.id ≠ .cTable) : Invariants (singlePt p s) :=
  (h.consumeBits p.nbit).tables (by simp only [Machine.singlePt, getBits, zeroPtLens]) (by
    simpa using h.tabs.singlePt hp)

theorem Invariants.singleC (h : Invariants s) : Invariants (singleC s) :=
  (h.consumeBits 9).tables (by simp only [Machine.singleC, getBits, zeroCLens]) (by simpa using h.tabs.singleC)

/-- EMIT moves POS and PRODUCED together (43_window_expander.md R351). -/
theorem Invariants.emit (h : Invariants s) (hp : s.win.produced.toNat < s.lat.outLen.toNat) (b : Byte) :
    Invariants (emit b s) := by
  obtain ⟨hwin, hpos, -, hrem⟩ := h.win
  have hadd := produced_succ hp (emit_produced b s)
  refine { h with outMem := ?_, win := ⟨Memory.wf_write _ _ _ hwin, ?_, ?_, hrem⟩ }
  · rw [emit_outMem]
    split
    · exact Memory.wf_write _ _ _ h.outMem
    · exact h.outMem
  · rw [hadd, emit_pos, BitVec.toNat_add, hpos]
    simp
  · rw [hadd, emit_lat]
    exact hp

theorem Invariants.advanceMatch (h : Invariants s) (hm : s.win.matchRem ≠ 0#9) : Invariants (advanceMatch s) := by
  have hrem := h.win.matchRem
  have hpos : s.win.matchRem.toNat ≠ 0 := fun h0 => hm (BitVec.eq_of_toNat_eq h0)
  refine { h with win := ⟨h.win.window, h.win.pos, h.win.produced, ?_⟩ }
  rw [advanceMatch_matchRem, BitVec.toNat_sub]
  simp
  omega

theorem Invariants.startCopy (h : Invariants s) {n : Nat} (hn : n ≤ 256) (d : Nat) : Invariants (startCopy n d s) := by
  refine { h with win := ⟨h.win.window, h.win.pos, h.win.produced, ?_⟩ }
  rw [startCopy_matchRem, BitVec.toNat_ofNat]
  omega

end Updates

/-! ## Commands -/

theorem metaOrPosition_ne_c {p : PtList} (h : p = metaList ∨ p = positionList) : p.id ≠ .cTable := by
  obtain rfl | rfl := h <;> exact fun h => nomatch h

/-- Every update of a decode keeps the invariants. -/
theorem invariants_closed : CommandClosed Invariants where
  output :=
    { block :=
        { pt :=
            { consume := fun n _ h => h.consumeBits n
              clear := fun id _ _ h => h.clearStatus id
              build := fun id _ _ _ h => h.build id
              setLen := fun i _ _ hc h => h.withTabs { h.tabs with ptLen := h.tabs.ptLen.set i (ofNat5_le hc) }
              zeroLens := fun lo hi _ h => h.withTabs { h.tabs with ptLen := h.tabs.ptLen.zero lo hi }
              single := fun _ _ hp h => h.singlePt (metaOrPosition_ne_c hp) }
          c :=
            { consume := fun n _ h => h.consumeBits n
              clear := fun _ h => h.clearStatus .cTable
              build := fun _ _ h => h.build .cTable
              setLen := fun i _ _ hc h => h.withTabs { h.tabs with cLen := h.tabs.cLen.set i (ofNat5_le hc) }
              zeroLens := fun lo hi _ h => h.withTabs { h.tabs with cLen := h.tabs.cLen.zero lo hi }
              single := fun _ h => h.singleC }
          header := fun s h => h.withTabs (h.tabs.header s.bits.bitbuf)
          decrement := fun _ h => h.withTabs h.tabs.decrement }
      literal := fun b _ hp h => h.emit hp b
      copy := fun b _ hp hm h => (h.emit hp b).advanceMatch hm
      start := fun _ d _ _ hn h => h.startCopy hn d
      draw := fun _ h => { h with } }
  setLength := fun t _ i _ hn h => h.tables (by cases t <;> rfl) (h.tabs.setLength t i hn)

section Commands
variable {s t : State}

theorem Invariants.accept (h : Invariants s) : Invariants (accept s) :=
  { h with status := ⟨h.status.fail_clear, fun _ => rfl⟩ }

theorem Invariants.reject (h : Invariants s) (c : ErrCause) : Invariants (reject c s) :=
  { h with status := ⟨h.status.fail_clear, fun he => nomatch he⟩ }

theorem Invariants.dropWrite (h : Invariants s) : Invariants (dropWrite s) :=
  { h with status := ⟨h.status.fail_clear, h.status.err_clear⟩ }

theorem Invariants.failWith (h : Invariants s) (f : Failure) : Invariants (failWith f s) :=
  { h with
    outMem := Memory.wf_dropRange _ _ _ h.outMem
    status := ⟨fun hf => Bool.noConfusion hf, h.status.err_clear⟩ }

/-- A command's end keeps the invariants its last step left. -/
theorem Invariants.finish {x : Flow (Option Word)} (h : Invariants x.state) : Invariants (finish x) := by
  obtain ⟨v, -, e⟩ | ⟨-, e⟩ | ⟨f, -, e⟩ := finish_cases x <;> rw [e]
  · exact { h with }
  · exact h
  · exact h.failWith f

/-- The reset state meets the invariants with any parameters in range and any well-formed buffers. -/
theorem Invariants.coldReset (hc : s.cfg.wf = true) (hi : Memory.wf s.inMem = true) (ho : Memory.wf s.outMem = true) :
    Invariants (coldReset s) where
  cfg := hc
  inMem := hi
  outMem := ho
  tabs := ⟨⟨rfl, fun _ => Nat.zero_le 16⟩, ⟨rfl, fun _ => Nat.zero_le 16⟩, rfl, rfl, rfl, rfl, Nat.two_pow_pos _, rfl⟩
  win := ⟨rfl, rfl, Nat.zero_le _, Nat.zero_le _⟩
  status := ⟨fun _ => ⟨rfl, rfl, rfl⟩, fun _ => rfl⟩
  reader := ⟨Nat.two_pow_pos _, Nat.zero_le _, Nat.zero_le _, Nat.zero_le _⟩
  bitcount := Nat.zero_le 7

/-- INIT_BITS starts from an empty reader, which is within every bound (40_bitreader.md R203). -/
theorem initBits_bounds {src : Source} (hc : src.cap ≤ 65535) (hl : src.len < 2 ^ 32) (b : BitReader) :
    ReaderBounds src (initBits src b) ∧ (initBits src b).bitcount.toNat ≤ 7 := by
  obtain ⟨hr, hb⟩ := ReaderBounds.shiftIn hc
    (b := { b with bitbuf := 0, subbitbuf := 0, bitcount := 0, stage := [], stageIdx := 0, inCursor := 0 })
    ⟨hl, Nat.zero_le _, Nat.zero_le _, Nat.zero_le _⟩ 16 (Nat.zero_le 7)
  exact ⟨⟨hr.len_lt, hr.stageIdx_le, hr.stageLen_le, hr.inCursor_le⟩, hb⟩

theorem Invariants.initDecode (h : Invariants s) : Invariants (initDecode s) := by
  obtain ⟨hr, hb⟩ :=
    initBits_bounds (src := sourceOf (Machine.initDecode s)) (stageCap_le h.cfg) s.regs.inLen.isLt s.bits
  exact
    { h with
      tabs := { h.tabs with blockSize := Nat.two_pow_pos _, ptNchar := rfl }
      win := ⟨h.win.window, rfl, Nat.zero_le _, Nat.zero_le _⟩
      status := ⟨fun _ => ⟨rfl, rfl, rfl⟩, h.status.err_clear⟩
      reader := hr
      bitcount := hb }

/-- Every command keeps the invariants, whether it is dropped, rejected, completed or failed. -/
theorem Invariants.exec {i : Instr} (h : Invariants s) (he : exec i s = .next t) : Invariants t := by
  obtain ⟨-, rfl⟩ | ⟨c, -, -, rfl⟩ | ⟨-, hp, rfl⟩ := exec_cases he
  · exact h.dropWrite
  · exact h.reject c
  · refine Invariants.finish ?_
    by_cases hi : i = .init
    · subst hi
      exact h.accept.initDecode
    by_cases hr : i = .reset
    · subst hr
      exact Invariants.coldReset h.cfg h.inMem h.outMem
    · exact invariants_closed.ran ⟨hi, hr⟩ hp h.accept

theorem Invariants.command {w : Word} (h : Invariants s) (he : command w s = .next t) : Invariants t := by
  unfold Machine.command at he
  split at he
  · exact h.exec he
  · cases he
    split
    · exact h.dropWrite
    · exact h.reject _

end Commands

/-! ## Host moves -/

section Moves
variable {s t : State}

/-- What a register write can do: it is dropped, it runs a command, or it stores one of the host's registers or nothing. -/
theorem hostWrite_cases {off : BitVec 8} {v : Word} (h : hostWrite off v s = .next t) :
    t = dropWrite s ∨ command v s = .next t ∨ ∃ r : HostRegs, t = { s with regs := r } := by
  unfold hostWrite at h
  split at h
  · cases h
    exact .inl rfl
  split at h
  case h_1 => exact .inr (.inl h)
  all_goals
    cases h
    exact .inr (.inr ⟨_, rfl⟩)

theorem Invariants.hostWrite {off : BitVec 8} {v : Word} (h : Invariants s) (he : hostWrite off v s = .next t) :
    Invariants t := by
  obtain rfl | hc | ⟨r, rfl⟩ := hostWrite_cases he
  · exact h.dropWrite
  · exact h.command hc
  · exact { h with }

/-- BUSY is no part of the invariants. -/
theorem Invariants.withRunning (h : Invariants s) (r : Option Running) :
    Invariants { s with status := { s.status with running := r } } :=
  { h with status := ⟨h.status.fail_clear, h.status.err_clear⟩ }

theorem Invariants.startCommand {w : Word} (h : Invariants s) (he : startCommand w s = .next t) : Invariants t := by
  unfold Machine.startCommand at he
  split at he
  · cases he
    exact h.dropWrite
  split at he
  · next u hu =>
    split at he <;> cases he
    · exact h.command hu
    · exact h.accept.withRunning _
  · cases he
  · cases he

theorem Invariants.settleOverrun (h : Invariants s) (d : Bool) : Invariants (settleOverrun d s) := by
  unfold Machine.settleOverrun
  split
  · exact { h with status := ⟨h.status.fail_clear, h.status.err_clear⟩ }
  · exact h

theorem Invariants.complete (h : Invariants s) (he : complete s = .next t) : Invariants t := by
  unfold Machine.complete at he
  split at he
  · cases he
    exact h
  split at he
  · next r _ u hu =>
    cases he
    exact ((h.withRunning none).command hu).settleOverrun _
  · cases he
  · cases he

theorem Invariants.platformReset (h : Invariants s) : Invariants (platformReset s) := by
  unfold Machine.platformReset
  split
  · exact Invariants.coldReset h.cfg h.inMem h.outMem
  split
  · exact Invariants.coldReset h.cfg h.inMem (Memory.wf_dropRange _ _ _ h.outMem)
  · exact Invariants.coldReset h.cfg h.inMem h.outMem
  · exact Invariants.coldReset h.cfg h.inMem h.outMem

theorem Invariants.placeInput {off : Word} {b : Byte} (h : Invariants s) (he : placeInput off b s = .next t) :
    Invariants t := by
  unfold Machine.placeInput at he
  split at he
  · cases he
  split at he <;> cases he
  exact
    { h with
      inMem := Memory.wf_write _ _ _ h.inMem
      reader := ⟨h.reader.len_lt, h.reader.stageIdx_le, h.reader.stageLen_le, h.reader.inCursor_le⟩ }

theorem Invariants.writeOutput {off : Word} {b : Byte} (h : Invariants s) (he : writeOutput off b s = .next t) :
    Invariants t := by
  unfold Machine.writeOutput at he
  split at he
  · cases he
  split at he <;> cases he
  exact { h with outMem := Memory.wf_write _ _ _ h.outMem }

theorem Invariants.readInput {off : Word} (h : Invariants s) (he : readInput off s = .next t) : Invariants t := by
  unfold Machine.readInput at he
  split at he <;> cases he
  exact { h with }

theorem Invariants.readOutput {off : Word} (h : Invariants s) (he : readOutput off s = .next t) : Invariants t := by
  unfold Machine.readOutput at he
  split at he
  · cases he
  split at he <;> cases he <;> exact { h with }

theorem Invariants.hostRead (h : Invariants s) (off : BitVec 8) : Invariants (hostRead off s) := by
  rw [hostRead_frame]
  exact { h with }

theorem Invariants.hostMove {op : HostOp} (h : Invariants s) (he : hostMove op s = .next t) : Invariants t := by
  cases op with
  | write off v =>
    simp only [Machine.hostMove] at he
    split at he
    · exact h.hostWrite he
    · cases he
  | start w => exact h.startCommand he
  | poll => exact h.complete he
  | read off =>
    simp only [Machine.hostMove] at he
    split at he <;> cases he
    exact h.hostRead off
  | platformReset =>
    cases he
    exact h.platformReset
  | placeIn off b => exact h.placeInput he
  | readIn off => exact h.readInput he
  | writeOut off b => exact h.writeOutput he
  | readOut off => exact h.readOutput he

theorem Invariants.step (h : Invariants s) (he : step s = .next t) : Invariants t := by
  unfold Machine.step at he
  split at he
  · exact h.complete he
  · next op rest _ => exact Invariants.hostMove (s := { s with hostOps := rest }) { h with } he

end Moves

/-- Settles O55: the invariants, taken component by component, are kept by every update, so by every command and every move of
the host. -/
theorem stepKeepsTheInvariants : Obligations.StepKeepsTheInvariants := by
  intro s t h he
  rw [inv_iff_invariants] at h ⊢
  exact h.step he

end Sys2Proof.Machine
end

section
/-! PROOFS. The register window (10_state.md R33 to R37): what each offset reads and what a write to it does, idle and BUSY. -/

namespace Sys2Proof.Machine

/-! ## The packed registers -/

/-- A word put together from two fields is the low one plus the high one at its place. -/
theorem toNat_append_eq_add {v w : Nat} (x : BitVec v) (y : BitVec w) :
    (x ++ y).toNat = y.toNat + 2 ^ w * x.toNat := by
  rw [BitVec.toNat_append, ← Nat.shiftLeft_add_eq_or_of_lt y.isLt, Nat.shiftLeft_eq, Nat.mul_comm, Nat.add_comm]

theorem bitStateWord_toNat (s : State) : (bitStateWord s).toNat =
    s.bits.bitbuf.toNat + 2 ^ 16 * s.bits.subbitbuf.toNat + 2 ^ 24 * s.bits.bitcount.toNat := by
  simp only [bitStateWord, toNat_append_eq_add]
  simp

theorem matchWord_toNat (s : State) :
    (matchWord s).toNat = s.win.matchSrc.toNat + 2 ^ 16 * s.win.matchRem.toNat := by
  simp only [matchWord, toNat_append_eq_add]
  simp

theorem stageStateWord_toNat (s : State) :
    (stageStateWord s).toNat = s.bits.stageIdx.toNat + 2 ^ 16 * (s.bits.stage.length % 2 ^ 16) := by
  simp only [stageStateWord, toNat_append_eq_add]
  simp

theorem failInfoWord_toNat (s : State) :
    (failInfoWord s).toNat = s.status.failTable.toNat + 2 ^ 8 * s.status.failDetail.toNat := by
  simp only [failInfoWord, toNat_append_eq_add]
  simp

theorem tableStateWord_toNat (s : State) : (tableStateWord s).toNat =
    s.tabs.cBuilt.toNat + 2 * s.tabs.ptKind.code.toNat + 2 ^ 8 * s.tabs.ptNchar.toNat := by
  simp only [tableStateWord, toNat_append_eq_add]
  simp

theorem availWord_toNat (s : State) :
    (availWord s).toNat = s.tabs.cAvail.toNat + 2 ^ 16 * s.tabs.ptAvail.toNat := by
  simp only [availWord, toNat_append_eq_add]
  simp

theorem posWord_toNat (s : State) : (s.win.pos.setWidth 32 : Word).toNat = s.win.pos.toNat := by
  have := s.win.pos.isLt
  rw [BitVec.toNat_setWidth]
  omega

/-! ## STATUS (R37) -/

/-- Bits 7..0 of STATUS, the lowest first. -/
def statusFlags (s : State) : List Bool :=
  [busyBit s, s.status.ready, doneBit s, s.status.fail, s.status.err, s.status.ovr, matchPendingBit s, needBlockBit s]

theorem statusWord_getLsbD (s : State) (i : Nat) : (statusWord s).getLsbD i =
    if i < 8 then (statusFlags s).getD i false else if i < 16 then s.status.failCause.getLsbD (i - 8)
    else if i < 24 then s.status.errCause.getLsbD (i - 16) else false := by
  show BitVec.getLsbD (w := 8 + (8 + (8 + (1 + (1 + (1 + (1 + (1 + (1 + (1 + 1))))))))))
    (0#8 ++ (s.status.errCause ++ (s.status.failCause ++
      (BitVec.ofBool (needBlockBit s) ++ (BitVec.ofBool (matchPendingBit s) ++ (BitVec.ofBool s.status.ovr ++
      (BitVec.ofBool s.status.err ++ (BitVec.ofBool s.status.fail ++ (BitVec.ofBool (doneBit s) ++
      (BitVec.ofBool s.status.ready ++ BitVec.ofBool (busyBit s))))))))))) i = _
  simp only [BitVec.getLsbD_append, BitVec.getLsbD_ofBool, BitVec.getLsbD_zero]
  by_cases h8 : i < 8
  · obtain rfl | rfl | rfl | rfl | rfl | rfl | rfl | rfl :
        i = 0 ∨ i = 1 ∨ i = 2 ∨ i = 3 ∨ i = 4 ∨ i = 5 ∨ i = 6 ∨ i = 7 := by omega
    all_goals simp [statusFlags]
  by_cases h16 : i < 16
  · simp [h8, h16]
    omega
  by_cases h24 : i < 24
  · simp [h8, h16, h24]
  · simp [h8, h16, h24]

theorem statusWord_flag (s : State) {i : Nat} (h : i < 8) : (statusWord s).getLsbD i = (statusFlags s).getD i false := by
  rw [statusWord_getLsbD, if_pos h]

theorem statusWord_failCause (s : State) : (statusWord s).extractLsb' 8 8 = s.status.failCause := by
  apply BitVec.eq_of_getLsbD_eq
  intro i hi
  rw [BitVec.getLsbD_extractLsb', statusWord_getLsbD]
  simp [hi, show 8 + i < 16 by omega]

theorem statusWord_errCause (s : State) : (statusWord s).extractLsb' 16 8 = s.status.errCause := by
  apply BitVec.eq_of_getLsbD_eq
  intro i hi
  rw [BitVec.getLsbD_extractLsb', statusWord_getLsbD]
  simp [hi, show ¬ 16 + i < 8 by omega, show 16 + i < 24 by omega]

theorem statusWord_top (s : State) : (statusWord s).extractLsb' 24 8 = 0#8 := by
  apply BitVec.eq_of_getLsbD_eq
  intro i hi
  rw [BitVec.getLsbD_extractLsb', statusWord_getLsbD]
  simp [show ¬ 24 + i < 8 by omega, show ¬ 24 + i < 16 by omega]

/-- Settles O14: STATUS is its eight flags under the two cause bytes. -/
theorem statusFieldByField : Obligations.StatusFieldByField := fun s =>
  ⟨statusWord_flag s (by decide), statusWord_flag s (by decide), statusWord_flag s (by decide), statusWord_flag s (by decide),
    statusWord_flag s (by decide), statusWord_flag s (by decide), statusWord_flag s (by decide), statusWord_flag s (by decide),
    statusWord_failCause s, statusWord_errCause s, statusWord_top s⟩

/-! ## Aligned register moves -/

theorem aligned_iff (off : BitVec 8) : aligned off = true ↔ off.toNat % 4 = 0 := by
  simp only [aligned, decide_eq_true_eq, ← BitVec.toNat_inj, BitVec.extractLsb'_toNat]
  simp

section Moves
variable {s : State} {rest : List HostOp} {off : BitVec 8} {v : Word}

theorem step_write (ha : off.toNat % 4 = 0) (h : s.hostOps = .write off v :: rest) :
    step s = hostWrite off v { s with hostOps := rest } := by
  simp only [step, h, hostMove, (aligned_iff off).mpr ha, if_true]

theorem step_start (h : s.hostOps = .start v :: rest) : step s = startCommand v { s with hostOps := rest } := by
  simp only [step, h, hostMove]

theorem step_read (ha : off.toNat % 4 = 0) (h : s.hostOps = .read off :: rest) :
    step s = .next (hostRead off { s with hostOps := rest }) := by
  simp only [step, h, hostMove, (aligned_iff off).mpr ha, if_true]

theorem step_platformReset (h : s.hostOps = .platformReset :: rest) :
    step s = .next (platformReset { s with hostOps := rest }) := by
  simp only [step, h, hostMove]

end Moves

theorem busyBit_eq_true {s : State} {r : Running} (h : s.status.running = some r) : busyBit s = true := by
  simp [busyBit, h]

/-! ## Writes (R34 to R36) -/

/-- A dropped write sets OVR and marks the command in flight (R35). -/
theorem dropWrite_busy {s : State} {r : Running} (h : s.status.running = some r) :
    dropWrite s = { s with status := { s.status with ovr := true, running := some { r with dropped := true } } } := by
  simp only [dropWrite, h, Option.map_some]

theorem hostWrite_busy {s : State} {r : Running} (h : s.status.running = some r) (off : BitVec 8) (v : Word) :
    hostWrite off v s = .next (dropWrite s) := by
  simp only [hostWrite, busyBit_eq_true h, if_true]

theorem startCommand_busy {s : State} {r : Running} (h : s.status.running = some r) (w : Word) :
    startCommand w s = .next (dropWrite s) := by
  simp only [startCommand, busyBit_eq_true h, if_true]

/-- Settles O6: while BUSY a register write and a start of a command are both dropped. -/
theorem writesWhileBusyAreDropped : Obligations.WritesWhileBusyAreDropped := by
  intro s r rest off v hr ha h
  have hr' : { s with hostOps := rest }.status.running = some r := hr
  obtain h | h := h
  · rw [step_write ha h, hostWrite_busy hr', dropWrite_busy hr']
  · rw [step_start h, startCommand_busy hr', dropWrite_busy hr']

/-- An offset that is neither CMD nor a read-write register ignores a write. -/
theorem hostWrite_other {s : State} (hs : s.status.running = none) {off : BitVec 8} (v : Word) (h0 : off ≠ 0x00#8)
    (h1 : off ≠ 0x08#8) (h2 : off ≠ 0x0C#8) (h3 : off ≠ 0x10#8) (h4 : off ≠ 0x14#8) : hostWrite off v s = .next s := by
  simp only [hostWrite, busyBit_eq_false hs, Bool.false_eq_true, if_false]

/-- Settles O13: an idle core stores a write of one of the four read-write registers and ignores one of any other but CMD. -/
theorem registerWrites : Obligations.RegisterWrites := by
  intro s rest off v hs ha h0 h
  have hb : busyBit { s with hostOps := rest } = false := busyBit_eq_false hs
  rw [step_write ha h]
  refine ⟨?_, ?_, ?_, ?_, hostWrite_other (s := { s with hostOps := rest }) hs v h0⟩
  all_goals
    rintro rfl
    simp [hostWrite, hb]

/-! ## Reads (R33, R34) -/

/-- CMD and the reserved offsets read 0. -/
theorem readReg_reserved {off : BitVec 8} (h : off = 0x00#8 ∨ 0x48 ≤ off.toNat) (s : State) : readReg off s = 0#32 := by
  unfold readReg
  split
  case h_18 => rfl
  all_goals exact absurd h (by decide)

theorem hostRead_idle {s : State} (h : s.status.running = none) (off : BitVec 8) :
    hostRead off s = { s with hostData := readReg off s } := by
  simp only [hostRead, h]

/-- Settles O12: an idle core answers a read from its register map, each packed register field by field. -/
theorem registerMapReads : Obligations.RegisterMapReads := by
  intro s rest off hs ha h
  refine ⟨readReg off s, ?_, fun h => readReg_reserved h s, ?_⟩
  · rw [step_read ha h, hostRead_idle (s := { s with hostOps := rest }) hs]
    rfl
  refine ⟨?_, ?_, ?_, ?_, ?_, ?_, ?_, ?_, ?_, ?_, ?_, ?_, ?_, ?_, ?_, ?_, ?_⟩ <;> rintro rfl
  -- the packed registers; every other offset reads its register as it is
  case refine_9 => exact bitStateWord_toNat s
  case refine_11 => exact matchWord_toNat s
  case refine_12 => exact posWord_toNat s
  case refine_13 => exact stageStateWord_toNat s
  case refine_14 => exact failInfoWord_toNat s
  case refine_16 => exact tableStateWord_toNat s
  case refine_17 => exact availWord_toNat s
  all_goals rfl

end Sys2Proof.Machine
end

section
/-! PROOFS. What a command leaves alone (10_state.md R36, R41, 20_memory.md R117): the host's own things, the registers but for
RESULT, the latched lengths and STATUS but for its error and failure record. -/

namespace Sys2Proof.Machine

/-! ## A command's frame -/

/-- What a command other than INIT and RESET may change: RESULT, STATUS, the decode's own state and OUT. -/
def OnlyCommand (s t : State) : Prop :=
  t = { s with
    regs := { s.regs with result := t.regs.result }
    status := t.status, bits := t.bits, tabs := t.tabs, win := t.win, outMem := t.outMem, draws := t.draws }

theorem OnlyCommand.trans {s t u : State} (h1 : OnlyCommand s t) (h2 : OnlyCommand t u) : OnlyCommand s u := by
  unfold OnlyCommand at *
  rw [h2, h1]

theorem OnlyDecode.onlyCommand {s t : State} (h : OnlyDecode s t) : OnlyCommand s t := by
  unfold OnlyDecode at h
  unfold OnlyCommand
  rw [h]

theorem finish_onlyCommand (x : Flow (Option Word)) : OnlyCommand x.state (finish x) := by
  obtain ⟨_ | v, s⟩ | ⟨f, s⟩ := x <;> rfl

section Frame
variable {s t : State} {i : Instr}

theorem OnlyCommand.regs (h : OnlyCommand s t) : t.regs = { s.regs with result := t.regs.result } := by rw [h]

theorem OnlyCommand.lat (h : OnlyCommand s t) : t.lat = s.lat := by rw [h]

theorem exec_onlyCommand (hi : i ≠ .init ∧ i ≠ .reset) (he : exec i s = .next t) : OnlyCommand s t := by
  obtain ⟨-, rfl⟩ | ⟨c, -, -, rfl⟩ | ⟨-, -, rfl⟩ := exec_cases he
  · rfl
  · rfl
  · have ha : OnlyCommand s (accept s) := rfl
    exact ha.trans ((bodyOf_frame hi (accept s)).onlyCommand.trans (finish_onlyCommand _))

/-- INIT and RESET are dropped while BUSY, and otherwise run. -/
theorem exec_control_cases (hg : gateOf i = .always) (he : exec i s = .next t) :
    (s.status.running ≠ none ∧ t = dropWrite s) ∨ (s.status.running = none ∧ t = finish (bodyOf i (accept s))) := by
  by_cases h : s.status.running = none
  · rw [exec_control h hg] at he
    cases he
    exact .inr ⟨h, rfl⟩
  · rw [exec_eq_run, runCommand_busy h] at he
    cases he
    exact .inl ⟨h, rfl⟩

/-- No command writes IN, a parameter, or the host's own record. -/
theorem exec_hostOwned (he : exec i s = .next t) :
    t.inMem = s.inMem ∧ t.cfg = s.cfg ∧ t.hostOps = s.hostOps ∧ t.hostData = s.hostData := by
  by_cases hi : i = .init
  · subst hi
    obtain ⟨-, rfl⟩ | ⟨-, rfl⟩ := exec_control_cases rfl he <;> exact ⟨rfl, rfl, rfl, rfl⟩
  by_cases hr : i = .reset
  · subst hr
    obtain ⟨-, rfl⟩ | ⟨-, rfl⟩ := exec_control_cases rfl he <;> exact ⟨rfl, rfl, rfl, rfl⟩
  · rw [exec_onlyCommand ⟨hi, hr⟩ he]
    exact ⟨rfl, rfl, rfl, rfl⟩

/-- RESET alone writes the host's registers; every other command writes RESULT at most. -/
theorem exec_regs (hr : i ≠ .reset) (he : exec i s = .next t) : t.regs = { s.regs with result := t.regs.result } := by
  by_cases hi : i = .init
  · subst hi
    obtain ⟨-, rfl⟩ | ⟨-, rfl⟩ := exec_control_cases rfl he <;> rfl
  · exact (exec_onlyCommand ⟨hi, hr⟩ he).regs

/-- INIT latches the host's lengths. -/
theorem exec_init_lat (h : s.status.running = none) (he : exec .init s = .next t) :
    t.lat = { inLen := s.regs.inLen, outLen := s.regs.outLen, outCap := s.regs.outCap } := by
  obtain ⟨hbusy, -⟩ | ⟨-, rfl⟩ := exec_control_cases rfl he
  · exact absurd h hbusy
  · rfl

end Frame

/-- Settles O60: the frames of a command, INIT and RESET taken apart. -/
theorem hostOwnedStateAndLatchedLengths : Obligations.HostOwnedStateAndLatchedLengths := by
  intro i s t he
  obtain ⟨hin, hcfg, hops, hdata⟩ := exec_hostOwned he
  refine ⟨hin, hcfg, hops, hdata, fun hr => ⟨exec_regs hr he, fun hi => (exec_onlyCommand ⟨hi, hr⟩ he).lat, ?_⟩⟩
  rintro rfl h
  exact exec_init_lat h he

end Sys2Proof.Machine
end

section
/-! PROOFS. MAKE_TABLE on lengths that are a complete code (41_table_builder.md R252 to R259, R272). -/

namespace Sys2Proof.Machine

@[simp] theorem buildLens_cleared (id : TableId) (s : State) : buildLens id s.cleared = buildLens id s := by
  cases id <;> rfl
@[simp] theorem tableOf_cleared (id : TableId) (s : State) : tableOf id s.cleared = tableOf id s := by
  cases id <;> rfl

@[simp] theorem builtFrom_cleared (id : TableId) (s : State) : builtFrom id s.cleared = builtFrom id s := by
  simp only [builtFrom, buildLens_cleared, tableOf_cleared]
  rfl

/-- The state a build `b` of the table `id` leaves, its node counter in RESULT. -/
def builtState (id : TableId) (b : Build) (s : State) : State :=
  setResult (BitVec.ofNat 32 b.avail) (endBuild id b (clearStatus id s.cleared))

theorem makeTable_completes {t : Side} {b : BitVec 16} {s : State} (hs : s.Runs) (hl : legalIn (.makeTable t b) s)
    (hk : kraftSum (buildLens (makeTableId t b) s) = 65536) :
    exec (.makeTable t b) s =
      .next (builtState (makeTableId t b) (builtFrom (makeTableId t b) s) s) := by
  rw [exec_runs hs rfl ((operandsLegal_iff _ s).mpr hl) rfl, bodyOf, buildTable_eq, buildLens_cleared, if_pos hk,
    builtFrom_cleared]
  rfl

/-- A build of the C side changes its arrays and its bookkeeping, and sets RESULT (R259, R272). -/
theorem builtState_c (b : Build) (s : State) :
    builtState .cTable b s = { s.cleared with
      tabs := { s.tabs with
        cTable := (builtState .cTable b s).tabs.cTable
        left := (builtState .cTable b s).tabs.left
        right := (builtState .cTable b s).tabs.right
        cAvail := BitVec.ofNat 11 b.avail, cBuilt := true }
      regs := { s.regs with result := BitVec.ofNat 32 b.avail } } := rfl

/-- A build of the PT side likewise, its kind and symbol count named (R259, R272). -/
theorem builtState_pt {id : TableId} (h : id ≠ .cTable) (b : Build) (s : State) :
    builtState id b s = { s.cleared with
      tabs := { s.tabs with
        ptTable := (builtState id b s).tabs.ptTable
        left := (builtState id b s).tabs.left
        right := (builtState id b s).tabs.right
        ptAvail := BitVec.ofNat 11 b.avail, ptFirst := BitVec.ofNat 5 id.nchar
        ptKind := id.kind, ptNchar := BitVec.ofNat 5 id.nchar }
      regs := { s.regs with result := BitVec.ofNat 32 b.avail } } := by
  cases id with
  | cTable => exact absurd rfl h
  | metaTable => rfl
  | posTable => rfl

/-- The arrays a build leaves are the ones it made. -/
theorem builtState_arrays (id : TableId) (b : Build) (s : State) :
    tableOf id (builtState id b s) = b.table ∧ (builtState id b s).tabs.left = b.left ∧
      (builtState id b s).tabs.right = b.right := by
  cases id <;> exact ⟨rfl, rfl, rfl⟩

/-- A build of lengths of at most 16 has fewer nodes than symbols and writes LEFT and RIGHT at its nodes only (R50, R256). -/
theorem builtState_nodes {id : TableId} {s : State} (hk : kraftSum (buildLens id s) = 65536)
    (h16 : ∀ L ∈ buildLens id s, L ≤ 16) :
    (builtFrom id s).avail < 2 * id.nchar ∧ ∀ k, k < id.nchar ∨ (builtFrom id s).avail ≤ k →
      readCell (builtState id (builtFrom id s) s).tabs.left k = readCell s.tabs.left k ∧
      readCell (builtState id (builtFrom id s) s).tabs.right k = readCell s.tabs.right k := by
  obtain ⟨-, hleft, hright⟩ := builtState_arrays id (builtFrom id s) s
  rw [hleft, hright]
  exact ⟨builtFrom_avail_lt id s hk h16, fun k => builtFrom_outside id s hk h16⟩

/-- Every TABLE entry is written (R254). -/
theorem builtState_covers (id : TableId) (s : State) {i : Nat} (hi : i < 2 ^ id.tb) :
    (readCell (tableOf id (builtState id (builtFrom id s) s)) i).isSome = true := by
  rw [(builtState_arrays id (builtFrom id s) s).1]
  exact builtFrom_covers id s hi

/-- Settles O29: MAKE_TABLE stores the build of its table, whose size, nodes and coverage the laws of the build give. -/
theorem completeCodeBuilds : Obligations.CompleteCodeBuilds := by
  intro t b s hs hl id hk
  have hid : makeTableId t b = id := by cases t <;> rfl
  have he := makeTable_completes hs hl (by rw [hid]; exact hk)
  rw [hid] at he
  refine ⟨_, (builtFrom id s).avail, he, builtFrom_avail id s, builtState_nodes hk, ?_, ?_⟩
  · rintro rfl
    exact ⟨builtState_c (builtFrom .cTable s) s,
      fun i hi => builtState_covers .cTable s (hi.trans_eq (by simp [TableId.tb]))⟩
  · rintro rfl
    by_cases hb : b = 19#16
    · have hm : id = .metaTable := if_pos hb
      rw [hm, if_pos hb, if_pos hb]
      exact ⟨builtState_pt (by decide) (builtFrom .metaTable s) s,
        fun i hi => builtState_covers .metaTable s (hi.trans_eq (by simp [TableId.tb]))⟩
    · have hm : id = .posTable := if_neg hb
      rw [hm, if_neg hb, if_neg hb]
      exact ⟨builtState_pt (by decide) (builtFrom .posTable s) s,
        fun i hi => builtState_covers .posTable s (hi.trans_eq (by simp [TableId.tb]))⟩

end Sys2Proof.Machine
end

section
/-! PROOFS. A read and a platform reset while a command is in flight (10_state.md R35, 70_reset_and_hazards.md R501): a read is
the register map of the core at some moment of the command, the reset forgets the OUT bytes the command may have written. -/

namespace Sys2Proof.Machine

/-! ## The fields marked 0 -/

theorem bitStateWord_lt (s : State) : (bitStateWord s).toNat < 2 ^ 28 := by
  have h1 := s.bits.bitbuf.isLt
  have h2 := s.bits.subbitbuf.isLt
  have h3 := s.bits.bitcount.isLt
  rw [bitStateWord_toNat]
  omega

theorem matchWord_zeros (s : State) : (matchWord s).toNat < 2 ^ 25 ∧ (matchWord s).toNat / 2 ^ 13 % 8 = 0 := by
  have h1 := s.win.matchSrc.isLt
  have h2 := s.win.matchRem.isLt
  rw [matchWord_toNat]
  omega

theorem posWord_lt (s : State) : (s.win.pos.setWidth 32 : Word).toNat < 2 ^ 13 := by
  rw [posWord_toNat]
  exact s.win.pos.isLt

theorem failInfoWord_zeros (s : State) : (failInfoWord s).toNat / 2 ^ 4 % 16 = 0 := by
  have h := s.status.failTable.isLt
  rw [failInfoWord_toNat]
  omega

theorem tableStateWord_zeros (s : State) :
    (tableStateWord s).toNat < 2 ^ 13 ∧ (tableStateWord s).toNat / 2 ^ 3 % 32 = 0 := by
  have h1 := Bool.toNat_lt s.tabs.cBuilt
  have h2 := s.tabs.ptKind.code.isLt
  have h3 := s.tabs.ptNchar.isLt
  rw [tableStateWord_toNat]
  omega

theorem availWord_zeros (s : State) : (availWord s).toNat < 2 ^ 27 ∧ (availWord s).toNat / 2 ^ 11 % 32 = 0 := by
  have h1 := s.tabs.cAvail.isLt
  have h2 := s.tabs.ptAvail.isLt
  rw [availWord_toNat]
  omega

/-! ## What a read shows -/

/-- Whatever word is in flight, a read is the register map of a state that is BUSY and holds ERR as the core does. -/
theorem hostRead_shows {s : State} {r : Running} (h : s.status.running = some r) (off : BitVec 8) :
    ∃ g : State, (hostRead off s).hostData = readReg off g ∧ g.status.running = some r ∧
      g.status.err = s.status.err ∧ g.status.errCause = s.status.errCause := by
  cases hd : decode r.word with
  | ok i => exact ⟨_, hostRead_busy h hd (exec_eq_run i _), h, rfl, rfl⟩
  | error e => exact ⟨s, by simp only [hostRead, h, readRegBusy, hd], h, rfl, rfl⟩

theorem finish_ready_ovr (x : Flow (Option Word)) :
    (finish x).status.ready = x.state.status.ready ∧ (finish x).status.ovr = x.state.status.ovr := by
  obtain ⟨_ | v, s⟩ | ⟨f, s⟩ := x <;> exact ⟨rfl, rfl⟩

/-- Of all commands that run, INIT and RESET alone change READY or OVR. -/
theorem exec_ready_ovr {i : Instr} {s t : State} (hs : s.status.running = none) (hi : i ≠ .init ∧ i ≠ .reset)
    (he : exec i s = .next t) : t.status.ready = s.status.ready ∧ t.status.ovr = s.status.ovr := by
  obtain ⟨hbusy, -⟩ | ⟨c, -, -, rfl⟩ | ⟨-, -, rfl⟩ := exec_cases he
  · exact absurd hs hbusy
  · exact ⟨rfl, rfl⟩
  · obtain ⟨hready, hovr⟩ := finish_ready_ovr (bodyOf i (accept s))
    rw [hready, hovr, (bodyOf_frame hi _).status]
    exact ⟨rfl, rfl⟩

section Glimpse
variable {i : Instr} {s t : State}

/-- A command but RESET leaves the host's registers, so a glimpse shows them as they stand. -/
theorem glimpse_hostRegs (h : t.regs = { s.regs with result := t.regs.result }) :
    (glimpse i s t).regs.inLen = s.regs.inLen ∧ (glimpse i s t).regs.outLen = s.regs.outLen ∧
      (glimpse i s t).regs.outCap = s.regs.outCap ∧ (glimpse i s t).regs.arg = s.regs.arg := by
  rw [glimpse_regs]
  obtain e | e := fork_or 18 s s.regs t.regs <;> rw [e]
  · exact ⟨rfl, rfl, rfl, rfl⟩
  · rw [h]
    exact ⟨rfl, rfl, rfl, rfl⟩

theorem glimpse_result :
    (glimpse i s t).regs.result = s.regs.result ∨ (glimpse i s t).regs.result = t.regs.result := by
  rw [glimpse_regs, fork_map 18 s HostRegs.result]
  exact fork_or ..

theorem glimpse_fail_or :
    (glimpse i s t).status.fail = s.status.fail ∨ (glimpse i s t).status.fail = t.status.fail := by
  rw [glimpse_fail]
  exact fork_or ..

theorem glimpse_ready_ovr (h : t.status.ready = s.status.ready ∧ t.status.ovr = s.status.ovr) :
    (glimpse i s t).status.ready = s.status.ready ∧ (glimpse i s t).status.ovr = s.status.ovr := by
  rw [glimpse_ready, glimpse_ovr, h.1, h.2, fork_self, fork_self]
  exact ⟨rfl, rfl⟩

end Glimpse

/-! ## The platform's reset -/

theorem command_next (w : Word) (s : State) : ∃ t, command w s = .next t := by
  unfold command
  split
  · exact ⟨_, exec_eq_run _ s⟩
  · exact ⟨_, rfl⟩

/-- The reset of a busy core forgets the OUT bytes below L_OUT_CAP that the command would have produced, and no other. -/
theorem platformReset_busy {s : State} {r : Running} (h : s.status.running = some r) :
    ∃ m : Memory, platformReset s = coldReset { s with outMem := m } ∧
      ∀ (i : Instr) (t : State), decode r.word = .ok i →
        exec i { s with status := { s.status with running := none } } = .next t →
        ∀ a, m.read a = if a < t.win.produced.toNat ∧ a < s.lat.outCap.toNat then none else s.outMem.read a := by
  obtain ⟨u, hu⟩ := command_next r.word { s with status := { s.status with running := none } }
  refine ⟨dropRange s.outMem 0 (min u.win.produced.toNat s.lat.outCap.toNat), by simp only [platformReset, h, hu], ?_⟩
  intro i t hd he a
  obtain rfl : u = t := by
    simp only [command, hd, he, Host.Outcome.next.injEq] at hu
    exact hu.symm
  rw [Memory.read_dropRange]
  congr 1
  rw [eq_iff_iff]
  omega

/-- Settles O10: the fields marked 0, BUSY and ERR are those of whatever state the read shows; the rest is what a glimpse of the
command in flight can be. -/
theorem readsAndResetWhileACommandRuns : Obligations.ReadsAndResetWhileACommandRuns := by
  intro s r rest hr
  have hr' : { s with hostOps := rest }.status.running = some r := hr
  refine ⟨fun off ha h => ?_, fun h => ?_⟩
  · obtain ⟨g, hg, hbusy, herr, hcause⟩ := hostRead_shows hr' off
    refine ⟨(hostRead off { s with hostOps := rest }).hostData, (hostRead off { s with hostOps := rest }).draws, ?_, ?_⟩
    · rw [step_read ha h]
      exact congrArg _ (hostRead_frame off { s with hostOps := rest })
    refine ⟨fun h => hg.trans (readReg_reserved h g), ?_, ?_, ?_, ?_, ?_, ?_, ?_, ?_, ?_⟩
    · rintro rfl
      exact hg
    · rintro rfl
      rw [hg, ← herr, ← hcause]
      exact ⟨(statusWord_flag g (by decide)).trans (busyBit_eq_true hbusy), statusWord_flag g (by decide),
        statusWord_errCause g, statusWord_top g⟩
    · rintro rfl
      exact hg ▸ bitStateWord_lt g
    · rintro rfl
      exact hg ▸ matchWord_zeros g
    · rintro rfl
      exact hg ▸ posWord_lt g
    · rintro rfl
      exact hg ▸ failInfoWord_zeros g
    · rintro rfl
      exact hg ▸ tableStateWord_zeros g
    · rintro rfl
      exact hg ▸ availWord_zeros g
    intro i t hd he
    have hv := hostRead_busy (off := off) hr' hd he
    refine ⟨fun hi => ?_, ?_, ?_, ?_, ?_, ?_, ?_⟩
    · have hregs := exec_regs hi he
      obtain ⟨h1, h2, h3, h4⟩ := glimpse_hostRegs (i := i) (s := { s with hostOps := rest }) hregs
      refine ⟨?_, ?_, ?_, ?_⟩ <;> rintro rfl
      · exact hv.trans h1
      · exact hv.trans h2
      · exact hv.trans h3
      · exact hv.trans h4
    · rintro rfl hi hres
      have hkept := exec_ready_ovr rfl ⟨hi, hres⟩ he
      obtain ⟨h1, h2⟩ := glimpse_ready_ovr (i := i) (s := { s with hostOps := rest }) hkept
      rw [hv]
      exact ⟨(statusWord_flag _ (by decide)).trans h1, (statusWord_flag _ (by decide)).trans h2⟩
    · rintro rfl
      rw [hv]
      exact glimpse_fail_or.imp (statusWord_flag _ (by decide)).trans (statusWord_flag _ (by decide)).trans
    · rintro rfl
      rw [hv]
      exact glimpse_failInfo i { s with hostOps := rest } t
    · rintro rfl
      rw [hv]
      exact glimpse_result
    · rintro rfl hle
      rw [hv]
      exact glimpseWindow_produced { s with hostOps := rest } t _ hle
    · rintro rfl hs ht
      rw [hv]
      exact glimpseTables_blockSize { s with hostOps := rest } t _ hs ht
  · obtain ⟨m, hm, hread⟩ := platformReset_busy hr'
    refine ⟨m, ?_, hread⟩
    rw [step_platformReset h, hm]
    rfl

end Sys2Proof.Machine
end

section
/-! PROOFS. The host's accesses to its two buffers while the core is idle (20_memory.md R100, 70_reset_and_hazards.md R502, R513,
R514): what each move answers, and that a write waits for the end of a decode. -/

namespace Sys2Proof.Machine

/-- A decode is in progress from INIT to DONE or FAIL (R513). -/
theorem decodeActive_iff (s : State) :
    decodeActive s = true ↔ s.status.ready = true ∧ s.status.fail = false ∧ s.win.produced ≠ s.lat.outLen := by
  cases hr : s.status.ready <;> cases hf : s.status.fail <;> simp [decodeActive, doneBit, hr, hf]

/-! ## The four accesses of an idle core -/

section Accesses
variable {s : State} (h : s.status.running = none)
include h

theorem placeInput_idle (hd : decodeActive s = false) (off : Word) (b : Byte) :
    placeInput off b s = .next { s with inMem := s.inMem.write off.toNat b } := by
  simp [placeInput, busyBit_eq_false h, hd]

theorem readInput_idle (off : Word) :
    readInput off s = .next { s with hostData := ((sourceOf s).byte off.toNat).setWidth 32 } := by
  simp [readInput, busyBit_eq_false h]

theorem writeOutput_idle {off : Word} (hd : decodeActive s = false ∨ s.lat.outCap.toNat ≤ off.toNat) (b : Byte) :
    writeOutput off b s = .next { s with outMem := s.outMem.write off.toNat b } := by
  have hg : (decodeActive s && decide (off < s.lat.outCap)) = false := by
    obtain hd | hc := hd
    · simp [hd]
    · simpa [BitVec.lt_def] using fun _ => hc
  simp [writeOutput, busyBit_eq_false h, hg]

theorem readOutput_idle_known {off : Word} {x : Byte} (hx : s.outMem.read off.toNat = some x) :
    readOutput off s = .next { s with hostData := x.setWidth 32 } := by
  simp [readOutput, busyBit_eq_false h, hx]

theorem readOutput_idle_unknown {off : Word} (hx : s.outMem.read off.toNat = none) :
    readOutput off s =
      .next { s with hostData := (Config.drawByte s.draws).setWidth 32, draws := s.draws + 1 } := by
  simp [readOutput, busyBit_eq_false h, hx]

end Accesses

/-- An IN byte that the host placed reads as it was placed. -/
theorem sourceOf_byte_placed {s : State} {off : Nat} {y : Byte} (h : s.inMem.read off = some y) :
    (sourceOf s).byte off = y := by
  simp [Source.byte, sourceOf, h]

/-- A byte written to a memory reads back, and every other offset reads as before. -/
theorem Memory.read_write_at (m : Memory) (i : Nat) (b : Byte) (k : Nat) :
    (m.write i b).read k = if k = i then some b else m.read k :=
  (Memory.read_write m i k b).trans (if_congr eq_comm rfl rfl)

/-- Settles O9: each access of an idle core completes, a write unless a decode guards the byte. -/
theorem hostBufferMovesComplete : Obligations.HostBufferMovesComplete := by
  intro s rest a b hs decoding
  have hs' : { s with hostOps := rest }.status.running = none := hs
  have hidle : ¬ decoding → decodeActive { s with hostOps := rest } = false := fun hd =>
    Bool.eq_false_iff.mpr fun ha => hd ((decodeActive_iff _).mp ha)
  refine ⟨fun hd ho => ?_, fun ho => ?_, fun hd ho => ?_, fun ho => ?_⟩ <;> simp only [step, ho, hostMove]
  · exact ⟨_, placeInput_idle hs' (hidle hd) a b, Memory.read_write_at _ _ _⟩
  · exact ⟨_, readInput_idle hs' a, fun y hy => sourceOf_byte_placed hy⟩
  · exact ⟨_, writeOutput_idle hs' (hd.imp_left hidle) b, Memory.read_write_at _ _ _⟩
  · cases hx : s.outMem.read a.toNat with
    | some x => exact ⟨x, s.draws, readOutput_idle_known hs' hx, fun y hy => ⟨Option.some.inj hy, rfl⟩⟩
    | none => exact ⟨_, _, readOutput_idle_unknown hs' hx, nofun⟩

end Sys2Proof.Machine
end

section
/-! PROOFS. What a command writes to OUT (20_memory.md R104, R109, R121): EMIT alone writes it, at PRODUCED and below L_OUT_CAP, and
a failure forgets bytes below both; so a command's writes stay between PRODUCED before it and PRODUCED after it. -/

namespace Sys2Proof.Machine

/-- From `s` to `t` PRODUCED did not fall, and OUT changed at most below L_OUT_CAP from PRODUCED in `s` to PRODUCED in `t`. -/
structure OutputWithin (s t : State) : Prop where
  lat : t.lat = s.lat
  le : s.win.produced.toNat ≤ t.win.produced.toNat
  kept : ∀ a, ¬ (s.win.produced.toNat ≤ a ∧ a < t.win.produced.toNat ∧ a < s.lat.outCap.toNat) →
    t.outMem.read a = s.outMem.read a

/-! ## Updates of a decode -/

section Updates
variable {s t u : State}

theorem OutputWithin.refl (s : State) : OutputWithin s s := ⟨rfl, Nat.le_refl _, fun _ _ => rfl⟩

/-- An update that leaves the latched lengths, PRODUCED and OUT. -/
theorem OutputWithin.of_same (h : OutputWithin s t) (hl : u.lat = t.lat) (hp : u.win.produced = t.win.produced)
    (hm : u.outMem = t.outMem) : OutputWithin s u where
  lat := hl.trans h.lat
  le := hp ▸ h.le
  kept a ha := by
    rw [hm]
    exact h.kept a (hp ▸ ha)

theorem OutputWithin.onlyBitsTabs (h : OutputWithin s t) (hu : OnlyBitsTabs t u) : OutputWithin s u :=
  h.of_same hu.lat (congrArg _ hu.win) hu.outMem

/-- EMIT writes OUT at PRODUCED, below L_OUT_CAP, and counts the byte (43_window_expander.md R351). -/
theorem OutputWithin.emit (h : OutputWithin s t) (hp : t.win.produced.toNat < t.lat.outLen.toNat) (b : Byte) :
    OutputWithin s (emit b t) := by
  have hadd := produced_succ hp (emit_produced b t)
  have hle := h.le
  refine ⟨h.lat, by omega, fun a ha => ?_⟩
  rw [hadd] at ha
  rw [← h.kept a (by omega), emit_outMem]
  split
  · next hcap =>
    rw [h.lat, BitVec.lt_def] at hcap
    rw [Memory.read_write, if_neg (by omega)]
  · rfl

end Updates

/-- A property that ignores the BitReader and the tables is kept by the BlockDecoder. -/
theorem BlockClosed.of_onlyBitsTabs {P : State → Prop} (h : ∀ t u, P t → OnlyBitsTabs t u → P u) : BlockClosed P :=
  have frame (t : State) := onlyBitsTabs_closed t
  { pt :=
      { consume := fun n t ht => h t _ ht ((frame t).pt.consume n t (.refl t))
        clear := fun id t hid ht => h t _ ht ((frame t).pt.clear id t hid (.refl t))
        build := fun id t hid hk ht => h t _ ht ((frame t).pt.build id t hid hk (.refl t))
        setLen := fun i c t hc ht => h t _ ht ((frame t).pt.setLen i c t hc (.refl t))
        zeroLens := fun lo hi t ht => h t _ ht ((frame t).pt.zeroLens lo hi t (.refl t))
        single := fun p t hp ht => h t _ ht ((frame t).pt.single p t hp (.refl t)) }
    c :=
      { consume := fun n t ht => h t _ ht ((frame t).c.consume n t (.refl t))
        clear := fun t ht => h t _ ht ((frame t).c.clear t (.refl t))
        build := fun t hk ht => h t _ ht ((frame t).c.build t hk (.refl t))
        setLen := fun i c t hc ht => h t _ ht ((frame t).c.setLen i c t hc (.refl t))
        zeroLens := fun lo hi t ht => h t _ ht ((frame t).c.zeroLens lo hi t (.refl t))
        single := fun t ht => h t _ ht ((frame t).c.single t (.refl t)) }
    header := fun t ht => h t _ ht ((frame t).header t (.refl t))
    decrement := fun t ht => h t _ ht ((frame t).decrement t (.refl t)) }

/-- Every update of a decode writes OUT within the produced range. -/
theorem outputWithin_closed (s : State) : CommandClosed (OutputWithin s) where
  output :=
    { block := .of_onlyBitsTabs fun _ _ ht hu => ht.onlyBitsTabs hu
      literal := fun b _ hp ht => ht.emit hp b
      copy := fun b _ hp _ ht => (ht.emit hp b).of_same rfl rfl rfl
      start := fun _ _ _ _ _ ht => ht.of_same rfl rfl rfl
      draw := fun _ ht => ht.of_same rfl rfl rfl }
  setLength := fun side _ _ _ _ ht => by cases side <;> exact ht.of_same rfl rfl rfl

/-! ## Commands -/

/-- Only a command that needs FAIL = 0 can fail (60_exceptions.md R452, R455). -/
theorem gateOf_eq_working_of_failed {i : Instr} {s u : State} {f : Failure} (h : bodyOf i s = .failed f u) :
    gateOf i = .working := by
  have hread (e : Option (BitVec 10)) : readOrDraw e s ≠ .failed f u := by cases e <;> exact nofun
  cases i with
  | init => cases h
  | reset => cases h
  | getLen t b => cases t <;> cases h
  | getTable t b => cases t <;> exact absurd h (hread _)
  | getNode t b => exact absurd h (hread _)
  | _ => rfl

section Commands
variable {i : Instr} {s t : State}

theorem exec_control_outMem (hi : i = .init ∨ i = .reset) (he : exec i s = .next t) : t.outMem = s.outMem := by
  obtain rfl | rfl := hi <;> obtain ⟨-, rfl⟩ | ⟨-, rfl⟩ := exec_control_cases rfl he <;> rfl

/-- INIT and RESET apart, a command writes OUT within the produced range, or it fails from there and FAIL was 0. -/
theorem exec_output (hi : i ≠ .init ∧ i ≠ .reset) (he : exec i s = .next t) :
    OutputWithin s t ∨ (s.status.fail = false ∧ ∃ f u, OutputWithin s u ∧ t = failWith f u) := by
  obtain ⟨-, rfl⟩ | ⟨c, -, -, rfl⟩ | ⟨-, hp, rfl⟩ := exec_cases he
  · exact .inl ((OutputWithin.refl s).of_same rfl rfl rfl)
  · exact .inl ((OutputWithin.refl s).of_same rfl rfl rfl)
  have hran := (outputWithin_closed s).ran hi hp ((OutputWithin.refl s).of_same rfl rfl rfl)
  obtain ⟨v, -, e⟩ | ⟨-, e⟩ | ⟨f, hf, e⟩ := finish_cases (bodyOf i (accept s)) <;> rw [e]
  · exact .inl (hran.of_same rfl rfl rfl)
  · exact .inl hran
  · obtain ⟨-, hfail, -, -⟩ := precheck_none hp
    exact .inr ⟨hfail (gateOf_eq_working_of_failed hf), f, _, hran, rfl⟩

/-- No command writes OUT at or above L_OUT_CAP, not even one that fails (R109, R121). -/
theorem exec_output_below_cap (hi : i ≠ .init ∧ i ≠ .reset) (he : exec i s = .next t) {a : Nat}
    (ha : s.lat.outCap.toNat ≤ a) : t.outMem.read a = s.outMem.read a := by
  obtain h | ⟨-, f, u, h, rfl⟩ := exec_output hi he
  · exact h.kept a (by omega)
  · rw [failWith_outMem, Memory.read_dropRange, h.lat, if_neg (by omega)]
    exact h.kept a (by omega)

/-- A command that records no new failure writes OUT within the produced range (R104). -/
theorem exec_output_within (hi : i ≠ .init ∧ i ≠ .reset) (he : exec i s = .next t)
    (hf : t.status.fail = s.status.fail) : OutputWithin s t := by
  obtain h | ⟨hs, f, u, -, rfl⟩ := exec_output hi he
  · exact h
  · exact Bool.noConfusion (hf.trans hs)

end Commands

/-- Settles O59: INIT and RESET leave OUT; every other command writes it within the produced range until it fails, and a failure
forgets bytes below L_OUT_CAP only. -/
theorem outputWritesStayInTheProducedRange : Obligations.OutputWritesStayInTheProducedRange := by
  intro i s t _ he
  by_cases hc : i = .init ∨ i = .reset
  · have hm := exec_control_outMem hc he
    rw [hm]
    exact ⟨fun _ => rfl, fun _ _ => rfl, fun _ _ _ => rfl⟩
  · have hi : i ≠ .init ∧ i ≠ .reset := not_or.mp hc
    exact ⟨fun h => absurd h hc, fun a ha => exec_output_below_cap hi he ha,
      fun hf a ha => (exec_output_within hi he hf).kept a fun ⟨hlo, hhi, _⟩ => ha ⟨hlo, hhi⟩⟩

end Sys2Proof.Machine
end

section
/-! PROOFS. A built table decodes the canonical codes of its lengths (30_encoding.md R167, 41_table_builder.md R254 to R258): one
code begins whatever BITBUF holds, and a lookup follows it, directly or down the code tree, to its symbol. -/

namespace Sys2Proof.Machine

/-! ## The code that begins 16 bits -/

/-- The canonical code of symbol `ch`, of length `L`, begins the 16 bits `x` (R167). -/
def CodeBegins (lens : List Nat) (x ch L : Nat) : Prop :=
  lens[ch]? = some L ∧ 1 ≤ L ∧ canonicalCode lens ch L ≤ x ∧ x < canonicalCode lens ch L + 2 ^ (16 - L)

section Begins
variable {lens : List Nat} {x ch L tb : Nat}

theorem CodeBegins.unique {ch' L' : Nat} (h : CodeBegins lens x ch L) (h' : CodeBegins lens x ch' L') : ch = ch' := by
  obtain ⟨hch, h1, hlo, hhi⟩ := h
  obtain ⟨hch', h1', hlo', hhi'⟩ := h'
  by_contra hne
  have := canonicalCode_disjoint lens hch hch' h1 h1' hne
  omega

/-- The first bits of `x` are those of the code that begins it. -/
theorem CodeBegins.codePrefix_eq (h : CodeBegins lens x ch L) (hL : L ≤ 16) {d : Nat} (hd : d ≤ L) :
    codePrefix x d = codePrefix (canonicalCode lens ch L) d := by
  obtain ⟨-, -, hlo, hhi⟩ := h
  obtain ⟨q, hq⟩ := canonicalCode_dvd lens ch (Nat.le_refl L) hL
  have hpos := Nat.two_pow_pos (16 - L)
  have hwhole : x / 2 ^ (16 - L) = q := by
    rw [hq] at hlo hhi
    exact Nat.div_eq_of_lt_le (by rwa [Nat.mul_comm]) (by rwa [Nat.mul_comm, Nat.mul_add_one])
  unfold codePrefix
  rw [two_pow_split (show 16 - d = (16 - L) + (L - d) by omega), ← Nat.div_div_eq_div_mul, ← Nat.div_div_eq_div_mul, hwhole, hq,
    Nat.mul_div_cancel_left q hpos]

/-- A short code that begins `x` covers the direct entry that `x` selects (R254). -/
theorem CodeBegins.direct_index (h : CodeBegins lens x ch L) (hL : L ≤ tb) (htb : tb ≤ 16) :
    canonicalCode lens ch L / 2 ^ (16 - tb) ≤ codePrefix x tb ∧
      codePrefix x tb < canonicalCode lens ch L / 2 ^ (16 - tb) + 2 ^ (tb - L) := by
  obtain ⟨-, -, hlo, hhi⟩ := h
  have hpos := Nat.two_pow_pos (16 - tb)
  obtain ⟨q, hq⟩ := canonicalCode_dvd lens ch hL htb
  refine ⟨Nat.div_le_div_right hlo, ?_⟩
  rw [hq, two_pow_split (show 16 - L = (16 - tb) + (tb - L) by omega), ← Nat.mul_add] at hhi
  rw [hq, Nat.mul_div_cancel_left q hpos]
  exact Nat.div_lt_of_lt_mul hhi

/-! ## The walk down the code tree (R257) -/

theorem getLsbD_eq_codePrefix (buf : BitVec 16) (d : Nat) :
    buf.getLsbD (16 - d) = decide (codePrefix buf.toNat d % 2 = 1) := by
  rw [BitVec.getLsbD, Nat.testBit_eq_decide_div_mod_eq, codePrefix]

/-- From the slot of any first `d` bits of a long code that begins BITBUF, the walk reaches the code's symbol. -/
theorem CodeTree.walk_of_begins {m : Nat} {ns : List (Nat × Nat)} {b : Build} {buf : BitVec 16}
    (t : CodeTree tb lens lens.length m ns b) (hav : b.avail ≤ 1024) (h : CodeBegins lens buf.toNat ch L) (hlt : tb < L)
    (hL : L ≤ 16) : ∀ (k d : Nat) (sl : Slot), d + k = L → tb ≤ d →
      SlotOf tb lens.length ns d (codePrefix buf.toNat d) sl →
      walk lens.length b.avail buf b.left b.right (16 - d) (b.get sl) = .ok (BitVec.ofNat 10 ch) := by
  have ⟨hch, _, _, _⟩ := h
  have hn : ch < lens.length := (List.getElem?_eq_some_iff.1 hch).1
  have hav' := t.avail
  intro k
  induction k with
  | zero =>
    intro d sl hd _ hsl
    obtain rfl : d = L := by omega
    rw [h.codePrefix_eq hL (Nat.le_refl _)] at hsl
    rw [t.get_leaf ch d sl hn hch hlt hsl]
    exact walk_symbol _ (by rw [BitVec.toNat_ofNat]; omega)
  | succ k ih =>
    intro d sl hd htb hsl
    -- the first d bits are a node, whose child for the next bit is the slot of the first d + 1 bits
    have hmem := t.path ch L d hn hch htb (by omega)
    rw [← h.codePrefix_eq hL (by omega)] at hmem
    obtain ⟨j, hj⟩ := List.mem_iff_getElem?.1 hmem
    have hjlt : j < ns.length := (List.getElem?_eq_some_iff.1 hj).1
    have hnode : (b.get sl).toNat = lens.length + j := by
      rw [t.get_node j d _ sl hj hsl, BitVec.toNat_ofNat, Nat.mod_eq_of_lt (by omega)]
    have hnext := ih (d + 1) (if codePrefix buf.toNat (d + 1) % 2 = 1 then .right (lens.length + j) else .left (lens.length + j))
      (by omega) (by omega) (.inr ⟨by omega, j, by rw [codePrefix_half _ (by omega)]; exact hj, rfl⟩)
    rw [show 16 - d = 16 - (d + 1) + 1 by omega, walk, hnode, if_neg (by omega), if_neg (by omega),
      getLsbD_eq_codePrefix buf]
    split at hnext <;> next hbit => simpa [hbit, Build.get] using hnext

end Begins

/-! ## Lookups in a built table -/

theorem tb_bounds (id : TableId) : 1 ≤ id.tb ∧ id.tb ≤ 16 := by cases id <;> decide

@[simp] theorem buildLens_length (id : TableId) (s : State) : (buildLens id s).length = id.nchar := lensUpTo_length ..

/-- The end of a build puts its arrays and its node counter where a lookup reads them (R259). -/
theorem lookup_reads_build {id : TableId} {b : Build} {s w : State} (h : w.tabs = (endBuild id b s).tabs) :
    tableOf id w = b.table ∧ availOf id w = BitVec.ofNat 11 b.avail ∧ w.tabs.left = b.left ∧ w.tabs.right = b.right := by
  cases id <;> simp only [tableOf, availOf, h] <;> exact ⟨rfl, rfl, rfl, rfl⟩

section Built
variable {id : TableId} {s w : State} {ch L : Nat} (h16 : ∀ L ∈ buildLens id s, L ≤ 16)
include h16

/-- A direct entry that begins with a short symbol's code holds that symbol (R254). -/
theorem builtFrom_direct (hch : (buildLens id s)[ch]? = some L) (h1 : 1 ≤ L) (hL : L ≤ id.tb) {i : Nat}
    (hlo : canonicalCode (buildLens id s) ch L / 2 ^ (16 - id.tb) ≤ i)
    (hhi : i < canonicalCode (buildLens id s) ch L / 2 ^ (16 - id.tb) + 2 ^ (id.tb - L)) :
    readCell (builtFrom id s).table i = some (BitVec.ofNat 10 ch) :=
  placeSymbols_direct (tb_bounds id).2 (buildLens id s) h16 _ _ _ hch h1 hL hlo hhi

/-- The long codes of a complete build are its tree (R255). -/
theorem builtFrom_tree (hk : kraftSum (buildLens id s) = 65536) :
    ∃ ns, CodeTree id.tb (buildLens id s) (buildLens id s).length (buildLens id s).length ns (builtFrom id s) :=
  (placeSymbols_tree hk h16 ((buildLens_length id s).trans_le (nchar_le id)) (tb_bounds id).1 (tb_bounds id).2 _ _ _).1

/-- A lookup in a complete build's tables answers the symbol whose code begins BITBUF (R257). -/
theorem lookup_built (hk : kraftSum (buildLens id s) = 65536)
    (hw : w.tabs = (endBuild id (builtFrom id s) (clearStatus id s)).tabs)
    (h : CodeBegins (buildLens id s) w.bits.bitbuf.toNat ch L) : lookup id w = .ok (BitVec.ofNat 10 ch) w := by
  have ⟨hch, h1, _, _⟩ := h
  obtain ⟨htable, havail, hleft, hright⟩ := lookup_reads_build hw
  have hn := nchar_le id
  by_cases hL : L ≤ id.tb
  · obtain ⟨hlo, hhi⟩ := h.direct_index hL (tb_bounds id).2
    have hlt : ch < id.nchar := by rw [← buildLens_length id s]; exact (List.getElem?_eq_some_iff.1 hch).1
    refine lookup_direct (by rw [BitVec.toNat_ofNat]; omega) ?_
    rw [htable, peekBits_toNat]
    exact builtFrom_direct h16 hch h1 hL hlo hhi
  · obtain ⟨ns, t⟩ := builtFrom_tree h16 hk
    have hmax := builtFrom_avail_lt id s hk h16
    have hwalk := t.walk_of_begins (by omega) h (by omega) (h16 L (List.mem_of_getElem? hch)) (L - id.tb) id.tb
      (.table (codePrefix w.bits.bitbuf.toNat id.tb)) (by omega) (Nat.le_refl _) (.inl ⟨rfl, rfl⟩)
    have havail' : (availOf id w).toNat = (builtFrom id s).avail := by
      rw [havail, BitVec.toNat_ofNat, Nat.mod_eq_of_lt (by omega)]
    rw [buildLens_length, Build.get, codePrefix, ← peekBits_toNat, ← havail', ← hleft, ← hright, ← htable] at hwalk
    simp only [lookup, hwalk]

end Built

/-- Settles O30: the build's direct entries, the tiling of the codes, and the lookup of the code that begins BITBUF. -/
theorem builtTableDecodesCanonicalCodes : Obligations.BuiltTableDecodesCanonicalCodes := by
  intro id s u w v h16 hb hw lens begins
  rw [buildTable_eq] at hb
  split at hb
  next hk =>
    cases hb
    refine ⟨fun ch L hch h1 hL i hlo hhi => ?_, ?_, ?_, fun ch L h => lookup_built h16 hk hw h⟩
    · rw [tableOf_endBuild]
      exact builtFrom_direct h16 hch h1 hL hlo hhi
    · obtain ⟨ch, L, hch, h1, -, hlo, hhi⟩ := canonicalCode_covers hk w.bits.bitbuf.isLt
      exact ⟨ch, L, hch, h1, hlo, hhi⟩
    · exact fun ch L ch' L' h h' => CodeBegins.unique h h'
  next => cases hb

end Sys2Proof.Machine
end

section
/-! PROOFS. The command word (30_encoding.md R150 to R154): the decoder reads a word as the one command whose word it is, or says by
its OP and its fields why it is none, and an idle core runs or rejects the word the host writes to CMD. -/

namespace Sys2Proof

/-! ## The opcode map (R151) -/

/-- A word is its OP packed with given fields exactly when Z = 0 and the fields are its own (R150). -/
theorem packWord_eq_iff (w : Word) (n : BitVec 5) (t : Bool) (b : BitVec 16) :
    packWord (opField w) n t b = w ↔ zField w = 0#2 ∧ n = nField w ∧ t = tField w ∧ b = bField w := by
  refine ⟨fun h => ⟨?_, ?_, ?_, ?_⟩, ?_⟩
  · exact (congrArg zField h).symm.trans (zField_pack ..)
  · exact (nField_pack ..).symm.trans (congrArg nField h)
  · exact (tField_pack ..).symm.trans (congrArg tField h)
  · exact (bField_pack ..).symm.trans (congrArg bField h)
  · rintro ⟨hz, rfl, rfl, rfl⟩
    exact pack_fields w hz

/-- A field `x`, or `zero` where the command does not use it, is `x` when it is used or 0. -/
theorem field_or_zero_eq_iff {α : Type} (use : Bool) (x zero : α) :
    (if use then x else zero) = x ↔ use = true ∨ x = zero := by
  cases use <;> simp [eq_comm]

/-- The fields a command does not use are 0 exactly when the word is its OP and its used fields packed (R153). -/
theorem ifUnusedZero_eq (w : Word) (useN useT useB : Bool) (i : Instr) :
    ifUnusedZero w useN useT useB i =
      if packWord (opField w) (if useN then nField w else 0#5) (if useT then tField w else false)
        (if useB then bField w else 0#16) = w then .ok i else .error .reservedField := by
  unfold ifUnusedZero
  refine if_congr ?_ rfl rfl
  rw [packWord_eq_iff, field_or_zero_eq_iff, field_or_zero_eq_iff, field_or_zero_eq_iff]
  simp [and_assoc]

/-- A word of an OP of the map is read as one command of that OP, whose word is the used fields packed. -/
theorem decode_of_arm {w : Word} {op : BitVec 8} {useN useT useB : Bool} {i : Instr} (hop : opField w = op)
    (hd : decode w = ifUnusedZero w useN useT useB i)
    (hi : encode i = packWord op (if useN then nField w else 0#5) (if useT then tField w else false)
      (if useB then bField w else 0#16)) :
    ∃ i, opField (encode i) = opField w ∧ decode w = if encode i = w then .ok i else .error .reservedField :=
  ⟨i, by rw [hi, opField_pack, hop], by rw [hd, ifUnusedZero_eq, hop, hi]⟩

/-- A word whose OP is no command's is rejected by it; any other word is read as one command of that OP, and is that command's
word or has a nonzero field that the command does not use. -/
theorem decode_cases (w : Word) :
    (decode w = .error .illegalOpcode ∧ ∀ i, opField (encode i) ≠ opField w) ∨
    ∃ i, opField (encode i) = opField w ∧ decode w = if encode i = w then .ok i else .error .reservedField := by
  obtain ⟨r, hd⟩ : ∃ r, decode w = r := ⟨_, rfl⟩
  have hr := hd
  unfold decode at hr
  split at hr
  case h_22 =>
    refine .inl ⟨hd.trans hr.symm, fun i he => ?_⟩
    -- the OP of each command is one that the last arm excludes
    cases i <;> rw [encode, opField_pack] at he <;> exact absurd he.symm ‹_›
  all_goals
    next hop => exact .inr (decode_of_arm hop (hd.trans hr.symm) (by simp [encode]))

/-- Every command, with every value its fields hold, decodes back from its word. -/
theorem decode_encode (i : Instr) : decode (encode i) = .ok i := by
  cases i <;> simp [decode, encode, ifUnusedZero]

/-- Settles O1: a word decodes to the command it is read as only if it is its word, and each command's word decodes back. -/
theorem decodeAndEncodeAgree : Obligations.DecodeAndEncodeAgree := by
  refine fun w i => ⟨fun h => ?_, fun h => h ▸ decode_encode i⟩
  obtain ⟨hd, -⟩ | ⟨j, -, hd⟩ := decode_cases w <;> rw [hd] at h
  · cases h
  · split at h
    · next he => cases h; exact he
    · cases h

theorem opField_eq_iff (v w : Word) : opField v = opField w ↔ v.toNat % 256 = w.toNat % 256 := by
  rw [← BitVec.toNat_inj, opField, opField, BitVec.extractLsb'_toNat, BitVec.extractLsb'_toNat]
  simp

/-- Settles O2: no command has the OP of the one error, and the OP of the other is that of a command the word is not. -/
theorem decodeErrorsByOpcodeAndFields : Obligations.DecodeErrorsByOpcodeAndFields := by
  intro w
  simp only [ne_eq, ← opField_eq_iff, ← decodeAndEncodeAgree w _]
  obtain ⟨hd, hop⟩ | ⟨i, hop, hd⟩ := decode_cases w
  · rw [hd]
    exact ⟨iff_of_true rfl hop, iff_of_false nofun fun ⟨⟨i, hi⟩, _⟩ => hop i hi⟩
  · have hmap : ¬ ∀ j, ¬ opField (encode j) = opField w := fun h => h i hop
    split at hd <;> rw [hd]
    · exact ⟨iff_of_false nofun hmap, iff_of_false nofun fun h => h.2 i rfl⟩
    · exact ⟨iff_of_false nofun hmap, iff_of_true rfl ⟨⟨i, hop⟩, nofun⟩⟩

/-- Settles O3: each example word is the encoder's word of its command. -/
theorem exampleWordsDecode : Obligations.ExampleWordsDecode :=
  have h {w : Word} {i : Instr} (he : encode i = w) : decode w = .ok i := (decodeAndEncodeAgree w i).mpr he
  ⟨h rfl, h rfl, h rfl, h rfl, h rfl, h rfl, h rfl⟩

end Sys2Proof

namespace Sys2Proof.Machine

/-! ## The word on CMD -/

theorem command_ok {w : Word} {i : Instr} (h : decode w = .ok i) (s : State) : command w s = exec i s := by
  simp only [command, h]

/-- An idle core rejects a word that is no command, by the decoder's reason (R153, 60_exceptions.md R451). -/
theorem command_error {w : Word} {e : DecodeError} (h : decode w = .error e) {s : State} (hs : s.status.running = none) :
    command w s = .next (s.withError (decodeCause e).code) := by
  simp only [command, h, busyBit_eq_false hs, Bool.false_eq_true, if_false, reject_eq_withError]

theorem step_cmd {s : State} {w : Word} {rest : List HostOp} (hs : s.status.running = none)
    (h : s.hostOps = .write 0x00#8 w :: rest) : step s = command w { s with hostOps := rest } := by
  have hs' : { s with hostOps := rest }.status.running = none := hs
  rw [step_write (by decide) h, hostWrite_cmd hs']

/-- Settles O4: the step is the word on CMD, and the word is its command. -/
theorem stepRunsTheDecodedCommand : Obligations.StepRunsTheDecodedCommand :=
  fun _ _ _ _ hs h hd => (step_cmd hs h).trans (command_ok hd _)

/-- Settles O5: the step is the word on CMD, and each of the decoder's two reasons is its cause code. -/
theorem stepRejectsAWordThatIsNoCommand : Obligations.StepRejectsAWordThatIsNoCommand :=
  fun _ _ _ hs h =>
    ⟨fun hd => (step_cmd hs h).trans (command_error hd hs), fun hd => (step_cmd hs h).trans (command_error hd hs)⟩

end Sys2Proof.Machine
end

section
/-! PROOFS. The BitReader as a cursor over the stream of 20_memory.md R101 (40_bitreader.md R203, R204, R220 to R222): INIT puts it at
bit 0, every command but RESET moves it along, and the three primitives answer and take the bits it stands at. -/

namespace Sys2Proof.Machine

/-! ## Every update of a decode stays in the stream -/

section Stream
variable {s : State}

theorem StreamInv.build (h : StreamInv s) (id : TableId) :
    StreamInv (endBuild id (builtFrom id s) (clearStatus id s)) :=
  h.congr (by simp) (by simp) (by simp) (by simp)

theorem StreamInv.clearStatus (h : StreamInv s) (id : TableId) : StreamInv (clearStatus id s) :=
  h.congr (by simp) (by simp) (by simp) (by simp)

/-- CONSUME alone moves the BitReader within a command, and it stays in the stream; every other update leaves it. -/
theorem streamInv_closed : CommandClosed StreamInv where
  output :=
    { block :=
        { pt :=
            { consume := fun n _ h => h.consumeBits n
              clear := fun id _ _ h => h.clearStatus id
              build := fun id _ _ _ h => h.build id
              setLen := fun _ _ _ _ h => h.congr rfl rfl rfl rfl
              zeroLens := fun _ _ _ h => h.congr rfl rfl rfl rfl
              single := fun p _ _ h => (h.consumeBits p.nbit).congr rfl rfl rfl rfl }
          c :=
            { consume := fun n _ h => h.consumeBits n
              clear := fun _ h => h.clearStatus .cTable
              build := fun _ _ h => h.build .cTable
              setLen := fun _ _ _ _ h => h.congr rfl rfl rfl rfl
              zeroLens := fun _ _ _ h => h.congr rfl rfl rfl rfl
              single := fun _ h => (h.consumeBits 9).congr rfl rfl rfl rfl }
          header := fun _ h => h.congr rfl rfl rfl rfl
          decrement := fun _ h => h.congr rfl rfl rfl rfl }
      literal := fun _ _ _ h => h.congr rfl rfl rfl rfl
      copy := fun _ _ _ _ h => h.congr rfl rfl rfl rfl
      start := fun _ _ _ _ _ h => h.congr rfl rfl rfl rfl
      draw := fun _ h => h.congr rfl rfl rfl rfl }
  setLength := fun side _ _ _ _ h => by cases side <;> exact h.congr rfl rfl rfl rfl

/-- A command's end leaves the BitReader where its last step left it. -/
theorem StreamInv.finish {x : Flow (Option Word)} (h : StreamInv x.state) : StreamInv (finish x) := by
  obtain ⟨v, -, e⟩ | ⟨-, e⟩ | ⟨f, -, e⟩ := finish_cases x <;> rw [e]
  · exact h.congr rfl rfl rfl rfl
  · exact h
  · exact h.congr rfl rfl rfl rfl

end Stream

/-- Settles O24: a command that is dropped or rejected leaves the BitReader, INIT enters the stream anew, and the updates of
every other command stay in it. -/
theorem everyCommandStaysInTheStream : Obligations.EveryCommandStaysInTheStream := by
  intro i s t hinv h hr he
  obtain ⟨-, rfl⟩ | ⟨c, -, -, rfl⟩ | ⟨-, hp, rfl⟩ := exec_cases he
  · exact h.congr rfl rfl rfl rfl
  · exact h.congr rfl rfl rfl rfl
  · refine StreamInv.finish ?_
    by_cases hi : i = .init
    · subst hi
      exact StreamInv.initDecode (s := accept s) hinv.cfg_wf
    · exact streamInv_closed.ran ⟨hi, hr⟩ hp (h.congr rfl rfl rfl rfl)

/-! ## INIT -/

/-- INIT in a state that is not BUSY (R400). -/
theorem exec_init {s t : State} (h : s.status.running = none) (he : exec .init s = .next t) :
    t = setResult 0 (initDecode (accept s)) := by
  obtain ⟨hbusy, -⟩ | ⟨-, ht⟩ := exec_control_cases rfl he
  · exact absurd h hbusy
  · exact ht

/-- Settles O23: INIT_BITS enters the stream, and sets BITPOS to 0. -/
theorem initEntersTheStream : Obligations.InitEntersTheStream := by
  intro s t h hc he
  rw [exec_init h he]
  exact ⟨(StreamInv.initDecode (s := accept s) hc).congr rfl rfl rfl rfl, rfl⟩

/-! ## The staging queue at INIT (R200, R203) -/

/-- The registers of the staging queue: STAGE_LEN, STAGE_IDX and IN_CURSOR (10_state.md R44, R45). -/
structure Staging where
  len : Nat
  idx : Nat
  cursor : Nat

/-- The staging registers of a BitReader. -/
def BitReader.staging (b : BitReader) : Staging := ⟨b.stage.length, b.stageIdx.toNat, b.inCursor.toNat⟩

/-- What a refill does to the staging registers. -/
def Staging.refill (src : Source) (q : Staging) : Staging :=
  if q.idx = q.len then
    ⟨min src.cap (src.len - q.cursor), 0, q.cursor + min src.cap (src.len - q.cursor)⟩
  else q

/-- What FETCH_BYTE does to the staging registers: a refill, then a step past the byte handed out, if there is one. -/
def Staging.fetch (src : Source) (q : Staging) : Staging :=
  let r := q.refill src
  if r.idx < r.len then { r with idx := r.idx + 1 } else r

theorem Queue.staging_refill {src : Source} {b : BitReader} {F : Nat} (h : Queue src b F) :
    (Machine.refill src b).staging = b.staging.refill src := by
  have hlen := h.len_lt
  have hcur := h.inCursor_le
  have hk : (b.inCursor + BitVec.ofNat 32 (min src.cap (src.len - b.inCursor.toNat))).toNat =
      b.inCursor.toNat + min src.cap (src.len - b.inCursor.toNat) := by
    rw [BitVec.toNat_add, BitVec.toNat_ofNat]
    omega
  unfold Machine.refill Staging.refill BitReader.staging
  dsimp only
  split
  · simp only [Source.batch_length, hk]
    rfl
  · rfl

theorem Queue.staging_fetchByte {src : Source} {b : BitReader} {F : Nat} (h : Queue src b F) :
    (Machine.fetchByte src b).2.staging = b.staging.fetch src := by
  have hstage := h.refill.1.stageLen_le
  unfold Staging.fetch Machine.fetchByte
  rw [← h.staging_refill]
  generalize Machine.refill src b = r at hstage
  dsimp only
  by_cases hlt : r.stageIdx.toNat < r.stage.length
  · have hi : (r.stageIdx + 1).toNat = r.stageIdx.toNat + 1 := by bv_omega
    rw [List.getElem?_eq_getElem hlt]
    simp only [BitReader.staging, hlt, hi, if_true]
  · rw [List.getElem?_eq_none (Nat.le_of_not_lt hlt)]
    simp only [BitReader.staging, hlt, if_false]

/-- A queue is one for every BitReader with the same staging registers and the same staged bytes. -/
theorem Queue.congr {src : Source} {b c : BitReader} {F : Nat} (h : Queue src b F) (hs : c.stage = b.stage)
    (hi : c.stageIdx = b.stageIdx) (hc : c.inCursor = b.inCursor) : Queue src c F :=
  { h with
    stage_le := by rw [hs, hc]; exact h.stage_le
    stageIdx_le := by rw [hs, hi]; exact h.stageIdx_le
    stageLen_le := by rw [hs]; exact h.stageLen_le
    inCursor_le := by rw [hc]; exact h.inCursor_le
    fetched := by rw [hs, hi, hc]; exact h.fetched
    staged := by simp only [hs, hi, hc]; exact h.staged }

/-- The BitReader as INIT_BITS finds it before its first fetch. -/
def BitReader.emptied (b : BitReader) : BitReader :=
  { b with bitbuf := 0, subbitbuf := 0, bitcount := 0, stage := [], stageIdx := 0, inCursor := 0 }

theorem Queue.emptied {src : Source} (b : BitReader) (hc : 1 ≤ src.cap) (hc' : src.cap ≤ 65535) (hl : src.len < 2 ^ 32) :
    Queue src b.emptied 0 where
  cap_pos := hc
  cap_le := hc'
  len_lt := hl
  stage_le := Nat.le_refl 0
  stageIdx_le := Nat.le_refl 0
  stageLen_le := Nat.zero_le _
  inCursor_le := Nat.zero_le _
  fetched := (Nat.zero_min _).symm
  staged k _ hk := absurd hk (Nat.not_lt_zero k)

/-- One pass of SHIFT_IN's loop with m bits to shift (R202). -/
def shiftPass (src : Source) (m : Nat) (b : BitReader) : BitReader :=
  { (fetchByte src b).2 with
    bitbuf := b.bitbuf ||| (b.subbitbuf.setWidth 16 <<< (m - b.bitcount.toNat))
    subbitbuf := (fetchByte src b).1
    bitcount := 8 }

theorem shiftLoop_pass (src : Source) (fuel : Nat) {m : Nat} {b : BitReader} (h : b.bitcount.toNat < m) :
    shiftLoop src (fuel + 1) m b = shiftLoop src fuel (m - b.bitcount.toNat) (shiftPass src m b) := by
  rw [shiftLoop, if_pos h]
  rfl

theorem shiftLoop_done (src : Source) (fuel : Nat) {m : Nat} {b : BitReader} (h : m ≤ b.bitcount.toNat) :
    shiftLoop src (fuel + 1) m b = (m, b) := by
  rw [shiftLoop, if_neg (Nat.not_lt_of_le h)]

/-- INIT_BITS is two passes: two bytes are fetched, and all 8 bits of the second are shifted in. -/
theorem initBits_eq_two_passes (src : Source) (b : BitReader) :
    initBits src b = { shiftEnd 8 (shiftPass src 16 (shiftPass src 16 b.emptied)) with bitpos := 0 } := by
  have hloop : shiftLoop src 17 16 b.emptied = (8, shiftPass src 16 (shiftPass src 16 b.emptied)) := by
    have hzero : b.emptied.bitcount.toNat = 0 := rfl
    have hbyte (m : Nat) (c : BitReader) : (shiftPass src m c).bitcount.toNat = 8 := rfl
    rw [shiftLoop_pass src 16 (by omega), hzero, shiftLoop_pass src 15 (by rw [hbyte]; omega), hbyte,
      shiftLoop_done src 14 (by rw [hbyte])]
  have hzero : { b.emptied with bitbuf := b.emptied.bitbuf <<< 16 } = b.emptied := by
    rw [show b.emptied.bitbuf = 0#16 from rfl, BitVec.zero_shiftLeft]
    rfl
  have hin : shiftIn src 16 b.emptied = shiftEnd 8 (shiftPass src 16 (shiftPass src 16 b.emptied)) := by
    rw [shiftIn_eq_shiftEnd, hzero, hloop]
  rw [← hin]
  rfl

/-- A pass fetches one byte. -/
theorem Queue.shiftPass {src : Source} {b : BitReader} {F : Nat} (h : Queue src b F) (m : Nat) :
    Queue src (shiftPass src m b) (F + 1) ∧ (Machine.shiftPass src m b).staging = b.staging.fetch src :=
  ⟨h.fetchByte.2.congr rfl rfl rfl, h.staging_fetchByte⟩

theorem staging_shiftEnd (m p : Nat) (b : BitReader) : { shiftEnd m b with bitpos := p }.staging = b.staging := rfl

/-- INIT_BITS is two fetches from an empty queue. -/
theorem initBits_staging {src : Source} (hc : 1 ≤ src.cap) (hc' : src.cap ≤ 65535) (hl : src.len < 2 ^ 32) (b : BitReader) :
    (initBits src b).staging = Staging.fetch src (Staging.fetch src ⟨0, 0, 0⟩) := by
  obtain ⟨hone, hfirst⟩ := (Queue.emptied b hc hc' hl).shiftPass 16
  obtain ⟨-, hsecond⟩ := hone.shiftPass 16
  rw [initBits_eq_two_passes, staging_shiftEnd, hsecond, hfirst]
  rfl

/-- A fetch at the end of a batch begins the next batch, or empties the queue for good. -/
theorem Staging.fetch_of_batch_end {src : Source} (hc : 1 ≤ src.cap) (n i : Nat) :
    Staging.fetch src ⟨n, n, i⟩ =
      ⟨min src.cap (src.len - i), min 1 (src.len - i), i + min src.cap (src.len - i)⟩ := by
  simp only [Staging.fetch, Staging.refill, if_true]
  split
  · next h => rw [show min 1 (src.len - i) = 0 + 1 by omega]
  · next h => rw [show min 1 (src.len - i) = 0 by omega]

theorem Staging.fetch_within_batch (src : Source) {n j : Nat} (h : j < n) (i : Nat) :
    Staging.fetch src ⟨n, j, i⟩ = ⟨n, j + 1, i⟩ := by
  simp only [Staging.fetch, Staging.refill, h.ne, h, if_false, if_true]

/-- Two fetches from an empty queue: the second stays in the first batch, or begins a second one, which is empty where the
input holds fewer than two bytes. -/
theorem Staging.fetch_fetch_empty {src : Source} (hc : 1 ≤ src.cap) :
    Staging.fetch src (Staging.fetch src ⟨0, 0, 0⟩) =
      if src.len < 2 then ⟨0, 0, src.len⟩
      else ⟨min src.cap src.len, min 2 (min src.cap src.len), min src.len (max src.cap 2)⟩ := by
  rw [fetch_of_batch_end hc, Nat.sub_zero, Nat.zero_add]
  by_cases hbatch : min 1 src.len < min src.cap src.len
  · rw [fetch_within_batch src hbatch, if_neg (by omega)]
    congr 1 <;> omega
  · rw [show min 1 src.len = min src.cap src.len by omega, fetch_of_batch_end hc]
    split <;> congr 1 <;> omega

/-- What INIT_BITS leaves of the staging queue (R200, R203). -/
theorem initBits_queue {src : Source} (hc : 1 ≤ src.cap) (hc' : src.cap ≤ 65535) (hl : src.len < 2 ^ 32) (b : BitReader) :
    (initBits src b).inCursor.toNat = min src.len (max src.cap 2) ∧
      (2 ≤ src.len → (initBits src b).stage.length = min src.cap src.len ∧
        (initBits src b).stageIdx.toNat = min 2 (initBits src b).stage.length) ∧
      (src.len < 2 → (initBits src b).stage.length = 0 ∧ (initBits src b).stageIdx = 0#16) := by
  have h := initBits_staging hc hc' hl b
  rw [Staging.fetch_fetch_empty hc] at h
  split at h
  · next hshort =>
    obtain ⟨hstage, hidx, hcursor⟩ := Staging.mk.inj h
    exact ⟨by omega, fun hlong => by omega, fun _ => ⟨hstage, BitVec.eq_of_toNat_eq hidx⟩⟩
  · next hlong =>
    obtain ⟨hstage, hidx, hcursor⟩ := Staging.mk.inj h
    exact ⟨hcursor, fun _ => ⟨hstage, by rw [hidx, hstage]⟩, fun hshort => absurd hshort hlong⟩

/-! ## The bits of the lookahead -/

theorem toNat_append_byte (x y : Byte) : (x ++ y).toNat = 256 * x.toNat + y.toNat := by
  rw [BitVec.toNat_append, ← Nat.shiftLeft_add_eq_or_of_lt y.isLt, Nat.shiftLeft_eq, Nat.mul_comm]

/-- A BitReader at bit 0 of the stream holds its first two bytes, the second fetched last. -/
theorem InStream.first_bytes {src : Source} {b : BitReader} (h : InStream src 16 b) :
    b.bitbuf = src.streamByte 0 ++ src.streamByte 1 ∧ b.subbitbuf = src.streamByte 1 ∧ b.bitcount = 0#4 := by
  have hcount : b.bitcount.toNat = 0 := by
    have := h.whole
    have := h.bitcount_le
    omega
  refine ⟨BitVec.eq_of_getLsbD_eq fun i hi => ?_, BitVec.eq_of_getLsbD_eq fun i hi => ?_, BitVec.eq_of_toNat_eq hcount⟩
  · rw [h.buf i hi, BitVec.getLsbD_append]
    split
    · next hlow => rw [src.streamByte_bit 1 i hlow]
    · next hhigh =>
      rw [src.streamByte_bit 0 (i - 8) (by omega)]
      congr 1
      omega
  · rw [h.sub i hi, src.streamByte_bit 1 i hi, hcount]

theorem Source.streamByte_toNat (src : Source) (k : Nat) :
    (src.streamByte k).toNat = if k < src.len then (src.byte k).toNat else 0 :=
  apply_ite BitVec.toNat ..

/-- What the BitReader reads after an INIT: IN with the length the host has written to IN_LEN. -/
def initSource (s : State) : Source := { mem := s.inMem, len := s.regs.inLen.toNat, cap := s.cfg.stageCap }

/-- Settles O16: INIT_BITS stands at bit 0 of the stream, after two fetches from an empty queue. -/
theorem initFillsTheLookahead : Obligations.InitFillsTheLookahead := by
  intro s t h hc hc' he n byte
  have hlen : (initSource s).len < 2 ^ 32 := s.regs.inLen.isLt
  have hbits : t.bits = initBits (initSource s) s.bits := by
    rw [exec_init h he]
    rfl
  have hbyte (k : Nat) : ((initSource s).streamByte k).toNat = byte k := Source.streamByte_toNat ..
  obtain ⟨hbuf, hsub, hcount⟩ := (InStream.initBits (initSource s) s.bits hc hc' hlen).first_bytes
  obtain ⟨hcursor, hbatch⟩ := initBits_queue (src := initSource s) hc hc' hlen s.bits
  rw [hbits]
  refine ⟨?_, ?_, hcount, rfl, hcursor, hbatch⟩
  · rw [hbuf, toNat_append_byte, hbyte, hbyte]
  · rw [hsub, hbyte]

/-! ## PEEK, CONSUME and GETBITS -/

theorem bitCountLegal_of_le {n : BitVec 5} (hn : n.toNat ≤ 16) : bitCountLegal n = true := decide_eq_true hn

/-- PEEK's answer in RESULT (R210). -/
theorem peekWord_toNat (n : Nat) (s : State) :
    ((peekBits n s).setWidth 32).toNat = s.bits.bitbuf.toNat / 2 ^ (16 - n) := by
  rw [BitVec.toNat_setWidth_of_le (by decide), peekBits_toNat]

theorem peekWord_lt {n : Nat} (hn : n ≤ 16) (s : State) : ((peekBits n s).setWidth 32).toNat < 2 ^ n := by
  rw [BitVec.toNat_setWidth_of_le (by decide)]
  exact peekBits_lt hn s

theorem peekWord_zero (s : State) : (peekBits 0 s).setWidth 32 = 0#32 :=
  BitVec.eq_of_toNat_eq (Nat.lt_one_iff.mp (peekWord_lt (Nat.zero_le 16) s))

/-- In the stream PEEK's answer is the next n bits, the first one the most significant (R102, R204). -/
theorem StreamInv.peekWord {s : State} (h : StreamInv s) {n k : Nat} (hn : n ≤ 16) (hk : k < n) :
    ((peekBits n s).setWidth 32).getLsbD (n - 1 - k) = streamBit s (s.bits.bitpos + k) := by
  have hbit : (peekBits n s).getLsbD (n - 1 - k) = s.bits.bitbuf.getLsbD (15 - k) := by
    rw [peekBits, BitVec.getLsbD_ushiftRight]
    congr 1
    omega
  rw [BitVec.getLsbD_setWidth, hbit, h.bitbuf_eq k (by omega), decide_eq_true (by omega), Bool.true_and]

/-- Settles O20: PEEK runs, and ends with PEEK's answer in RESULT and nothing else touched. -/
theorem peekReadsTheTopBits : Obligations.PeekReadsTheTopBits := by
  intro n s hs hn
  refine ⟨(peekBits n.toNat s).setWidth 32, peekWord_toNat _ s, ?_, ?_, exec_runs hs rfl (bitCountLegal_of_le hn) rfl⟩
  · rintro rfl
    exact peekWord_zero s
  · rintro rfl
    exact (peekWord_toNat 16 s).trans (Nat.div_one _)

/-- Settles O21: CONSUME runs, and its one update moves the BitReader alone. -/
theorem consumeMovesOnlyTheBitReader : Obligations.ConsumeMovesOnlyTheBitReader := by
  intro n s hs hn
  refine ⟨(consumeBits n.toNat s).bits, consumeBits_bitpos _ s, rfl, ?_, ?_⟩
  · rintro rfl
    rfl
  · rw [← consumeBits_cleared]
    exact exec_runs hs rfl (bitCountLegal_of_le hn) rfl

/-- Settles O22: GETBITS runs, answers as PEEK and ends as CONSUME; in the stream PEEK's bits are the stream's. -/
theorem getBitsReturnsTheNextStreamBits : Obligations.GetBitsReturnsTheNextStreamBits := by
  intro n s hs hn
  refine ⟨(peekBits n.toNat s).setWidth 32, peekWord_toNat _ s, peekWord_lt hn s, ?_, consumeBits_bitpos _ s, ?_,
    fun h k hk => h.peekWord hn hk⟩
  · rw [← consumeBits_cleared]
    exact exec_runs hs rfl (bitCountLegal_of_le hn) rfl
  · rintro rfl
    exact ⟨peekWord_zero s, rfl⟩

end Sys2Proof.Machine
end

section
/-! PROOFS. The commands of the HuffmanTableBuilder one by one (41_table_builder.md R270 to R274), a build of lengths that are no
complete code (R252), and what a lookup answers (R257, R258). -/

namespace Sys2Proof.Machine

/-! ## SET_LEN and GET_LEN (R270, R271) -/

/-- SET_LEN runs, and ends with its one update. -/
theorem exec_setLen {t : Side} {n : BitVec 5} {b : BitVec 16} {s : State} (hs : s.Runs) (hl : legalIn (.setLen t n b) s) :
    exec (.setLen t n b) s = .next (setLength t n b.toNat s.cleared) :=
  exec_runs hs rfl ((operandsLegal_iff _ s).mpr hl) rfl

/-- A length array after one entry is written, the read index compared with the written one. -/
theorem lenAt_after_setLenAt (l : Entries 5) (i : Nat) (x : BitVec 5) (j : Nat) :
    lenAt (setLenAt l i x) j = if j = i then x else lenAt l j :=
  (lenAt_setLenAt l i j x).trans (if_congr eq_comm rfl rfl)

/-- Settles O25: on either side the update is the entry and the table's mark. -/
theorem setLenWritesOneLength : Obligations.SetLenWritesOneLength := by
  refine fun t n b s hs hl => ⟨_, exec_setLen hs hl, ?_, ?_⟩ <;> rintro rfl
  · exact ⟨rfl, lenAt_after_setLenAt s.tabs.cLen b.toNat n⟩
  · exact ⟨rfl, lenAt_after_setLenAt s.tabs.ptLen b.toNat n⟩

/-! ## Debug reads of a table and of the tree (R273, R274) -/

/-- A read command of an inspectable core with legal operands runs, also after a failure (R455). -/
theorem exec_inspects_legal {i : Instr} {s : State} (hs : s.Inspectable) (hg : gateOf i = .inspect) (hl : legalIn i s) :
    exec i s = .next (finish (bodyOf i s.cleared)) :=
  exec_inspects hs hg ((operandsLegal_iff i s).mpr hl)

/-- A debug read of an entry: a known value is the answer, an unknown one is answered by a fresh draw (R500). -/
theorem exec_answers_entry {i : Instr} {s : State} {e : Option (BitVec 10)}
    (h : exec i s = .next (finish (readOrDraw e s.cleared))) :
    (∀ x, e = some x → exec i s = .next (s.cleared.withResult (x.setWidth 32))) ∧
    (e = none → ∃ x : BitVec 10,
      exec i s = .next ({ s.cleared with draws := s.draws + 1 }.withResult (x.setWidth 32))) := by
  refine ⟨?_, ?_⟩
  · rintro x rfl
    exact h
  · rintro rfl
    exact ⟨Config.drawEntry s.draws, h⟩

/-- The direct table of a side. -/
def sideTable (t : Side) (s : State) : Entries 10 :=
  match t with
  | .c => s.tabs.cTable
  | .pt => s.tabs.ptTable

theorem exec_getTable {t : Side} {b : BitVec 16} {s : State} (hs : s.Inspectable) (hl : legalIn (.getTable t b) s) :
    exec (.getTable t b) s = .next (finish (readOrDraw (readCell (sideTable t s) b.toNat) s.cleared)) := by
  rw [exec_inspects_legal hs rfl hl]
  cases t <;> rfl

/-- Settles O26: both commands inspect; a table entry is answered as it stands, or by a draw. -/
theorem getLenAndGetTableReturnTheEntry : Obligations.GetLenAndGetTableReturnTheEntry := by
  refine fun t b s hs => ⟨fun hl => ?_, fun hl => ?_⟩
  · rw [exec_inspects_legal hs rfl hl]
    cases t <;> rfl
  · obtain ⟨hknown, hunknown⟩ := exec_answers_entry (exec_getTable hs hl)
    split
    · next x hx => exact hknown x hx
    · next hx => exact hunknown hx

/-- A node is live when its id lies below its side's AVAIL and, on the PT side, not below the last build's nchar (R50, R51). -/
theorem nodeLive_iff (s : State) (i : Nat) :
    nodeLive s i = true ↔
      if 510 ≤ i then i < s.tabs.cAvail.toNat else s.tabs.ptFirst.toNat ≤ i ∧ i < s.tabs.ptAvail.toNat := by
  unfold nodeLive
  split <;> simp

theorem exec_getNode {t : Child} {b : BitVec 16} {s : State} (hs : s.Inspectable) (hl : legalIn (.getNode t b) s) :
    exec (.getNode t b) s = .next (finish (readOrDraw (nodeEntry t b.toNat s) s.cleared)) :=
  exec_inspects_legal hs rfl hl

/-- Settles O27: a live node's child is read, any other entry has no known value. -/
theorem getNodeReturnsTheChild : Obligations.GetNodeReturnsTheChild := by
  intro t b s hs hl live entry
  have hlive : nodeLive s b.toNat = true ↔ live := nodeLive_iff s b.toNat
  have hnode : nodeEntry t b.toNat s = if nodeLive s b.toNat = true then entry else none := by cases t <;> rfl
  obtain ⟨hknown, hunknown⟩ := exec_answers_entry (exec_getNode hs hl)
  refine ⟨fun x h hx => hknown x ?_, fun h => hunknown ?_⟩
  · rw [hnode, if_pos (hlive.mpr h), hx]
  · rw [hnode, ite_eq_right_iff, hlive]
    exact h.neg_resolve_left

/-! ## A build of lengths that are no complete code (R252) -/

/-- The sum of a table's lengths fits the 24 bits of the failure's detail. -/
theorem kraftSum_buildLens_le (id : TableId) (s : State) : kraftSum (buildLens id s) ≤ 16711680 :=
  calc kraftSum (buildLens id s)
    _ ≤ 2 ^ 15 * (buildLens id s).length := kraftSum_le _
    _ ≤ 2 ^ 15 * 510 := Nat.mul_le_mul_left _ ((buildLens_length id s).trans_le (nchar_le id))
    _ = 16711680 := by norm_num

/-- MAKE_TABLE of lengths that are no complete code fails once the table's mark is cleared. -/
theorem makeTable_fails {t : Side} {b : BitVec 16} {s : State} (hs : s.Runs) (hl : legalIn (.makeTable t b) s)
    (hk : kraftSum (buildLens (makeTableId t b) s) ≠ 65536) :
    exec (.makeTable t b) s = .next ((clearStatus (makeTableId t b) s.cleared).withFailure 0x01#8 (makeTableId t b).code
      (BitVec.ofNat 24 (kraftSum (buildLens (makeTableId t b) s)))) := by
  rw [exec_runs hs rfl ((operandsLegal_iff _ s).mpr hl) rfl, bodyOf, buildTable_eq, buildLens_cleared, if_neg hk]
  rfl

/-- The start of a PT side's build, of either table, clears PT_KIND and PT_NCHAR alone (R259). -/
theorem clearStatus_makeTableId_pt (b : BitVec 16) (s : State) :
    clearStatus (makeTableId .pt b) s = { s with tabs := { s.tabs with ptKind := .unbuilt, ptNchar := 0#5 } } := by
  have hid : makeTableId .pt b = .metaTable ∨ makeTableId .pt b = .posTable := ite_eq_or_eq ..
  obtain h | h := hid <;> rw [h] <;> rfl

/-- Settles O28: the check fails before any write of the build, when only the table's mark is cleared. -/
theorem incompleteCodeFailsTheBuild : Obligations.IncompleteCodeFailsTheBuild := by
  intro t b s hs hl id
  refine ⟨kraftSum_buildLens_le id s, fun hk => ?_⟩
  cases t with
  | c => exact makeTable_fails hs hl hk
  | pt =>
    have he := makeTable_fails hs hl hk
    rw [clearStatus_makeTableId_pt] at he
    exact he

/-! ## Lookups (R257, R258) -/

/-- A value at or above AVAIL that is no symbol ends the walk as an error. -/
theorem walk_stale {nchar avail : Nat} {buf : BitVec 16} {left right : Entries 10} (fuel : Nat) {c : BitVec 10}
    (hn : nchar ≤ c.toNat) (ha : avail ≤ c.toNat) : walk nchar avail buf left right fuel c = .error c := by
  have hsym : ¬ c.toNat < nchar := Nat.not_lt.mpr hn
  cases fuel with
  | zero => rw [walk, if_neg hsym]
  | succ fuel => rw [walk, if_neg hsym, if_pos ha]

/-- A direct-table entry at or above AVAIL that is no symbol fails the lookup. -/
theorem lookup_direct_stale {id : TableId} {s : State} {c : BitVec 10} (hn : id.nchar ≤ c.toNat)
    (ha : (availOf id s).toNat ≤ c.toNat) (hc : readCell (tableOf id s) (peekBits id.tb s).toNat = some c) :
    lookup id s = .failed { cause := .staleNode, table := id.code, detail := c.setWidth 24 } s := by
  unfold lookup
  simp only [entryAt, hc, Option.getD_some, walk_stale _ hn ha]

/-- Settles O31: a lookup's two ends, and the end a direct entry gives at once. -/
theorem lookupAnswersASymbolOrStaleNode : Obligations.LookupAnswersASymbolOrStaleNode := by
  intro id s
  refine ⟨lookup_ends id s, fun c hc => ?_⟩
  rw [← peekBits_toNat] at hc
  exact ⟨fun h => lookup_direct h hc, fun hn ha => lookup_direct_stale hn ha hc⟩

end Sys2Proof.Machine
end

section
/-! PROOFS. The commands that read code lengths and headers (42_block_decoder.md R303, R304, R310, R320 to R323): each ends as its
read does, and a read whose count is 0 or too large ends at once. -/

namespace Sys2Proof.Machine

/-! ## A read command is its read (R320 to R323) -/

/-- The PT list that READ_META_LEN or READ_P_LEN reads. -/
def ptListOf (isMeta : Bool) : PtList := if isMeta then metaList else positionList

/-- The command that reads that list. -/
def readPtInstr (isMeta : Bool) : Instr := if isMeta then .readMetaLen else .readPLen

theorem ptListOf_cases (isMeta : Bool) : ptListOf isMeta = metaList ∨ ptListOf isMeta = positionList := by
  cases isMeta
  · exact .inr rfl
  · exact .inl rfl

theorem ptListOf_ne_c (isMeta : Bool) : (ptListOf isMeta).id ≠ .cTable := metaOrPosition_ne_c (ptListOf_cases isMeta)

section Reads
variable {s : State} (hs : s.Runs)
include hs

theorem exec_readPt (isMeta : Bool) :
    exec (readPtInstr isMeta) s = .next (finish (returning (readPtLen (ptListOf isMeta) s.cleared))) := by
  cases isMeta <;> exact exec_runs hs rfl rfl rfl

theorem exec_readCLen (hm : s.tabs.ptKind = .metaList) :
    exec .readCLen s = .next (finish (returning (readCLen s.cleared))) :=
  exec_runs hs rfl rfl (if_pos hm)

theorem exec_readBlockHeader :
    exec .readBlockHeader s = .next (finish (returning (readBlockHeader s.cleared))) :=
  exec_runs hs rfl rfl rfl

end Reads

@[simp] theorem finish_returning_ok (v : Word) (s : State) : finish (returning (.ok v s)) = setResult v s := rfl

@[simp] theorem finish_returning_failed (f : Failure) (s : State) :
    finish (returning (.failed f s)) = failWith f s := rfl

/-- A read that runs to its end completes its command with its value; one that fails is recorded (R452). -/
theorem exec_ends_as_read {i : Instr} {s : State} {x : Flow Word} (h : exec i s = .next (finish (returning x)))
    (u : State) (v : Word) (f : Failure) :
    (x = .ok v u → exec i s = .next (u.withResult v)) ∧
    (x = .failed f u → exec i s = .next (u.withFailure f.cause.code f.table f.detail)) := by
  refine ⟨?_, ?_⟩ <;> rintro rfl <;> exact h

/-- Settles O37: each of the four commands is its read. -/
theorem tableReadCommandsEndAsTheirRead : Obligations.TableReadCommandsEndAsTheirRead := by
  intro s u v f hs
  obtain ⟨hmeta, hmeta'⟩ := exec_ends_as_read (exec_readPt hs true) u v f
  obtain ⟨hpos, hpos'⟩ := exec_ends_as_read (exec_readPt hs false) u v f
  obtain ⟨hheader, hheader'⟩ := exec_ends_as_read (exec_readBlockHeader hs) u v f
  exact ⟨hmeta, hmeta', hpos, hpos', fun hm => (exec_ends_as_read (exec_readCLen hs hm) u v f).1,
    fun hm => (exec_ends_as_read (exec_readCLen hs hm) u v f).2, hheader, hheader'⟩

/-! ## The count (R303, R304) -/

/-- A read marks its table unbuilt and takes the bits of its count. -/
theorem consumeBits_clearStatus_cleared (n : Nat) (id : TableId) (s : State) :
    consumeBits n (clearStatus id s.cleared) =
      { s.cleared with bits := (consumeBits n s).bits, tabs := (clearStatus id s).tabs } := by
  have hbits : (consumeBits n (clearStatus id s.cleared)).bits = (consumeBits n s).bits :=
    consumeBits_congr n (clearStatus_bits _ _) (sourceOf_clearStatus id _)
  rw [consumeBits_eq, hbits]
  cases id <;> rfl

/-- The mark of a PT list read is PT_KIND NONE and PT_NCHAR 0 (R259). -/
theorem clearStatus_tabs_pt {id : TableId} (h : id ≠ .cTable) (s : State) :
    (clearStatus id s).tabs = { s.tabs with ptKind := .unbuilt, ptNchar := 0#5 } := by
  cases id with
  | cTable => exact absurd rfl h
  | metaTable => rfl
  | posTable => rfl

/-- A PT count above the symbol count fails with the count; only the BitReader and the table's mark have changed (R304). -/
theorem exec_readPt_over (isMeta : Bool) {s : State} {n : Nat} (hs : s.Runs)
    (hn : (peekBits (ptListOf isMeta).nbit s).toNat = n) (hover : (ptListOf isMeta).id.nchar < n) :
    ∃ u, exec (readPtInstr isMeta) s = .next u ∧
      u.status = (s.cleared.withFailure 0x02#8 (ptListOf isMeta).id.code (BitVec.ofNat 24 n)).status ∧
      u.bits = (consumeBits (ptListOf isMeta).nbit s).bits ∧ u.regs = s.regs ∧
      u.tabs = { s.tabs with ptKind := .unbuilt, ptNchar := 0#5 } := by
  refine ⟨_, exec_readPt hs isMeta, ?_⟩
  rw [readPtLen_over (s := s.cleared) hn hover, consumeBits_clearStatus_cleared]
  exact ⟨rfl, rfl, rfl, clearStatus_tabs_pt (ptListOf_ne_c isMeta) s⟩

/-- Settles O36: a read checks its count before its first length. -/
theorem countOverflowFailsBeforeAnyLength : Obligations.CountOverflowFailsBeforeAnyLength := by
  refine fun s hs => ⟨fun n h hn => ?_, fun h => ?_, fun hm h => ?_⟩
  · exact exec_readPt_over true hs ((peekBits_toNat 5 s).trans h) hn
  · exact exec_readPt_over false hs ((peekBits_toNat 4 s).trans h) (by decide)
  · refine ⟨_, exec_readCLen hs hm, ?_⟩
    rw [readCLen_over (s := s.cleared) ((peekBits_toNat 9 s).trans h) (by decide), consumeBits_clearStatus_cleared]
    exact ⟨rfl, rfl, rfl, rfl⟩

/-- A second field is read where the first one ended. -/
theorem consumeBits_counted (n : Nat) (id : TableId) (s : State) :
    (consumeBits n (consumeBits n (clearStatus id s.cleared))).bits = (consumeBits n (consumeBits n s)).bits := by
  rw [consumeBits_clearStatus_cleared]
  exact consumeBits_congr n rfl (sourceOf_consumeBits n s).symm

theorem peekBits_counted (n : Nat) (id : TableId) (s : State) :
    peekBits n (consumeBits n (clearStatus id s.cleared)) = peekBits n (consumeBits n s) := by
  rw [consumeBits_clearStatus_cleared]
  exact peekBits_congr n rfl

/-- A PT count of 0 completes with the single-code table of the next field (R303). -/
theorem exec_readPt_single (isMeta : Bool) {s : State} (hs : s.Runs) (h0 : (peekBits (ptListOf isMeta).nbit s).toNat = 0) :
    let p := ptListOf isMeta
    ∃ u, exec (readPtInstr isMeta) s = .next u ∧ u.regs.result = 0#32 ∧
      u.bits = (consumeBits p.nbit (consumeBits p.nbit s)).bits ∧
      (∀ i, i < 256 → readCell u.tabs.ptTable i = some ((peekBits p.nbit (consumeBits p.nbit s)).setWidth 10)) ∧
      (∀ i, lenAt u.tabs.ptLen i = if i < p.id.nchar then 0#5 else lenAt s.tabs.ptLen i) ∧
      u.tabs.ptKind = p.id.kind ∧ u.tabs.ptNchar = BitVec.ofNat 5 p.id.nchar ∧
      u.tabs.ptAvail = BitVec.ofNat 11 p.id.nchar ∧
      u.win = s.win ∧ u.outMem = s.outMem ∧ u.status = s.cleared.status := by
  intro p
  refine ⟨_, exec_readPt hs isMeta, ?_⟩
  rw [readPtLen_single (s := s.cleared) h0]
  have hlen : (clearStatus p.id s.cleared).tabs.ptLen = s.tabs.ptLen := by
    rw [clearStatus_tabs_pt (ptListOf_ne_c isMeta)]
    rfl
  refine ⟨rfl, consumeBits_counted _ _ s, fun i hi => ?_, fun i => ?_, rfl, rfl, rfl, ?_, ?_, ?_⟩
  · simp [hi, p, peekBits_counted]
  · simp [p, hlen]
  · simp; rfl
  · simp; rfl
  · simp

/-- Settles O35: the single-code tables of the three lists. -/
theorem singleCodeListsComplete : Obligations.SingleCodeListsComplete := by
  refine fun s hs => ⟨fun h => ?_, fun h => ?_, fun hm h => ?_⟩
  · exact exec_readPt_single true hs ((peekBits_toNat 5 s).trans h)
  · exact exec_readPt_single false hs ((peekBits_toNat 4 s).trans h)
  · refine ⟨_, exec_readCLen hs hm, ?_⟩
    rw [readCLen_single (s := s.cleared) ((peekBits_toNat 9 s).trans h)]
    refine ⟨rfl, consumeBits_counted 9 .cTable s, fun i hi => ?_, fun i => ?_, rfl, rfl, ?_, ?_, ?_, ?_⟩
    · simp [hi, peekBits_counted]
    · simp; rfl
    · rw [← hm]; simp; rfl
    · simp; rfl
    · simp; rfl
    · simp

/-! ## What a read that succeeds leaves (R300, R303, R305, R310) -/

/-- A PT list read that succeeds leaves its table built, from a complete code or as a single-code table. -/
theorem readPtLen_ok_built {p : PtList} (hp : p.id ≠ .cTable) {s u : State} {v : Word} (h : readPtLen p s = .ok v u) :
    u.tabs.ptKind = p.id.kind ∧ u.tabs.ptNchar = BitVec.ofNat 5 p.id.nchar ∧
    (kraftSum (buildLens p.id u) = 65536 ∨ (v = 0#32 ∧ ∀ i, i < p.id.nchar → lenAt u.tabs.ptLen i = 0#5)) := by
  obtain ⟨rfl, rfl⟩ | ⟨w, hk, rfl⟩ := readPtLen_ok h
  · exact ⟨rfl, rfl, .inr ⟨rfl, fun i hi => by simp [hi]⟩⟩
  · rw [buildLens_endBuild, buildLens_clearStatus, endBuild_pt hp]
    exact ⟨rfl, rfl, .inl hk⟩

/-- A C list read that succeeds likewise. -/
theorem readCLen_ok_complete {s u : State} {v : Word} (h : readCLen s = .ok v u) :
    kraftSum (buildLens .cTable u) = 65536 ∨ (v = 0#32 ∧ ∀ i, i < 510 → lenAt u.tabs.cLen i = 0#5) := by
  obtain ⟨rfl, rfl⟩ | ⟨w, hk, rfl⟩ := readCLen_ok h
  · exact .inr ⟨rfl, fun i hi => by simp [hi]⟩
  · rw [buildLens_endBuild, buildLens_clearStatus]
    exact .inl hk

/-- The answer of a header is its block-size field. -/
theorem readBlockHeader_ok_value {s u : State} {v : Word} (h : readBlockHeader s = .ok v u) :
    v = (peekBits 16 s).setWidth 32 := by
  obtain ⟨_, _, -, h⟩ := Flow.andThen_eq_ok.mp h
  obtain ⟨_, _, -, h⟩ := Flow.andThen_eq_ok.mp h
  obtain ⟨_, _, -, h⟩ := Flow.andThen_eq_ok.mp h
  cases h
  rfl

theorem blockSizeField_toNat (s : State) : ((peekBits 16 s).setWidth 32).toNat = s.bits.bitbuf.toNat :=
  (peekWord_toNat 16 s).trans (Nat.div_one _)

/-- Settles O38: what the reads' laws say of a read that succeeds, and of the field a header begins with. -/
theorem successfulReadsLeaveBuiltTables : Obligations.SuccessfulReadsLeaveBuiltTables := by
  intro s u v f
  have hsize := readBlockHeader_blockSize s
  refine ⟨readPtLen_ok_built (by decide), readPtLen_ok_built (by decide),
    fun h => ⟨readCLen_ok_built h, readCLen_ok_complete h⟩, fun h => ?_, fun h => ?_⟩
  · have hv := readBlockHeader_ok_value h
    rw [h] at hsize
    exact ⟨hv ▸ blockSizeField_toNat s, hsize.trans hv.symm, readBlockHeader_ok_built h⟩
  · rw [h] at hsize
    exact (congrArg BitVec.toNat hsize).trans (blockSizeField_toNat s)

end Sys2Proof.Machine
end

section
/-! PROOFS. The length lists item by item (42_block_decoder.md R300 to R307): the length code, the special run, the C item, the two
list loops, and the build that ends a list as MAKE_TABLE would. -/

namespace Sys2Proof.Machine

/-! ## The length code (R301) -/

/-- The ones from the top of `fuel` bits on are counted up to the first zero among them, if there is one. -/
theorem leadingOnes_eq {buf : BitVec 16} {fuel k : Nat} (hk : k ≤ fuel)
    (hones : ∀ j, j < k → buf.getLsbD (fuel - 1 - j) = true) (hzero : k < fuel → buf.getLsbD (fuel - 1 - k) = false) :
    leadingOnes buf fuel = k := by
  induction fuel generalizing k with
  | zero => exact (Nat.le_zero.mp hk).symm
  | succ fuel ih =>
    cases k with
    | zero =>
      have htop : buf.getLsbD fuel = false := hzero (Nat.succ_pos fuel)
      simp [leadingOnes, htop]
    | succ k =>
      have htop : buf.getLsbD fuel = true := hones 0 (Nat.succ_pos k)
      have hrest : leadingOnes buf fuel = k := by
        refine ih (by omega) (fun j hj => ?_) fun hj => ?_
        · rw [← hones (j + 1) (by omega)]
          congr 1
          omega
        · rw [← hzero (by omega)]
          congr 1
          omega
      simp [leadingOnes, htop, hrest]

/-- A length below the escape. -/
theorem lenCodeValue_short {buf : BitVec 16} {v : Nat} (h : buf.toNat / 2 ^ 13 = v) (hv : v ≤ 6) : lenCodeValue buf = v := by
  have he : (buf >>> 13).toNat = v := by rw [BitVec.toNat_ushiftRight, Nat.shiftRight_eq_div_pow, h]
  unfold lenCodeValue
  rw [he, if_neg (by omega)]

/-- The escape and the ones after it. -/
theorem lenCodeValue_escape {buf : BitVec 16} {k : Nat} (h : buf.toNat / 2 ^ 13 = 7) (hk : k ≤ 13)
    (hones : ∀ j, j < k → buf.getLsbD (12 - j) = true) (hzero : k < 13 → buf.getLsbD (12 - k) = false) :
    lenCodeValue buf = 7 + k := by
  have he : (buf >>> 13).toNat = 7 := by rw [BitVec.toNat_ushiftRight, Nat.shiftRight_eq_div_pow, h]
  unfold lenCodeValue
  rw [he, if_pos rfl, leadingOnes_eq hk hones hzero]

theorem readLenCode_of_value {code : BitVec 4} {s : State} {c : Nat} (h : lenCodeValue s.bits.bitbuf = c) (hc : c ≤ 16) :
    readLenCode code s = .ok c (consumeBits (if c < 7 then 3 else c - 3) s) := by
  unfold readLenCode
  rw [h, if_neg (by omega)]

theorem readLenCode_of_overflow {code : BitVec 4} {s : State} {c : Nat} (h : lenCodeValue s.bits.bitbuf = c) (hc : 16 < c) :
    readLenCode code s = .failed { cause := .lengthOverflow, table := code, detail := BitVec.ofNat 24 c } s := by
  unfold readLenCode
  rw [h, if_pos hc]
  rfl

/-- Settles O32: the value is in the bits after the first three, the cost 3 or, from 7 on, 3 less than the value. -/
theorem lengthCodeValueAndCost : Obligations.LengthCodeValueAndCost := by
  refine fun code s => ⟨fun v h hv => ?_, fun k h hones => ⟨fun hk hzero => ?_, fun hk hk' hzero => ?_, ?_⟩⟩
  · rw [readLenCode_of_value (lenCodeValue_short h hv) (by omega), if_pos (by omega)]
  · rw [readLenCode_of_value (lenCodeValue_escape h (by omega) hones fun _ => hzero) (by omega), if_neg (by omega)]
    congr 2
    omega
  · exact readLenCode_of_overflow (lenCodeValue_escape h (by omega) hones fun _ => hzero) (by omega)
  · rintro rfl
    exact readLenCode_of_overflow (lenCodeValue_escape h (Nat.le_refl _) hones (absurd · (Nat.lt_irrefl _))) (by decide)

/-! ## A list's build is MAKE_TABLE's (R300, R305) -/

/-- Inside an accepted command ERR is clear already, and another command would run too. -/
theorem runs_of_status_cleared {s w : State} (hs : s.Runs) (hw : w.status = s.cleared.status) :
    w.Runs ∧ w.cleared = w := by
  cases w
  cases hw
  exact ⟨hs, rfl⟩

/-- A list read whose lengths are in place ends as MAKE_TABLE does from there, but with the count in RESULT. -/
theorem list_ends_as_makeTable {s w : State} {read : Instr} {t : Side} {b : BitVec 16} {id : TableId} {n : Word} (hs : s.Runs)
    (hread : exec read s = .next (finish (returning ((buildTable id w).andThen fun _ u => .ok n u))))
    (hw : w.status = s.cleared.status) (hid : makeTableId t b = id) (hl : legalIn (.makeTable t b) w) :
    ∃ x, exec (.makeTable t b) w = .next x ∧
      (x.status.fail = false → exec read s = .next (x.withResult n)) ∧
      (x.status.fail = true → exec read s = .next x) := by
  obtain ⟨hruns, hclear⟩ := runs_of_status_cleared hs hw
  have he := exec_runs hruns (i := .makeTable t b) rfl ((operandsLegal_iff _ w).mpr hl) rfl
  rw [hclear] at he
  refine ⟨_, he, ?_⟩
  rw [hread]
  have hframe := (buildTable_frame id w).status
  obtain ⟨-, -, hfail⟩ := hruns
  cases hb : buildTable id w with
  | ok a u =>
    rw [hb] at hframe
    have hu : u.status.fail = false := (congrArg StatusRegs.fail hframe).trans hfail
    simp [bodyOf, hid, hb, hu]
    rfl
  | failed f u => simp [bodyOf, hid, hb]

/-! ## A symbol -/

/-- A symbol looked up is taken off the stream; a lookup that fails is the decode's failure (R257). -/
theorem decodeSymbol_of_lookup {id : TableId} {s : State} :
    (∀ c, lookup id s = .ok c s → decodeSymbol id s = .ok c (consumeBits (lenAt (lensOf id s) c.toNat).toNat s)) ∧
    (∀ f, lookup id s = .failed f s → decodeSymbol id s = .failed f s) := by
  refine ⟨fun c h => ?_, fun f h => ?_⟩ <;> rw [decodeSymbol, h] <;> rfl

/-- The state after a symbol `c` of the PT table is looked up and its code consumed. -/
def afterPtSymbol (c : BitVec 10) (s : State) : State := consumeBits (lenAt s.tabs.ptLen c.toNat).toNat s

/-! ## The C items (R306, R307) -/

theorem zeroRun_over {i r : Nat} (h : 510 < i + r) (s : State) :
    zeroRun i r s = .failed { cause := .runOverflow, table := 2#4, detail := BitVec.ofNat 24 (i + r) } s := if_pos h

theorem zeroRun_within {i r : Nat} (h : i + r ≤ 510) (s : State) :
    zeroRun i r s = .ok (i + r) (zeroCLens i (i + r) s) := if_neg (Nat.not_lt.mpr h)

section Items
variable {i : Nat} {s : State} {c : BitVec 10}

/-- What an item does with its meta symbol. -/
theorem cItem_of_lookup (h : lookup .metaTable s = .ok c s) :
    cItem i s =
      if c.toNat = 0 then zeroRun i 1 (afterPtSymbol c s)
      else if c.toNat = 1 then
        zeroRun i ((peekBits 4 (afterPtSymbol c s)).toNat + 3) (consumeBits 4 (afterPtSymbol c s))
      else if c.toNat = 2 then
        zeroRun i ((peekBits 9 (afterPtSymbol c s)).toNat + 20) (consumeBits 9 (afterPtSymbol c s))
      else .ok (i + 1) (setCLen i (c.toNat - 2) (afterPtSymbol c s)) := by
  rw [cItem, decodeSymbol_of_lookup.1 c h]
  rfl

/-- A run is a zero, or its length is the bits after the symbol and a base; every other symbol is a length (R306). -/
theorem cItem_by_symbol (h : lookup .metaTable s = .ok c s) :
    let a := afterPtSymbol c s
    (c = 0#10 → cItem i s = zeroRun i 1 a) ∧
    (c = 1#10 → cItem i s = zeroRun i (a.bits.bitbuf.toNat / 2 ^ 12 + 3) (consumeBits 4 a)) ∧
    (c = 2#10 → cItem i s = zeroRun i (a.bits.bitbuf.toNat / 2 ^ 7 + 20) (consumeBits 9 a)) ∧
    (3 ≤ c.toNat → cItem i s = .ok (i + 1) (setCLen i (c.toNat - 2) a)) := by
  intro a
  rw [cItem_of_lookup h]
  refine ⟨?_, ?_, ?_, fun h3 => ?_⟩
  · rintro rfl
    rfl
  · rintro rfl
    rw [peekBits_toNat 4]
    rfl
  · rintro rfl
    rw [peekBits_toNat 9]
    rfl
  · rw [if_neg (by omega), if_neg (by omega), if_neg (by omega)]

theorem cItem_of_lookup_failed {f : Failure} (h : lookup .metaTable s = .failed f s) : cItem i s = .failed f s := by
  rw [cItem, decodeSymbol_of_lookup.2 f h]
  rfl

/-- A run of `r` entries that does not fail ends `r` further on. -/
theorem zeroRun_ok {r j : Nat} {u : State} (h : zeroRun i r s = .ok j u) : j = i + r := by
  obtain ⟨-, e⟩ | ⟨-, e⟩ := zeroRun_ends i r s <;> rw [e] at h <;> cases h
  rfl

/-- Every item that succeeds writes at least one entry. -/
theorem cItem_ok_lt {j : Nat} {u : State} (h : cItem i s = .ok j u) : i < j := by
  obtain ⟨c, -, hl⟩ | ⟨c, -, hl⟩ := lookup_ends .metaTable s
  · rw [cItem_of_lookup hl] at h
    split at h
    · have := zeroRun_ok h; omega
    split at h
    · have := zeroRun_ok h; omega
    split at h
    · have := zeroRun_ok h; omega
    · cases h
      exact Nat.lt_succ_self i
  · rw [cItem_of_lookup_failed hl] at h
    cases h

theorem cItem_frame (i : Nat) (s : State) : OnlyBitsTabs s (cItem i s).state :=
  (onlyBitsTabs_closed s).c.cItem i (.refl s)

end Items

theorem OnlyBitsTabs.trans {s t u : State} (h1 : OnlyBitsTabs s t) (h2 : OnlyBitsTabs t u) : OnlyBitsTabs s u := by
  unfold OnlyBitsTabs at *
  rw [h2, h1]

/-! ## The C list (R305) -/

/-- The first `m` items of a C list of `n` lengths: `pos k` and `st k` are the index and the state before the k-th one. -/
def CItems (n m : Nat) (pos : Nat → Nat) (st : Nat → State) : Prop :=
  ∀ k, k < m → pos k < n ∧ cItem (pos k) (st k) = .ok (pos (k + 1)) (st (k + 1))

section CItems
variable {n m : Nat} {pos : Nat → Nat} {st : Nat → State}

theorem CItems.of_succ (h : CItems n (m + 1) pos st) : CItems n m pos st := fun k hk => h k (by omega)

/-- The k-th item starts at index k or further on. -/
theorem CItems.le_pos (h : CItems n m pos st) : m ≤ pos m := by
  induction m with
  | zero => exact Nat.zero_le _
  | succ m ih =>
    obtain ⟨-, hitem⟩ := h m (Nat.lt_succ_self m)
    exact Nat.lt_of_le_of_lt (ih h.of_succ) (cItem_ok_lt hitem)

/-- As the index is below `n` before each item, there are at most `n` of them. -/
theorem CItems.le (h : CItems n m pos st) : m ≤ n := by
  cases m with
  | zero => exact Nat.zero_le _
  | succ m => exact Nat.lt_of_le_of_lt h.of_succ.le_pos (h m (Nat.lt_succ_self m)).1

theorem CItems.frame (h : CItems n m pos st) : OnlyBitsTabs (st 0) (st m) := by
  induction m with
  | zero => exact .refl _
  | succ m ih =>
    have hitem := cItem_frame (pos m) (st m)
    rw [(h m (Nat.lt_succ_self m)).2] at hitem
    exact (ih h.of_succ).trans hitem

/-- The list loop runs item by item. -/
theorem CItems.loop (h : CItems n m pos st) (fuel : Nat) :
    cLenLoop n (fuel + m) (pos 0) (st 0) = cLenLoop n fuel (pos m) (st m) := by
  induction m generalizing fuel with
  | zero => rfl
  | succ m ih =>
    obtain ⟨hlt, hitem⟩ := h m (Nat.lt_succ_self m)
    rw [Nat.add_succ, ← Nat.succ_add, ih h.of_succ, cLenLoop, if_neg (Nat.not_le.mpr hlt), hitem]
    rfl

/-- The loop ends at the first item that reaches the count. -/
theorem cLenLoop_done {fuel i : Nat} (h : n ≤ i) (s : State) : cLenLoop n fuel i s = .ok i s := by
  cases fuel with
  | zero => rfl
  | succ fuel => exact if_pos h

/-- The loop ends at an item that fails. -/
theorem cLenLoop_failed {fuel i : Nat} {s u : State} {f : Failure} (h : i < n) (hf : cItem i s = .failed f u) :
    cLenLoop n (fuel + 1) i s = .failed f u := by
  rw [cLenLoop, if_neg (Nat.not_le.mpr h), hf]
  rfl

theorem CItems.loop_done (h : CItems n m pos st) (h0 : pos 0 = 0) (hm : n ≤ pos m) :
    cLenLoop n n 0 (st 0) = .ok (pos m) (st m) := by
  have hloop := h.loop (n - m)
  rwa [Nat.sub_add_cancel h.le, h0, cLenLoop_done hm] at hloop

theorem CItems.loop_failed (h : CItems n m pos st) (h0 : pos 0 = 0) (hm : pos m < n) {u : State} {f : Failure}
    (hf : cItem (pos m) (st m) = .failed f u) : cLenLoop n n 0 (st 0) = .failed f u := by
  have hpos := h.le_pos
  have hloop := h.loop (n - m - 1 + 1)
  rwa [show n - m - 1 + 1 + m = n by omega, h0, cLenLoop_failed hm hf] at hloop

end CItems

/-- A C list with a count in range is its loop, then the zero fill and the build. -/
theorem readCLen_list {s : State} {n : Nat} (hn : (peekBits 9 s).toNat = n) (h1 : 1 ≤ n) (h510 : n ≤ 510) :
    readCLen s = (cLenLoop n n 0 (consumeBits 9 (clearStatus .cTable s))).andThen fun i u =>
      (buildTable .cTable (zeroCLens i 510 u)).andThen fun _ v => .ok (BitVec.ofNat 32 n) v := by
  have hp : peekBits 9 (clearStatus .cTable s) = peekBits 9 s := peekBits_congr 9 (clearStatus_bits _ s)
  have hw : (peekBits 9 s).setWidth 32 = BitVec.ofNat 32 n := by
    rw [← hn, BitVec.ofNat_toNat]
  unfold readCLen
  simp only [getBits, hp, hn, hw]
  rw [if_neg (by omega), if_neg (by omega)]

/-- Settles O34: the items' two kinds, and the list loop run along its items to the build or to the item that fails. -/
theorem cListItemsFillThenBuild : Obligations.CListItemsFillThenBuild := by
  refine ⟨fun i r s => ⟨fun h => zeroRun_over h s, fun h => ?_⟩, fun i s => ⟨fun c hc => ?_, fun f => cItem_of_lookup_failed⟩,
    fun s n m pos st hs hm hn h1 h510 hpos hst hitems => ?_⟩
  · exact ⟨_, zeroRun_within h s, rfl, lenAt_zeroLens _ _ _⟩
  · obtain ⟨h0, h1, h2, h3⟩ := cItem_by_symbol (i := i) hc
    refine ⟨h0, h1, h2, fun hc3 => ⟨_, h3 hc3, rfl, fun j => ?_⟩⟩
    have htabs : (afterPtSymbol c s).tabs = s.tabs := consumeBits_tabs _ s
    rw [← htabs]
    exact lenAt_after_setLenAt _ i _ j
  · have hitems : CItems n m pos st := hitems
    have hexec := exec_readCLen hs hm
    rw [readCLen_list (s := s.cleared) ((peekBits_toNat 9 s).trans hn) h1 h510, consumeBits_clearStatus_cleared] at hexec
    have h0 : st 0 = { s.cleared with bits := (consumeBits 9 s).bits, tabs := (clearStatus .cTable s).tabs } := hst
    rw [← h0] at hexec
    refine ⟨fun hdone => ?_, fun hlt f u hf => ?_⟩
    · rw [hitems.loop_done hpos hdone, Flow.andThen_ok] at hexec
      have hstatus : (zeroCLens (pos m) 510 (st m)).status = s.cleared.status := by
        rw [zeroCLens_status, hitems.frame.status, h0]
      obtain ⟨x, hx⟩ := list_ends_as_makeTable (t := .c) (b := 510#16) hs hexec hstatus rfl ⟨rfl, trivial⟩
      exact ⟨_, x, rfl, lenAt_zeroLens _ _ _, hx⟩
    · rw [hitems.loop_failed hpos hlt hf] at hexec
      exact hexec

/-! ## The special run (R302) -/

/-- The special run of the meta list never overflows: it clears at most 3 of its 19 entries. -/
theorem specialRun_meta (s : State) :
    s.bits.bitbuf.toNat / 2 ^ 14 ≤ 3 ∧
    specialRun .metaTable 3 s =
      .ok (3 + s.bits.bitbuf.toNat / 2 ^ 14) (zeroPtLens 3 (3 + s.bits.bitbuf.toNat / 2 ^ 14) (consumeBits 2 s)) := by
  have hle : s.bits.bitbuf.toNat / 2 ^ 14 ≤ 3 := by
    have hlt := peekBits_lt (n := 2) (by decide) s
    rw [peekBits_toNat] at hlt
    exact Nat.le_of_lt_succ hlt
  have hfits : ¬ TableId.metaTable.nchar < 3 + s.bits.bitbuf.toNat / 2 ^ 14 := by
    have hnchar : TableId.metaTable.nchar = 19 := rfl
    omega
  refine ⟨hle, ?_⟩
  unfold specialRun
  simp only [getBits, peekBits_toNat]
  exact if_neg hfits

/-! ## The passes of the PT list loop (R300) -/

section Passes
variable {p : PtList} {n fuel i : Nat} {t u : State} {c : Nat}

theorem ptLenLoop_done (h : n ≤ i) (t : State) : ptLenLoop p n fuel i t = .ok i t := by
  cases fuel with
  | zero => rfl
  | succ fuel => exact if_pos h

theorem ptLenLoop_failed {f : Failure} (hi : i < n) (h : readLenCode p.id.code t = .failed f u) :
    ptLenLoop p n (fuel + 1) i t = .failed f u := by
  rw [ptLenLoop, if_neg (Nat.not_le.mpr hi), h]
  rfl

theorem ptLenLoop_pass (hi : i < n) (h : readLenCode p.id.code t = .ok c u) (hs : p.special ≠ some (i + 1)) :
    ptLenLoop p n (fuel + 1) i t = ptLenLoop p n fuel (i + 1) (setPtLen i c u) := by
  rw [ptLenLoop, if_neg (Nat.not_le.mpr hi), h]
  exact if_neg hs

theorem ptLenLoop_special_pass {j : Nat} {v : State} (hi : i < n) (h : readLenCode p.id.code t = .ok c u)
    (hs : p.special = some (i + 1)) (hr : specialRun p.id (i + 1) (setPtLen i c u) = .ok j v) :
    ptLenLoop p n (fuel + 1) i t = ptLenLoop p n fuel j v := by
  rw [ptLenLoop, if_neg (Nat.not_le.mpr hi), h, Flow.andThen_ok]
  simp only [if_pos hs, hr, Flow.andThen_ok]

end Passes

/-- A length code is read from the BitReader and its source alone. -/
theorem readLenCode_congr {code : BitVec 4} {s t : State} (hb : t.bits = s.bits) (hsrc : sourceOf t = sourceOf s) :
    (∀ c x, readLenCode code s = .ok c x → readLenCode code t = .ok c { t with bits := x.bits }) ∧
    (∀ f x, readLenCode code s = .failed f x → readLenCode code t = .failed f t) := by
  have hv : lenCodeValue t.bits.bitbuf = lenCodeValue s.bits.bitbuf := by rw [hb]
  obtain hlt | hle := Nat.lt_or_ge 16 (lenCodeValue s.bits.bitbuf)
  · rw [readLenCode_of_overflow rfl hlt, readLenCode_of_overflow hv hlt]
    refine ⟨fun c x h => by simp at h, fun f x h => ?_⟩
    obtain ⟨rfl, -⟩ := Flow.failed.inj h
    rfl
  · rw [readLenCode_of_value rfl hle, readLenCode_of_value hv hle]
    refine ⟨fun c x h => ?_, fun f x h => by simp at h⟩
    obtain ⟨rfl, rfl⟩ := Flow.ok.inj h
    rw [consumeBits_eq _ t, consumeBits_congr _ hb hsrc]

/-- A length code leaves what the BitReader reads from. -/
theorem readLenCode_source {code : BitVec 4} {s u : State} {c : Nat} (h : readLenCode code s = .ok c u) :
    sourceOf u = sourceOf s := by
  obtain ⟨c', k, -, e⟩ | ⟨c', -, e⟩ := readLenCode_ends code s <;> rw [e] at h <;> cases h
  exact sourceOf_consumeBits k s

/-! ## The PT list code by code (R300, R302) -/

/-- The index after `k` codes, a special run of `r` entries after the third code of a meta list. -/
def ptIndex (isMeta : Bool) (r k : Nat) : Nat := if isMeta = true ∧ 3 ≤ k then k + r else k

/-- Entry `i` after `k` codes `c 0, c 1, …` written over the lengths `l`, the special run's entries cleared. -/
def ptEntry (isMeta : Bool) (r : Nat) (c : Nat → Nat) (l : Entries 5) (k i : Nat) : BitVec 5 :=
  if isMeta = false ∨ i < 3 then if i < k then BitVec.ofNat 5 (c i) else lenAt l i
  else if i < 3 + r then if 3 ≤ k then 0#5 else lenAt l i
  else if i < k + r then BitVec.ofNat 5 (c (i - r)) else lenAt l i

section Entry
variable {isMeta : Bool} {r k : Nat} (c : Nat → Nat) (l : Entries 5) (i : Nat)

theorem le_ptIndex (isMeta : Bool) (r k : Nat) : k ≤ ptIndex isMeta r k := by
  unfold ptIndex
  split <;> omega

/-- A code that no special run follows moves the index by one. -/
theorem ptIndex_succ (h : ¬ (isMeta = true ∧ k = 2)) : ptIndex isMeta r (k + 1) = ptIndex isMeta r k + 1 := by
  unfold ptIndex
  cases isMeta
  · simp
  · have hk : k ≠ 2 := fun hk => h ⟨rfl, hk⟩
    simp only [true_and]
    split <;> split <;> omega

theorem ptEntry_zero (r : Nat) : ptEntry isMeta r c l 0 i = lenAt l i := by
  unfold ptEntry
  split
  · rw [if_neg (Nat.not_lt_zero i)]
  split
  · rw [if_neg (by decide)]
  · rw [if_neg (by omega)]

/-- Such a code is written at the index it is read at. -/
theorem ptEntry_succ (h : ¬ (isMeta = true ∧ k = 2)) : ptEntry isMeta r c l (k + 1) i =
    if i = ptIndex isMeta r k then BitVec.ofNat 5 (c k) else ptEntry isMeta r c l k i := by
  unfold ptEntry ptIndex
  cases isMeta
  · grind
  · have hk : k ≠ 2 := fun hk => h ⟨rfl, hk⟩
    grind

/-- The third code of a meta list is written at index 2, and the special run clears the entries after it. -/
theorem ptEntry_special (r : Nat) : ptEntry true r c l 3 i =
    if 3 ≤ i ∧ i < 3 + r then 0#5 else if i = 2 then BitVec.ofNat 5 (c 2) else ptEntry true r c l 2 i := by
  unfold ptEntry
  grind

end Entry

/-- The state `o` with the BitReader at `b` and the PT lengths `l`. -/
def inPtList (b : BitReader) (l : Entries 5) (o : State) : State :=
  { o with bits := b, tabs := { o.tabs with ptLen := l } }

theorem setPtLen_inPtList (i c : Nat) (b : BitReader) (l : Entries 5) (o : State) :
    setPtLen i c (inPtList b l o) = inPtList b (setLenAt l i (BitVec.ofNat 5 c)) o := rfl

theorem specialRun_inPtList (b : BitReader) (l : Entries 5) (o : State) :
    specialRun .metaTable 3 (inPtList b l o) = .ok (3 + b.bitbuf.toNat / 2 ^ 14)
      (inPtList (consumeBits 2 { o with bits := b }).bits (zeroLens l 3 (3 + b.bitbuf.toNat / 2 ^ 14)) o) := by
  have hbits : (consumeBits 2 (inPtList b l o)).bits = (consumeBits 2 { o with bits := b }).bits :=
    consumeBits_congr 2 rfl rfl
  rw [(specialRun_meta _).2, consumeBits_eq, hbits]
  rfl

/-- The first `m` codes of a PT list of `n` lengths, read in the state `s`: `c k` is the k-th one, `B k` the BitReader before it. -/
def PtCodes (isMeta : Bool) (s : State) (n m r : Nat) (c : Nat → Nat) (B : Nat → BitReader) : Prop :=
  ∀ k, k < m → ptIndex isMeta r k < n ∧
    ∃ x : State, readLenCode (ptListOf isMeta).id.code { s with bits := B k } = .ok (c k) x ∧
      (¬ (isMeta = true ∧ k = 2) → B (k + 1) = x.bits) ∧
      (isMeta = true ∧ k = 2 → r = x.bits.bitbuf.toNat / 2 ^ 14 ∧ B 3 = (consumeBits 2 x).bits)

section PtCodes
variable {isMeta : Bool} {s o : State} {n m r : Nat} {c : Nat → Nat} {B : Nat → BitReader}

theorem PtCodes.of_succ (h : PtCodes isMeta s n (m + 1) r c B) : PtCodes isMeta s n m r c B := fun k hk => h k (by omega)

theorem PtCodes.le (h : PtCodes isMeta s n m r c B) : m ≤ n := by
  cases m with
  | zero => exact Nat.zero_le _
  | succ m => exact Nat.lt_of_le_of_lt (le_ptIndex isMeta r m) (h m (Nat.lt_succ_self m)).1

/-- The special run is due after the code at index 2 of the meta list. -/
theorem special_eq_iff (isMeta : Bool) (r k : Nat) :
    (ptListOf isMeta).special = some (ptIndex isMeta r k + 1) ↔ isMeta = true ∧ k = 2 := by
  cases isMeta
  · simp [ptListOf, positionList]
  · simp only [ptListOf, metaList, ptIndex, if_true, true_and, Option.some.injEq]
    split <;> omega

/-- One pass of the loop: the code of a list is written, and after the third one of a meta list the special run is cleared. -/
theorem PtCodes.pass (h : PtCodes isMeta s n (m + 1) r c B) (ho : sourceOf o = sourceOf s) (l l0 : Entries 5)
    (hl : ∀ i, lenAt l i = ptEntry isMeta r c l0 m i) (fuel : Nat) :
    ∃ l', ptLenLoop (ptListOf isMeta) n (fuel + 1) (ptIndex isMeta r m) (inPtList (B m) l o) =
        ptLenLoop (ptListOf isMeta) n fuel (ptIndex isMeta r (m + 1)) (inPtList (B (m + 1)) l' o) ∧
      ∀ i, lenAt l' i = ptEntry isMeta r c l0 (m + 1) i := by
  obtain ⟨hlt, x, hx, hnext, hspecial⟩ := h m (Nat.lt_succ_self m)
  have hread : readLenCode (ptListOf isMeta).id.code (inPtList (B m) l o) = .ok (c m) (inPtList x.bits l o) :=
    (readLenCode_congr (t := inPtList (B m) l o) (s := { s with bits := B m }) rfl ho).1 _ _ hx
  by_cases hm : isMeta = true ∧ m = 2
  · have hdue := (special_eq_iff isMeta r m).mpr hm
    obtain ⟨hr, hB⟩ := hspecial hm
    obtain ⟨rfl, rfl⟩ := hm
    have hrun := specialRun_inPtList x.bits (setLenAt l 2 (BitVec.ofNat 5 (c 2))) o
    have hbits : (consumeBits 2 { o with bits := x.bits }).bits = B 3 := by
      rw [hB]
      exact consumeBits_congr 2 rfl (ho.trans (readLenCode_source hx).symm)
    rw [← hr, hbits] at hrun
    refine ⟨_, ptLenLoop_special_pass hlt hread hdue hrun, fun i => ?_⟩
    rw [ptEntry_special, lenAt_zeroLens, lenAt_after_setLenAt, hl]
    rfl
  · refine ⟨setLenAt l (ptIndex isMeta r m) (BitVec.ofNat 5 (c m)), ?_, fun i => ?_⟩
    · rw [ptLenLoop_pass hlt hread (mt (special_eq_iff isMeta r m).mp hm), ptIndex_succ hm, hnext hm, setPtLen_inPtList]
    · rw [ptEntry_succ _ _ _ hm, lenAt_after_setLenAt, hl]

/-- The loop runs code by code. -/
theorem PtCodes.loop (h : PtCodes isMeta s n m r c B) (ho : sourceOf o = sourceOf s) (l0 : Entries 5) (fuel : Nat) :
    ∃ l, ptLenLoop (ptListOf isMeta) n (fuel + m) 0 (inPtList (B 0) l0 o) =
        ptLenLoop (ptListOf isMeta) n fuel (ptIndex isMeta r m) (inPtList (B m) l o) ∧
      ∀ i, lenAt l i = ptEntry isMeta r c l0 m i := by
  induction m generalizing fuel with
  | zero =>
    refine ⟨l0, ?_, fun i => (ptEntry_zero c l0 i r).symm⟩
    rw [ptIndex, if_neg (by omega)]
    rfl
  | succ m ih =>
    obtain ⟨l, hloop, hl⟩ := ih h.of_succ (fuel + 1)
    obtain ⟨l', hpass, hl'⟩ := h.pass ho l l0 hl fuel
    exact ⟨l', by rw [Nat.add_succ, ← Nat.succ_add, hloop, hpass], hl'⟩

/-- Where a list's codes end the loop: at the count, or at a code that fails. -/
theorem PtCodes.loop_ends (h : PtCodes isMeta s n m r c B) (ho : sourceOf o = sourceOf s) (l0 : Entries 5) :
    ∃ l, (∀ i, lenAt l i = ptEntry isMeta r c l0 m i) ∧
      (n ≤ ptIndex isMeta r m →
        ptLenLoop (ptListOf isMeta) n n 0 (inPtList (B 0) l0 o) = .ok (ptIndex isMeta r m) (inPtList (B m) l o)) ∧
      (ptIndex isMeta r m < n → ∀ f x, readLenCode (ptListOf isMeta).id.code { s with bits := B m } = .failed f x →
        ptLenLoop (ptListOf isMeta) n n 0 (inPtList (B 0) l0 o) = .failed f (inPtList (B m) l o)) := by
  obtain ⟨l, hloop, hl⟩ := h.loop ho l0 (n - m)
  rw [Nat.sub_add_cancel h.le] at hloop
  refine ⟨l, hl, fun hdone => ?_, fun hlt f x hx => ?_⟩
  · rw [hloop, ptLenLoop_done hdone]
  · have hread := (readLenCode_congr (t := inPtList (B m) l o) (s := { s with bits := B m }) rfl ho).2 f x hx
    have hm := le_ptIndex isMeta r m
    obtain ⟨fuel, hfuel⟩ : ∃ fuel, n - m = fuel + 1 := ⟨n - m - 1, by omega⟩
    rw [hloop, hfuel, ptLenLoop_failed hlt hread]

end PtCodes

/-- A PT list with a count in range is its loop, then the zero fill and the build. -/
theorem readPtLen_list {p : PtList} {s : State} {n : Nat} (hn : (peekBits p.nbit s).toNat = n) (h1 : 1 ≤ n)
    (hle : n ≤ p.id.nchar) :
    readPtLen p s = (ptLenLoop p n n 0 (consumeBits p.nbit (clearStatus p.id s))).andThen fun i u =>
      (buildTable p.id (zeroPtLens i p.id.nchar u)).andThen fun _ v => .ok (BitVec.ofNat 32 n) v := by
  have hp : peekBits p.nbit (clearStatus p.id s) = peekBits p.nbit s := peekBits_congr _ (clearStatus_bits _ s)
  have hw : (peekBits p.nbit s).setWidth 32 = BitVec.ofNat 32 n := by rw [← hn, BitVec.ofNat_toNat]
  unfold readPtLen
  simp only [getBits, hp, hn, hw]
  rw [if_neg (by omega), if_neg (by omega)]

/-- The state with its PT table marked unbuilt, as a PT list read begins. -/
def unbuiltPt (s : State) : State := { s.cleared with tabs := { s.tabs with ptKind := .unbuilt, ptNchar := 0#5 } }

theorem consumeBits_clearStatus_pt (n : Nat) {id : TableId} (h : id ≠ .cTable) (s : State) :
    consumeBits n (clearStatus id s.cleared) = inPtList (consumeBits n s).bits s.tabs.ptLen (unbuiltPt s) := by
  rw [consumeBits_clearStatus_cleared, clearStatus_tabs_pt h]
  rfl

/-- MAKE_TABLE builds the table of either PT list by its symbol count. -/
theorem makeTable_ptListOf (isMeta : Bool) (s : State) :
    makeTableId .pt (BitVec.ofNat 16 (ptListOf isMeta).id.nchar) = (ptListOf isMeta).id ∧
      legalIn (.makeTable .pt (BitVec.ofNat 16 (ptListOf isMeta).id.nchar)) s := by
  cases isMeta <;> exact ⟨rfl, rfl, trivial⟩

/-- A PT list whose codes reach its count, or end at a code that fails. -/
theorem exec_readPt_list (isMeta : Bool) {s : State} {n m r : Nat} {c : Nat → Nat} {B : Nat → BitReader} (hs : s.Runs)
    (hn : (peekBits (ptListOf isMeta).nbit s).toNat = n) (h1 : 1 ≤ n) (hle : n ≤ (ptListOf isMeta).id.nchar)
    (hB : B 0 = (consumeBits (ptListOf isMeta).nbit s).bits) (hcodes : PtCodes isMeta s n m r c B) :
    let nn := (ptListOf isMeta).id.nchar
    ∃ w : State, w = { s.cleared with
        bits := B m, tabs := { s.tabs with ptLen := w.tabs.ptLen, ptKind := .unbuilt, ptNchar := 0#5 } } ∧
      (n ≤ ptIndex isMeta r m →
        (∀ i, lenAt w.tabs.ptLen i =
          if ptIndex isMeta r m ≤ i ∧ i < nn then 0#5 else ptEntry isMeta r c s.tabs.ptLen m i) ∧
        ∃ x, exec (.makeTable .pt (BitVec.ofNat 16 nn)) w = .next x ∧
          (x.status.fail = false → exec (readPtInstr isMeta) s = .next (x.withResult (BitVec.ofNat 32 n))) ∧
          (x.status.fail = true → exec (readPtInstr isMeta) s = .next x)) ∧
      (ptIndex isMeta r m < n → ∀ f x, readLenCode (ptListOf isMeta).id.code { s with bits := B m } = .failed f x →
        (∀ i, lenAt w.tabs.ptLen i = ptEntry isMeta r c s.tabs.ptLen m i) ∧
        exec (readPtInstr isMeta) s = .next (w.withFailure f.cause.code f.table f.detail)) := by
  intro nn
  have hexec := exec_readPt hs isMeta
  rw [readPtLen_list (s := s.cleared) hn h1 hle, consumeBits_clearStatus_pt _ (ptListOf_ne_c isMeta), ← hB] at hexec
  obtain ⟨l, hl, hdone, hfailed⟩ := hcodes.loop_ends (o := unbuiltPt s) rfl s.tabs.ptLen
  obtain hm | hm := Nat.lt_or_ge (ptIndex isMeta r m) n
  · refine ⟨inPtList (B m) l (unbuiltPt s), rfl, fun h => absurd hm (Nat.not_lt.mpr h), fun _ f x hx => ⟨hl, ?_⟩⟩
    rw [hexec, hfailed hm f x hx]
    rfl
  · rw [hdone hm, Flow.andThen_ok] at hexec
    obtain ⟨hid, hlegal⟩ := makeTable_ptListOf isMeta (zeroPtLens (ptIndex isMeta r m) nn (inPtList (B m) l (unbuiltPt s)))
    refine ⟨_, rfl, fun _ => ⟨fun i => ?_, list_ends_as_makeTable hs hexec rfl hid hlegal⟩,
      fun h => absurd h (Nat.not_lt.mpr hm)⟩
    rw [← hl]
    exact lenAt_zeroLens l _ _ i

/-- Settles O33: the special run of the meta list, and either list run along its codes. -/
theorem ptListsFillThenBuild : Obligations.PtListsFillThenBuild := by
  refine ⟨fun s => ?_, fun isMeta s n m r c B hs => ?_⟩
  · obtain ⟨hle, hrun⟩ := specialRun_meta s
    refine ⟨_, _, rfl, hle, hrun, rfl, fun j => ?_⟩
    refine (lenAt_zeroLens (consumeBits 2 s).tabs.ptLen _ _ j).trans ?_
    rw [consumeBits_tabs]
    rfl
  · intro nn nbit code read next filled hn h1 hle hB hr hcodes
    have hcount : (peekBits (ptListOf isMeta).nbit s).toNat = n := (peekBits_toNat _ s).trans (by cases isMeta <;> exact hn)
    cases isMeta
    · exact exec_readPt_list false hs hcount h1 hle hB hcodes
    · exact exec_readPt_list true hs hcount h1 hle hB hcodes

end Sys2Proof.Machine
end

section
/-! PROOFS. The symbol decoders (42_block_decoder.md R311 to R313, R324, R325), and what the six commands of the BlockDecoder leave
alone (10_state.md R50, 60_exceptions.md R452). -/

namespace Sys2Proof.Machine

/-! ## DECODE_C (R311, R324) -/

section DecodeC
variable {s u : State} {f : Failure} {v : Word}

/-- A header that fails ends DECODE_C. -/
theorem decodeLiteralLength_header_failed (h0 : s.tabs.blockSize = 0#32) (h : readBlockHeader s = .failed f u) :
    decodeLiteralLength s = .failed f u := by
  rw [decodeLiteralLength, if_pos h0, h]
  rfl

/-- Where the symbol of DECODE_C is decoded from: after the header a new block needs, or at once. -/
def AtSymbol (s u : State) : Prop :=
  (s.tabs.blockSize = 0#32 ∧ ∃ v, readBlockHeader s = .ok v u) ∨ (s.tabs.blockSize ≠ 0#32 ∧ u = s)

theorem decodeLiteralLength_symbol (h : AtSymbol s u) : decodeLiteralLength s =
    decodeSymbol .cTable (setBlockSize (decrementBlock u.cfg.blockCntBits u.tabs.blockSize) u) := by
  obtain ⟨h0, v, hv⟩ | ⟨h0, rfl⟩ := h
  · rw [decodeLiteralLength, if_pos h0, hv]
    rfl
  · rw [decodeLiteralLength, if_neg h0]
    rfl

theorem AtSymbol.cfg (h : AtSymbol s u) : u.cfg = s.cfg := by
  obtain ⟨-, v, hv⟩ | ⟨-, rfl⟩ := h
  · have hframe := (readBlockHeader_frame s).cfg
    rwa [hv] at hframe
  · rfl

/-- The counter has BLOCKCNT_BITS bits also after a header, whose field has 16. -/
theorem AtSymbol.blockSize_lt (h : AtSymbol s u) (hs : s.tabs.blockSize.toNat < 2 ^ s.cfg.blockCntBits.bits) :
    u.tabs.blockSize.toNat < 2 ^ u.cfg.blockCntBits.bits := by
  rw [h.cfg]
  obtain ⟨-, v, hv⟩ | ⟨-, rfl⟩ := h
  · have hfield := readBlockHeader_blockSize s
    rw [hv] at hfield
    rw [show u.tabs.blockSize = (peekBits 16 s).setWidth 32 from hfield]
    exact Nat.lt_of_lt_of_le (peekWord_lt (Nat.le_refl 16) s) (two_pow_16_le _)
  · exact hs

/-- The counter is decremented before the lookup, which does not see it, and so also when the lookup fails. -/
theorem decodeSymbol_counted (left : Word) (u : State) :
    (∀ c, lookup .cTable u = .ok c u → decodeSymbol .cTable (setBlockSize left u) =
      .ok c { u with
        tabs := { u.tabs with blockSize := left }, bits := (consumeBits (lenAt u.tabs.cLen c.toNat).toNat u).bits }) ∧
    (∀ f, lookup .cTable u = .failed f u →
      decodeSymbol .cTable (setBlockSize left u) = .failed f { u with tabs := { u.tabs with blockSize := left } }) := by
  obtain ⟨hok, hfailed⟩ := lookup_congr (id := .cTable) (s := u) (t := setBlockSize left u) rfl rfl rfl rfl rfl
  refine ⟨fun c h => ?_, fun f h => decodeSymbol_of_lookup.2 f ((hfailed f).mp h)⟩
  rw [decodeSymbol_of_lookup.1 c ((hok c).mp h), ← setBlockSize_consumeBits, consumeBits_eq]
  rfl

/-- DECODE_C runs when it needs a header, or inside a block whose C table is built. -/
theorem exec_decodeC (hs : s.Runs) (h : s.tabs.blockSize = 0#32 ∨ s.tabs.cBuilt = true) : exec .decodeC s =
    .next (finish ((decodeLiteralLength s.cleared).andThen fun c t => .ok (some (c.setWidth 32)) t)) := by
  refine exec_runs hs rfl rfl ?_
  rw [preconditionOf_decodeC, needsCTable]
  obtain h | h := h <;> simp [h]

end DecodeC

/-- Settles O40: the header if one is needed, the decrement, the lookup. -/
theorem decodeCDecrementsThenDecodes : Obligations.DecodeCDecrementsThenDecodes := by
  refine fun s hs hlt => ⟨fun u f h0 hf => ?_, fun u hu => ?_⟩
  · rw [exec_decodeC hs (.inl h0), decodeLiteralLength_header_failed (s := s.cleared) h0 hf]
    rfl
  · have hruns : s.tabs.blockSize = 0#32 ∨ s.tabs.cBuilt = true := hu.imp And.left fun h => h.2.1
    have hat : AtSymbol s.cleared u := hu.imp id fun ⟨hne, _, hu⟩ => ⟨hne, hu⟩
    have hleft := decrementBlock_toNat _ _ (hat.blockSize_lt hlt)
    rw [hat.cfg] at hleft
    obtain ⟨hok, hfailed⟩ := decodeSymbol_counted (decrementBlock u.cfg.blockCntBits u.tabs.blockSize) u
    rw [exec_decodeC hs hruns, decodeLiteralLength_symbol hat, hat.cfg]
    rw [hat.cfg] at hok hfailed
    refine ⟨_, hleft, fun c hc => ?_, fun f hf => ?_⟩
    · rw [hok c hc]
      rfl
    · rw [hfailed f hf]
      rfl

/-! ## DECODE_P (R312, R325) -/

section DecodeP
variable {s : State}

theorem exec_decodeP (hs : s.Runs) (hp : s.tabs.ptKind = .position) : exec .decodeP s =
    .next (finish ((decodeDistance s.cleared).andThen fun d t => .ok (some (BitVec.ofNat 32 d)) t)) :=
  exec_runs hs rfl rfl (if_pos hp)

/-- A position symbol `c` is distance 0, or 2^(c − 1) and the c − 1 bits after it. -/
theorem decodeDistance_of_lookup {c : BitVec 10} (h : lookup .posTable s = .ok c s) :
    decodeDistance s = if c.toNat = 0 then .ok 0 (afterPtSymbol c s)
      else .ok (2 ^ (c.toNat - 1) + (peekBits (c.toNat - 1) (afterPtSymbol c s)).toNat)
        (consumeBits (c.toNat - 1) (afterPtSymbol c s)) := by
  rw [decodeDistance, decodeSymbol_of_lookup.1 c h]
  rfl

theorem decodeDistance_of_lookup_failed {f : Failure} (h : lookup .posTable s = .failed f s) :
    decodeDistance s = .failed f s := by
  rw [decodeDistance, decodeSymbol_of_lookup.2 f h]
  rfl

/-- Acceptance does not change what a lookup finds. -/
theorem lookup_cleared (id : TableId) (s : State) :
    (∀ c, lookup id s = .ok c s → lookup id s.cleared = .ok c s.cleared) ∧
    (∀ f, lookup id s = .failed f s → lookup id s.cleared = .failed f s.cleared) := by
  obtain ⟨hok, hfailed⟩ := lookup_congr (id := id) (s := s) (t := s.cleared) rfl (tableOf_cleared id s)
    (by cases id <;> rfl) rfl rfl
  exact ⟨fun c => (hok c).mp, fun f => (hfailed f).mp⟩

theorem afterPtSymbol_cleared (c : BitVec 10) (s : State) :
    afterPtSymbol c s.cleared = { s.cleared with bits := (afterPtSymbol c s).bits } :=
  consumeBits_cleared _ s

/-- The greatest distance is that of symbol 13 (R312). -/
theorem distance_le {j : Nat} (h : j < 14) (t : State) : 2 ^ (j - 1) + (peekBits (j - 1) t).toNat ≤ 8191 := by
  have hbits := peekBits_lt (n := j - 1) (by omega) t
  have hbase : 2 ^ (j - 1) ≤ 2 ^ 12 := Nat.pow_le_pow_right (by decide) (by omega)
  omega

end DecodeP

/-- Settles O41: the symbol, and the bits of its distance. -/
theorem decodePGivesTheDistance : Obligations.DecodePGivesTheDistance := by
  refine fun s hs hp => ⟨fun c hc => ?_, fun f hf => ?_⟩
  · intro a
    have hlookup : lookup .posTable s = .ok c s := hc.elim id fun ⟨hlt, hcell⟩ =>
      lookup_direct hlt (by rw [peekBits_toNat]; exact hcell)
    have hexec := exec_decodeP hs hp
    rw [decodeDistance_of_lookup ((lookup_cleared _ s).1 c hlookup), afterPtSymbol_cleared] at hexec
    refine ⟨?_, fun hne => ?_⟩
    · rintro rfl
      exact hexec
    · have hle := distance_le (lookup_ok hlookup).2 a
      have hpos : c.toNat ≠ 0 := fun h => hne (BitVec.eq_of_toNat_eq h)
      rw [if_neg hpos] at hexec
      refine ⟨BitVec.ofNat 32 (2 ^ (c.toNat - 1) + (peekBits (c.toNat - 1) a).toNat), ?_, ?_, ?_⟩
      · rw [BitVec.toNat_ofNat, Nat.mod_eq_of_lt (by omega), peekBits_toNat]
      · rw [BitVec.toNat_ofNat, Nat.mod_eq_of_lt (by omega)]
        exact hle
      · have hbits : (consumeBits (c.toNat - 1) { s.cleared with bits := a.bits }).bits = (consumeBits (c.toNat - 1) a).bits :=
          consumeBits_congr _ rfl (sourceOf_consumeBits _ s).symm
        rw [consumeBits_eq] at hexec
        rw [← hbits]
        exact hexec
  · rw [exec_decodeP hs hp, decodeDistance_of_lookup_failed ((lookup_cleared _ s).2 f hf)]
    rfl

/-! ## What the six commands leave alone -/

/-- The commands of the BlockDecoder. -/
def BlockCommand (i : Instr) : Prop :=
  i = .readMetaLen ∨ i = .readCLen ∨ i = .readPLen ∨ i = .readBlockHeader ∨ i = .decodeC ∨ i = .decodeP

/-- What a command of the BlockDecoder may change: RESULT, STATUS, the BitReader, the tables and OUT. -/
def OnlyBlock (s t : State) : Prop :=
  t = { s with
    regs := { s.regs with result := t.regs.result }
    status := t.status, bits := t.bits, tabs := t.tabs, outMem := t.outMem }

theorem OnlyBlock.trans {s t u : State} (h1 : OnlyBlock s t) (h2 : OnlyBlock t u) : OnlyBlock s u := by
  unfold OnlyBlock at *
  rw [h2, h1]

theorem OnlyBitsTabs.onlyBlock {s t : State} (h : OnlyBitsTabs s t) : OnlyBlock s t := by
  unfold OnlyBitsTabs at h
  unfold OnlyBlock
  rw [h]

theorem finish_onlyBlock (x : Flow (Option Word)) : OnlyBlock x.state (finish x) := by
  obtain ⟨_ | v, s⟩ | ⟨f, s⟩ := x <;> rfl

theorem finish_running (x : Flow (Option Word)) : (finish x).status.running = x.state.status.running := by
  obtain ⟨_ | v, s⟩ | ⟨f, s⟩ := x <;> rfl

@[simp] theorem finish_tabs (x : Flow (Option Word)) : (finish x).tabs = x.state.tabs := by
  obtain ⟨_ | v, s⟩ | ⟨f, s⟩ := x <;> rfl

@[simp] theorem returning_state (x : Flow Word) : (returning x).state = x.state := by cases x <;> rfl

section BlockFrame
variable {i : Instr} {s t : State}

theorem BlockCommand.not_control (h : BlockCommand i) : i ≠ .init ∧ i ≠ .reset := by
  obtain rfl | rfl | rfl | rfl | rfl | rfl := h <;> exact ⟨nofun, nofun⟩

/-- Their steps change the BitReader and the tables only. -/
theorem BlockCommand.bodyOf_frame (h : BlockCommand i) (s : State) : OnlyBitsTabs s (bodyOf i s).state := by
  obtain rfl | rfl | rfl | rfl | rfl | rfl := h
  · exact Flow.andThen_state (readPtLen_frame (.inl rfl) s) fun _ _ _ hu => hu
  · exact Flow.andThen_state (readCLen_frame s) fun _ _ _ hu => hu
  · exact Flow.andThen_state (readPtLen_frame (.inr rfl) s) fun _ _ _ hu => hu
  · exact Flow.andThen_state (readBlockHeader_frame s) fun _ _ _ hu => hu
  · exact Flow.andThen_state (decodeLiteralLength_frame s) fun _ _ _ hu => hu
  · exact Flow.andThen_state (decodeDistance_frame s) fun _ _ _ hu => hu

theorem BlockCommand.exec_frame (h : BlockCommand i) (he : exec i s = .next t) : OnlyBlock s t := by
  obtain ⟨-, rfl⟩ | ⟨c, -, -, rfl⟩ | ⟨-, -, rfl⟩ := exec_cases he
  · rfl
  · rfl
  · have haccept : OnlyBlock s (accept s) := rfl
    exact haccept.trans ((h.bodyOf_frame (accept s)).onlyBlock.trans (finish_onlyBlock _))

/-- An idle core is idle again when the command ends. -/
theorem BlockCommand.exec_running (h : BlockCommand i) (hs : s.status.running = none) (he : exec i s = .next t) :
    t.status.running = none := by
  obtain ⟨hbusy, -⟩ | ⟨c, -, -, rfl⟩ | ⟨-, -, rfl⟩ := exec_cases he
  · exact absurd hs hbusy
  · exact hs
  · rw [finish_running, (h.bodyOf_frame (accept s)).status]
    exact hs

/-- They emit nothing, so that OUT stays unless a failure is recorded (20_memory.md R121). -/
theorem BlockCommand.exec_outMem (h : BlockCommand i) (he : exec i s = .next t) (hf : t.status.fail = s.status.fail) (a : Nat) :
    t.outMem.read a = s.outMem.read a := by
  have hwin : t.win = s.win := by rw [h.exec_frame he]
  refine (exec_output_within h.not_control he hf).kept a ?_
  rw [hwin]
  omega

/-- A command's tables are those its steps leave, or are untouched when it is dropped or rejected. -/
theorem exec_tabs (he : exec i s = .next t) : t.tabs = s.tabs ∨ t.tabs = (bodyOf i (accept s)).state.tabs := by
  obtain ⟨-, rfl⟩ | ⟨c, -, -, rfl⟩ | ⟨-, -, rfl⟩ := exec_cases he
  · exact .inl rfl
  · exact .inl rfl
  · exact .inr (finish_tabs _)

/-- A PT list command keeps the C side, its nodes included, and BLOCKSIZE. -/
theorem exec_readPt_keeps_c (isMeta : Bool) (he : exec (readPtInstr isMeta) s = .next t) :
    t.tabs.blockSize = s.tabs.blockSize ∧ t.tabs.cLen = s.tabs.cLen ∧ t.tabs.cTable = s.tabs.cTable ∧
    t.tabs.cBuilt = s.tabs.cBuilt ∧ t.tabs.cAvail = s.tabs.cAvail ∧
    ((∀ k, (lenAt s.tabs.ptLen k).toNat ≤ 16) → ∀ k, 510 ≤ k →
      readCell t.tabs.left k = readCell s.tabs.left k ∧ readCell t.tabs.right k = readCell s.tabs.right k) := by
  have hbody : (bodyOf (readPtInstr isMeta) (accept s)).state = (readPtLen (ptListOf isMeta) (accept s)).state := by
    cases isMeta <;> exact returning_state _
  obtain h | h := exec_tabs he
  · rw [h]
    exact ⟨rfl, rfl, rfl, rfl, rfl, fun _ _ _ => ⟨rfl, rfl⟩⟩
  · rw [h, hbody]
    obtain ⟨hsize, hlen, htable, hbuilt, havail⟩ := readPtLen_keeps_c (ptListOf_cases isMeta) (accept s)
    exact ⟨hsize, hlen, htable, hbuilt, havail,
      fun h16 => (readPtLen_keeps_c_nodes (ptListOf_cases isMeta) (s := accept s) h16).2⟩

/-- READ_C_LEN keeps the PT side, its nodes included, and BLOCKSIZE. -/
theorem exec_readCLen_keeps_pt (he : exec .readCLen s = .next t) :
    t.tabs.blockSize = s.tabs.blockSize ∧ t.tabs.ptLen = s.tabs.ptLen ∧ t.tabs.ptTable = s.tabs.ptTable ∧
    t.tabs.ptKind = s.tabs.ptKind ∧ t.tabs.ptNchar = s.tabs.ptNchar ∧ t.tabs.ptAvail = s.tabs.ptAvail ∧
    ((∀ k, (lenAt s.tabs.cLen k).toNat ≤ 16) → ∀ k, k < 510 →
      readCell t.tabs.left k = readCell s.tabs.left k ∧ readCell t.tabs.right k = readCell s.tabs.right k) := by
  have hbody : (bodyOf .readCLen (accept s)).state = (readCLen (accept s)).state := returning_state _
  obtain h | h := exec_tabs he
  · rw [h]
    exact ⟨rfl, rfl, rfl, rfl, rfl, rfl, fun _ _ _ => ⟨rfl, rfl⟩⟩
  · rw [h, hbody]
    obtain ⟨hsize, hlen, htable, hkind, hnchar, havail⟩ := readCLen_keeps_pt (accept s)
    exact ⟨hsize, hlen, htable, hkind, hnchar, havail, fun h16 => (readCLen_keeps_pt_nodes (s := accept s) h16).2⟩

/-- DECODE_P keeps every table. -/
theorem exec_decodeP_tabs (he : exec .decodeP s = .next t) : t.tabs = s.tabs := by
  have hbody : (bodyOf .decodeP (accept s)).state.tabs = (accept s).tabs :=
    Flow.andThen_state (P := fun u => u.tabs = (accept s).tabs) (decodeDistance_tabs (accept s)) fun _ _ _ hu => hu
  exact (exec_tabs he).elim id fun h => h.trans hbody

end BlockFrame

/-- Settles O42: the six commands' common frame, and what each list read and DECODE_P keeps of the tables. -/
theorem tableAndSymbolCommandsFrame : Obligations.TableAndSymbolCommandsFrame := by
  intro i s t hi hs he
  have hblock : BlockCommand i := hi
  have hframe := hblock.exec_frame he
  obtain ⟨hin, hcfg, hops, hdata⟩ := exec_hostOwned he
  obtain ⟨hready, hovr⟩ := exec_ready_ovr hs hblock.not_control he
  refine ⟨by rw [hframe], by rw [hframe], hin, hcfg, by rw [hframe], hops, hdata, exec_regs hblock.not_control.2 he, hready,
    hovr, hblock.exec_running hs he, hblock.exec_outMem he, fun a ha => exec_output_below_cap hblock.not_control he ha,
    ?_, ?_, ?_⟩
  · rintro (rfl | rfl)
    · exact exec_readPt_keeps_c true he
    · exact exec_readPt_keeps_c false he
  · rintro rfl
    exact exec_readCLen_keeps_pt he
  · rintro rfl
    exact exec_decodeP_tabs he

end Sys2Proof.Machine
end

section
/-! PROOFS. The commands of the WindowExpander (43_window_expander.md R350 to R353, R360 to R362): what EMIT writes, what a window
read answers, and each command as the updates it is made of. -/

namespace Sys2Proof.Machine

/-! ## EMIT (R351) -/

theorem emit_window_read (b : Byte) (s : State) (k : Nat) :
    (emit b s).win.window.read k = if k = s.win.pos.toNat then some b else s.win.window.read k := by
  simp only [emit_window, Memory.read_write, eq_comm]

theorem emit_outMem_read (b : Byte) (s : State) (a : Nat) :
    (emit b s).outMem.read a =
      if a = s.win.produced.toNat ∧ s.win.produced.toNat < s.lat.outCap.toNat then some b else s.outMem.read a := by
  rw [emit_outMem]
  by_cases hcap : s.win.produced.toNat < s.lat.outCap.toNat
  · rw [if_pos (BitVec.lt_def.mpr hcap), Memory.read_write]
    simp only [hcap, and_true, eq_comm]
  · rw [if_neg (mt BitVec.lt_def.mp hcap), if_neg (fun h => hcap h.2)]

/-! ## The window read (R350) -/

theorem writtenSinceInit_iff (s : State) (k : Nat) :
    writtenSinceInit s k = true ↔ 8192 ≤ s.win.produced.toNat ∨ k < s.win.produced.toNat := by
  simp [writtenSinceInit]

theorem winRead_written {s : State} {idx : BitVec 13} {x : Byte}
    (hw : 8192 ≤ s.win.produced.toNat ∨ idx.toNat < s.win.produced.toNat) (hx : s.win.window.read idx.toNat = some x) :
    winRead idx s = .ok x s := by
  rw [winRead, if_pos ((writtenSinceInit_iff s _).mpr hw), hx, Option.getD_some]

section Unwritten
variable {s : State} {idx : BitVec 13} (h : ¬ (8192 ≤ s.win.produced.toNat ∨ idx.toNat < s.win.produced.toNat))
include h

theorem winRead_fault (hc : s.cfg.windowInit = .fault) :
    winRead idx s = .failed { cause := .unwrittenWindow, table := 0, detail := idx.setWidth 24 } s := by
  rw [winRead, if_neg (mt (writtenSinceInit_iff s _).mp h), hc]

theorem winRead_zero (hc : s.cfg.windowInit = .zero) : winRead idx s = .ok 0 s := by
  rw [winRead, if_neg (mt (writtenSinceInit_iff s _).mp h), hc]

theorem winRead_any (hc : s.cfg.windowInit = .any) : winRead idx s = .ok (Config.drawByte s.draws) (drawn s) := by
  rw [winRead, if_neg (mt (writtenSinceInit_iff s _).mp h), hc]
  rfl

end Unwritten

/-! ## COPY_ONE (R353) -/

theorem copyOne_of_winRead {s u : State} {x : Byte} (h : winRead s.win.matchSrc s = .ok x u) :
    copyOne s = .ok () (advanceMatch (emit x u)) := by
  rw [copyOne, h, Flow.andThen_ok]

theorem copyOne_of_not_readable {s : State} (h : ¬ s.SourceReadable) :
    copyOne s = .failed { cause := .unwrittenWindow, table := 0, detail := s.win.matchSrc.setWidth 24 } s := by
  obtain ⟨hc, hw⟩ := not_or.mp h
  rw [copyOne, winRead_fault hw (not_not.mp hc), Flow.andThen_failed]

/-- A run of copies stops at its first byte when that may not be read. -/
theorem copyTimes_of_not_readable {s : State} (h : ¬ s.SourceReadable) {n : Nat} (hn : n ≠ 0) :
    copyTimes n s = .failed { cause := .unwrittenWindow, table := 0, detail := s.win.matchSrc.setWidth 24 } s := by
  obtain ⟨m, rfl⟩ := Nat.exists_eq_succ_of_ne_zero hn
  rw [copyTimes, copyOne_of_not_readable h, Flow.andThen_failed]

/-! ## START (R352) -/

theorem matchSource_toNat (pos : BitVec 13) {d : Nat} (hd : d ≤ 8191) :
    (matchSource pos d).toNat = (pos.toNat + 8192 - d - 1 + 8192) % 8192 := by
  have hpos := pos.isLt
  have hone : (1 : BitVec 13).toNat = 1 := rfl
  simp only [matchSource, BitVec.toNat_sub, BitVec.toNat_ofNat, hone]
  omega

theorem matchSource_succ (pos : BitVec 13) (d : Nat) : matchSource (pos + 1) d = matchSource pos d + 1 := by
  unfold matchSource
  ring

theorem matchLength_eq (s : State) : matchLength s = s.regs.arg.toNat % 65536 := by simp [matchLength]

/-! ## The commands (R360 to R362) -/

theorem literalPrecondition_eq_none {s : State} (hm : s.win.matchRem = 0#9)
    (hp : s.win.produced.toNat < s.lat.outLen.toNat) : literalPrecondition s = none := by
  have hfull : ¬ s.lat.outLen ≤ s.win.produced := by
    rw [BitVec.le_def]
    omega
  rw [literalPrecondition, if_neg (not_not.mpr hm), if_neg hfull]

theorem matchPrecondition_eq_none {s : State} (hm : s.win.matchRem = 0#9) : matchPrecondition s = none :=
  if_neg (not_not.mpr hm)

section Runs
variable {s : State} (hs : s.Runs)
include hs

theorem exec_putLiteral {b : BitVec 16} (hb : b.toNat ≤ 255) (hm : s.win.matchRem = 0#9)
    (hp : s.win.produced.toNat < s.lat.outLen.toNat) :
    exec (.putLiteral b) s = .next (emit (b.setWidth 8) s.cleared) :=
  exec_runs hs rfl (decide_eq_true hb) (literalPrecondition_eq_none hm hp)

theorem exec_startMatch {b : BitVec 16} (hl : legalIn (.startMatch b) s) (hm : s.win.matchRem = 0#9) :
    exec (.startMatch b) s = .next
      ((startCopy (matchLength s) b.toNat s.cleared).withResult ((matchSource s.win.pos b.toNat).setWidth 32)) :=
  exec_runs hs rfl ((operandsLegal_iff _ s).mpr hl) (matchPrecondition_eq_none hm)

variable {b : BitVec 16} (hb : 1 ≤ b.toNat)
include hb

theorem exec_copy :
    exec (.copy b) s = .next (finish ((copyTimes (copyCount b s) s.cleared).andThen fun _ u =>
      .ok (some (BitVec.ofNat 32 (copyCount b s))) u)) :=
  exec_runs hs (i := .copy b) rfl (decide_eq_true hb) rfl

theorem exec_copy_completes {u : State} (h : copyTimes (copyCount b s) s.cleared = .ok () u) :
    exec (.copy b) s = .next (u.withResult (BitVec.ofNat 32 (copyCount b s))) := by
  rw [exec_copy hs hb, h]
  rfl

theorem exec_copy_of_not_readable (hk : copyCount b s ≠ 0) (h : ¬ s.SourceReadable) :
    exec (.copy b) s = .next (s.cleared.withFailure 0x06#8 0#4 (s.win.matchSrc.setWidth 24)) := by
  rw [exec_copy hs hb, copyTimes_of_not_readable (s := s.cleared) h hk]
  rfl

end Runs

theorem copyCount_one {s : State} (hm : s.win.matchRem ≠ 0#9) (hp : s.win.produced.toNat < s.lat.outLen.toNat) :
    copyCount 1#16 s = 1 := by
  have hrem : s.win.matchRem.toNat ≠ 0 := fun h => hm (BitVec.eq_of_toNat_eq h)
  have hone : (1#16).toNat = 1 := rfl
  unfold copyCount outRemaining
  omega

/-- COPY 1 with a match pending and room left writes the byte that the window read answers. -/
theorem exec_copy_one {s u : State} {x : Byte} (hs : s.Runs) (hm : s.win.matchRem ≠ 0#9)
    (hp : s.win.produced.toNat < s.lat.outLen.toNat) (h : winRead s.win.matchSrc s.cleared = .ok x u)
    (hu : u = s.cleared ∨ u = drawn s.cleared) :
    ∃ t, exec (.copy 1#16) s = .next t ∧ t.status = s.cleared.status ∧
      t.win.window.read s.win.pos.toNat = some x := by
  have hrun : copyTimes (copyCount 1#16 s) s.cleared = .ok () (advanceMatch (emit x u)) := by
    rw [copyCount_one hm hp, copyTimes, copyOne_of_winRead h, Flow.andThen_ok, copyTimes]
  have hsame : u.status = s.cleared.status ∧ u.win.pos = s.win.pos := by obtain rfl | rfl := hu <;> exact ⟨rfl, rfl⟩
  obtain ⟨hstatus, hpos⟩ := hsame
  exact ⟨_, exec_copy_completes hs (by decide) hrun, hstatus,
    (emit_window_read x u _).trans (if_pos (congrArg _ hpos.symm))⟩

theorem Expander.eq_of_cursors {e : Expander} {pos src : BitVec 13} {produced : Word} {rem : BitVec 9} (hpos : e.pos = pos)
    (hproduced : e.produced = produced) (hsrc : e.matchSrc = src) (hrem : e.matchRem = rem) :
    e = { window := e.window, pos := pos, produced := produced, matchSrc := src, matchRem := rem } := by
  subst hpos hproduced hsrc hrem
  rfl

/-- A step of the WindowExpander changes its registers, OUT and the count of free values only. -/
theorem OnlyDecode.eq_of_bits_tabs {s u : State} (h : OnlyDecode s u) (hbits : u.bits = s.bits)
    (htabs : u.tabs = s.tabs) : u = { s with win := u.win, outMem := u.outMem, draws := u.draws } := by
  unfold OnlyDecode at h
  rw [hbits, htabs] at h
  exact h

/-- Settles O43: PUT_LITERAL is EMIT. -/
theorem putLiteralEmitsOneByte : Obligations.PutLiteralEmitsOneByte := by
  intro b s hs hb hm hp
  exact ⟨_, exec_putLiteral hs hb hm hp, rfl, emit_window_read _ s.cleared, emit_outMem_read _ s.cleared⟩

/-- Settles O44: START_MATCH is START with the length in ARG. -/
theorem startMatchSetsTheCopy : Obligations.StartMatchSetsTheCopy := by
  intro b s hs hl hm
  obtain ⟨hb, -, h256⟩ := id hl
  refine ⟨matchSource s.win.pos b.toNat, BitVec.ofNat 9 (matchLength s), matchSource_toNat _ (of_decide_eq_true hb), ?_,
    exec_startMatch hs hl hm⟩
  rw [matchLength_eq, BitVec.toNat_ofNat]
  omega

/-- Settles O45: COPY is a run of COPY_ONE, which ends at once with nothing to copy, runs to its end from a readable source, and
otherwise stops at its first byte. -/
theorem copyMovesByTheClampedCount : Obligations.CopyMovesByTheClampedCount := by
  intro b s hs hb k
  have hcount : copyCount b s = k := rfl
  clear_value k
  subst hcount
  refine ⟨fun h => ?_, fun hk => exec_copy_of_not_readable hs hb hk⟩
  by_cases hk : copyCount b s = 0
  · have hrun : copyTimes (copyCount b s) s.cleared = .ok () s.cleared := by rw [hk]; rfl
    refine ⟨_, exec_copy_completes hs hb hrun, ?_, fun _ => ⟨rfl, rfl, rfl⟩, fun _ _ => rfl⟩
    simp [hk, State.withResult, State.cleared]
  · obtain ⟨hrem, hleft⟩ := copyCount_le b s
    obtain ⟨u, hrun, hframe, hbits, htabs, hpos, hproduced, hsrc, hmatch, hout⟩ :=
      copyTimes_completes (copyCount b s) s.cleared (h.resolve_left hk) hrem hleft
    have hu := hframe.eq_of_bits_tabs hbits htabs
    rw [Expander.eq_of_cursors hpos hproduced hsrc hmatch] at hu
    exact ⟨_, exec_copy_completes hs hb hrun, congrArg (State.withResult _) hu, fun h0 => absurd h0 hk, hout⟩

/-- Settles O47: COPY 1 copies what the window read answers, or fails as it does. -/
theorem unwrittenWindowFollowsThePolicy : Obligations.UnwrittenWindowFollowsThePolicy := by
  intro s hs hm hp
  refine ⟨fun x hw hx => exec_copy_one hs hm hp (winRead_written (s := s.cleared) hw hx) (.inl rfl), fun h8 hsrc => ?_⟩
  have hun : ¬ (8192 ≤ s.win.produced.toNat ∨ s.win.matchSrc.toNat < s.win.produced.toNat) := by omega
  refine ⟨fun hc => ?_, fun hc => exec_copy_one hs hm hp (winRead_zero (s := s.cleared) hun hc) (.inl rfl), fun hc => ?_⟩
  · exact exec_copy_of_not_readable hs (by decide) (by simp [copyCount_one hm hp]) (not_or.mpr ⟨not_not.mpr hc, hun⟩)
  · obtain ⟨t, ht⟩ := exec_copy_one hs hm hp (winRead_any (s := s.cleared) hun hc) (.inr rfl)
    exact ⟨t, _, ht⟩

end Sys2Proof.Machine
end

section
/-! PROOFS. OUT and the window hold the same recent output (43_window_expander.md R351): EMIT writes both, and nothing else writes
either until a failure forgets OUT. So a copied byte, read from the window, is the byte of OUT as far back (R354). -/

namespace Sys2Proof.Machine

/-! ## What every command keeps -/

section Updates
variable {s t : State}

/-- An update that leaves the latched lengths, the window, POS, PRODUCED and OUT. -/
theorem OutInv.of_same (h : OutInv s) (hl : t.lat = s.lat) (hw : t.win.window = s.win.window) (hp : t.win.pos = s.win.pos)
    (hn : t.win.produced = s.win.produced) (hm : t.outMem = s.outMem) : OutInv t := by
  unfold OutInv at *
  rw [hl, hw, hp, hn, hm]
  exact h

/-- EMIT puts the new byte in both places, at PRODUCED and at its index mod 8192, and no older byte of the last 8192 stands at
either. -/
theorem OutInv.emit (h : OutInv s) (hp : s.win.produced.toNat < s.lat.outLen.toNat) (b : Byte) : OutInv (emit b s) := by
  obtain ⟨hpos, hagree⟩ := h
  have hadd := produced_succ hp (emit_produced b s)
  refine ⟨?_, fun k hk hrecent hcap => ?_⟩
  · rw [hadd, emit_pos, BitVec.toNat_add, hpos]
    simp
  rw [emit_lat] at hcap
  rw [hadd] at hk hrecent
  rw [emit_outMem_read, emit_window_read, hpos]
  by_cases hnew : k = s.win.produced.toNat
  · subst hnew
    exact ⟨b, if_pos ⟨rfl, hcap⟩, if_pos rfl⟩
  · rw [if_neg (fun he => hnew he.1), if_neg (by omega)]
    exact hagree k (by omega) (by omega) hcap

/-- With nothing produced there is nothing to agree on. -/
theorem OutInv.of_nothing_produced (hpos : s.win.pos = 0#13) (hn : s.win.produced = 0#32) : OutInv s := by
  unfold OutInv
  rw [hpos, hn]
  exact ⟨rfl, fun k hk => absurd hk (Nat.not_lt_zero k)⟩

end Updates

/-- Every update of a decode keeps the agreement. -/
theorem outInv_closed : CommandClosed OutInv where
  output :=
    { block := .of_onlyBitsTabs fun _ _ h hu =>
        h.of_same hu.lat (congrArg _ hu.win) (congrArg _ hu.win) (congrArg _ hu.win) hu.outMem
      literal := fun b _ hp h => h.emit hp b
      copy := fun b _ hp _ h => (h.emit hp b).of_same rfl rfl rfl rfl rfl
      start := fun _ _ _ _ _ h => h.of_same rfl rfl rfl rfl rfl
      draw := fun _ h => h.of_same rfl rfl rfl rfl rfl }
  setLength := fun side _ _ _ _ h => by cases side <;> exact h.of_same rfl rfl rfl rfl rfl

/-- The steps of a command that passes its prechecks keep the agreement; INIT and RESET set PRODUCED to 0. -/
theorem outInv_bodyOf {i : Instr} {s : State}
    (hp : precheck (gateOf i) (operandsLegal i s) (preconditionOf i s) s = none) (h : OutInv s) :
    OutInv (bodyOf i (accept s)).state := by
  by_cases hi : i = .init
  · subst hi
    exact .of_nothing_produced rfl rfl
  by_cases hr : i = .reset
  · subst hr
    exact .of_nothing_produced rfl rfl
  · exact outInv_closed.ran ⟨hi, hr⟩ hp (h.of_same rfl rfl rfl rfl rfl)

/-- Settles O48: a command is dropped, rejected or run, its steps keep the agreement, and only a recorded failure breaks it. -/
theorem windowAndOutputStayTheSame : Obligations.WindowAndOutputStayTheSame := by
  intro i s t _ h he hfail
  obtain ⟨-, rfl⟩ | ⟨c, -, -, rfl⟩ | ⟨-, hp, rfl⟩ := exec_cases he
  · exact h.of_same rfl rfl rfl rfl rfl
  · exact h.of_same rfl rfl rfl rfl rfl
  have hran := outInv_bodyOf hp h
  obtain ⟨v, -, e⟩ | ⟨-, e⟩ | ⟨f, -, e⟩ := finish_cases (bodyOf i (accept s)) <;> rw [e] at hfail ⊢
  · exact hran.of_same rfl rfl rfl rfl rfl
  · exact hran
  · exact Bool.noConfusion hfail

/-! ## What a copy repeats (R354) -/

/-- The next byte to copy is the produced byte d + 1 places back, still in the window. -/
structure CopiesBack (d : Nat) (s : State) : Prop where
  agree : OutInv s
  inWindow : d ≤ 8191
  produced : d < s.win.produced.toNat
  source : s.win.matchSrc = matchSource s.win.pos d

section Repeats
variable {d : Nat} {s : State} (h : CopiesBack d s)
include h

theorem CopiesBack.source_toNat : s.win.matchSrc.toNat = (s.win.produced.toNat - (d + 1)) % 8192 := by
  have hd := h.inWindow
  have hn := h.produced
  rw [h.source, matchSource_toNat _ hd, h.agree.1]
  omega

theorem CopiesBack.readable : 8192 ≤ s.win.produced.toNat ∨ s.win.matchSrc.toNat < s.win.produced.toNat := by
  have hsrc := h.source_toNat
  have hn := h.produced
  omega

/-- The copied byte is the byte of OUT d + 1 places back. -/
theorem CopiesBack.copyOne (hcap : s.win.produced.toNat < s.lat.outCap.toNat) :
    ∃ x, s.outMem.read (s.win.produced.toNat - (d + 1)) = some x ∧ copyOne s = .ok () (advanceMatch (emit x s)) := by
  have hd := h.inWindow
  have hn := h.produced
  obtain ⟨x, hout, hwin⟩ := h.agree.2 (s.win.produced.toNat - (d + 1)) (by omega) (by omega) (by omega)
  rw [← h.source_toNat] at hwin
  exact ⟨x, hout, copyOne_of_winRead (winRead_written h.readable hwin)⟩

/-- Source and write position advance together, so the distance stays. -/
theorem CopiesBack.advance (hp : s.win.produced.toNat < s.lat.outLen.toNat) (x : Byte) :
    CopiesBack d (advanceMatch (emit x s)) where
  agree := (h.agree.emit hp x).of_same rfl rfl rfl rfl rfl
  inWindow := h.inWindow
  produced := by
    have hn := h.produced
    rw [advanceMatch_produced, produced_succ hp (emit_produced x s)]
    omega
  source := by
    rw [advanceMatch_matchSrc, emit_matchSrc, advanceMatch_pos, emit_pos, matchSource_succ, h.source]

end Repeats

theorem matchRem_advanceMatch {s : State} (hm : 1 ≤ s.win.matchRem.toNat) :
    (advanceMatch s).win.matchRem.toNat = s.win.matchRem.toNat - 1 := by
  rw [advanceMatch_matchRem]
  exact BitVec.toNat_sub_of_le hm

/-- Each copied byte of a run is the byte of OUT d + 1 places before it: the first is written so, and the rest of the run, which
starts from a state with the same distance, writes only above it. -/
theorem copyTimes_repeats {d : Nat} (n : Nat) : ∀ {s : State}, CopiesBack d s → n ≤ s.win.matchRem.toNat →
    n ≤ outRemaining s → s.win.produced.toNat + n ≤ s.lat.outCap.toNat → ∀ i, i < n →
    ∃ x, (copyTimes n s).state.outMem.read (s.win.produced.toNat + i) = some x ∧
      (copyTimes n s).state.outMem.read (s.win.produced.toNat + i - (d + 1)) = some x := by
  induction n with
  | zero => exact fun _ _ _ _ i hi => absurd hi (Nat.not_lt_zero i)
  | succ n ih =>
    intro s h hm hr hcap i hi
    have hp : s.win.produced.toNat < s.lat.outLen.toNat := by unfold outRemaining at hr; omega
    obtain ⟨x, hback, hcopy⟩ := h.copyOne (by omega)
    have hrest : copyTimes (n + 1) s = copyTimes n (advanceMatch (emit x s)) := by
      rw [copyTimes, hcopy, Flow.andThen_ok]
    have hadd : (advanceMatch (emit x s)).win.produced.toNat = s.win.produced.toNat + 1 :=
      produced_succ hp (emit_produced x s)
    have hm' : n ≤ (advanceMatch (emit x s)).win.matchRem.toNat := by
      rw [matchRem_advanceMatch (s := emit x s) (by rw [emit_matchRem]; omega), emit_matchRem]
      omega
    have hr' : n ≤ outRemaining (advanceMatch (emit x s)) := by
      unfold outRemaining at hr ⊢
      rw [hadd, advanceMatch_lat, emit_lat]
      omega
    rw [hrest]
    cases i with
    | zero =>
      have hn := h.produced
      have hkept := ((outputWithin_closed _).output.copyTimes n _ hm' hr' (.refl _)).kept
      refine ⟨x, ?_, ?_⟩
      · rw [hkept _ (by omega), advanceMatch_outMem, emit_outMem_read]
        exact if_pos ⟨rfl, by omega⟩
      · rw [hkept _ (by omega), advanceMatch_outMem, emit_outMem_read, if_neg (by omega)]
        exact hback
    | succ i =>
      have hlater := ih (h.advance hp x) hm' hr' (by rw [hadd, advanceMatch_lat, emit_lat]; omega) i (by omega)
      rw [hadd, Nat.add_assoc, Nat.add_comm 1 i] at hlater
      exact hlater

/-- Settles O46: the copy runs to its end, because its source was produced, and every byte of the run repeats the one d + 1
places back. -/
theorem copyRepeatsEarlierOutput : Obligations.CopyRepeatsEarlierOutput := by
  intro b s d hs h hb hd hn hsrc k hcap
  have hback : CopiesBack d s.cleared := ⟨h, hd, hn, hsrc⟩
  obtain ⟨hrem, hleft⟩ := copyCount_le b s
  obtain ⟨u, hrun, -⟩ := copyTimes_completes (copyCount b s) s.cleared (.inr hback.readable) hrem hleft
  have hrepeats := copyTimes_repeats (copyCount b s) hback hrem hleft hcap
  rw [hrun] at hrepeats
  exact ⟨_, exec_copy_completes hs hb hrun, hrepeats⟩

end Sys2Proof.Machine
end

section
/-! PROOFS. The commands of the Orchestrator (44_orchestrator.md R400 to R408): INIT and RESET are their one update, DECODE_CHUNK and
DECODE_ALL are CHUNK_BODY with a count in RESULT. Runs of bytes add up, so neither the split of a decode nor CHUNK matters. -/

namespace Sys2Proof.Machine

/-! ## INIT and RESET (R400, R401) -/

/-- Settles O15: INIT's effect, with ERR cleared at acceptance and RESULT 0. -/
theorem initStartsADecode : Obligations.InitStartsADecode := by
  intro s h
  refine ⟨_, exec_control h rfl, ?_, rfl⟩
  simp [bodyOf, initDecode, State.cleared, setResult, h]

theorem platformReset_idle {s : State} (h : s.status.running = none) : platformReset s = coldReset s := by
  simp only [platformReset, h]

/-- RESET's RESULT 0 is the reset value of RESULT (R401). -/
theorem exec_reset {s : State} (h : s.status.running = none) : exec .reset s = .next (coldReset s) :=
  exec_control h rfl

/-- Settles O17: RESET and the platform's reset input are one and the same reset. -/
theorem resetTakesResetValues : Obligations.ResetTakesResetValues := by
  intro s rest h
  refine ⟨exec_reset h, fun hops => ?_⟩
  rw [step_platformReset hops, platformReset_idle (by exact h), exec_reset (by exact h)]

/-! ## DECODE_CHUNK is CHUNK_BODY (R402) -/

theorem needsDecodeTables_eq_none {s : State} (h : s.TablesReady) : needsDecodeTables s = none := by
  by_cases h0 : s.tabs.blockSize = 0#32
  · simp [needsDecodeTables, h0]
  · obtain ⟨hc, hp⟩ := h h0
    simp [needsDecodeTables, hc, hp]

theorem chunkPrecondition_of_room {b : BitVec 16} {s : State} (h : b.toNat ≤ outRemaining s) :
    chunkPrecondition b s = needsDecodeTables s := if_neg (Nat.not_lt.mpr h)

theorem chunkCountLegal_of_le {b : BitVec 16} (h1 : 1 ≤ b.toNat) (h2 : b.toNat ≤ 8192) : chunkCountLegal b = true := by
  simp [chunkCountLegal, h1, h2]

section Chunk
variable {s : State} {b : BitVec 16} (hs : s.Runs) (h1 : 1 ≤ b.toNat) (h2 : b.toNat ≤ 8192)
  (hroom : b.toNat ≤ outRemaining s) (ht : s.TablesReady)
include hs h1 h2 hroom ht

theorem exec_decodeChunk : exec (.decodeChunk b) s =
    .next (finish ((chunkBody b.toNat s.cleared).andThen fun _ u => .ok (some (b.setWidth 32)) u)) :=
  exec_runs hs rfl (chunkCountLegal_of_le h1 h2) ((chunkPrecondition_of_room hroom).trans (needsDecodeTables_eq_none ht))

theorem exec_decodeChunk_completes {u : State} (h : chunkBody b.toNat s.cleared = .ok () u) :
    exec (.decodeChunk b) s = .next (u.withResult (b.setWidth 32)) := by
  rw [exec_decodeChunk hs h1 h2 hroom ht, h]
  rfl

theorem exec_decodeChunk_fails {f : Failure} {u : State} (h : chunkBody b.toNat s.cleared = .failed f u) :
    exec (.decodeChunk b) s = .next (failWith f u) := by
  rw [exec_decodeChunk hs h1 h2 hroom ht, h]
  rfl

end Chunk

/-- Settles O49: CHUNK_BODY within the declared length produces its whole count, or fails before. -/
theorem decodeChunkProducesExactlyItsCount : Obligations.DecodeChunkProducesExactlyItsCount := by
  intro b s u f hs hl hroom ht
  obtain ⟨h1, h2⟩ : 1 ≤ b.toNat ∧ b.toNat ≤ 8192 := by simpa [Instr.wellFormed] using hl.1
  obtain ⟨hok, hfailed⟩ := chunkBody_counts b.toNat s.cleared hroom
  exact ⟨fun h => ⟨exec_decodeChunk_completes hs h1 h2 hroom ht h, hok u h⟩,
    fun h => ⟨exec_decodeChunk_fails hs h1 h2 hroom ht h, (hfailed f u h).2⟩⟩

/-- Settles O51: within the pending match CHUNK_BODY is a run of copies, which reads no bits and no table. -/
theorem pendingCopyResumesWithoutReadingBits : Obligations.PendingCopyResumesWithoutReadingBits := by
  intro b s hs h1 hrem hroom ht hsrc
  have hlt := s.win.matchRem.isLt
  obtain ⟨u, hcopy, hframe, hbits, htabs, -, -, hmatchSrc, hmatchRem, -⟩ :=
    copyTimes_completes b.toNat s.cleared hsrc hrem hroom
  have hrun : chunkBody b.toNat s.cleared = .ok () u := (chunkBody_eq_copyTimes _ s.cleared hrem).trans hcopy
  refine ⟨_, exec_decodeChunk_completes hs h1 (by omega) hroom ht hrun, hbits, htabs, rfl, hframe.status,
    (chunkBody_counts _ s.cleared hroom).1 u hrun, ?_, hmatchSrc⟩
  have hcount : (BitVec.ofNat 9 b.toNat).toNat = b.toNat := by rw [BitVec.toNat_ofNat]; omega
  exact (congrArg BitVec.toNat hmatchRem).trans ((BitVec.toNat_sub_of_le (by rwa [BitVec.le_def, hcount])).trans
    (congrArg _ hcount))

/-! ## Chunks add up (R405, R406) -/

theorem outRemaining_chunkBody {n : Nat} {s u : State} (hn : n ≤ outRemaining s) (h : chunkBody n s = .ok () u) :
    outRemaining u = outRemaining s - n := by
  have hframe := chunkBody_frame n s
  rw [h] at hframe
  have hlat : u.lat = s.lat := hframe.lat
  unfold outRemaining
  rw [hlat, (chunkBody_counts n s hn).1 u h]
  omega

/-- Settles O52: the second command's bytes come after the first's, and no byte depends on the RESULT between them. -/
theorem chunkSplitsDoNotMatter : Obligations.ChunkSplitsDoNotMatter := by
  intro a b c s u hs ha hb hc h8 hroom ht he
  have hroom : c.toNat ≤ outRemaining s := hroom
  have hadd := chunkBody_add a.toNat b.toNat s.cleared
  rw [← hc] at hadd
  have hframe := chunkBody_frame a.toNat s.cleared
  cases hrun : chunkBody a.toNat s.cleared with
  | failed f p =>
    rw [exec_decodeChunk_fails hs ha (by omega) (by omega) ht hrun] at he
    cases he
    rw [hrun] at hadd
    exact ⟨fun h => Bool.noConfusion h, fun _ => exec_decodeChunk_fails hs (by omega) h8 hroom ht hadd⟩
  | ok _ p =>
    rw [exec_decodeChunk_completes hs ha (by omega) (by omega) ht hrun] at he
    cases he
    rw [hrun] at hadd hframe
    have hp := hframe.status
    obtain ⟨hruns, hclear⟩ := runs_of_status_cleared (w := p.withResult (a.setWidth 32)) hs hp
    have hroom' : b.toNat ≤ outRemaining p := by
      rw [outRemaining_chunkBody (s := s.cleared) (show a.toNat ≤ outRemaining s by omega) hrun]
      exact Nat.le_sub_of_add_le (by rw [Nat.add_comm, ← hc]; exact hroom)
    have hready : p.TablesReady := tablesReady_chunkBody _ (s := s.cleared) ht hrun
    have hsecond : chunkBody b.toNat (p.withResult (a.setWidth 32)).cleared =
        (chunkBody b.toNat p).withResult (a.setWidth 32) := by
      rw [hclear]
      exact ignoresResult_chunkBody _ _ p
    refine ⟨fun _ => ⟨_, _, exec_decodeChunk hruns hb (by omega) hroom' hready,
      exec_decodeChunk hs (by omega) h8 hroom ht, ?_⟩, fun h => ?_⟩
    · rw [hsecond, hadd]
      rw [Flow.andThen_ok]
      cases chunkBody b.toNat p with
      | ok _ q => rfl
      | failed f q => rfl
    · exact absurd hruns.2.2 (ne_of_eq_of_ne h (by decide))

/-- DECODE_ALL is CHUNK_BODY over everything left, and returns how far PRODUCED went (R405). -/
theorem exec_decodeAll {s : State} (hs : s.Runs) (hchunk : 1 ≤ s.cfg.chunk) (hp : decodeAllPrecondition s = none) :
    exec .decodeAll s = .next (finish ((chunkBody (outRemaining s) s.cleared).andThen fun _ u =>
      .ok (some (u.win.produced - s.win.produced)) u)) := by
  rw [exec_runs hs (i := .decodeAll) rfl rfl hp, bodyOf, decodeChunks_eq _ s.cleared hchunk (Nat.le_refl _)]
  rfl

theorem decodeAllPrecondition_of_room {s : State} (h : outRemaining s ≠ 0) :
    decodeAllPrecondition s = needsDecodeTables s := if_neg h

/-- From `a` to `b` is `n` on a 32-bit counter that goes from `a` up by `n`. -/
theorem produced_sub {a b : Word} {n : Nat} (h : b.toNat = a.toNat + n) : (b - a).toNat = n := by
  rw [BitVec.toNat_sub_of_le (by rw [BitVec.le_def]; omega)]
  omega

/-- Settles O53: DECODE_ALL is one chunk of what is left, under the same precondition. -/
theorem decodeAllReachesTheDeclaredLength : Obligations.DecodeAllReachesTheDeclaredLength := by
  intro s hs hchunk
  refine ⟨fun hdone => ?_, fun hp ht => ?_, fun b h1 h2 hb => ?_⟩
  · have h0 : outRemaining s = 0 := by rw [outRemaining, hdone, Nat.sub_self]
    rw [exec_decodeAll hs hchunk (if_pos h0), h0, chunkBody, Flow.andThen_ok]
    simp [setResult_eq_withResult, State.cleared]
  · have h0 : outRemaining s ≠ 0 := Nat.sub_ne_zero_of_lt hp
    refine ⟨_, exec_decodeAll hs hchunk ((decodeAllPrecondition_of_room h0).trans (needsDecodeTables_eq_none ht)), ?_⟩
    have hframe := chunkBody_frame (outRemaining s) s.cleared
    cases hrun : chunkBody (outRemaining s) s.cleared with
    | failed f u => exact fun h => Bool.noConfusion h
    | ok _ u =>
      rw [hrun] at hframe
      have hcount : u.win.produced.toNat = s.win.produced.toNat + outRemaining s :=
        (chunkBody_counts _ s.cleared (Nat.le_refl _)).1 u hrun
      refine fun _ => ⟨BitVec.eq_of_toNat_eq (hcount.trans (Nat.add_sub_of_le hp.le)), hframe.lat, produced_sub hcount⟩
  · have hb : outRemaining s = b.toNat := hb.symm
    have hpre : preconditionOf .decodeAll s = preconditionOf (.decodeChunk b) s :=
      (decodeAllPrecondition_of_room (by omega)).trans (chunkPrecondition_of_room hb.ge).symm
    have hlegal : operandsLegal (.decodeChunk b) s = true := chunkCountLegal_of_le h1 h2
    cases hc : preconditionOf .decodeAll s with
    | some c => rw [exec_rejects hs rfl rfl hc, exec_rejects hs rfl hlegal (hpre.symm.trans hc)]
    | none =>
      rw [exec_decodeAll hs hchunk hc, exec_runs hs rfl hlegal (hpre.symm.trans hc), bodyOf, hb]
      cases hrun : chunkBody b.toNat s.cleared with
      | failed f u => rfl
      | ok _ u =>
        have hcount : u.win.produced.toNat = s.win.produced.toNat + b.toNat :=
          (chunkBody_counts _ s.cleared hb.ge).1 u hrun
        have hresult : u.win.produced - s.win.produced = b.setWidth 32 :=
          BitVec.eq_of_toNat_eq ((produced_sub hcount).trans (by rw [BitVec.toNat_setWidth]; omega))
        rw [Flow.andThen_ok, Flow.andThen_ok, hresult]

end Sys2Proof.Machine
end

section
/-! PROOFS. One byte of a chunk (44_orchestrator.md R402, R404): a byte of the pending match, a literal, or the start of a match
with its first byte. It ends as DECODE_C, PUT_LITERAL, DECODE_P, START_MATCH and COPY 1 do one after another, because no step of a
decode reads the registers in which those commands pass the symbol, the distance and the length. -/

namespace Sys2Proof.Machine

/-! ## The passes of CHUNK_BODY -/

theorem chunkBody_one (s : State) : chunkBody 1 s = produceByte s := by
  cases h : produceByte s <;> simp [chunkBody, h]

theorem copyTimes_one (s : State) : copyTimes 1 s = copyOne s := by
  cases h : copyOne s <;> simp [copyTimes, h]

section Passes
variable {s u : State}

section Symbol
variable (hm : s.win.matchRem = 0#9)
include hm

theorem produceByte_symbol_failed {f : Failure} (h : decodeLiteralLength s = .failed f u) : produceByte s = .failed f u := by
  rw [produceByte, if_neg (not_not.mpr hm), h, Flow.andThen_failed]

variable {c : BitVec 10} (h : decodeLiteralLength s = .ok c u)
include h

theorem produceByte_literal (hc : c.toNat ≤ 255) : produceByte s = .ok () (emit (c.setWidth 8) u) := by
  rw [produceByte, if_neg (not_not.mpr hm), h, Flow.andThen_ok, if_pos hc]

theorem produceByte_match (hc : 256 ≤ c.toNat) : produceByte s =
    (decodeDistance u).andThen fun d w => copyOne (startCopy (c.toNat - 253) d w) := by
  rw [produceByte, if_neg (not_not.mpr hm), h, Flow.andThen_ok, if_neg (by omega)]

end Symbol

/-- A symbol that decodes has its position table built, whatever the counter is after it. -/
theorem decodeLiteralLength_ok_position {c : BitVec 10} (ht : s.TablesReady) (h : decodeLiteralLength s = .ok c u) :
    u.tabs.ptKind = .position := by
  have hsymbol : ∀ {w}, AtSymbol s w → w.tabs.ptKind = .position → u.tabs.ptKind = .position := by
    intro w hw hkind
    have htabs := decodeSymbol_tabs .cTable (setBlockSize (decrementBlock w.cfg.blockCntBits w.tabs.blockSize) w)
    rw [← decodeLiteralLength_symbol hw, h] at htabs
    exact (congrArg Tables.ptKind htabs).trans hkind
  by_cases h0 : s.tabs.blockSize = 0#32
  · cases hheader : readBlockHeader s with
    | failed f w =>
      rw [decodeLiteralLength_header_failed h0 hheader] at h
      cases h
    | ok v w => exact hsymbol (.inl ⟨h0, v, hheader⟩) (readBlockHeader_ok_built hheader).2
  · exact hsymbol (.inr ⟨h0, rfl⟩) (ht h0).2

/-- A distance fits START_MATCH's operand (R152, R312). -/
theorem decodeDistance_ok_le {d : Nat} (h : decodeDistance s = .ok d u) : d ≤ 8191 := by
  obtain ⟨c, hc, hlookup⟩ | ⟨c, -, hlookup⟩ := lookup_ends .posTable s
  · rw [decodeDistance_of_lookup hlookup] at h
    split at h
    · cases h
      exact Nat.zero_le _
    · cases h
      exact distance_le hc _
  · rw [decodeDistance_of_lookup_failed hlookup] at h
    cases h

end Passes

/-! ## A decode does not see the host's registers -/

/-- The host's registers replaced. -/
def State.withRegs (r : HostRegs) (s : State) : State := { s with regs := r }

/-- A flow with the host's registers replaced at its end. -/
def Flow.withRegs {α : Type} (r : HostRegs) : Flow α → Flow α
  | .ok a s => .ok a (s.withRegs r)
  | .failed f s => .failed f (s.withRegs r)

theorem copyOne_withRegs (r : HostRegs) (s : State) : copyOne (s.withRegs r) = (copyOne s).withRegs r := by
  have hread : winRead s.win.matchSrc (s.withRegs r) = (winRead s.win.matchSrc s).withRegs r := by
    unfold winRead
    by_cases hw : writtenSinceInit s s.win.matchSrc.toNat = true
    · rw [if_pos hw, if_pos (by exact hw)]
      rfl
    · rw [if_neg hw, if_neg (by exact hw)]
      cases hc : s.cfg.windowInit <;> simp only [State.withRegs, hc] <;> rfl
  rw [copyOne, copyOne, show (s.withRegs r).win = s.win from rfl, hread]
  cases winRead s.win.matchSrc s <;> rfl

/-- The end of a command that produces one byte: RESULT 1, or the failure recorded. -/
def endByte (x : Flow Unit) : State := finish (x.andThen fun _ s => .ok (some 1#32) s)

/-- A byte produced from other registers: the same but for them, and RESULT is written only if it does not fail. -/
theorem endByte_withRegs {x : Flow Unit} (r : HostRegs) (h : x.state.status.fail = false) :
    endByte x = { endByte (x.withRegs r) with
      regs := { x.state.regs with
        result := if (endByte (x.withRegs r)).status.fail then x.state.regs.result else 1#32 } } := by
  cases x with
  | ok _ s =>
    have hfail : (endByte ((Flow.ok () s).withRegs r)).status.fail = false := h
    rw [hfail]
    rfl
  | failed f s => rfl

/-! ## The commands of one byte -/

section Commands
variable {s : State} (hs : s.Runs) (hp : s.win.produced.toNat < s.lat.outLen.toNat)
include hs hp

theorem exec_decodeChunk_one (ht : s.TablesReady) : exec (.decodeChunk 1#16) s = .next (endByte (produceByte s.cleared)) := by
  have hroom : (1#16).toNat ≤ outRemaining s := Nat.sub_pos_of_lt hp
  rw [exec_decodeChunk hs (by decide) (by decide) hroom ht, show (1#16).toNat = 1 from rfl, chunkBody_one]
  rfl

theorem exec_copy_one_byte (hm : s.win.matchRem ≠ 0#9) : exec (.copy 1#16) s = .next (endByte (copyOne s.cleared)) := by
  rw [exec_copy hs (by decide), copyCount_one hm hp, copyTimes_one]
  rfl

end Commands

theorem OnlyBitsTabs.regs {s t : State} (h : OnlyBitsTabs s t) : t.regs = s.regs := by rw [h]

/-! ## Inside a command of `s` that has read bits and tables only -/

section Inside
variable {s u : State} (hu : OnlyBitsTabs s.cleared u) (r : HostRegs)
include hu

theorem OnlyBitsTabs.matchRem_withRegs (hm : s.win.matchRem = 0#9) : (u.withRegs r).win.matchRem = 0#9 :=
  (congrArg Expander.matchRem hu.win).trans hm

theorem OnlyBitsTabs.room_withRegs (hp : s.win.produced.toNat < s.lat.outLen.toNat) :
    (u.withRegs r).win.produced.toNat < (u.withRegs r).lat.outLen.toNat := by
  rw [show (u.withRegs r).win = s.win from hu.win, show (u.withRegs r).lat = s.lat from hu.lat]
  exact hp

variable (hs : s.Runs)
include hs

theorem OnlyBitsTabs.runs_withRegs : (u.withRegs r).Runs ∧ (u.withRegs r).cleared = u.withRegs r :=
  runs_of_status_cleared hs hu.status

theorem OnlyBitsTabs.exec_putLiteral (hm : s.win.matchRem = 0#9) (hp : s.win.produced.toNat < s.lat.outLen.toNat)
    {b : BitVec 16} (hb : b.toNat ≤ 255) :
    exec (.putLiteral b) (u.withRegs r) = .next ((emit (b.setWidth 8) u).withRegs r) := by
  obtain ⟨hruns, hclear⟩ := hu.runs_withRegs r hs
  rw [Machine.exec_putLiteral hruns hb (hu.matchRem_withRegs r hm) (hu.room_withRegs r hp), hclear]
  rfl

theorem OnlyBitsTabs.exec_startMatch (hm : s.win.matchRem = 0#9) {b : BitVec 16}
    (hl : legalIn (.startMatch b) (u.withRegs r)) :
    exec (.startMatch b) (u.withRegs r) = .next ((startCopy (r.arg.toNat % 65536) b.toNat u).withRegs
      { r with result := (matchSource u.win.pos b.toNat).setWidth 32 }) := by
  obtain ⟨hruns, hclear⟩ := hu.runs_withRegs r hs
  rw [Machine.exec_startMatch hruns hl (hu.matchRem_withRegs r hm), hclear, matchLength_eq]
  rfl

theorem OnlyBitsTabs.exec_copy_started (hp : s.win.produced.toNat < s.lat.outLen.toNat) {n d : Nat} (h3 : 3 ≤ n)
    (h256 : n ≤ 256) :
    exec (.copy 1#16) ((startCopy n d u).withRegs r) = .next (endByte ((copyOne (startCopy n d u)).withRegs r)) := by
  obtain ⟨hruns, hclear⟩ := runs_of_status_cleared (w := (startCopy n d u).withRegs r) hs hu.status
  rw [exec_copy_one_byte hruns (hu.room_withRegs r hp) (startCopy_pending u h3 h256), hclear, copyOne_withRegs]

end Inside

/-- The start of a match and its first byte (R404): a distance `d` read after the symbol of length `n`. -/
theorem match_starts {s w : State} (hw : OnlyBitsTabs s.cleared w) (hs : s.Runs) (hm : s.win.matchRem = 0#9)
    (hp : s.win.produced.toNat < s.lat.outLen.toNat) {n d : Nat} (h3 : 3 ≤ n) (h256 : n ≤ 256) (hd : d ≤ 8191) :
    ∃ v x : State,
      exec (.startMatch ((BitVec.ofNat 32 d).setWidth 16))
        (w.withRegs { w.regs with arg := BitVec.ofNat 32 n, result := BitVec.ofNat 32 d }) = .next v ∧
      v.win.matchRem.toNat = n ∧ exec (.copy 1#16) v = .next x ∧
      endByte (copyOne (startCopy n d w)) =
        { x with regs := { s.regs with result := if x.status.fail then s.regs.result else 1#32 } } := by
  generalize hr : ({ w.regs with arg := BitVec.ofNat 32 n, result := BitVec.ofNat 32 d } : HostRegs) = r
  have hn : r.arg.toNat % 65536 = n := by
    rw [← hr, BitVec.toNat_ofNat]
    omega
  have hb : ((BitVec.ofNat 32 d).setWidth 16).toNat = d := by
    rw [BitVec.toNat_setWidth, BitVec.toNat_ofNat]
    omega
  have hl : legalIn (.startMatch ((BitVec.ofNat 32 d).setWidth 16)) (w.withRegs r) :=
    ⟨decide_eq_true (by omega), by rw [show (w.withRegs r).regs = r from rfl, hn]; exact ⟨h3, h256⟩⟩
  have hstart := hw.exec_startMatch r hs hm hl
  rw [hn, hb] at hstart
  have hframe := copyOne_frame (startCopy n d w)
  have hregs : (copyOne (startCopy n d w)).state.regs = s.regs := hframe.regs.trans hw.regs
  have hfail : (copyOne (startCopy n d w)).state.status.fail = false :=
    (congrArg StatusRegs.fail (hframe.status.trans hw.status)).trans hs.2.2
  refine ⟨_, _, hstart, ?_, hw.exec_copy_started _ hs hp h3 h256, ?_⟩
  · show (BitVec.ofNat 9 n).toNat = n
    rw [BitVec.toNat_ofNat]
    omega
  · rw [← hregs]
    exact endByte_withRegs _ hfail

/-- A symbol up to 255 is the literal of that byte. -/
theorem literal_ends {s u : State} (hu : OnlyBitsTabs s.cleared u) (r : HostRegs) (hs : s.Runs) (hm : s.win.matchRem = 0#9)
    (hp : s.win.produced.toNat < s.lat.outLen.toNat) {c : BitVec 10} (hc : c.toNat ≤ 255) :
    exec (.putLiteral (BitVec.ofNat 16 c.toNat)) (u.withRegs r) = .next ((emit (c.setWidth 8) u).withRegs r) := by
  have hb : (BitVec.ofNat 16 c.toNat).toNat = c.toNat := by
    rw [BitVec.toNat_ofNat]
    omega
  have hbyte : (BitVec.ofNat 16 c.toNat).setWidth 8 = c.setWidth 8 :=
    BitVec.eq_of_toNat_eq (by rw [BitVec.toNat_setWidth, BitVec.toNat_setWidth, hb])
  rw [hu.exec_putLiteral r hs hm hp (hb.trans_le hc), hbyte]

/-- DECODE_P after DECODE_C reads the distance as the chunk does, which does not see the symbol in RESULT. -/
theorem exec_decodeP_after_symbol {s u : State} (hu : OnlyBitsTabs s.cleared u) (v : Word) (hs : s.Runs)
    (hk : u.tabs.ptKind = .position) : exec .decodeP (setResult v u) =
      .next (finish (((decodeDistance u).withResult v).andThen fun d t => .ok (some (BitVec.ofNat 32 d)) t)) := by
  obtain ⟨hruns, hclear⟩ := hu.runs_withRegs { u.regs with result := v } hs
  have hexec := exec_decodeP hruns hk
  rwa [hclear, show decodeDistance (u.withRegs _) = _ from ignoresResult_decodeDistance v u] at hexec

/-- A symbol of 256 to 509 is a match of length `n` (R404): its distance, its start and its first byte. -/
theorem match_ends {s u : State} (hu : OnlyBitsTabs s.cleared u) (v : Word) (hs : s.Runs) (hm : s.win.matchRem = 0#9)
    (hp : s.win.produced.toNat < s.lat.outLen.toNat) (hk : u.tabs.ptKind = .position) {n : Nat} (h3 : 3 ≤ n) (h256 : n ≤ 256) :
    ∃ t, exec .decodeP (setResult v u) = .next t ∧
      (t.status.fail = true →
        endByte ((decodeDistance u).andThen fun d w => copyOne (startCopy n d w)) = { t with regs := s.regs }) ∧
      (t.status.fail = false → ∃ w x : State,
        exec (.startMatch (t.regs.result.setWidth 16)) { t with regs := { t.regs with arg := BitVec.ofNat 32 n } } = .next w ∧
        w.win.matchRem.toNat = n ∧ exec (.copy 1#16) w = .next x ∧
        endByte ((decodeDistance u).andThen fun d w => copyOne (startCopy n d w)) =
          { x with regs := { s.regs with result := if x.status.fail then s.regs.result else 1#32 } }) := by
  refine ⟨_, exec_decodeP_after_symbol hu v hs hk, ?_⟩
  have hframe := decodeDistance_frame u
  cases hd : decodeDistance u with
  | failed f w =>
    rw [hd] at hframe
    have hregs : w.regs = s.regs := (hu.trans hframe).regs
    refine ⟨fun _ => ?_, fun h => Bool.noConfusion h⟩
    rw [← hregs]
    rfl
  | ok d w =>
    rw [hd] at hframe
    have hw := hu.trans hframe
    have hrunning : w.status.fail = false := (congrArg StatusRegs.fail hw.status).trans hs.2.2
    exact ⟨fun h => absurd hrunning (ne_of_eq_of_ne h (by decide)),
      fun _ => match_starts hw hs hm hp h3 h256 (decodeDistance_ok_le hd)⟩

/-- Settles O50: the first byte of a chunk follows the case of its symbol, and where a step fails nothing but its failure is left. -/
theorem chunkBytesAreLiteralsAndMatches : Obligations.ChunkBytesAreLiteralsAndMatches := by
  intro s hs ht hp
  have hchunk := exec_decodeChunk_one hs hp ht
  refine ⟨fun hm => ?_, fun hm => ?_⟩
  · rw [hchunk, exec_copy_one_byte hs hp hm, produceByte, if_pos (by exact hm)]
  have hdecodeC := exec_decodeC hs ((em _).imp_right fun h0 => (ht h0).1)
  have hu := decodeLiteralLength_frame s.cleared
  cases hsymbol : decodeLiteralLength s.cleared with
  | failed f u =>
    rw [hsymbol] at hdecodeC
    refine ⟨_, hdecodeC, fun _ => ?_, fun h => Bool.noConfusion h⟩
    rw [hchunk, produceByte_symbol_failed (s := s.cleared) hm hsymbol]
    rfl
  | ok c u =>
    rw [hsymbol] at hdecodeC hu
    have hrunning : u.status.fail = false := (congrArg StatusRegs.fail hu.status).trans hs.2.2
    have hlt := decodeLiteralLength_ok hsymbol
    have hc : (c.setWidth 32).toNat = c.toNat := by
      rw [BitVec.toNat_setWidth]
      omega
    refine ⟨_, hdecodeC, fun h => absurd hrunning (ne_of_eq_of_ne h (by decide)), fun _ => ?_⟩
    rw [Flow.andThen_ok, finish_value, setResult_result, hc, hchunk]
    refine ⟨hlt, fun hliteral => ⟨_, literal_ends hu _ hs hm hp hliteral, hrunning, ?_⟩, fun hmatch => ?_⟩
    · rw [produceByte_literal (s := s.cleared) hm hsymbol hliteral]
      rfl
    · have hk := decodeLiteralLength_ok_position (s := s.cleared) ht hsymbol
      obtain ⟨t, hdecodeP, hfailed, hstarted⟩ :=
        match_ends hu (c.setWidth 32) hs hm hp hk (n := c.toNat - 253) (by omega) (by omega)
      rw [produceByte_match (s := s.cleared) hm hsymbol hmatch]
      refine ⟨t, hdecodeP, fun h => congrArg _ (hfailed h), fun h => ?_⟩
      obtain ⟨w, x, hstart, hrem, hcopy, hend⟩ := hstarted h
      exact ⟨w, x, hstart, hrem, hcopy, congrArg _ hend⟩

end Sys2Proof.Machine
end

section
/-! PROOFS. How a command ends (60_exceptions.md): rejected with the cause of R455, completed, or failed; and what each end leaves
as it was. -/

namespace Sys2Proof.Machine

/-! ## The gates (R455 steps 4 and 5) -/

theorem isControl_eq_false {i : Instr} : isControl i = false ↔ i ≠ .init ∧ i ≠ .reset := by
  cases i <;> simp [isControl]

theorem gateOf_ne_always {i : Instr} (h : isControl i = false) : gateOf i ≠ .always := by
  cases i <;> simp [gateOf, isControl] at h ⊢

theorem gateOf_eq_inspect {i : Instr} (h : isInspection i = true) : gateOf i = .inspect := by
  cases i <;> simp [gateOf, isInspection] at h ⊢

theorem gateOf_eq_working {i : Instr} (hc : isControl i = false) (hi : isInspection i = false) : gateOf i = .working := by
  cases i <;> simp [gateOf, isControl, isInspection] at hc hi ⊢

/-! ## Rejections by the gate and by an operand (R455 steps 4 to 6) -/

section Prechecks
variable {i : Instr} {s : State}

theorem exec_rejects_of_precheck (h : s.status.running = none) {c : ErrCause}
    (hp : precheck (gateOf i) (operandsLegal i s) (preconditionOf i s) s = some c) :
    exec i s = .next (s.withError c.code) := by
  rw [exec_eq_run, runCommand_idle h, hp]
  rfl

theorem exec_notReady (h : s.status.running = none) (hg : gateOf i ≠ .always) (hr : s.status.ready = false) :
    exec i s = .next (s.withError 0x04#8) :=
  exec_rejects_of_precheck h (c := .notReady) (by simp [precheck, hg, hr])

theorem exec_failed (h : s.status.running = none) (hg : gateOf i = .working) (hr : s.status.ready = true)
    (hf : s.status.fail = true) : exec i s = .next (s.withError 0x05#8) :=
  exec_rejects_of_precheck h (c := .failed) (by simp [precheck, hg, hr, hf])

theorem exec_illegalOperand (h : s.status.running = none) (hr : s.status.ready = true)
    (hg : s.status.fail = false ∨ gateOf i = .inspect) (hl : operandsLegal i s = false) :
    exec i s = .next (s.withError 0x03#8) := by
  refine exec_rejects_of_precheck h (c := .illegalOperand) ?_
  obtain hf | hg := hg
  · simp [precheck, hr, hf, hl]
  · simp [precheck, hr, hg, hl]

end Prechecks

/-- Settles O18: a command's gate rejects it before its operands are looked at, and its operands before its state precondition. -/
theorem notReadyFailedAndIllegalOperandRejections : Obligations.NotReadyFailedAndIllegalOperandRejections := by
  refine fun i s h hc => ⟨exec_notReady h (gateOf_ne_always hc), fun hr hf hi => ?_, fun hr hg hl => ?_⟩
  · exact exec_failed h (gateOf_eq_working hc hi) hr hf
  · exact exec_illegalOperand h hr (hg.imp_right gateOf_eq_inspect)
      (Bool.eq_false_iff.mpr fun hlegal => hl ((operandsLegal_iff i s).mp hlegal))

/-! ## State preconditions (R455 step 7) -/

section Preconditions
variable {s : State} {b : BitVec 16}

theorem needsDecodeTables_eq_some (h : ¬ s.TablesReady) : needsDecodeTables s = some .tableMismatch := by
  obtain ⟨hblock, htables⟩ := Classical.not_imp.mp h
  refine if_pos ?_
  cases hc : s.tabs.cBuilt
  · simp [hblock]
  · simpa [hblock, hc] using htables

theorem chunkPrecondition_of_no_room (h : outRemaining s < b.toNat) : chunkPrecondition b s = some .outputFull := if_pos h

theorem needsCTable_eq_some (hblock : s.tabs.blockSize ≠ 0#32) (hc : s.tabs.cBuilt = false) :
    needsCTable s = some .tableMismatch := by simp [needsCTable, hblock, hc]

theorem literalPrecondition_of_match (h : s.win.matchRem ≠ 0#9) : literalPrecondition s = some .matchPending := if_pos h

theorem literalPrecondition_of_full (hm : s.win.matchRem = 0#9) (h : s.win.produced = s.lat.outLen) :
    literalPrecondition s = some .outputFull := by simp [literalPrecondition, hm, h]

end Preconditions

/-- Settles O19: each precondition's answer is the cause the command is rejected with. -/
theorem statePreconditionsRejected : Obligations.StatePreconditionsRejected := by
  refine fun b s hs => ⟨fun hl => ?_, fun hroom ht => ?_, fun hblock hc => ?_, fun hk => ?_, fun hk => ?_, fun hl => ?_,
    fun hl hm => ?_⟩
  · have hlegal := (operandsLegal_iff _ _).mpr hl
    exact ⟨fun hfull => exec_rejects hs rfl hlegal (chunkPrecondition_of_no_room hfull),
      fun hroom ht => exec_rejects hs rfl hlegal ((chunkPrecondition_of_room hroom).trans (needsDecodeTables_eq_some ht))⟩
  · exact exec_rejects (i := .decodeAll) hs rfl rfl
      ((decodeAllPrecondition_of_room (Nat.sub_ne_zero_of_lt hroom)).trans (needsDecodeTables_eq_some ht))
  · exact exec_rejects (i := .decodeC) hs rfl rfl (needsCTable_eq_some hblock hc)
  · exact exec_rejects (i := .decodeP) hs rfl rfl (if_neg hk)
  · exact exec_rejects (i := .readCLen) hs rfl rfl (if_neg hk)
  · have hlegal := (operandsLegal_iff _ _).mpr hl
    exact ⟨fun hm => exec_rejects hs rfl hlegal (literalPrecondition_of_match hm),
      fun hm hfull => exec_rejects hs rfl hlegal (literalPrecondition_of_full hm hfull)⟩
  · exact exec_rejects hs rfl ((operandsLegal_iff _ _).mpr hl) (if_pos hm)

/-! ## Accepted or rejected (R450, R451) -/

/-- Settles O56: an idle core rejects a command or runs it, and a run ends with ERR as acceptance left it. -/
theorem acceptedClearsErrRejectedKeepsTheRest : Obligations.AcceptedClearsErrRejectedKeepsTheRest := by
  intro i s t h he
  obtain ⟨hbusy, -⟩ | ⟨c, -, -, rfl⟩ | ⟨-, -, rfl⟩ := exec_cases he
  · exact absurd h hbusy
  · exact .inr ⟨rfl, rfl⟩
  · exact .inl (ran_err i s)

/-! ## Failures (R452, R453) -/

/-- A command's end writes STATUS only to record a failure. -/
theorem finish_status_cases (x : Flow (Option Word)) :
    (finish x).status = x.state.status ∨ ∃ f u, x = .failed f u ∧ finish x = failWith f u := by
  obtain ⟨v, -, e⟩ | ⟨-, e⟩ | ⟨f, hf, e⟩ := finish_cases x <;> rw [e]
  · exact .inl rfl
  · exact .inl rfl
  · exact .inr ⟨f, _, hf, rfl⟩

/-- Settles O57: after a failure a command is rejected, or it is one of the reads that cannot fail, whose steps leave STATUS. -/
theorem failureStaysUntilInitOrReset : Obligations.FailureStaysUntilInitOrReset := by
  intro i s t h hfail _ hc he
  obtain ⟨hbusy, -⟩ | ⟨c, -, -, rfl⟩ | ⟨-, hp, rfl⟩ := exec_cases he
  · exact absurd h hbusy
  · exact ⟨hfail, rfl, rfl, rfl⟩
  obtain ⟨-, hworking, -, -⟩ := precheck_none hp
  obtain hstatus | ⟨f, u, hf, -⟩ := finish_status_cases (bodyOf i (accept s))
  · rw [hstatus, (bodyOf_frame (isControl_eq_false.mp hc) (accept s)).status]
    exact ⟨hfail, rfl, rfl, rfl⟩
  · exact Bool.noConfusion ((hworking (gateOf_eq_working_of_failed hf)).symm.trans hfail)

theorem bodyOf_fail {s : State} (h : s.status.fail = false) (i : Instr) : (bodyOf i s).state.status.fail = false := by
  by_cases hi : i = .init
  · subst hi; rfl
  by_cases hr : i = .reset
  · subst hr; rfl
  · rw [(bodyOf_frame ⟨hi, hr⟩ s).status]
    exact h

/-- A command that sets FAIL ran until a step of it failed. -/
theorem exec_sets_fail {i : Instr} {s t : State} (h : s.status.fail = false) (he : exec i s = .next t)
    (ht : t.status.fail = true) : ∃ f u, bodyOf i (accept s) = .failed f u ∧ t = failWith f u := by
  obtain ⟨-, rfl⟩ | ⟨c, -, -, rfl⟩ | ⟨-, -, rfl⟩ := exec_cases he
  · exact Bool.noConfusion (h.symm.trans ht)
  · exact Bool.noConfusion (h.symm.trans ht)
  obtain hstatus | hfailed := finish_status_cases (bodyOf i (accept s))
  · rw [hstatus, bodyOf_fail (s := accept s) h] at ht
    cases ht
  · exact hfailed

/-- The host's registers are no part of what a failing command's steps change. -/
theorem bodyOf_failed_regs {i : Instr} {s u : State} {f : Failure} (h : bodyOf i s = .failed f u) : u.regs = s.regs := by
  have hi : i ≠ .init ∧ i ≠ .reset := by
    constructor <;> rintro rfl <;> cases h
  have hregs := (bodyOf_frame hi s).regs
  rwa [h] at hregs

theorem FailCause.code_bounds (c : FailCause) : 1 ≤ c.code.toNat ∧ c.code.toNat ≤ 6 := by cases c <;> decide

/-- A failure forgets the OUT bytes below PRODUCED and L_OUT_CAP (20_memory.md R121). -/
theorem failWith_forgets (f : Failure) (u : State) {a : Nat} (hp : a < u.win.produced.toNat) (hc : a < u.lat.outCap.toNat) :
    (failWith f u).outMem.read a = none := by
  rw [failWith_outMem, Memory.read_dropRange, if_pos ⟨Nat.zero_le a, Nat.lt_min.mpr ⟨hp, hc⟩⟩]

/-- Settles O58: FAIL is set by a failing step alone, and `failWith` records its failure and forgets the output. -/
theorem failureKeepsResultAndNamesItsCause : Obligations.FailureKeepsResultAndNamesItsCause := by
  intro i s t h he ht
  obtain ⟨f, u, hf, rfl⟩ := exec_sets_fail h he ht
  have hregs := bodyOf_failed_regs hf
  obtain ⟨hlo, hhi⟩ := f.cause.code_bounds
  exact ⟨hregs, hlo, hhi, namesTable_bodyOf i (accept s) f u hf, fun _ => failWith_forgets f u⟩

end Sys2Proof.Machine
end

section
/-! PROOFS. A block header past the end of the input (60_exceptions.md R464, 40_bitreader.md R213): its three lists are empty, so
each is the single-code list of code 0, whose symbol costs no bit. -/

namespace Sys2Proof.Machine

/-! ## Empty lists (R303) -/

/-- A PT list whose count is 0, up to the single-code table of the field after it. -/
def emptyPtList (p : PtList) (s : State) : State := singlePt p (consumeBits p.nbit (clearStatus p.id s))

/-- A C list whose count is 0, likewise. -/
def emptyCList (s : State) : State := singleC (consumeBits 9 (clearStatus .cTable s))

section Lists
variable {s : State} (h : s.Drained)
include h

theorem State.Drained.clearStatus (id : TableId) : (clearStatus id s).Drained :=
  h.congr (by simp) (by simp) (by simp) (by simp)

theorem State.Drained.emptyPtList (p : PtList) : (emptyPtList p s).Drained :=
  (((h.clearStatus p.id).consumeBits p.nbit).consumeBits p.nbit).congr rfl (by simp [Machine.emptyPtList])
    (by simp [Machine.emptyPtList]) (by simp [Machine.emptyPtList])

theorem State.Drained.emptyCList : (emptyCList s).Drained :=
  (((h.clearStatus .cTable).consumeBits 9).consumeBits 9).congr rfl (by simp [Machine.emptyCList])
    (by simp [Machine.emptyCList]) (by simp [Machine.emptyCList])

theorem readPtLen_of_drained (p : PtList) : readPtLen p s = .ok 0 (emptyPtList p s) :=
  readPtLen_single (by rw [h.peekBits]; rfl)

theorem readCLen_of_drained : readCLen s = .ok 0 (emptyCList s) := readCLen_single (by rw [h.peekBits]; rfl)

/-- The C list of zero bits has symbol 0 at code 0, and no length. -/
theorem emptyCList_symbol : readCell (emptyCList s).tabs.cTable 0 = some 0#10 ∧ lenAt (emptyCList s).tabs.cLen 0 = 0#5 := by
  simp [emptyCList, ((h.clearStatus .cTable).consumeBits 9).peekBits]

end Lists

/-! ## The header (R310) -/

/-- A header of zero bits after its block-size field and its meta list. -/
def emptyHeaderToC (s : State) : State := emptyPtList metaList (setBlockSize 0#32 (consumeBits 16 s))

/-- A header of zero bits to its end. -/
def emptyHeader (s : State) : State := emptyPtList positionList (emptyCList (emptyHeaderToC s))

/-- BLOCKSIZE has 16 bits; the count and the field of the meta list 5 each, of the C list 9, of the position list 4. -/
theorem emptyHeader_bitpos (s : State) : (emptyHeader s).bits.bitpos = s.bits.bitpos + 52 := by
  simp [emptyHeader, emptyHeaderToC, emptyPtList, emptyCList, metaList, positionList]

theorem emptyHeader_ptAvail (s : State) : (emptyHeader s).tabs.ptAvail = 14#11 := singlePt_ptAvail ..

section Header
variable {s : State} (h : s.Drained)
include h

theorem State.Drained.setBlockSize_header : (setBlockSize 0#32 (Machine.consumeBits 16 s)).Drained :=
  (h.consumeBits 16).congr rfl rfl rfl rfl

theorem State.Drained.emptyHeaderToC : (emptyHeaderToC s).Drained := h.setBlockSize_header.emptyPtList metaList

theorem State.Drained.emptyHeader : (emptyHeader s).Drained := h.emptyHeaderToC.emptyCList.emptyPtList positionList

theorem readBlockHeader_of_drained : readBlockHeader s = .ok 0#32 (emptyHeader s) := by
  have hmeta : readPtLen metaList (setBlockSize 0#32 (consumeBits 16 s)) = .ok 0 (emptyHeaderToC s) :=
    readPtLen_of_drained h.setBlockSize_header metaList
  have hc := readCLen_of_drained h.emptyHeaderToC
  have hpos := readPtLen_of_drained h.emptyHeaderToC.emptyCList positionList
  simp only [readBlockHeader, getBits, h.peekBits, BitVec.setWidth_zero, hmeta, hc, hpos, Flow.andThen_ok]
  rfl

theorem emptyHeader_frame : OnlyBitsTabs s (emptyHeader s) := by
  have hframe := readBlockHeader_frame s
  rwa [readBlockHeader_of_drained h] at hframe

theorem emptyHeader_blockSize : (emptyHeader s).tabs.blockSize = 0#32 := by
  have hsize := readBlockHeader_blockSize s
  rwa [readBlockHeader_of_drained h, h.peekBits] at hsize

/-- The position list keeps what the C list left. -/
theorem emptyHeader_c : (emptyHeader s).tabs.cAvail = 510#11 ∧ readCell (emptyHeader s).tabs.cTable 0 = some 0#10 ∧
    lenAt (emptyHeader s).tabs.cLen 0 = 0#5 := by
  obtain ⟨-, hlen, htable, -, havail⟩ := readPtLen_keeps_c (.inr rfl) (emptyCList (emptyHeaderToC s))
  rw [readPtLen_of_drained h.emptyHeaderToC.emptyCList] at hlen htable havail
  obtain ⟨hcell, hzero⟩ := emptyCList_symbol h.emptyHeaderToC
  exact ⟨havail, (congrArg (readCell · 0) htable).trans hcell, (congrArg (lenAt · 0) hlen).trans hzero⟩

/-! ## The symbol after it (R311, R313) -/

theorem lookup_emptyHeader : lookup .cTable (emptyHeader s) = .ok 0#10 (emptyHeader s) := by
  refine lookup_direct (by decide) ?_
  rw [h.emptyHeader.peekBits]
  exact (emptyHeader_c h).2.1

/-- DECODE_C of zero bits: the header, the counter one below 0, and a symbol of no bits. -/
theorem decodeLiteralLength_of_drained (h0 : s.tabs.blockSize = 0#32) : decodeLiteralLength s =
    .ok 0#10 (setBlockSize (decrementBlock s.cfg.blockCntBits 0#32) (emptyHeader s)) := by
  rw [decodeLiteralLength_symbol (.inl ⟨h0, _, readBlockHeader_of_drained h⟩), emptyHeader_blockSize h,
    (emptyHeader_frame h).cfg, (decodeSymbol_counted _ _).1 _ (lookup_emptyHeader h)]
  have hlen : lenAt (emptyHeader s).tabs.cLen (0#10).toNat = 0#5 := (emptyHeader_c h).2.2
  rw [hlen]
  rfl

end Header

/-- A counter of 0 stands for 2^BLOCKCNT_BITS symbols (R313). -/
theorem decrementBlock_zero (w : CounterWidth) : (decrementBlock w 0#32).toNat = 2 ^ w.bits - 1 := by
  cases w <;> decide

/-- Settles O39: the header's three lists are read empty, and the symbol looked up after it is the one of the empty C list. -/
theorem zeroBitsAreAValidBlock : Obligations.ZeroBitsAreAValidBlock := by
  intro s hs hz
  have h : s.cleared.Drained := hz.drained
  have hheader := readBlockHeader_of_drained h
  have hwin : (emptyHeader s.cleared).win = s.win := (emptyHeader_frame h).win
  have hstatus := (emptyHeader_frame h).status
  have hbitpos : (emptyHeader s.cleared).bits.bitpos = s.bits.bitpos + 52 := emptyHeader_bitpos s.cleared
  refine ⟨⟨_, exec_readBlockHeader hs, ?_⟩, fun h0 => ⟨_, exec_decodeC hs (.inl h0), ?_⟩⟩
  · obtain ⟨hbuilt, hkind⟩ := readBlockHeader_ok_built hheader
    rw [hheader, finish_returning_ok]
    simp [emptyHeader_blockSize h, hbitpos, hbuilt, hkind, (emptyHeader_c h).1, emptyHeader_ptAvail, hstatus, hwin]
  · have hleft : (decrementBlock s.cleared.cfg.blockCntBits 0#32).toNat = 2 ^ s.cfg.blockCntBits.bits - 1 :=
      decrementBlock_zero _
    rw [decodeLiteralLength_of_drained h h0, Flow.andThen_ok, finish_value]
    simp [hleft, hbitpos, hstatus, hwin]

end Sys2Proof.Machine
end

section
/-! PROOFS. The state after reset and the host's duties (70_reset_and_hazards.md R500, R511 to R514): what the reset state shows
and that it meets the invariants, and the moves that break a duty, each refused under its own name. -/

namespace Sys2Proof.Machine

/-! ## The state after reset (R500) -/

/-- A reset of the reset state changes nothing. -/
theorem coldReset_reset : coldReset State.reset = State.reset := rfl

/-- Settles O54: the reset state is what a reset leaves of default parameters and empty buffers. -/
theorem resetMeetsTheInvariants : Obligations.ResetMeetsTheInvariants := by
  rw [Obligations.ResetMeetsTheInvariants, inv_iff_invariants, ← coldReset_reset]
  exact Invariants.coldReset (by decide) rfl rfl

/-- Every register but STATUS and ID reads 0 after reset (R33). -/
theorem readReg_reset {off : BitVec 8} (hstatus : off ≠ 0x04#8) (hid : off ≠ 0x3C#8) : readReg off State.reset = 0#32 := by
  unfold readReg
  split
  case h_1 => exact absurd rfl hstatus
  case h_15 => exact absurd rfl hid
  all_goals rfl

/-- Settles O11: STATUS shows NEED_BLOCK alone, ID is fixed, and everything else is 0 or unbuilt. -/
theorem resetStateValues : Obligations.ResetStateValues :=
  ⟨by decide, fun _ => readReg_reset, rfl, fun _ => ⟨rfl, rfl⟩, rfl, rfl, rfl, rfl⟩

/-! ## The host's duties (R511 to R514) -/

/-- A register access off the 4-byte grid (20_memory.md R106). -/
theorem hostMove_unaligned {off : BitVec 8} (h : off.toNat % 4 ≠ 0) (v : Word) (s : State) :
    hostMove (.write off v) s = .refused .unalignedRegisterAccess ∧
      hostMove (.read off) s = .refused .unalignedRegisterAccess := by
  have ha : ¬ aligned off = true := mt (aligned_iff off).mp h
  exact ⟨if_neg ha, if_neg ha⟩

section Duties
variable {s : State}

/-- While a command is in flight the two buffers are the core's (20_memory.md R115). -/
theorem bufferMoves_busy (h : s.status.running ≠ none) (a : Word) (b : Byte) :
    placeInput a b s = .refused .bufferAccessWhileBusy ∧ readInput a s = .refused .bufferAccessWhileBusy ∧
      writeOutput a b s = .refused .bufferAccessWhileBusy ∧ readOutput a s = .refused .bufferAccessWhileBusy := by
  have hb : busyBit s = true := Option.isSome_iff_ne_none.mpr h
  exact ⟨if_pos hb, if_pos hb, if_pos hb, if_pos hb⟩

/-- IN stands still during a decode (R513). -/
theorem placeInput_decoding (h : s.status.running = none) (hd : decodeActive s = true) (a : Word) (b : Byte) :
    placeInput a b s = .refused .inChangedDuringDecode := by
  simp [placeInput, busyBit_eq_false h, hd]

/-- During a decode OUT below L_OUT_CAP is the core's (R514). -/
theorem writeOutput_decoding (h : s.status.running = none) (hd : decodeActive s = true) {a : Word}
    (ha : a.toNat < s.lat.outCap.toNat) (b : Byte) : writeOutput a b s = .refused .outWrittenDuringDecode := by
  simp [writeOutput, busyBit_eq_false h, hd, BitVec.lt_def, ha]

end Duties

/-- Settles O8: alignment, BUSY and a decode in progress each refuse the moves they guard. -/
theorem hostDutyBreachesAreRefused : Obligations.HostDutyBreachesAreRefused := by
  intro s rest off v a b
  refine ⟨fun ha ho => ?_, fun hr ho => ?_, fun hr hready hfail hproduced => ⟨fun ho => ?_, fun ho hc => ?_⟩⟩
  · obtain ⟨hwrite, hread⟩ := hostMove_unaligned ha v { s with hostOps := rest }
    obtain ho | ho := ho <;> simp only [step, ho, hwrite, hread]
  · obtain ⟨hplace, hin, hout, hread⟩ := bufferMoves_busy (s := { s with hostOps := rest }) hr a b
    obtain ho | ho | ho | ho := ho <;> simp only [step, ho, hostMove, hplace, hin, hout, hread]
  all_goals
    have hr' : { s with hostOps := rest }.status.running = none := hr
    have hd : decodeActive { s with hostOps := rest } = true := (decodeActive_iff _).mpr ⟨hready, hfail, hproduced⟩
    simp only [step, ho, hostMove]
  · exact placeInput_decoding hr' hd a b
  · exact writeOutput_decoding hr' hd hc b

end Sys2Proof.Machine
end
